-- ==== Sys2Proof/Word.lean ====
section
/-! DEFINITION. The words of the Balain Q9: scalar words, bytes, register numbers (R2, R3, R59). -/

namespace Sys2Proof

/-- The contents of a scalar register, a virtual address, a program counter (R59, R99). -/
abbrev Word := BitVec 64

/-- A byte of memory (R3). -/
abbrev Byte := BitVec 8

/-- One 16-bit word of an instruction (R3, R292). -/
abbrev HWord := BitVec 16

/-- The number of a scalar register g0 to g15 (R59). -/
abbrev GNum := Fin 16

/-- The number of a vector register v0 to v31 (R59). -/
abbrev VNum := Fin 32

/-- The number of a mask register q0 to q7 (R59). -/
abbrev QNum := Fin 8

/-- The number of a shape register h0 to h3 (R59). -/
abbrev HNum := Fin 4

/-- The number of an accumulator handle a0 to a7 (R59). -/
abbrev ANum := Fin 8

end Sys2Proof
end

