-- ==== Sys2Proof/Syntax.lean ====
section
/-! DEFINITION. The syntax of the Balain Q9: one constructor of Instr per row of the opcode table, an instruction,
a host command or a device event, each one whole and indivisible step. -/

namespace Sys2Proof

/-- The element types of R301, in the order of their codes. -/
inductive EType where
  | i8 | i16 | i32 | i64 | n8 | n16 | n32 | n64 | i4 | f64
  | f32 | f16 | bf16 | e5m2 | e4m3 | e3m2 | e2m3 | e2m1 | x8
  deriving DecidableEq, Repr

/-- The fields of a SYNC prefix (R294): scope, order, the two trap bits and the keep bit. -/
structure SyncF where
  scope : Fin 8
  order : Fin 4
  trs : Bool
  trt : Bool
  kf : Bool
  deriving DecidableEq, Repr

/-- The SYNC prefix of an instruction, if it carries one. An all-zero prefix and no prefix differ in length, and for a
fence in scope (R140). -/
abbrev Sync := Option SyncF

/-- An immediate as encoded: `n` IMM prefixes and the value of all its bits, prefixes above base field (R298). -/
structure Imm where
  n : Nat
  raw : Nat
  deriving DecidableEq, Repr

/-- The mask fields of a vector instruction (R304). -/
structure VMask where
  m : Bool
  q : QNum
  deriving DecidableEq, Repr

/-- What comes from outside the device in a command or event (host memory failures, a peer's data, a boot image): plain
data that the model never chooses (log 1). -/
structure Feed where
  ok : Bool
  n : Nat
  bytes : List Byte
  parts : List (List Byte)
  deriving DecidableEq, Repr

/-- A stage of an access in flight: its translation at a station (R102), or the performing of one of its pieces at the
owner of the bytes (R142, R158). -/
inductive AccStage where
  | station
  | owner (piece : Nat)
  deriving DecidableEq, Repr

/-- A slot of a core, as a place for a thread (R223). -/
structure Place where
  core : Nat
  slot : Nat
  deriving DecidableEq, Repr

/-- The operating points of an island that firmware selects (R18). -/
inductive OpPoint where
  | f0 | f1 | f2
  deriving DecidableEq, Repr

/-- What an uncorrectable soft error strikes (R246). -/
inductive SoftTarget where
  | greg (u : Nat) (g : GNum)
  | vreg (u : Nat) (v : VNum)
  | word (loc : Nat)
  | accSlot (tile slot : Nat)
  | seal (pg : Nat)
  | tag (tenant obj tile : Nat)
  /-- The stored form of a page: its cipher, its tag, or a tree node on its path. -/
  | stored (pg : Nat)
  | other
  deriving DecidableEq, Repr

/-- The steps of the part: rows 0 to 166 of the opcode table are instructions, the rest host commands and device events. -/
inductive Instr where
  /-- NOP: `nop` (R375). -/
  | nop (y : Sync)
  /-- YIELD: `yield`, a pre-emption point (R426). -/
  | yield (y : Sync)
  /-- PAUSE: `pause` (R375). -/
  | pause (y : Sync)
  /-- ALIGN: `align`, a fetch hint (R312). -/
  | align (y : Sync)
  /-- LI: `li gD, e` (R357). -/
  | li (y : Sync) (d : GNum) (i : Imm)
  /-- LIH: `lih gD, e` (R358). -/
  | lih (y : Sync) (d : GNum) (i : Imm)
  /-- LEA: `lea gD, label` (R356). -/
  | lea (y : Sync) (d : GNum) (i : Imm)
  /-- MOV: `mov gD, gS` (R367). -/
  | mov (y : Sync) (d : GNum) (s : GNum)
  /-- ADD: `add gD, gS` (R311). -/
  | add (y : Sync) (d : GNum) (s : GNum)
  /-- ADD_REG3: `add gD, gS, gT` (R311). -/
  | addReg3 (y : Sync) (d : GNum) (s : GNum) (t : GNum)
  /-- ADD_IMM: `add gD, e` (R311). -/
  | addImm (y : Sync) (d : GNum) (i : Imm)
  /-- SUB: `sub gD, gS` (R394). -/
  | sub (y : Sync) (d : GNum) (s : GNum)
  /-- SUB_REG3: `sub gD, gS, gT` (R394). -/
  | subReg3 (y : Sync) (d : GNum) (s : GNum) (t : GNum)
  /-- SUB_IMM: `sub gD, e` (R394). -/
  | subImm (y : Sync) (d : GNum) (i : Imm)
  /-- MUL: `mul gD, gS` (R371). -/
  | mul (y : Sync) (d : GNum) (s : GNum)
  /-- MUL_REG3: `mul`, `mulh.i64`, `mulh.n64` with three operands, chosen by v (R371, R303). -/
  | mulReg3 (y : Sync) (v : Fin 3) (d : GNum) (s : GNum) (t : GNum)
  /-- MULH_I64: `mulh.i64 gD, gS` (R371). -/
  | mulhI64 (y : Sync) (d : GNum) (s : GNum)
  /-- MULH_N64: `mulh.n64 gD, gS` (R371). -/
  | mulhN64 (y : Sync) (d : GNum) (s : GNum)
  /-- DIV_I64: `div.i64 gD, gS` (R332). -/
  | divI64 (y : Sync) (d : GNum) (s : GNum)
  /-- DIV_N64: `div.n64 gD, gS` (R332). -/
  | divN64 (y : Sync) (d : GNum) (s : GNum)
  /-- REM_I64: `rem.i64 gD, gS` (R380). -/
  | remI64 (y : Sync) (d : GNum) (s : GNum)
  /-- REM_N64: `rem.n64 gD, gS` (R380). -/
  | remN64 (y : Sync) (d : GNum) (s : GNum)
  /-- DIV_REM_REG3: `div`, `rem` with three operands, chosen by v (R332). -/
  | divRemReg3 (y : Sync) (v : Fin 4) (d : GNum) (s : GNum) (t : GNum)
  /-- AND: `and gD, gS` (R316). -/
  | and (y : Sync) (d : GNum) (s : GNum)
  /-- ANDN: `andn gD, gS` (R316). -/
  | andn (y : Sync) (d : GNum) (s : GNum)
  /-- OR: `or gD, gS` (R376). -/
  | or (y : Sync) (d : GNum) (s : GNum)
  /-- XOR: `xor gD, gS` (R423). -/
  | xor (y : Sync) (d : GNum) (s : GNum)
  /-- LOGIC_REG3: `and`, `andn`, `or`, `xor` with three operands (R316). -/
  | logicReg3 (y : Sync) (v : Fin 4) (d : GNum) (s : GNum) (t : GNum)
  /-- LOGIC_IMM: `and`, `andn`, `or`, `xor` with an immediate (R316). -/
  | logicImm (y : Sync) (v : Fin 4) (d : GNum) (i : Imm)
  /-- SHIFT_REG: `shl`, `shr`, `sar`, `rot` by a register (R381). -/
  | shiftReg (y : Sync) (v : Fin 4) (d : GNum) (s : GNum)
  /-- SHIFT_REG3: Shifts with three operands (R381). -/
  | shiftReg3 (y : Sync) (v : Fin 4) (d : GNum) (s : GNum) (t : GNum)
  /-- SHIFT_IMM: Shifts by an immediate (R381). -/
  | shiftImm (y : Sync) (v : Fin 4) (d : GNum) (i : Imm)
  /-- CLZ: `clz gD, gS` (R326). -/
  | clz (y : Sync) (d : GNum) (s : GNum)
  /-- CTZ: `ctz gD, gS` (R326). -/
  | ctz (y : Sync) (d : GNum) (s : GNum)
  /-- POPC: `popc gD, gS` (R378). -/
  | popc (y : Sync) (d : GNum) (s : GNum)
  /-- MIN_MAX: `min`, `max` (R361). -/
  | minMax (y : Sync) (v : Fin 4) (d : GNum) (s : GNum)
  /-- MIN_MAX_REG3: `min`, `max` with three operands (R361). -/
  | minMaxReg3 (y : Sync) (v : Fin 4) (d : GNum) (s : GNum) (t : GNum)
  /-- SEXT: `sext.t gD, gS` (R386). -/
  | sext (y : Sync) (v : Fin 3) (d : GNum) (s : GNum)
  /-- ZEXT: `zext.t gD, gS` (R427). -/
  | zext (y : Sync) (v : Fin 3) (d : GNum) (s : GNum)
  /-- CMP: `cmp.cc gD, gA, gB` (R327). -/
  | cmp (y : Sync) (c : Fin 6) (d : GNum) (a : GNum) (b : GNum)
  /-- SEL: `sel gD, gS, gT` (R383). -/
  | sel (y : Sync) (d : GNum) (s : GNum) (t : GNum)
  /-- B_COND: `b.eq`, `b.ne`, `b.lt`, `b.ge` (R318). -/
  | bCond (y : Sync) (c : Fin 4) (a : GNum) (b : GNum) (i : Imm)
  /-- B_COND_UNSIGNED: `b.ltu`, `b.geu` (R318). -/
  | bCondUnsigned (y : Sync) (c : Fin 2) (a : GNum) (b : GNum) (i : Imm)
  /-- BZ: `bz gA, target` (R323). -/
  | bz (y : Sync) (a : GNum) (i : Imm)
  /-- LOOP: `loop gC, target` (R359). -/
  | loop (y : Sync) (c : GNum) (i : Imm)
  /-- J: `j target` (R350). -/
  | j (y : Sync) (i : Imm)
  /-- CALL: `call gL, target` (R324). -/
  | call (y : Sync) (l : GNum) (i : Imm)
  /-- JR: `jr gA` (R351). -/
  | jr (y : Sync) (a : GNum)
  /-- RET: `ret gA` (R351). -/
  | ret (y : Sync) (a : GNum)
  /-- EXIT: `exit` (R40, R335). -/
  | exit (y : Sync)
  /-- EXIT_1: `exit gA` (R335). -/
  | exit1 (y : Sync) (a : GNum)
  /-- EXIT_2: `exit gA, gB` (R335). -/
  | exit2 (y : Sync) (a : GNum) (b : GNum)
  /-- EXIT_3: `exit gA, gB, gC` (R335). -/
  | exit3 (y : Sync) (a : GNum) (b : GNum) (c : GNum)
  /-- EXIT_4: `exit gA, gB, gC, gD` (R335). -/
  | exit4 (y : Sync) (a : GNum) (b : GNum) (c : GNum) (e : GNum)
  /-- SVC: `svc e` (R395). -/
  | svc (y : Sync) (i : Imm)
  /-- LD: Sign-extending `ld` (R353). -/
  | ld (y : Sync) (z : Fin 4) (d : GNum) (b : GNum) (i : Imm)
  /-- LD_ZEXT: Zero-extending `ld` (R353). -/
  | ldZext (y : Sync) (z : Fin 4) (d : GNum) (b : GNum) (i : Imm)
  /-- ST: `st` (R392). -/
  | st (y : Sync) (z : Fin 4) (v : GNum) (b : GNum) (i : Imm)
  /-- LDX: Indexed sign-extending `ldx`, k is log2 s (R353). -/
  | ldx (y : Sync) (z : Fin 4) (k : Fin 4) (d : GNum) (b : GNum) (x : GNum)
  /-- LDX_ZEXT: Indexed zero-extending `ldx` (R353). -/
  | ldxZext (y : Sync) (z : Fin 4) (k : Fin 4) (d : GNum) (b : GNum) (x : GNum)
  /-- STX: Indexed `stx` (R392). -/
  | stx (y : Sync) (z : Fin 4) (k : Fin 4) (v : GNum) (b : GNum) (x : GNum)
  /-- LDS: `lds gD, [gB + e]` (R354). -/
  | lds (y : Sync) (d : GNum) (b : GNum) (i : Imm)
  /-- LDF: `ldf gD, [gB + e]` (R354). -/
  | ldf (y : Sync) (d : GNum) (b : GNum) (i : Imm)
  /-- FTAG: `ftag gD, [gB + e]` (R342). -/
  | ftag (y : Sync) (d : GNum) (b : GNum) (i : Imm)
  /-- STF: `stf [gB + e], gV` (R393). -/
  | stf (y : Sync) (v : GNum) (b : GNum) (i : Imm)
  /-- STE: `ste [gB + e]` (R393). -/
  | ste (y : Sync) (b : GNum) (i : Imm)
  /-- PF: `pf [gB + e]` (R377). -/
  | pf (y : Sync) (b : GNum) (i : Imm)
  /-- FENCE_ACQ: `fence.acq` (R337). -/
  | fenceAcq (y : Sync)
  /-- FENCE_REL: `fence.rel` (R337). -/
  | fenceRel (y : Sync)
  /-- FENCE_AR: `fence.ar` (R337). -/
  | fenceAr (y : Sync)
  /-- FENCE_SC: `fence.sc` (R337). -/
  | fenceSc (y : Sync)
  /-- IFENCE: `ifence` (R349). -/
  | ifence (y : Sync)
  /-- AMO: `amo.op [gA], gV` (R313). -/
  | amo (y : Sync) (w : Fin 2) (u : Bool) (o : Fin 8) (a : GNum) (v : GNum)
  /-- AMO_RESULT: `amo.op gD, [gA], gV` (R313). -/
  | amoResult (y : Sync) (w : Fin 2) (u : Bool) (o : Fin 8) (d : GNum) (a : GNum) (v : GNum)
  /-- CAS: 8-byte `cas` (R325). -/
  | cas (y : Sync) (d : GNum) (a : GNum) (n : GNum)
  /-- CAS_I32: 4-byte `cas` (R325). -/
  | casI32 (y : Sync) (d : GNum) (a : GNum) (n : GNum)
  /-- CASP: 16-byte `casp` (R325). -/
  | casp (y : Sync) (d : GNum) (a : GNum) (n : GNum)
  /-- VADD: `vadd.t vD, vA, vB` (R408). -/
  | vadd (y : Sync) (k : VMask) (t : EType) (d : VNum) (a : VNum) (b : VNum)
  /-- VSUB: `vsub.t vD, vA, vB` (R408). -/
  | vsub (y : Sync) (k : VMask) (t : EType) (d : VNum) (a : VNum) (b : VNum)
  /-- VMUL: `vmul.t vD, vA, vB` (R408). -/
  | vmul (y : Sync) (k : VMask) (t : EType) (d : VNum) (a : VNum) (b : VNum)
  /-- VFMA: `vfma.t vD, vA, vB` (R408). -/
  | vfma (y : Sync) (k : VMask) (t : EType) (d : VNum) (a : VNum) (b : VNum)
  /-- VDIV: `vdiv.t vD, vA, vB` (R408). -/
  | vdiv (y : Sync) (k : VMask) (t : EType) (d : VNum) (a : VNum) (b : VNum)
  /-- VSQRT: `vsqrt.t vD, vS` (R408). -/
  | vsqrt (y : Sync) (k : VMask) (t : EType) (d : VNum) (s : VNum)
  /-- VRCP: `vrcp.t vD, vS` (R408). -/
  | vrcp (y : Sync) (k : VMask) (t : EType) (d : VNum) (s : VNum)
  /-- VRSQ: `vrsq.t vD, vS` (R408). -/
  | vrsq (y : Sync) (k : VMask) (t : EType) (d : VNum) (s : VNum)
  /-- VEXP2: `vexp2.t vD, vS` (R408). -/
  | vexp2 (y : Sync) (k : VMask) (t : EType) (d : VNum) (s : VNum)
  /-- VLOG2: `vlog2.t vD, vS` (R408). -/
  | vlog2 (y : Sync) (k : VMask) (t : EType) (d : VNum) (s : VNum)
  /-- VMIN: `vmin.t vD, vA, vB` (R408). -/
  | vmin (y : Sync) (k : VMask) (t : EType) (d : VNum) (a : VNum) (b : VNum)
  /-- VMAX: `vmax.t vD, vA, vB` (R408). -/
  | vmax (y : Sync) (k : VMask) (t : EType) (d : VNum) (a : VNum) (b : VNum)
  /-- VABS: `vabs.t vD, vS` (R408). -/
  | vabs (y : Sync) (k : VMask) (t : EType) (d : VNum) (s : VNum)
  /-- VNEG: `vneg.t vD, vS` (R408). -/
  | vneg (y : Sync) (k : VMask) (t : EType) (d : VNum) (s : VNum)
  /-- VAND: `vand.t vD, vA, vB` (R408). -/
  | vand (y : Sync) (k : VMask) (t : EType) (d : VNum) (a : VNum) (b : VNum)
  /-- VOR: `vor.t vD, vA, vB` (R408). -/
  | vor (y : Sync) (k : VMask) (t : EType) (d : VNum) (a : VNum) (b : VNum)
  /-- VXOR: `vxor.t vD, vA, vB` (R408). -/
  | vxor (y : Sync) (k : VMask) (t : EType) (d : VNum) (a : VNum) (b : VNum)
  /-- VSHL: `vshl.t vD, vA, vB` (R408). -/
  | vshl (y : Sync) (k : VMask) (t : EType) (d : VNum) (a : VNum) (b : VNum)
  /-- VSHR: `vshr.t vD, vA, vB` (R408). -/
  | vshr (y : Sync) (k : VMask) (t : EType) (d : VNum) (a : VNum) (b : VNum)
  /-- VCMP: `vcmp.cc.t qD, vA, vB` (R411). -/
  | vcmp (y : Sync) (k : VMask) (t : EType) (c : Fin 6) (d : QNum) (a : VNum) (b : VNum)
  /-- VSEL: `vsel.t vD, vA, vB, qM` (R421). -/
  | vsel (y : Sync) (q : QNum) (t : EType) (d : VNum) (a : VNum) (b : VNum)
  /-- VRED: `vred.op.t gD, vS` (R420). -/
  | vred (y : Sync) (k : VMask) (t : EType) (o : Fin 6) (d : GNum) (s : VNum)
  /-- VDOT: `vdot.t vD, vA, vB` (R414). -/
  | vdot (y : Sync) (k : VMask) (t : EType) (d : VNum) (a : VNum) (b : VNum)
  /-- VCLASS: `vclass.t vD, vS` (R410). -/
  | vclass (y : Sync) (k : VMask) (t : EType) (d : VNum) (s : VNum)
  /-- VLD: `vld vD, [gB + e]` without a REG prefix, D below 16 (R417). -/
  | vld (y : Sync) (d : GNum) (b : GNum) (i : Imm)
  /-- VLD_TYPED: `vld.t` with a REG prefix (R417). -/
  | vldTyped (y : Sync) (k : VMask) (t : EType) (d : VNum) (b : GNum) (i : Imm)
  /-- VST: `vst [gB + e], vS` without a REG prefix, S below 16 (R417). -/
  | vst (y : Sync) (s : GNum) (b : GNum) (i : Imm)
  /-- VST_TYPED: `vst.t` with a REG prefix (R417). -/
  | vstTyped (y : Sync) (k : VMask) (t : EType) (s : VNum) (b : GNum) (i : Imm)
  /-- VGAT: `vgat.t vD, [gB + vI]` (R416). -/
  | vgat (y : Sync) (k : VMask) (t : EType) (d : VNum) (b : GNum) (x : VNum)
  /-- VSCT: `vsct.t [gB + vI], vS` (R416). -/
  | vsct (y : Sync) (k : VMask) (t : EType) (s : VNum) (b : GNum) (x : VNum)
  /-- VCVT: `vcvt.d.s vD, vS, p` (R412). -/
  | vcvt (y : Sync) (k : VMask) (dt : EType) (st : EType) (p : Fin 4) (d : VNum) (s : VNum)
  /-- VQUANT: `vquant.d.s vD, vS, gC, p`, wide type w: 0 f32, 1 f16, 2 bf16 (R413). -/
  | vquant (y : Sync) (dt : EType) (w : Fin 3) (p : Fin 4) (d : VNum) (s : VNum) (c : GNum)
  /-- VQUANT_GIVEN: `vquant.given.d.s` (R413). -/
  | vquantGiven (y : Sync) (dt : EType) (w : Fin 3) (p : Fin 4) (d : VNum) (s : VNum) (c : GNum)
  /-- VDEQ: `vdeq.d.s vD, vS, gC, p` (R413). -/
  | vdeq (y : Sync) (st : EType) (w : Fin 3) (p : Fin 4) (d : VNum) (s : VNum) (c : GNum)
  /-- VPERM: `vperm.t vD, vA, vI` (R419). -/
  | vperm (y : Sync) (k : VMask) (t : EType) (d : VNum) (a : VNum) (x : VNum)
  /-- VBCAST: `vbcast.t vD, gS` (R409). -/
  | vbcast (y : Sync) (k : VMask) (t : EType) (d : VNum) (s : GNum)
  /-- VINS: `vins.t vD, gS, e` (R415). -/
  | vins (y : Sync) (t : EType) (e : Fin 64) (d : VNum) (s : GNum)
  /-- VEXT: `vext.t gD, vS, e` (R415). -/
  | vext (y : Sync) (t : EType) (e : Fin 64) (d : GNum) (s : VNum)
  /-- QOP: `qop.op qD, qA, qB` (R379). -/
  | qop (y : Sync) (o : Fin 5) (d : QNum) (a : QNum) (b : QNum)
  /-- VMOVQ_TO_G: `vmovq gD, qS` (R418). -/
  | vmovqToG (y : Sync) (d : GNum) (s : QNum)
  /-- VMOVQ_TO_Q: `vmovq qD, gS` (R418). -/
  | vmovqToQ (y : Sync) (d : QNum) (s : GNum)
  /-- MMA: `mma.t a, A, B, K`, K = 64 (m + 1), ka and kb: the operand is a v run (R364). -/
  | mma (y : Sync) (h : ANum) (m : Fin 16) (t : EType) (ka : Bool) (kb : Bool) (a : VNum) (b : VNum)
  /-- MZERO: `mzero a` (R374). -/
  | mzero (y : Sync) (h : ANum)
  /-- MRD: `mrd vD, a, s` (R369). -/
  | mrd (y : Sync) (h : ANum) (d : VNum) (i : Imm)
  /-- MWR: `mwr a, vS, s` (R373). -/
  | mwr (y : Sync) (h : ANum) (s : VNum) (i : Imm)
  /-- MREL: `mrel a` (R370). -/
  | mrel (y : Sync) (h : ANum)
  /-- MWM: `mwm gD, a` (R372). -/
  | mwm (y : Sync) (h : ANum) (d : GNum)
  /-- XSHAPE_1D: `xshape.t hD, gE` (R176). -/
  | xshape1D (y : Sync) (t : EType) (d : HNum) (e : GNum)
  /-- XSHAPE: `xshape hD, gS, gT` (R176). -/
  | xshape (y : Sync) (d : HNum) (s : GNum) (t : GNum)
  /-- XFER: `xfer [gD], [gS], hN, gC` (R422). -/
  | xfer (y : Sync) (n : HNum) (d : GNum) (s : GNum) (c : GNum)
  /-- ARRIVE: `arrive [gC], n` (R317). -/
  | arrive (y : Sync) (c : GNum) (i : Imm)
  /-- ARRIVE_REG: `arrive [gC], gN` (R317). -/
  | arriveReg (y : Sync) (c : GNum) (n : GNum)
  /-- XWAIT: `xwait [gC]` (R425). -/
  | xwait (y : Sync) (c : GNum)
  /-- GDECL: `gdecl g, [gA]` (R343). -/
  | gdecl (y : Sync) (g : Fin 64) (a : GNum)
  /-- HPUB: `hpub g, gS` (R347). -/
  | hpub (y : Sync) (g : Fin 64) (s : GNum)
  /-- HDONE: `hdone g, gS` (R346). -/
  | hdone (y : Sync) (g : Fin 64) (s : GNum)
  /-- LDH: `ldh.t gD, g, [gC], gS` (R355). -/
  | ldh (y : Sync) (g : Fin 64) (t : EType) (d : GNum) (c : GNum) (s : GNum)
  /-- TAGPUB: `tagpub gD, gK, gG` (R398). -/
  | tagpub (y : Sync) (d : GNum) (k : GNum) (g : GNum)
  /-- TAGPUB_DROP: `tagpub.drop gD, gK` (R398). -/
  | tagpubDrop (y : Sync) (d : GNum) (k : GNum)
  /-- TAGWAIT: `tagwait gK, gG` (R401). -/
  | tagwait (y : Sync) (k : GNum) (g : GNum)
  /-- TAGWAIT_C: `tagwait.c gK, gG` (R401). -/
  | tagwaitC (y : Sync) (k : GNum) (g : GNum)
  /-- TAGQ: `tagq gD, gK` (R400). -/
  | tagq (y : Sync) (d : GNum) (k : GNum)
  /-- FORK: `fork gD, gE, target, gS, n` (R339). -/
  | fork (y : Sync) (n : Fin 17) (d : GNum) (e : GNum) (i : Imm) (s : GNum)
  /-- SEND: `send gE, gH, gS, n` (R384). -/
  | send (y : Sync) (n : Fin 9) (e : GNum) (h : GNum) (s : GNum)
  /-- HRET: `hret` (R348). -/
  | hret (y : Sync)
  /-- MIGRATE: `migrate gA` (R362). -/
  | migrate (y : Sync) (a : GNum)
  /-- ENDP: `endp gD, gA` (R333). -/
  | endp (y : Sync) (d : GNum) (a : GNum)
  /-- BAR: `bar L` (R319). -/
  | bar (y : Sync) (l : Fin 8)
  /-- BAR_OP: `bar.op.t gD, L, gV`, o from 1 to 7 (R319). -/
  | barOp (y : Sync) (o : Fin 8) (l : Fin 8) (d : GNum) (v : GNum)
  /-- BAR_A: `bar.a L` (R319). -/
  | barA (y : Sync) (l : Fin 8)
  /-- BAR_A_OP: `bar.a.op.t gD, L, gV` (R319). -/
  | barAOp (y : Sync) (o : Fin 8) (l : Fin 8) (d : GNum) (v : GNum)
  /-- BARW: `barw L` (R321). -/
  | barw (y : Sync) (l : Fin 8)
  /-- MAP: `map gD, gS` (R360). -/
  | map (y : Sync) (d : GNum) (s : GNum)
  /-- GRANT: `grant gD, gS` (R345). -/
  | grant (y : Sync) (d : GNum) (s : GNum)
  /-- UNMAP: `unmap gD, gS` (R404). -/
  | unmap (y : Sync) (d : GNum) (s : GNum)
  /-- UNMAP_SELF: `unmap.self gD, gS` (R404). -/
  | unmapSelf (y : Sync) (d : GNum) (s : GNum)
  /-- MPROBE: `mprobe gD, gA` (R368). -/
  | mprobe (y : Sync) (d : GNum) (a : GNum)
  /-- SPNEW: `spnew gD` (R390). -/
  | spnew (y : Sync) (d : GNum)
  /-- SPDEL: `spdel gD, gS` (R388). -/
  | spdel (y : Sync) (d : GNum) (s : GNum)
  /-- SYSR: `sysr gD, name`, n the selector of R70 (R396). -/
  | sysr (y : Sync) (n : Fin 256) (d : GNum)
  /-- SYSW: `sysw name, gS` (R397). -/
  | sysw (y : Sync) (n : Fin 256) (s : GNum)
  /-- TRET: `tret` (R403). -/
  | tret (y : Sync)
  /-- BRK: `brk` (R322). -/
  | brk (y : Sync)
  /-- SLEEP: `sleep gS` (R387). -/
  | sleep (y : Sync) (s : GNum)
  /-- CTRR: `ctrr gD` (R328). -/
  | ctrr (y : Sync) (d : GNum)
  /-- ERRQ: `errq gD` (R334). -/
  | errq (y : Sync) (d : GNum)
  /-- FLAGS: `flags gD, gS` (R338). -/
  | flags (y : Sync) (d : GNum) (s : GNum)
  /-- KEYROLL_INSTRUCTION: `keyroll gD, gS` (R135). -/
  | keyrollInstruction (y : Sync) (d : GNum) (s : GNum)
  /-- CTXSV: `ctxsv gS` (R330). -/
  | ctxsv (y : Sync) (s : GNum)
  /-- CTXLD: `ctxld gS` (R331). -/
  | ctxld (y : Sync) (s : GNum)
  /-- CTX_CREATE: The CTX_CREATE command of host function fn; the feed gives the granted extent (R428). -/
  | ctxCreate (fn : Nat) (cid : BitVec 16) (f : Feed)
  /-- CTX_DESTROY: The CTX_DESTROY command (R256). -/
  | ctxDestroy (fn : Nat) (cid : BitVec 16)
  /-- QUEUE_OPEN: The QUEUE_OPEN command (R217, R218). -/
  | queueOpen (fn : Nat) (cid : BitVec 16)
  /-- QUEUE_CLOSE: The QUEUE_CLOSE command (R256). -/
  | queueClose (fn : Nat) (cid : BitVec 16)
  /-- HALT: The HALT command (R256). -/
  | halt (fn : Nat) (cid : BitVec 16)
  /-- KILL: The KILL command (R256). -/
  | kill (fn : Nat) (cid : BitVec 16)
  /-- RESUME: The RESUME command (R256). -/
  | resume (fn : Nat) (cid : BitVec 16)
  /-- TIMERS: The TIMERS command (R256). -/
  | timers (fn : Nat) (cid : BitVec 16)
  /-- KEYROLL: The KEYROLL command (R256). -/
  | keyroll (fn : Nat) (cid : BitVec 16)
  /-- JOB_OPEN: The JOB_OPEN command (R261). -/
  | jobOpen (fn : Nat) (cid : BitVec 16)
  /-- JOB_CLOSE: The JOB_CLOSE command (R261). -/
  | jobClose (fn : Nat) (cid : BitVec 16)
  /-- REPORT: The REPORT command (R268). -/
  | report (fn : Nat) (cid : BitVec 16)
  /-- COMPOSITION: The COMPOSITION command (R264). -/
  | composition (fn : Nat) (cid : BitVec 16)
  /-- QUOTE: The QUOTE command (R270). -/
  | quote (fn : Nat) (cid : BitVec 16)
  /-- CERT: The CERT command (R267). -/
  | cert (fn : Nat) (cid : BitVec 16)
  /-- ERRQ_ACK: The ERRQ_ACK command (R244). -/
  | errqAck (fn : Nat) (cid : BitVec 16)
  /-- MEM_COPY_TO_DEVICE: The MEM_COPY command, host to device; the feed says where a DMA read fails (R256, R429). -/
  | memCopyToDevice (fn : Nat) (cid : BitVec 16) (f : Feed)
  /-- MEM_COPY_TO_HOST: The MEM_COPY command, device to host (R256, R429). -/
  | memCopyToHost (fn : Nat) (cid : BitVec 16) (f : Feed)
  /-- PART_DEFINE: The PART_DEFINE command (R258). -/
  | partDefine (fn : Nat) (cid : BitVec 16)
  /-- PEER_READ: The PEER_READ command (R252). -/
  | peerRead (fn : Nat) (cid : BitVec 16)
  /-- FW_LOAD: The FW_LOAD command; the feed gives the image and its check (R271). -/
  | fwLoad (fn : Nat) (cid : BitVec 16) (f : Feed)
  /-- ROOT_SPACE_MAP: The ROOT_SPACE command running `map` (R256, R430). -/
  | rootSpaceMap (fn : Nat) (cid : BitVec 16)
  /-- ROOT_SPACE_GRANT: The ROOT_SPACE command running `grant`. -/
  | rootSpaceGrant (fn : Nat) (cid : BitVec 16)
  /-- ROOT_SPACE_UNMAP: The ROOT_SPACE command running `unmap`. -/
  | rootSpaceUnmap (fn : Nat) (cid : BitVec 16)
  /-- ROOT_SPACE_UNMAP_SELF: The ROOT_SPACE command running `unmap.self`. -/
  | rootSpaceUnmapSelf (fn : Nat) (cid : BitVec 16)
  /-- ROOT_SPACE_SPNEW: The ROOT_SPACE command running `spnew`. -/
  | rootSpaceSpnew (fn : Nat) (cid : BitVec 16)
  /-- ROOT_SPACE_SPDEL: The ROOT_SPACE command running `spdel`. -/
  | rootSpaceSpdel (fn : Nat) (cid : BitVec 16)
  /-- ROOT_SPACE_MPROBE: The ROOT_SPACE command running `mprobe`. -/
  | rootSpaceMprobe (fn : Nat) (cid : BitVec 16)
  /-- BAD_CMD: A write of cmdgo with a code that names no command (R256). -/
  | badCmd (fn : Nat) (code : BitVec 8) (cid : BitVec 16)
  /-- CMDGO_WHILE_BUSY: A write of cmdgo while a command runs (R254). -/
  | cmdgoWhileBusy (fn : Nat)
  /-- COMMAND_END: The running command of function fn ends (R255). -/
  | commandEnd (fn : Nat)
  /-- CMDST_LOST_CLEAR: A write of cmdst; bit 16 is W1C (R254). -/
  | cmdstLostClear (fn : Nat) (w : Word)
  /-- FLTQ_READ: A host read of fltq (R255). -/
  | fltqRead (fn : Nat)
  /-- TAIL_WRITE: A host write of the tail register of queue j of fn (R218). -/
  | tailWrite (fn : Nat) (j : Nat) (w : Word)
  /-- REGISTER_WRITE: A host write of a BAR0 register with no behaviour of its own (R6, R254). -/
  | registerWrite (fn : Nat) (off : Nat) (w : Word)
  /-- RECORD_TAKE: The dispatcher takes the next record of queue q (R219). -/
  | recordTake (q : Nat)
  /-- EXIT_RESUME: The Parked agent u goes on enqueueing (R41). -/
  | exitResume (u : Nat)
  /-- OVERFLOW_MOVE: The dispatcher moves the oldest overflow-ring entry of the context (R222). -/
  | overflowMove (cid : Nat)
  /-- DEVICE_QUEUE_TAKE: The dispatcher takes a successor from the device queue (R42). -/
  | deviceQueueTake (cid : Nat)
  /-- GANG_PLACE: The dispatcher places a gang on the named slots (R223). -/
  | gangPlace (l : Nat) (gang : Nat) (ps : List Place)
  /-- GANG_RESERVE: The dispatcher reserves islands for a gang (R224). -/
  | gangReserve (l : Nat) (gang : Nat) (is : List Nat)
  /-- BLOCK_DISPATCH: The held blocks of a gang are decided (R211 to R213). -/
  | blockDispatch (l : Nat) (gang : Nat)
  /-- LAUNCH_COMPLETE: The launch completes and its record is written (R37). -/
  | launchComplete (l : Nat)
  /-- FORK_COMPLETE: A fork reaches its target core (R340). -/
  | forkComplete (id : Nat)
  /-- MESSAGE_ARRIVAL: A message reaches its destination core (R44, R385). -/
  | messageArrival (id : Nat)
  /-- INBOX_NACK_RETRY: A refused message is tried again (R48). -/
  | inboxNackRetry (id : Nat)
  /-- INBOX_TIMEOUT: A message refused for 2^16 cycles is reported (R48). -/
  | inboxTimeout (id : Nat)
  /-- HANDLER_START: Core c starts its oldest message (R46). -/
  | handlerStart (c : Nat)
  /-- MIGRATION_ACCEPT: The target of agent u's migration accepts it in a slot (R50). -/
  | migrationAccept (u : Nat) (slot : Fin 8)
  /-- REGISTER_FILL: A result returns and fills its register (R65). -/
  | registerFill (id : Nat)
  /-- ACCESS_AT_OWNER: A stage of an access at its station or at its owner (R102, R158). -/
  | accessAtOwner (id : Nat) (g : AccStage)
  /-- REMOTE_ACK: A peer answers a sent access; the feed is the data it returns (R162). -/
  | remoteAck (id : Nat) (f : Feed)
  /-- REMOTE_TIMEOUT: An access refused for 2^16 cycles is reported (R164). -/
  | remoteTimeout (id : Nat)
  /-- PEER_LOST: A peer silent for 2^16 cycles is marked lost (R164). -/
  | peerLost (dev : Nat)
  /-- FAULT_RUN_START: Core c starts its oldest fault delivery (R238). -/
  | faultRunStart (c : Nat)
  /-- FAULT_INTERRUPT: A pending fault interrupt of a context is delivered (R238). -/
  | faultInterrupt (cid : Nat)
  /-- SLICE_END: The slice of the running context of sliced partition p ends (R259). -/
  | sliceEnd (p : Nat)
  /-- WDOG_EXPIRY: A launch has run for wdog cycles (R229). -/
  | wdogExpiry (l : Nat)
  /-- HANG_EXPIRY: No thread of the context retired for hang cycles (R229). -/
  | hangExpiry (cid : Nat)
  /-- ALL_STOPPED: Every thread stopped before grace (R230). -/
  | allStopped (cid : Nat)
  /-- GRACE_EXPIRY: The grace timer expires (R230). -/
  | graceExpiry (cid : Nat)
  /-- SAVE_WRITTEN: The save extent is written and the cores are freed (R233). -/
  | saveWritten (cid : Nat)
  /-- KILL_EXPIRY: The kill timer expires (R230, R231). -/
  | killExpiry (cid : Nat)
  /-- RESTORE: A halted context is restored; the places of its frames (R234). -/
  | restore (cid : Nat) (ps : List Place)
  /-- NEXT_SLICE_RESTORE: The next context of the sliced partition is restored (R259). -/
  | nextSliceRestore (p : Nat) (ps : List Place)
  /-- LOCAL_CUT: A station installs the filter entry of withdrawal w (R113). -/
  | localCut (w : Nat) (st : Nat)
  /-- REMOTE_CUT: A cut message of peer dev reaches this device, naming nodes (R113). -/
  | remoteCut (dev : Nat) (ns : List Nat)
  /-- SWEEP: The Weir sweeps the next node of withdrawal w (R116). -/
  | sweep (w : Nat)
  /-- CUT_ACK: A remote acknowledgement of withdrawal w arrives (R116). -/
  | cutAck (w : Nat) (dev : Nat)
  /-- CUT_ACK_TIMEOUT: A remote device silent for 2^16 cycles is treated as lost (R119). -/
  | cutAckTimeout (w : Nat) (dev : Nat)
  /-- WITHDRAWAL_COMPLETE: Withdrawal w completes (R117). -/
  | withdrawalComplete (w : Nat)
  /-- SEAL_WRITEBACK: A dirty seal is written back (R128). -/
  | sealWriteback (pg : Nat)
  /-- ROLL_COMPLETE: The key roll of tenant t finishes (R135). -/
  | rollComplete (t : Nat)
  /-- XFER_WORD_LAND: The destination word of transfer x that begins at element e lands (R179). -/
  | xferWordLand (x : Nat) (e : Nat)
  /-- ARBITER_GRANT: The arbiter of a tile grants the array (R186). -/
  | arbiterGrant (tile : Nat)
  /-- K_BLOCK_RETIRE: A k-block of the head command of a core position retires (R187). -/
  | kBlockRetire (tile : Nat) (p : Fin 8)
  /-- MATRIX_COMMAND_RETIRE: An mzero, mwr or mrel command retires (R193). -/
  | matrixCommandRetire (tile : Nat) (p : Fin 8)
  /-- ROW_WRITE_OUT: A row of a slot is written out (R192). -/
  | rowWriteOut (tile : Nat) (slot : Fin 32)
  /-- ACC_EXHAUSTED: The slot wait of agent u reaches 2^20 cycles (R191). -/
  | accExhausted (u : Nat)
  /-- HALO_PIECE_WRITE: Publication x writes its cells into piece f of partition q (R201). -/
  | haloPieceWrite (x : Nat) (q : Nat) (f : Nat)
  /-- HPUB_TIMEOUT: A wait of agent u's hpub reaches stepwin (R201). -/
  | hpubTimeout (u : Nat)
  /-- LDH_TIMEOUT: Agent u's ldh stalled for stepwin cycles (R202). -/
  | ldhTimeout (u : Nat)
  /-- GHOST_WRITE_TIMEOUT: A ghost write to an undeclared grid is reported after 2^16 cycles (R198). -/
  | ghostWriteTimeout (x : Nat) (q : Nat) (f : Nat)
  /-- TAG_LOST: The target device of agent u's tagpub did not answer (R207). -/
  | tagLost (u : Nat)
  /-- OPERATING_POINT_CHANGE: Firmware moves an island (R19). -/
  | operatingPointChange (isl : Nat) (pt : OpPoint)
  /-- ISLAND_GATE: Firmware gates an island (R20). -/
  | islandGate (isl : Nat)
  /-- ISLAND_POWER_UP: A gated island powers up (R20). -/
  | islandPowerUp (isl : Nat)
  /-- CHANNEL_SPARE: A channel is switched to a spare (R23). -/
  | channelSpare (ch : Nat)
  /-- CHANNEL_FAILURE: A channel fails; the words that could not be recovered (R23). -/
  | channelFailure (ch : Nat) (ws : List Nat)
  /-- SOFT_ERROR: An uncorrectable soft error (R246). -/
  | softError (x : SoftTarget)
  /-- PLANNED_RETIREMENT: A degrading core is retired (R247). -/
  | plannedRetirement (c : Nat) (ps : List Place)
  /-- FAILED_RETIREMENT: A failed core is retired (R248). -/
  | failedRetirement (c : Nat)
  /-- FLIT_REPLAY: A flit of a port is replayed (R250). -/
  | flitReplay (port : Nat)
  /-- HEARTBEAT: An idle lane sends a heartbeat (R250). -/
  | heartbeat (port : Nat)
  /-- PORT_LOST: A port is lost (R251). -/
  | portLost (port : Nat)
  /-- JOIN_HANDSHAKE: A peer's join handshake; the feed is what it sent (R253). -/
  | joinHandshake (dev : Nat) (f : Feed)
  /-- DEVICE_RESET: A device reset and its boot; the feed is the images (R270). -/
  | deviceReset (f : Feed)
  /-- SLEEP_WAKE: A sleeping agent's wake time is reached (R387). -/
  | sleepWake (u : Nat)
  /-- OWN_ACCORD_FILL: A station fills a seal of its own accord (R129). -/
  | ownAccordFill (pg : Nat)
  /-- NACK_RETRY: A refused access is tried again (R164). -/
  | nackRetry (id : Nat)
  /-- LEVEL_STATE_CHANGE: The receiver of a lane sets its level by its fill in eighths (R250). -/
  | levelStateChange (port : Nat) (fill : Fin 9)
  deriving DecidableEq, Repr

end Sys2Proof
end

