-- ==== Sys2Proof/Decode.lean ====
section
/-! DEFINITION. Instruction words: the encoding table (R292 to R308, R183, R194, R216, R111), the decoder, total on any
words and refusing by name, and after it the encoder. -/

namespace Sys2Proof

/-- The code of an element type (R301). -/
def EType.code : EType → Nat
  | .i8 => 0 | .i16 => 1 | .i32 => 2 | .i64 => 3 | .n8 => 4 | .n16 => 5 | .n32 => 6 | .n64 => 7 | .i4 => 8 | .f64 => 9
  | .f32 => 10 | .f16 => 11 | .bf16 => 12 | .e5m2 => 13 | .e4m3 => 14 | .e3m2 => 15 | .e2m3 => 16 | .e2m1 => 17 | .x8 => 18

/-- The element type of a code; codes 0x13 to 0x1F are reserved (R301). -/
def EType.ofCode : Nat → Option EType
  | 0 => some .i8 | 1 => some .i16 | 2 => some .i32 | 3 => some .i64 | 4 => some .n8 | 5 => some .n16 | 6 => some .n32
  | 7 => some .n64 | 8 => some .i4 | 9 => some .f64 | 10 => some .f32 | 11 => some .f16 | 12 => some .bf16
  | 13 => some .e5m2 | 14 => some .e4m3 | 15 => some .e3m2 | 16 => some .e2m3 | 17 => some .e2m1 | 18 => some .x8
  | _ => none

/-- The bits of an element in memory or a register (R301, R80). -/
def EType.bits : EType → Nat
  | .i8 | .n8 | .e5m2 | .e4m3 | .e3m2 | .e2m3 | .x8 => 8
  | .i16 | .n16 | .f16 | .bf16 => 16
  | .i32 | .n32 | .f32 => 32
  | .i64 | .n64 | .f64 => 64
  | .i4 | .e2m1 => 4

/-- f64, f32, f16 and bf16: the types "F" of R408. -/
def EType.isF : EType → Bool
  | .f64 | .f32 | .f16 | .bf16 => true
  | _ => false

/-- i8 to i64 and n8 to n64: the types "I" of R408. -/
def EType.isI : EType → Bool
  | .i8 | .i16 | .i32 | .i64 | .n8 | .n16 | .n32 | .n64 => true
  | _ => false

/-- The signed integer types. -/
def EType.isSigned : EType → Bool
  | .i8 | .i16 | .i32 | .i64 | .i4 => true
  | _ => false

/-- The narrow floating types of R84. -/
def EType.isNarrow : EType → Bool
  | .e5m2 | .e4m3 | .e3m2 | .e2m3 | .e2m1 => true
  | _ => false

/-- Every floating-point type of R79. -/
def EType.isFloat (t : EType) : Bool := t.isF || t.isNarrow

/-- The REG prefix, field by field (R294). -/
structure RegW where
  rt : Nat
  rdh : Bool
  rsh : Bool
  rth : Bool
  type : Nat
  deriving DecidableEq, Repr

/-- A prefix chain and its base word, field by field (R293 to R295). `sync` holds the reserved bits beside the fields. -/
structure Chain where
  page : Option (Nat × Nat)
  reg : Option RegW
  sync : Option (SyncF × Nat)
  imms : List Nat
  op : Nat
  rd : Nat
  rs : Nat
  v : Nat
  deriving DecidableEq, Repr

/-- Which order and scope a SYNC prefix may name (the classes of R140, R300). -/
inductive SyncMode where
  | none | load | store | atomic | scope
  deriving DecidableEq, Repr

/-- What the SYNC prefix of an instruction may set (R300). -/
structure SyncRule where
  mode : SyncMode
  trs : Bool
  trt : Bool
  kf : Bool
  deriving DecidableEq, Repr

/-- How an instruction uses its immediate: its IMM prefix limits and whether bits [5:2] take part (R298, R303). -/
structure ImmUse where
  imm : Imm
  lo : Nat
  hi : Nat
  base : Bool
  deriving DecidableEq, Repr

/-- One row of the opcode maps, filled in with an instruction's operands. `ok` is the row's limits on values. -/
structure Row where
  page : Option (Nat × Nat)
  reg : Option RegW
  sync : Sync
  rule : SyncRule
  imm : Option ImmUse
  op : Nat
  rd : Nat
  rs : Nat
  v : Nat
  ok : Bool
  deriving DecidableEq, Repr

/-- A page-0 row without REG or IMM prefix. -/
def row0 (y : Sync) (r : SyncRule) (op rd rs v : Nat) : Row :=
  { page := none, reg := none, sync := y, rule := r, imm := none, op := op, rd := rd, rs := rs, v := v, ok := true }

/-- A row of another page. -/
def rowP (y : Sync) (r : SyncRule) (page m op rd rs v : Nat) : Row :=
  { row0 y r op rd rs v with page := some (page, m) }

/-- A row whose immediate takes the base field (rs is its low 4 bits). -/
def Row.withBaseImm (w : Row) (i : Imm) (lo hi : Nat) : Row :=
  { w with imm := some { imm := i, lo := lo, hi := hi, base := true }, rs := i.raw % 16 }

/-- A row whose immediate is in the IMM prefixes alone. -/
def Row.withImm (w : Row) (i : Imm) (lo hi : Nat) : Row :=
  { w with imm := some { imm := i, lo := lo, hi := hi, base := false } }

/-- The REG prefix of a scalar third register. -/
def regT (rt type : Nat) : RegW := { rt := rt, rdh := false, rsh := false, rth := false, type := type }

/-- A row with a REG prefix. -/
def Row.withReg (w : Row) (rg : RegW) : Row := { w with reg := some rg }

/-- A row with a limit on its values. -/
def Row.limit (w : Row) (b : Bool) : Row := { w with ok := w.ok && b }

/-- The REG prefix of vector registers d, s, t (R299). -/
def regV (d s t type : Nat) : RegW :=
  { rt := t % 16, rdh := decide (16 ≤ d), rsh := decide (16 ≤ s), rth := decide (16 ≤ t), type := type }

/-- The mask field of a vector instruction (R304). -/
def VMask.code (k : VMask) : Nat := (if k.m then 8 else 0) + k.q.val

/-- `q` must be 0 when `m` is 0 (R304). -/
def VMask.ok (k : VMask) : Bool := k.m || k.q.val == 0

/-- No SYNC field may be set. -/
def syNone : SyncRule := { mode := .none, trs := false, trt := false, kf := false }
/-- Only `trs`. -/
def syS : SyncRule := { syNone with trs := true }
/-- `trs` and `trt`. -/
def syST : SyncRule := { syS with trt := true }
/-- `trs` and `kf`. -/
def sySK : SyncRule := { syS with kf := true }
/-- All three bits. -/
def sySTK : SyncRule := { syST with kf := true }
/-- Only `kf`. -/
def syK : SyncRule := { syNone with kf := true }
/-- Only a scope. -/
def syScope : SyncRule := { syNone with mode := .scope }

/-- A SYNC prefix sets only what its instruction's rule accepts (R140, R300). -/
def SyncRule.accepts (r : SyncRule) (f : SyncF) : Bool :=
  (match r.mode with
    | .none => f.scope.val == 0 && f.order.val == 0
    | .load => f.order.val == 0 || f.order.val == 1
    | .store => f.order.val == 0 || f.order.val == 2
    | .atomic => true
    | .scope => f.order.val == 0)
  && (r.trs || !f.trs) && (r.trt || !f.trt) && (r.kf || !f.kf)

/-- A page-1 row (R304): PAGE 0xE1 with `sub` and mask, REG with the type and the high bits. -/
def rowV1 (y : Sync) (r : SyncRule) (k : VMask) (sub op d s t : Nat) (ty : EType) : Row :=
  ((rowP y r 1 (sub * 16 + k.code) op (d % 16) (s % 16) 0).withReg (regV d s t ty.code)).limit k.ok

/-- A page-2 row with a REG prefix (R305). -/
def rowV2 (y : Sync) (r : SyncRule) (m op d s t v : Nat) (type : Nat) : Row :=
  (rowP y r 2 m op (d % 16) (s % 16) v).withReg (regV d s t type)

/-- The wide type of `mod` [5:4] of `vquant` and `vdeq` (R413). -/
def wideType (w : Fin 3) : EType := if w.val = 0 then .f32 else if w.val = 1 then .f16 else .bf16

/-- Whether R91 gives a rule for converting type s to type d (R412). x8 and i4 are no arithmetic types. -/
def convertible (d s : EType) : Bool :=
  d != .x8 && d != .i4 && s != .x8 && s != .i4

/-- How many positions p a conversion between these widths has (R412). -/
def cvtPositions (d s : EType) : Nat :=
  let r := max d.bits s.bits / min d.bits s.bits
  if r ≤ 4 then r else 4

/-- How many block positions p `vquant` and `vdeq` have for a narrow type (R413). -/
def blockPositions (t : EType) : Nat := if t = .e2m1 then 4 else 2

/-- The op pairings of `vred` (R420). -/
def vredOk (o : Fin 6) (t : EType) : Bool := t.isI || (t.isF && decide (o.val ≤ 2))

/-- The source types of `vdot` (R414). -/
def vdotOk : EType → Bool
  | .i8 | .n8 | .i16 | .n16 | .f16 | .bf16 | .e5m2 | .e4m3 => true
  | _ => false

/-- The types of A that R94 admits in `mma`. -/
def mmaType : EType → Bool
  | .e5m2 | .e4m3 | .e3m2 | .e2m3 | .e2m1 | .i8 | .i4 | .bf16 | .f16 => true
  | _ => false

/-- The types that a mask or a lane move may name: 8 to 64 bits (R409, R415, R419, R421). -/
def EType.isByteWise (t : EType) : Bool := decide (8 ≤ t.bits)

/-- The selectors of R70. -/
def sysSelector (n : Nat) : Bool :=
  [0x00, 0x01, 0x02, 0x03, 0x04, 0x08, 0x09, 0x0A, 0x10, 0x11, 0x12, 0x13, 0x18, 0x20, 0x21, 0x22].contains n

/-- The registers of R70 that some level may write. -/
def sysWritable (n : Nat) : Bool :=
  [0x00, 0x01, 0x02, 0x03, 0x04, 0x10, 0x11, 0x12, 0x13, 0x18, 0x20].contains n

/-- The registers of R70 that thread level may read but not write, and handler level may. -/
def sysHandlerOnly (n : Nat) : Bool := [0x11, 0x12, 0x13, 0x18].contains n

/-- A branch row: displacement in IMM prefixes with the base field. -/
def rowBr (y : Sync) (r : SyncRule) (op rd : Nat) (i : Imm) : Row := (row0 y r op rd 0 0).withBaseImm i 0 4

/-- A load or store row with an offset in IMM prefixes. -/
def rowMem (y : Sync) (r : SyncRule) (op rd rs v : Nat) (i : Imm) : Row := (row0 y r op rd rs v).withImm i 0 4

/-- The SYNC rules of the memory classes (R140). -/
def syLoad (t : Bool) : SyncRule := { mode := .load, trs := true, trt := t, kf := true }
/-- Ordinary stores. -/
def syStore (t : Bool) : SyncRule := { mode := .store, trs := true, trt := t, kf := false }
/-- Atomics; `kf` only where a result is returned. -/
def syAtomic (k : Bool) : SyncRule := { mode := .atomic, trs := true, trt := true, kf := k }


/-- An `amo` form that R303 lists: the unsigned bit only with min or max, `add.f32` only with 4 bytes. -/
def amoOk (w : Fin 2) (u : Bool) (o : Fin 8) : Bool :=
  (!u || o.val == 4 || o.val == 5) && (o.val != 7 || w.val == 1)

/-- The REG prefix that a v register above 15 in rd needs (R299). -/
def Row.highReg (w : Row) (v : VNum) : Row :=
  if 16 ≤ v.val then w.withReg { rt := 0, rdh := true, rsh := false, rth := false, type := 0 } else w

/-- The encoding of every instruction: its row of the opcode maps (R303 to R308) with its operands filled in. Host commands
and device events have no words. `vld.t` and `vst.t` take every type code (DEDUCED, log 67); `mrd` and `ldh` take `kf` (R300, R355, R369;
DEDUCED, log 70). -/
def rowOf : Instr → Option Row
  | .nop y => some (row0 y syNone 0x00 0 0 0)
  | .yield y => some (row0 y syNone 0x00 0 0 1)
  | .pause y => some (row0 y syNone 0x00 0 0 2)
  | .align y => some (row0 y syNone 0x00 0 0 3)
  | .li y d i => some ((row0 y syNone 0x01 d 0 0).withBaseImm i 0 4)
  | .lih y d i => some (((row0 y syS 0x02 d 0 0).withBaseImm i 0 3).limit (decide (i.raw < 2 ^ 32)))
  | .lea y d i => some ((row0 y syNone 0x03 d 0 0).withBaseImm i 0 4)
  | .mov y d s => some (row0 y syS 0x04 d s 0)
  | .add y d s => some (row0 y syS 0x05 d s 0)
  | .addReg3 y d s t => some ((row0 y syST 0x05 d s 0).withReg (regT t 0))
  | .addImm y d i => some ((row0 y syS 0x06 d 0 0).withBaseImm i 0 4)
  | .sub y d s => some (row0 y syS 0x05 d s 1)
  | .subReg3 y d s t => some ((row0 y syST 0x05 d s 1).withReg (regT t 0))
  | .subImm y d i => some ((row0 y syS 0x06 d 0 1).withBaseImm i 0 4)
  | .mul y d s => some (row0 y syS 0x07 d s 0)
  | .mulReg3 y v d s t => some ((row0 y syST 0x07 d s v).withReg (regT t 0))
  | .mulhI64 y d s => some (row0 y syS 0x07 d s 1)
  | .mulhN64 y d s => some (row0 y syS 0x07 d s 2)
  | .divI64 y d s => some (row0 y syS 0x08 d s 0)
  | .divN64 y d s => some (row0 y syS 0x08 d s 1)
  | .remI64 y d s => some (row0 y syS 0x08 d s 2)
  | .remN64 y d s => some (row0 y syS 0x08 d s 3)
  | .divRemReg3 y v d s t => some ((row0 y syST 0x08 d s v).withReg (regT t 0))
  | .and y d s => some (row0 y syS 0x09 d s 0)
  | .andn y d s => some (row0 y syS 0x09 d s 1)
  | .or y d s => some (row0 y syS 0x09 d s 2)
  | .xor y d s => some (row0 y syS 0x09 d s 3)
  | .logicReg3 y v d s t => some ((row0 y syST 0x09 d s v).withReg (regT t 0))
  | .logicImm y v d i => some ((row0 y syS 0x0A d 0 v).withBaseImm i 0 4)
  | .shiftReg y v d s => some (row0 y syS 0x0B d s v)
  | .shiftReg3 y v d s t => some ((row0 y syST 0x0B d s v).withReg (regT t 0))
  | .shiftImm y v d i => some (((row0 y syS 0x0C d 0 v).withBaseImm i 0 1).limit (decide (i.raw ≤ 63)))
  | .clz y d s => some (row0 y syS 0x0D d s 0)
  | .ctz y d s => some (row0 y syS 0x0D d s 1)
  | .popc y d s => some (row0 y syS 0x0D d s 2)
  | .minMax y v d s => some (row0 y syS 0x0E d s v)
  | .minMaxReg3 y v d s t => some ((row0 y syST 0x0E d s v).withReg (regT t 0))
  | .sext y v d s => some (row0 y syS 0x0F d s v)
  | .zext y v d s => some (row0 y syS 0x10 d s v)
  | .cmp y c d a b => some ((row0 y syST 0x11 d a 0).withReg (regT b c))
  | .sel y d s t => some ((row0 y syST 0x12 d s 0).withReg (regT t 0))
  | .bCond y c a b i => some ((row0 y syS 0x13 a b c).withImm i 1 4)
  | .bCondUnsigned y c a b i => some ((row0 y syS 0x14 a b c).withImm i 1 4)
  | .bz y a i => some (rowBr y syS 0x15 a i)
  | .loop y c i => some (rowBr y syS 0x16 c i)
  | .j y i => some (rowBr y syNone 0x17 0 i)
  | .call y l i => some (rowBr y syNone 0x18 l i)
  | .jr y a => some (row0 y syS 0x19 0 a 0)
  | .ret y a => some (row0 y syS 0x19 0 a 1)
  | .exit y => some (row0 y syNone 0x1A 0 0 0)
  | .exit1 y a => some (row0 y syS 0x1A a 0 1)
  | .exit2 y a b => some (row0 y syS 0x1A a b 2)
  | .exit3 y a b c => some ((row0 y syST 0x1A a b 3).withReg (regT c 0))
  | .exit4 y a b c e => some ((row0 y syST 0x1A a b 3).withReg (regT c (16 + e.val)))
  | .svc y i => some (((row0 y syNone 0x1B 0 0 0).withBaseImm i 0 1).limit (decide (i.raw ≤ 255)))
  | .ld y z d b i => some (rowMem y (syLoad false) 0x1C d b z i)
  | .ldZext y z d b i => some (rowMem y (syLoad false) 0x1D d b z i)
  | .st y z v b i => some (rowMem y (syStore false) 0x1E v b z i)
  | .ldx y z k d b x => some ((row0 y (syLoad true) 0x1F d b z).withReg (regT x k))
  | .ldxZext y z k d b x => some ((row0 y (syLoad true) 0x20 d b z).withReg (regT x k))
  | .stx y z k v b x => some ((row0 y (syStore true) 0x21 v b z).withReg (regT x k))
  | .lds y d b i => some (rowMem y { sySK with mode := .scope } 0x22 d b 0 i)
  | .ldf y d b i => some (rowMem y { sySK with mode := .scope } 0x22 d b 1 i)
  | .ftag y d b i => some (rowMem y sySK 0x22 d b 2 i)
  | .stf y v b i => some (rowMem y { syS with mode := .scope } 0x23 v b 0 i)
  | .ste y b i => some (rowMem y syS 0x23 0 b 1 i)
  | .pf y b i => some (rowMem y syS 0x24 0 b 0 i)
  | .fenceAcq y => some (row0 y syScope 0x25 0 0 0)
  | .fenceRel y => some (row0 y syScope 0x25 0 0 1)
  | .fenceAr y => some (row0 y syScope 0x25 0 0 2)
  | .fenceSc y => some (row0 y syScope 0x25 0 0 3)
  | .ifence y => some (row0 y syScope 0x26 0 0 0)
  | .amo y w u o a v => some (((row0 y (syAtomic false) 0x27 0 a w).withReg (regT v (o.val + if u then 8 else 0))).limit (amoOk w u o))
  | .amoResult y w u o d a v => some (((row0 y (syAtomic true) 0x28 d a w).withReg (regT v (o.val + if u then 8 else 0))).limit (amoOk w u o))
  | .cas y d a n => some ((row0 y (syAtomic true) 0x29 d a 0).withReg (regT n 0))
  | .casI32 y d a n => some ((row0 y (syAtomic true) 0x29 d a 1).withReg (regT n 0))
  | .casp y d a n => some (((row0 y (syAtomic true) 0x29 d a 2).withReg (regT n 0)).limit (d.val % 2 == 0 && n.val % 2 == 0))
  | .vadd y k t d a b => some ((rowV1 y syST k 0 0x00 d a b t).limit (t.isF || t.isI))
  | .vsub y k t d a b => some ((rowV1 y syST k 0 0x01 d a b t).limit (t.isF || t.isI))
  | .vmul y k t d a b => some ((rowV1 y syST k 0 0x02 d a b t).limit (t.isF || t.isI))
  | .vfma y k t d a b => some ((rowV1 y syST k 0 0x03 d a b t).limit (t.isF || t.isI))
  | .vdiv y k t d a b => some ((rowV1 y syST k 0 0x04 d a b t).limit (t.isF))
  | .vsqrt y k t d s => some ((rowV1 y syS k 0 0x05 d s 0 t).limit (t.isF))
  | .vrcp y k t d s => some ((rowV1 y syS k 0 0x06 d s 0 t).limit (t.isF))
  | .vrsq y k t d s => some ((rowV1 y syS k 0 0x07 d s 0 t).limit (t.isF))
  | .vexp2 y k t d s => some ((rowV1 y syS k 0 0x08 d s 0 t).limit (t.isF))
  | .vlog2 y k t d s => some ((rowV1 y syS k 0 0x09 d s 0 t).limit (t.isF))
  | .vmin y k t d a b => some ((rowV1 y syST k 0 0x0A d a b t).limit (t.isF || t.isI))
  | .vmax y k t d a b => some ((rowV1 y syST k 0 0x0B d a b t).limit (t.isF || t.isI))
  | .vabs y k t d s => some ((rowV1 y syS k 0 0x0C d s 0 t).limit (t.isF || t.isI))
  | .vneg y k t d s => some ((rowV1 y syS k 0 0x0D d s 0 t).limit (t.isF || t.isI))
  | .vand y k t d a b => some ((rowV1 y syST k 0 0x0E d a b t).limit (t.isF || t.isI))
  | .vor y k t d a b => some ((rowV1 y syST k 0 0x0F d a b t).limit (t.isF || t.isI))
  | .vxor y k t d a b => some ((rowV1 y syST k 0 0x10 d a b t).limit (t.isF || t.isI))
  | .vshl y k t d a b => some ((rowV1 y syST k 0 0x11 d a b t).limit (t.isI))
  | .vshr y k t d a b => some ((rowV1 y syST k 0 0x12 d a b t).limit (t.isI))
  | .vcmp y k t c d a b => some ((rowV1 y syST k c 0x13 d a b t).limit (t.isF || t.isI))
  | .vsel y q t d a b => some ((rowV1 y syST { m := true, q := q } 0 0x14 d a b t).limit t.isByteWise)
  | .vred y k t o d s => some ((rowV1 y syS k o 0x15 d s 0 t).limit (vredOk o t))
  | .vdot y k t d a b => some ((rowV1 y syST k 0 0x16 d a b t).limit (vdotOk t))
  | .vclass y k t d s => some ((rowV1 y syS k 0 0x17 d s 0 t).limit (t.isF))
  | .vld y d b i => some ((rowP y (syLoad false) 2 0 0x00 d b 0).withImm i 0 4)
  | .vldTyped y k t d b i => some (((rowV2 y (syLoad false) k.code 0x00 d b 0 0 t.code).withImm i 0 4).limit k.ok)
  | .vst y s b i => some ((rowP y (syStore false) 2 0 0x01 s b 0).withImm i 0 4)
  | .vstTyped y k t s b i => some (((rowV2 y (syStore false) k.code 0x01 s b 0 0 t.code).withImm i 0 4).limit k.ok)
  | .vgat y k t d b x => some ((rowV2 y (syLoad true) k.code 0x02 d b x 0 t.code).limit (k.ok && (t.bits == 32 || t.bits == 64)))
  | .vsct y k t s b x => some ((rowV2 y (syStore true) k.code 0x03 s b x 0 t.code).limit (k.ok && (t.bits == 32 || t.bits == 64)))
  | .vcvt y k dt st p d s => some ((rowV2 y syS k.code 0x04 d s st.code p dt.code).limit (k.ok && convertible dt st && decide (p.val < cvtPositions dt st)))
  | .vquant y dt w p d s c => some ((rowV2 y syS (w.val * 16 + p.val * 64) 0x05 d s c 0 dt.code).limit (dt.isNarrow && decide (p.val < blockPositions dt)))
  | .vquantGiven y dt w p d s c => some ((rowV2 y syST (w.val * 16 + p.val * 64) 0x05 d s c 1 dt.code).limit (dt.isNarrow && decide (p.val < blockPositions dt)))
  | .vdeq y st w p d s c => some ((rowV2 y syST (w.val * 16 + p.val * 64) 0x06 d s c 0 st.code).limit (st.isNarrow && decide (p.val < blockPositions st)))
  | .vperm y k t d a x => some ((rowV2 y syST k.code 0x07 d a x 0 t.code).limit (k.ok && t.isByteWise))
  | .vbcast y k t d s => some ((rowV2 y syS k.code 0x08 d s 0 0 t.code).limit (k.ok && t.isByteWise))
  | .vins y t e d s => some ((rowV2 y syS (e.val / 4 * 16) 0x09 d s 0 (e.val % 4) t.code).limit (t.isByteWise && decide (e.val < 512 / t.bits)))
  | .vext y t e d s => some ((rowV2 y syS (e.val / 4 * 16) 0x0A d s 0 (e.val % 4) t.code).limit (t.isByteWise && decide (e.val < 512 / t.bits)))
  | .qop y o d a b => some (((rowP y syNone 2 (o.val * 16) 0x0B d a 0).withReg (regT b 0)).limit (o.val != 4 || b.val == 0))
  | .vmovqToG y d s => some (rowP y syS 2 0 0x0C d s 0)
  | .vmovqToQ y d s => some (rowP y syS 2 0 0x0C d s 1)
  | .mma y h m t ka kb a b => some (((rowP y syS 3 (h.val + m.val * 8) 0x00 (a.val % 16) (b.val % 16) ((if ka then 1 else 0) + if kb then 2 else 0)).withReg (regV a b 0 t.code)).limit (mmaType t && (ka || decide (a.val ≤ 14)) && (kb || decide (b.val ≤ 14))))
  | .mzero y h => some (rowP y syNone 3 h 0x01 0 0 0)
  | .mrd y h d i => some (((rowP y syK 3 h 0x02 (d.val % 16) 0 0).withBaseImm i 0 1).highReg d |>.limit (decide (i.raw ≤ 255)))
  | .mwr y h s i => some (((rowP y syS 3 h 0x03 (s.val % 16) 0 0).withBaseImm i 0 1).highReg s |>.limit (decide (i.raw ≤ 255)))
  | .mrel y h => some (rowP y syNone 3 h 0x04 0 0 0)
  | .mwm y h d => some (rowP y syNone 3 h 0x05 d 0 0)
  | .xshape1D y t d e => some ((rowP y syS 4 0 0x00 d e 0).withReg (regT 0 t.code))
  | .xshape y d s t => some ((rowP y syST 4 0 0x00 d s 1).withReg (regT t 0))
  | .xfer y n d s c => some ((rowP y syST 4 n 0x01 d s 0).withReg (regT c 0))
  | .arrive y c i => some (((rowP y syS 4 0 0x02 c 0 0).withBaseImm i 0 3).limit (decide (i.raw < 2 ^ 40)))
  | .arriveReg y c n => some (rowP y syS 4 0 0x02 c n 1)
  | .xwait y c => some (rowP y syS 4 0 0x03 0 c 0)
  | .gdecl y g a => some (rowP y syS 4 g 0x08 0 a 0)
  | .hpub y g s => some (rowP y syS 4 g 0x09 0 s 0)
  | .hdone y g s => some (rowP y syS 4 g 0x0A 0 s 0)
  | .ldh y g t d c s => some ((rowP y sySTK 4 g 0x0B d c 0).withReg (regT s t.code))
  | .tagpub y d k g => some ((rowP y syST 4 0 0x10 d k 0).withReg (regT g 0))
  | .tagpubDrop y d k => some (rowP y syS 4 0 0x10 d k 1)
  | .tagwait y k g => some ((rowP y syST 4 0 0x11 0 k 0).withReg (regT g 0))
  | .tagwaitC y k g => some ((rowP y syST 4 0 0x11 0 k 1).withReg (regT g 0))
  | .tagq y d k => some (rowP y syS 4 0 0x12 d k 0)
  | .fork y n d e i s => some ((((rowP y { sySK with trt := n.val != 0 } 5 0 0x00 d e 0).withReg (regT s n)).withImm i 1 2).limit (decide (s.val + n.val ≤ 16) && (n.val != 0 || s.val == 0)))
  | .send y n e h s => some (((rowP y { syS with trt := n.val != 0 } 5 0 0x01 e h 0).withReg (regT s n)).limit (decide (s.val + n.val ≤ 16) && (n.val != 0 || s.val == 0)))
  | .hret y => some (rowP y syNone 5 0 0x02 0 0 0)
  | .migrate y a => some (rowP y syS 5 0 0x03 0 a 0)
  | .endp y d a => some (rowP y sySK 5 0 0x04 d a 0)
  | .bar y l => some (rowP y syNone 5 l 0x05 0 0 0)
  | .barOp y o l d v => some ((rowP y syS 5 (l.val + o.val * 8) 0x05 d v 0).limit (o.val != 0))
  | .barA y l => some (rowP y syNone 5 l 0x05 0 0 1)
  | .barAOp y o l d v => some ((rowP y sySK 5 (l.val + o.val * 8) 0x05 d v 1).limit (o.val != 0))
  | .barw y l => some (rowP y syNone 5 l 0x06 0 0 0)
  | .map y d s => some ((rowP y sySK 5 0 0x20 d s 0).limit (decide (s.val ≤ 12)))
  | .grant y d s => some ((rowP y sySK 5 0 0x21 d s 0).limit (decide (s.val ≤ 12)))
  | .unmap y d s => some ((rowP y sySK 5 0 0x22 d s 0).limit (decide (s.val ≤ 14)))
  | .unmapSelf y d s => some ((rowP y sySK 5 0 0x22 d s 1).limit (decide (s.val ≤ 14)))
  | .mprobe y d a => some (rowP y sySK 5 0 0x23 d a 0)
  | .spnew y d => some (rowP y syK 5 0 0x24 d 0 0)
  | .spdel y d s => some (rowP y sySK 5 0 0x25 d s 0)
  | .sysr y n d => some ((rowP y syNone 6 n 0x00 d 0 0).limit (sysSelector n))
  | .sysw y n s => some ((rowP y syS 6 n 0x01 0 s 0).limit (sysWritable n))
  | .tret y => some (rowP y syNone 6 0 0x02 0 0 0)
  | .brk y => some (rowP y syNone 6 0 0x03 0 0 0)
  | .sleep y s => some (rowP y syS 6 0 0x04 0 s 0)
  | .ctrr y d => some (rowP y syNone 6 0 0x05 d 0 0)
  | .errq y d => some (rowP y syNone 6 0 0x06 d 0 0)
  | .flags y d s => some (rowP y syS 6 0 0x07 d s 0)
  | .keyrollInstruction y d s => some ((rowP y syS 6 0 0x28 d s 0).limit (decide (s.val ≤ 14)))
  | .ctxsv y s => some (rowP y syS 6 0 0x29 0 s 0)
  | .ctxld y s => some (rowP y syS 6 0 0x2A 0 s 0)
  | .ctxCreate _ _ _ => none
  | .ctxDestroy _ _ => none
  | .queueOpen _ _ => none
  | .queueClose _ _ => none
  | .halt _ _ => none
  | .kill _ _ => none
  | .resume _ _ => none
  | .timers _ _ => none
  | .keyroll _ _ => none
  | .jobOpen _ _ => none
  | .jobClose _ _ => none
  | .report _ _ => none
  | .composition _ _ => none
  | .quote _ _ => none
  | .cert _ _ => none
  | .errqAck _ _ => none
  | .memCopyToDevice _ _ _ => none
  | .memCopyToHost _ _ _ => none
  | .partDefine _ _ => none
  | .peerRead _ _ => none
  | .fwLoad _ _ _ => none
  | .rootSpaceMap _ _ => none
  | .rootSpaceGrant _ _ => none
  | .rootSpaceUnmap _ _ => none
  | .rootSpaceUnmapSelf _ _ => none
  | .rootSpaceSpnew _ _ => none
  | .rootSpaceSpdel _ _ => none
  | .rootSpaceMprobe _ _ => none
  | .badCmd _ _ _ => none
  | .cmdgoWhileBusy _ => none
  | .commandEnd _ => none
  | .cmdstLostClear _ _ => none
  | .fltqRead _ => none
  | .tailWrite _ _ _ => none
  | .registerWrite _ _ _ => none
  | .recordTake _ => none
  | .exitResume _ => none
  | .overflowMove _ => none
  | .deviceQueueTake _ => none
  | .gangPlace _ _ _ => none
  | .gangReserve _ _ _ => none
  | .blockDispatch _ _ => none
  | .launchComplete _ => none
  | .forkComplete _ => none
  | .messageArrival _ => none
  | .inboxNackRetry _ => none
  | .inboxTimeout _ => none
  | .handlerStart _ => none
  | .migrationAccept _ _ => none
  | .registerFill _ => none
  | .accessAtOwner _ _ => none
  | .remoteAck _ _ => none
  | .remoteTimeout _ => none
  | .peerLost _ => none
  | .faultRunStart _ => none
  | .faultInterrupt _ => none
  | .sliceEnd _ => none
  | .wdogExpiry _ => none
  | .hangExpiry _ => none
  | .allStopped _ => none
  | .graceExpiry _ => none
  | .saveWritten _ => none
  | .killExpiry _ => none
  | .restore _ _ => none
  | .nextSliceRestore _ _ => none
  | .localCut _ _ => none
  | .remoteCut _ _ => none
  | .sweep _ => none
  | .cutAck _ _ => none
  | .cutAckTimeout _ _ => none
  | .withdrawalComplete _ => none
  | .sealWriteback _ => none
  | .rollComplete _ => none
  | .xferWordLand _ _ => none
  | .arbiterGrant _ => none
  | .kBlockRetire _ _ => none
  | .matrixCommandRetire _ _ => none
  | .rowWriteOut _ _ => none
  | .accExhausted _ => none
  | .haloPieceWrite _ _ _ => none
  | .hpubTimeout _ => none
  | .ldhTimeout _ => none
  | .ghostWriteTimeout _ _ _ => none
  | .tagLost _ => none
  | .operatingPointChange _ _ => none
  | .islandGate _ => none
  | .islandPowerUp _ => none
  | .channelSpare _ => none
  | .channelFailure _ _ => none
  | .softError _ => none
  | .plannedRetirement _ _ => none
  | .failedRetirement _ => none
  | .flitReplay _ => none
  | .heartbeat _ => none
  | .portLost _ => none
  | .joinHandshake _ _ => none
  | .deviceReset _ => none
  | .sleepWake _ => none
  | .ownAccordFill _ => none
  | .nackRetry _ => none
  | .levelStateChange _ _ => none

/-- The bits of the IMM prefixes, lowest address first, put together (R298). -/
def immBits (l : List Nat) : Nat := l.foldl (fun acc p => acc * 4096 + p) 0

/-- The 12-bit groups of an immediate, most significant first. -/
def immGroups : Nat → Nat → List Nat
  | 0, _ => []
  | n + 1, x => immGroups n (x / 4096) ++ [x % 4096]

/-- The chain and base word that encode an instruction, field by field. -/
def chainOf (i : Instr) : Option Chain :=
  (rowOf i).map fun w =>
    { page := w.page, reg := w.reg, sync := w.sync.map fun f => (f, 0), op := w.op, rd := w.rd, rs := w.rs, v := w.v
      imms := match w.imm with
        | none => []
        | some u => immGroups u.imm.n (if u.base then u.imm.raw / 16 else u.imm.raw) }

/-- The prefixes of a chain. -/
def Chain.count (c : Chain) : Nat :=
  (if c.page.isSome then 1 else 0) + (if c.reg.isSome then 1 else 0) + (if c.sync.isSome then 1 else 0) + c.imms.length

/-- The immediate of an instruction lies within the limits of its row (R298, R303). -/
def ImmUse.fits (u : ImmUse) : Bool :=
  decide (u.lo ≤ u.imm.n) && decide (u.imm.n ≤ u.hi)
    && decide (u.imm.raw < (if u.base then 4096 ^ u.imm.n * 16 else 4096 ^ u.imm.n))

/-- The field rules of R298 to R301 and of the instruction's row, and the four-prefix limit of R295. -/
def legal (i : Instr) : Bool :=
  match rowOf i, chainOf i with
  | some w, some c =>
    w.ok && (match w.imm with | none => true | some u => u.fits)
      && (match w.sync with | none => true | some f => w.rule.accepts f) && decide (c.count ≤ 4)
  | _, _ => false

/-- The length of an instruction in bytes (R292). -/
def Instr.len (i : Instr) : Nat :=
  match chainOf i with
  | some c => 2 * (c.count + 1)
  | none => 0

/-- The immediate a chain holds: prefixes above the base field (R298). -/
def Chain.baseImm (c : Chain) : Imm := { n := c.imms.length, raw := immBits c.imms * 16 + c.rs }

/-- The immediate a chain holds in its prefixes alone. -/
def Chain.immOnly (c : Chain) : Imm := { n := c.imms.length, raw := immBits c.imms }

/-- The SYNC prefix of a chain. -/
def Chain.y (c : Chain) : Sync := c.sync.map Prod.fst

/-- A field as a scalar register number. -/
def gn (n : Nat) : GNum := Fin.ofNat 16 n
/-- A field as a mask register number. -/
def qn (n : Nat) : QNum := Fin.ofNat 8 n
/-- A 4-bit field and its REG high bit as a vector register number (R299). -/
def vn (n : Nat) (hi : Bool) : VNum := Fin.ofNat 32 (n + if hi then 16 else 0)

/-- The instruction that a page-0 opcode with these fields can only be (R303). The caller checks that it encodes as read. -/
def guess0 (c : Chain) : Option Instr :=
  let y := c.y
  let d := gn c.rd
  let s := gn c.rs
  match c.op with
  | 0x00 => match c.v with
    | 0 => some (.nop y) | 1 => some (.yield y) | 2 => some (.pause y) | _ => some (.align y)
  | 0x01 => some (.li y d c.baseImm)
  | 0x02 => some (.lih y d c.baseImm)
  | 0x03 => some (.lea y d c.baseImm)
  | 0x04 => some (.mov y d s)
  | 0x05 => match c.reg, c.v with
    | none, 0 => some (.add y d s) | none, _ => some (.sub y d s)
    | some r, 0 => some (.addReg3 y d s (gn r.rt)) | some r, _ => some (.subReg3 y d s (gn r.rt))
  | 0x06 => match c.v with
    | 0 => some (.addImm y d c.baseImm) | _ => some (.subImm y d c.baseImm)
  | 0x07 => match c.reg, c.v with
    | some r, v => some (.mulReg3 y (Fin.ofNat 3 v) d s (gn r.rt))
    | none, 0 => some (.mul y d s) | none, 1 => some (.mulhI64 y d s) | none, _ => some (.mulhN64 y d s)
  | 0x08 => match c.reg, c.v with
    | some r, v => some (.divRemReg3 y (Fin.ofNat 4 v) d s (gn r.rt))
    | none, 0 => some (.divI64 y d s) | none, 1 => some (.divN64 y d s)
    | none, 2 => some (.remI64 y d s) | none, _ => some (.remN64 y d s)
  | 0x09 => match c.reg, c.v with
    | some r, v => some (.logicReg3 y (Fin.ofNat 4 v) d s (gn r.rt))
    | none, 0 => some (.and y d s) | none, 1 => some (.andn y d s)
    | none, 2 => some (.or y d s) | none, _ => some (.xor y d s)
  | 0x0A => some (.logicImm y (Fin.ofNat 4 c.v) d c.baseImm)
  | 0x0B => match c.reg with
    | some r => some (.shiftReg3 y (Fin.ofNat 4 c.v) d s (gn r.rt))
    | none => some (.shiftReg y (Fin.ofNat 4 c.v) d s)
  | 0x0C => some (.shiftImm y (Fin.ofNat 4 c.v) d c.baseImm)
  | 0x0D => match c.v with
    | 0 => some (.clz y d s) | 1 => some (.ctz y d s) | _ => some (.popc y d s)
  | 0x0E => match c.reg with
    | some r => some (.minMaxReg3 y (Fin.ofNat 4 c.v) d s (gn r.rt))
    | none => some (.minMax y (Fin.ofNat 4 c.v) d s)
  | 0x0F => some (.sext y (Fin.ofNat 3 c.v) d s)
  | 0x10 => some (.zext y (Fin.ofNat 3 c.v) d s)
  | 0x11 => c.reg.map fun r => .cmp y (Fin.ofNat 6 r.type) d s (gn r.rt)
  | 0x12 => c.reg.map fun r => .sel y d s (gn r.rt)
  | 0x13 => some (.bCond y (Fin.ofNat 4 c.v) d s c.immOnly)
  | 0x14 => some (.bCondUnsigned y (Fin.ofNat 2 c.v) d s c.immOnly)
  | 0x15 => some (.bz y d c.baseImm)
  | 0x16 => some (.loop y d c.baseImm)
  | 0x17 => some (.j y c.baseImm)
  | 0x18 => some (.call y d c.baseImm)
  | 0x19 => match c.v with
    | 0 => some (.jr y s) | _ => some (.ret y s)
  | 0x1A => match c.reg, c.v with
    | some r, _ => if r.type = 0 then some (.exit3 y d s (gn r.rt)) else some (.exit4 y d s (gn r.rt) (gn r.type))
    | none, 0 => some (.exit y) | none, 1 => some (.exit1 y d) | none, _ => some (.exit2 y d s)
  | 0x1B => some (.svc y c.baseImm)
  | 0x1C => some (.ld y (Fin.ofNat 4 c.v) d s c.immOnly)
  | 0x1D => some (.ldZext y (Fin.ofNat 4 c.v) d s c.immOnly)
  | 0x1E => some (.st y (Fin.ofNat 4 c.v) d s c.immOnly)
  | 0x1F => c.reg.map fun r => .ldx y (Fin.ofNat 4 c.v) (Fin.ofNat 4 r.type) d s (gn r.rt)
  | 0x20 => c.reg.map fun r => .ldxZext y (Fin.ofNat 4 c.v) (Fin.ofNat 4 r.type) d s (gn r.rt)
  | 0x21 => c.reg.map fun r => .stx y (Fin.ofNat 4 c.v) (Fin.ofNat 4 r.type) d s (gn r.rt)
  | 0x22 => match c.v with
    | 0 => some (.lds y d s c.immOnly) | 1 => some (.ldf y d s c.immOnly) | _ => some (.ftag y d s c.immOnly)
  | 0x23 => match c.v with
    | 0 => some (.stf y d s c.immOnly) | _ => some (.ste y s c.immOnly)
  | 0x24 => some (.pf y s c.immOnly)
  | 0x25 => match c.v with
    | 0 => some (.fenceAcq y) | 1 => some (.fenceRel y) | 2 => some (.fenceAr y) | _ => some (.fenceSc y)
  | 0x26 => some (.ifence y)
  | 0x27 => c.reg.map fun r => .amo y (Fin.ofNat 2 c.v) (decide (8 ≤ r.type)) (Fin.ofNat 8 r.type) s (gn r.rt)
  | 0x28 => c.reg.map fun r => .amoResult y (Fin.ofNat 2 c.v) (decide (8 ≤ r.type)) (Fin.ofNat 8 r.type) d s (gn r.rt)
  | 0x29 => c.reg.map fun r => match c.v with
    | 0 => .cas y d s (gn r.rt) | 1 => .casI32 y d s (gn r.rt) | _ => .casp y d s (gn r.rt)
  | _ => none

/-- The mask fields in a PAGE modifier (R304). -/
def maskOf (m : Nat) : VMask := { m := m / 8 % 2 == 1, q := qn m }

/-- The same for page 1, where every instruction has a REG prefix (R304). -/
def guess1 (c : Chain) (m : Nat) : Option Instr := do
  let r ← c.reg
  let t ← EType.ofCode r.type
  let y := c.y
  let k := maskOf m
  let d := vn c.rd r.rdh
  let a := vn c.rs r.rsh
  let b := vn r.rt r.rth
  match c.op with
  | 0x00 => some (.vadd y k t d a b) | 0x01 => some (.vsub y k t d a b) | 0x02 => some (.vmul y k t d a b)
  | 0x03 => some (.vfma y k t d a b) | 0x04 => some (.vdiv y k t d a b) | 0x05 => some (.vsqrt y k t d a)
  | 0x06 => some (.vrcp y k t d a) | 0x07 => some (.vrsq y k t d a) | 0x08 => some (.vexp2 y k t d a)
  | 0x09 => some (.vlog2 y k t d a) | 0x0A => some (.vmin y k t d a b) | 0x0B => some (.vmax y k t d a b)
  | 0x0C => some (.vabs y k t d a) | 0x0D => some (.vneg y k t d a) | 0x0E => some (.vand y k t d a b)
  | 0x0F => some (.vor y k t d a b) | 0x10 => some (.vxor y k t d a b) | 0x11 => some (.vshl y k t d a b)
  | 0x12 => some (.vshr y k t d a b) | 0x13 => some (.vcmp y k t (Fin.ofNat 6 (m / 16)) (qn c.rd) a b)
  | 0x14 => some (.vsel y (qn m) t d a b) | 0x15 => some (.vred y k t (Fin.ofNat 6 (m / 16)) (gn c.rd) a)
  | 0x16 => some (.vdot y k t d a b) | 0x17 => some (.vclass y k t d a)
  | _ => none

/-- The same for page 2 without a REG prefix (R305). -/
def guess2Plain (c : Chain) : Option Instr :=
  match c.op with
  | 0x00 => some (.vld c.y (gn c.rd) (gn c.rs) c.immOnly)
  | 0x01 => some (.vst c.y (gn c.rd) (gn c.rs) c.immOnly)
  | 0x0C => match c.v with
    | 0 => some (.vmovqToG c.y (gn c.rd) (qn c.rs)) | _ => some (.vmovqToQ c.y (qn c.rd) (gn c.rs))
  | _ => none

/-- The same for page 2 with a REG prefix (R305). -/
def guess2 (c : Chain) (m : Nat) (r : RegW) : Option Instr :=
  let y := c.y
  let k := maskOf m
  let d := vn c.rd r.rdh
  let a := vn c.rs r.rsh
  let b := vn r.rt r.rth
  let w := Fin.ofNat 3 (m / 16 % 4)
  let p := Fin.ofNat 4 (m / 64)
  let e := Fin.ofNat 64 (m / 16 * 4 + c.v)
  if c.op = 0x0B then some (.qop y (Fin.ofNat 5 (m / 16)) (qn c.rd) (qn c.rs) (qn r.rt)) else
  (EType.ofCode r.type).bind fun t => match c.op with
  | 0x00 => some (.vldTyped y k t d (gn c.rs) c.immOnly)
  | 0x01 => some (.vstTyped y k t d (gn c.rs) c.immOnly)
  | 0x02 => some (.vgat y k t d (gn c.rs) b)
  | 0x03 => some (.vsct y k t d (gn c.rs) b)
  | 0x04 => (EType.ofCode b.val).map fun s => .vcvt y k t s (Fin.ofNat 4 c.v) d a
  | 0x05 => match c.v with
    | 0 => some (.vquant y t w p d a (gn r.rt)) | _ => some (.vquantGiven y t w p d a (gn r.rt))
  | 0x06 => some (.vdeq y t w p d a (gn r.rt))
  | 0x07 => some (.vperm y k t d a b)
  | 0x08 => some (.vbcast y k t d (gn c.rs))
  | 0x09 => some (.vins y t e d (gn c.rs))
  | 0x0A => some (.vext y t e (gn c.rd) a)
  | _ => none

/-- The same for page 3 (R194). -/
def guess3 (c : Chain) (m : Nat) : Option Instr :=
  let h : ANum := Fin.ofNat 8 m
  let hd := match c.reg with | some r => r.rdh | none => false
  match c.op with
  | 0x00 => c.reg.bind fun r => (EType.ofCode r.type).map fun t =>
      .mma c.y h (Fin.ofNat 16 (m / 8)) t (c.v % 2 == 1) (c.v / 2 % 2 == 1) (vn c.rd r.rdh) (vn c.rs r.rsh)
  | 0x01 => some (.mzero c.y h)
  | 0x02 => some (.mrd c.y h (vn c.rd hd) c.baseImm)
  | 0x03 => some (.mwr c.y h (vn c.rd hd) c.baseImm)
  | 0x04 => some (.mrel c.y h)
  | 0x05 => some (.mwm c.y h (gn c.rd))
  | _ => none

/-- The same for page 4 (R183, R216). -/
def guess4 (c : Chain) (m : Nat) : Option Instr :=
  let y := c.y
  let d := gn c.rd
  let s := gn c.rs
  let g := Fin.ofNat 64 m
  match c.op with
  | 0x00 => match c.v with
    | 0 => c.reg.bind fun r => (EType.ofCode r.type).map fun t => .xshape1D y t (Fin.ofNat 4 c.rd) s
    | _ => c.reg.map fun r => .xshape y (Fin.ofNat 4 c.rd) s (gn r.rt)
  | 0x01 => c.reg.map fun r => .xfer y (Fin.ofNat 4 m) d s (gn r.rt)
  | 0x02 => match c.v with
    | 0 => some (.arrive y d c.baseImm) | _ => some (.arriveReg y d s)
  | 0x03 => some (.xwait y s)
  | 0x08 => some (.gdecl y g s)
  | 0x09 => some (.hpub y g s)
  | 0x0A => some (.hdone y g s)
  | 0x0B => c.reg.bind fun r => (EType.ofCode r.type).map fun t => .ldh y g t d s (gn r.rt)
  | 0x10 => match c.v with
    | 0 => c.reg.map fun r => .tagpub y d s (gn r.rt) | _ => some (.tagpubDrop y d s)
  | 0x11 => c.reg.map fun r => match c.v with
    | 0 => .tagwait y s (gn r.rt) | _ => .tagwaitC y s (gn r.rt)
  | 0x12 => some (.tagq y d s)
  | _ => none

/-- The same for page 5 (R307, R111). -/
def guess5 (c : Chain) (m : Nat) : Option Instr :=
  let y := c.y
  let d := gn c.rd
  let s := gn c.rs
  match c.op with
  | 0x00 => c.reg.map fun r => .fork y (Fin.ofNat 17 r.type) d s c.immOnly (gn r.rt)
  | 0x01 => c.reg.map fun r => .send y (Fin.ofNat 9 r.type) d s (gn r.rt)
  | 0x02 => some (.hret y)
  | 0x03 => some (.migrate y s)
  | 0x04 => some (.endp y d s)
  | 0x05 =>
    let l := Fin.ofNat 8 m
    let o := Fin.ofNat 8 (m / 8)
    match c.v with
    | 0 => if o.val = 0 then some (.bar y l) else some (.barOp y o l d s)
    | _ => if o.val = 0 then some (.barA y l) else some (.barAOp y o l d s)
  | 0x06 => some (.barw y (Fin.ofNat 8 m))
  | 0x20 => some (.map y d s)
  | 0x21 => some (.grant y d s)
  | 0x22 => match c.v with
    | 0 => some (.unmap y d s) | _ => some (.unmapSelf y d s)
  | 0x23 => some (.mprobe y d s)
  | 0x24 => some (.spnew y d)
  | 0x25 => some (.spdel y d s)
  | _ => none

/-- The same for page 6 (R308). -/
def guess6 (c : Chain) (m : Nat) : Option Instr :=
  let y := c.y
  let d := gn c.rd
  let s := gn c.rs
  match c.op with
  | 0x00 => some (.sysr y (Fin.ofNat 256 m) d)
  | 0x01 => some (.sysw y (Fin.ofNat 256 m) s)
  | 0x02 => some (.tret y)
  | 0x03 => some (.brk y)
  | 0x04 => some (.sleep y s)
  | 0x05 => some (.ctrr y d)
  | 0x06 => some (.errq y d)
  | 0x07 => some (.flags y d s)
  | 0x28 => some (.keyrollInstruction y d s)
  | 0x29 => some (.ctxsv y s)
  | 0x2A => some (.ctxld y s)
  | _ => none

/-- The one instruction that a chain can be. -/
def guess (c : Chain) : Option Instr :=
  match c.page with
  | none => guess0 c
  | some (p, m) => match p with
    | 1 => guess1 c m
    | 2 => match c.reg with
      | none => guess2Plain c
      | some r => guess2 c m r
    | 3 => guess3 c m
    | 4 => guess4 c m
    | 5 => guess5 c m
    | 6 => guess6 c m
    | _ => none

/-- Why words are no instruction (R302). Each is a trap that the machine takes. -/
inductive DecodeError where
  /-- The words end inside a chain. -/
  | truncated
  /-- The chain breaks R295: ILLEGAL_PREFIX. -/
  | badChain
  /-- Step 2 or 4 of R302: ILLEGAL. -/
  | illegal
  /-- A steward instruction whose fields are wrong: PRIVILEGE below steward level, ILLEGAL at it (R302 steps 3, 4). -/
  | stewardOnly
  /-- A `sysw` of a handler-level register whose fields are wrong: PRIVILEGE at thread level, else ILLEGAL. -/
  | handlerOnly
  deriving DecidableEq, Repr

/-- Which refusal a chain that is no instruction meets (R302). -/
def refusal (c : Chain) : DecodeError :=
  match c.page with
  | some (6, m) =>
    if c.op = 0x28 || c.op = 0x29 || c.op = 0x2A then .stewardOnly
    else if c.op = 0x01 && sysHandlerOnly m then .handlerOnly
    else .illegal
  | _ => .illegal

/-- Decoding of a chain: the one candidate, if it encodes as read and keeps the field rules. -/
def decodeChain (c : Chain) : Except DecodeError Instr :=
  match guess c with
  | some i => if legal i && decide (chainOf i = some c) then .ok i else .error (refusal c)
  | none => .error (refusal c)

/-- A prefix word (R292). -/
def isPrefixWord (w : HWord) : Bool := w.toNat / 16384 == 3

/-- Splits the run of prefix words from what follows it. -/
def splitRun : List HWord → List HWord × List HWord
  | [] => ([], [])
  | w :: ws => if isPrefixWord w then ((w :: (splitRun ws).1), (splitRun ws).2) else ([], w :: ws)

/-- The fields of a REG prefix (R294). -/
def regOfWord (w : Nat) : RegW :=
  { rt := w / 256 % 16, rdh := w / 128 % 2 == 1, rsh := w / 64 % 2 == 1, rth := w / 32 % 2 == 1, type := w % 32 }

/-- The fields of a SYNC prefix and its reserved bits (R294). -/
def syncOfWord (w : Nat) : SyncF × Nat :=
  ({ scope := Fin.ofNat 8 (w / 512), order := Fin.ofNat 4 (w / 128), trs := w / 64 % 2 == 1, trt := w / 32 % 2 == 1
     kf := w / 16 % 2 == 1 }, w % 16)

/-- The kind of a prefix word: 0 IMM, 1 REG, 2 PAGE, 3 SYNC (R294). -/
def kindOf (w : Nat) : Nat := w / 4096 % 4

/-- Takes one optional prefix of a kind off the front of a run. -/
def takeKind (k : Nat) : List HWord → Option Nat × List HWord
  | [] => (none, [])
  | w :: ws => if kindOf w.toNat = k then (some w.toNat, ws) else (none, w :: ws)

/-- The chain of a run of prefix words and a base word; none where R295 refuses its shape. -/
def chainOfWords (run : List HWord) (base : HWord) : Option Chain :=
  let p := takeKind 2 run
  let r := takeKind 1 p.2
  let y := takeKind 3 r.2
  if decide (run.length ≤ 4) && y.2.all (fun w => kindOf w.toNat == 0) then
    some { page := p.1.map fun w => (w / 256 % 16, w % 256), reg := r.1.map regOfWord, sync := y.1.map syncOfWord
           imms := y.2.map fun w => w.toNat % 4096
           op := base.toNat / 1024, rd := base.toNat / 64 % 16, rs := base.toNat / 4 % 16, v := base.toNat % 4 }
  else none

/-- The instruction at the front of a list of words (R292 to R302). -/
def decode (ws : List HWord) : Except DecodeError Instr :=
  match (splitRun ws).2 with
  | [] => .error (if (splitRun ws).1.length ≤ 4 then .truncated else .badChain)
  | base :: _ =>
    match chainOfWords (splitRun ws).1 base with
    | some c => decodeChain c
    | none => .error .badChain

/-- A bit as a number. -/
def bit (b : Bool) : Nat := if b then 1 else 0

/-- The words of a chain (R293, R294). -/
def wordsOfChain (c : Chain) : List HWord :=
  (match c.page with
    | some (p, m) => [BitVec.ofNat 16 (0xE000 + p * 256 + m)]
    | none => [])
  ++ (match c.reg with
    | some r => [BitVec.ofNat 16 (0xD000 + r.rt * 256 + bit r.rdh * 128 + bit r.rsh * 64 + bit r.rth * 32 + r.type)]
    | none => [])
  ++ (match c.sync with
    | some (f, z) =>
      [BitVec.ofNat 16 (0xF000 + f.scope.val * 512 + f.order.val * 128 + bit f.trs * 64 + bit f.trt * 32 + bit f.kf * 16 + z)]
    | none => [])
  ++ c.imms.map (fun p => BitVec.ofNat 16 (0xC000 + p))
  ++ [BitVec.ofNat 16 (c.op * 1024 + c.rd * 64 + c.rs * 4 + c.v)]

/-- The words of an instruction, first word first; none for a host command or a device event. -/
def encode (i : Instr) : List HWord :=
  match chainOf i with
  | some c => wordsOfChain c
  | none => []

/-- The bytes of words as memory holds them, lowest address first (R3). -/
def wordBytes : List HWord → List Byte
  | [] => []
  | w :: ws => BitVec.ofNat 8 w.toNat :: BitVec.ofNat 8 (w.toNat / 256) :: wordBytes ws

/-- `n` words of a number, the least significant word first. -/
def wordsOfNat : Nat → Nat → List HWord
  | 0, _ => []
  | n + 1, w => BitVec.ofNat 16 w :: wordsOfNat n (w / 65536)

/-- The words of a number in memory order. An instruction's base word ends it, and every other word of it is a prefix
(R292), so a number whose least significant word is a base word and which goes on is written first word first. -/
def tableWords (n w : Nat) : List HWord :=
  let ws := wordsOfNat n w
  match ws with
  | [] => []
  | x :: _ => if isPrefixWord x then ws else ws.reverse

/-- The instruction that the decoder reads from the bits of an opcode-table row. -/
def decodeTableWord (nbits w : Nat) : Option Instr :=
  match decode (tableWords (nbits / 16) w) with
  | .ok i => some i
  | .error _ => none

end Sys2Proof
end

