-- ==== Sys2Proof/Config.lean ====
section
/-! DEFINITION. What an implementation fixes and what the spec leaves open: constants without a body, so that no proof can
see their values, and the sizes of this device. -/

namespace Sys2Proof.Config

/-- Which of the eight stations of a cluster translates a page: the hash of R102, which the spec does not give (log 6). -/
opaque stationHash : Nat → Fin 8

/-- Which of the values that an instruction word has held since the last `ifence` a fetch returns (R153): a free value,
drawn by a count of draws (log 2). -/
opaque fetchPick : Nat → Nat

/-- What an instruction word in a peer's memory holds (R153): a free value, drawn by a count of draws (log 2). -/
opaque fetchPeer : Nat → HWord

/-- What a byte of a peer's memory holds when an engine, an `xwait` or the dispatcher reads it: a free value, drawn by a count
of draws (log 2). -/
opaque peerByte : Nat → Byte

/-- What a ghost cell holds when two packages declare a grid differently (R198): a free value (log 8). -/
opaque freeGhost : Nat → Byte

/-- A field that the spec does not state, or a choice that it leaves open (a new ID, a record's unstated field): a free value,
drawn by a count of draws (log 15). -/
opaque openField : Nat → Nat

/-- The device's public key, as an uncompressed point (R253, R267), uninterpreted (log 5). -/
opaque publicKey : List Byte
/-- The certificate chain of the device's identity key (R267), uninterpreted (log 5). -/
opaque certChain : List Byte
/-- ECDSA signature by the device's key (R268, R270), uninterpreted (log 5). -/
opaque sign : List Byte → List Byte
/-- Whether a firmware image's signature verifies (R270, R271), uninterpreted (log 5). -/
opaque imageVerifies : List Byte → Bool

end Sys2Proof.Config
end

