-- ==== Sys2Proof/Machine/State.lean ====
section
/-! DEFINITION. The state of the Balain Q9: everything INVENTORY.md lists under State, as plain data, and its reset. -/

namespace Sys2Proof.Machine

open Sys2Proof

/-- Why the machine stops with a fault. Every trap of R235 is a next state, so this is the one reason. -/
inductive Fault where
  /-- Raised by the meaning of an instruction when no agent is issuing (`State.cur` names no agent): outside a step of the
  machine only, since a step issues for an agent that exists. Safe: the machine goes nowhere. -/
  | noAgent
  deriving DecidableEq, Repr

/-- Why a step has no meaning. -/
inductive Refusal where
  /-- Raised by `exec` for an instruction whose meaning is not written yet. Safe: the machine goes nowhere. -/
  | notModelled (mnemonic : String)
  deriving DecidableEq, Repr

/-- The causes of R235. -/
inductive Cause where
  | illegal | illegalPrefix | privilege | misaligned | misalignedTarget | fetchFault | regEmpty | poison | brk | service
  | unmapped | notOwned | coreAbsent | poolRange | accessRight | withdrawn | ownership | peerAbsent | peerDisabled
  | peerFenced | integrity | sealWorn | sealAging | handlerBlock | migrateHeavy | migrateTarget | accExhausted | accUnbound
  | barLevel | barMismatch | haloTimeout | haloStale | haloRange | haloOwner | gridHandle | gridDesc | staleTag
  | staleEndpoint | inboxTimeout | remoteTimeout | peerLost | overflowUnmapped | launchShape | queueOverrun | queueRecord
  | softError | itemLost | launchRecord
  deriving DecidableEq, Repr

/-- A sparse table with numbers as keys, in rising order. -/
abbrev Table (α : Type) := List (Nat × α)

/-- The state code of a register (R65). -/
inductive RegSt where
  | empty | full | poison
  deriving DecidableEq, Repr

/-- The state of an 8-byte word (R146). -/
inductive WordSt where
  | empty | full | poison
  deriving DecidableEq, Repr

/-- A scalar register: its value, its state code, and what the POISON trap of its reader reports (R59, R65, R66, R131). -/
structure GReg where
  val : Word
  st : RegSt
  src : Word
  det : Byte
  deriving DecidableEq, Repr

/-- The state code of a vector register; its 64 bytes lie in the core's pool (R61, R65). -/
structure VReg where
  st : RegSt
  src : Word
  det : Byte
  deriving DecidableEq, Repr

/-- A shape register: its two 64-bit words, low word first (R59, R175). -/
abbrev Shape := BitVec 128

/-- What a Blocked agent waits for (R29). -/
inductive Wait where
  /-- A fill of one of its registers (R67, R68). -/
  | regs
  /-- The performing of its earlier accesses (R141, R153, R163). -/
  | accesses
  /-- The result of its own instruction, under the keep-destination-full bit (R69). -/
  | result
  /-- The state of a pool word (R149). -/
  | word (loc : Nat)
  /-- The release of its arrival at a level (R53). -/
  | barrier (level : Nat)
  /-- A completion counter: its address, its place in this device's memory, and the node that translated it (R149, R182). -/
  | counter (va : Word) (key node : Option Nat)
  /-- A tag (R209). -/
  | tag
  /-- A ghost of a grid handle (R202). -/
  | ghost (g : Nat)
  /-- The halo engine, at a publication on a grid handle (R201). -/
  | publish (g : Nat)
  /-- An accumulator slot, a place in a command queue, or an outstanding `mrd` (R185, R191, R64). -/
  | matrix
  /-- A place in a station's transfer table (R178). -/
  | engine
  /-- A wake time (R387). -/
  | sleep
  /-- Its fault delivery (R236). -/
  | held
  /-- The end of a ladder's halt (R230). -/
  | stopped
  deriving DecidableEq, Repr

/-- The states of a slot that holds an agent (R29). -/
inductive Status where
  | ready
  | blocked (w : Wait)
  | parked
  | leaving
  deriving DecidableEq, Repr

/-- What a message handler carries (R46, R240). -/
structure MsgInfo where
  sender : BitVec 32
  slotField : Nat
  pc : Word
  launch : Option Nat
  deriving DecidableEq, Repr

/-- What a fault run serves: a held thread, a trapped handler, or an interrupt (R238, R240). -/
inductive Delivery where
  | thread (u : Nat)
  | message (cause addr resume : Word) (ep sender : BitVec 32) (pc : Word)
  | interrupt
  deriving DecidableEq, Repr

/-- What runs in a slot. -/
inductive Kind where
  | thread
  | message (m : MsgInfo)
  | faultRun (d : Delivery)
  deriving DecidableEq, Repr

/-- How far an instruction that waits has got, so that it goes on and does not begin again. -/
inductive Progress where
  | none
  /-- The access or request `id` was issued under the keep-destination-full bit. -/
  | sent (id : Nat)
  /-- The arrival at the level is counted; the instruction after it (R278). -/
  | arrived (level : Nat) (next : Word)
  /-- The publication `id` was begun. -/
  | publishing (id : Nat)
  /-- A wait that began at this device time (R191, R202). -/
  | since (t : Nat)
  /-- A sleep that ends at this device time; the instruction after it (R387). -/
  | sleeping (till : Nat) (next : Word)
  /-- The successors an exit has not enqueued yet (R41). -/
  | exiting (left : List Word)
  /-- The same, while OVERFLOW_UNMAPPED waits for the fault handler (R41). -/
  | exitHeld (left : List Word)
  /-- The result under keep-full failed while the agent was saved: the trap that it takes as it is restored (R77, R148). -/
  | failing (c : Cause) (det : Byte) (addr : Word)
  /-- The target core of a `migrate`, the instruction after it, and the address that named the core (R50, R363). -/
  | moving (core : Nat) (next va : Word)
  /-- The wait of an `xwait` at its counter's owner has ended: by completion, or by the cause of its trap (R149, R182). -/
  | waited (c : Option Cause)
  deriving DecidableEq, Repr

/-- A thread, message handler or fault run, from its placement to its retirement. -/
structure Thread where
  core : Nat
  slot : Nat
  cid : Nat
  kind : Kind
  launch : Option Nat
  gang : Nat
  forked : Bool
  high : Bool
  pool : Nat
  idx : List Nat
  linear : Nat
  g : Vector GReg 16
  v : Vector VReg 32
  q : Vector (BitVec 16) 8
  h : Vector Shape 4
  a : Vector (Option Nat) 8
  pc : Word
  fflags : BitVec 6
  frm : BitVec 3
  lfsr : BitVec 32
  mxweight : BitVec 4
  stepwin : BitVec 32
  tvec : Word
  tcause : Word
  taddr : Word
  tresume : Word
  ocsel : BitVec 4
  status : Status
  since : Nat
  prog : Progress
  fetchFrom : Nat
  pauseUntil : Nat
  heldByHalt : Bool
  deriving DecidableEq, Repr

/-- A message in flight or in an inbox (R45 to R48). -/
structure Message where
  uid : Nat
  cid : Nat
  launch : Option Nat
  sender : BitVec 32
  dest : BitVec 32
  pc : Word
  vals : List Word
  /-- Device time of its first delivery attempt (R48, R164). -/
  first : Option Nat
  refused : Bool
  /-- A NACK of a peer has answered it (R164). -/
  nacked : Bool
  /-- Accesses of the sender numbered below this precede the message (R45). -/
  after : Nat
  deriving DecidableEq, Repr

/-- A core: what it keeps when no agent runs there (R28, R44, R46, R62, R75). -/
structure Core where
  ctx : Option Nat
  gens : Vector (BitVec 7) 9
  pool : Nat
  inbox : List Message
  faults : List Delivery
  hlfsr : BitVec 32
  /-- The tenant of the context that held the core last (R227). -/
  tenant : Nat
  /-- The context that holds the core or held it last (R28). -/
  last : Option Nat
  absent : Bool
  /-- The vector port's choices left in the control cycle, and the agents that have issued in it (R228). -/
  vecLeft : Nat
  went : List Nat
  deriving DecidableEq, Repr

/-- The operating point of an island, and the island's spare and reservation (R15, R18, R224). -/
structure Island where
  gated : Bool
  point : OpPoint
  spareUsed : Bool
  reserved : Option (Nat × Nat)
  deriving DecidableEq, Repr

/-- A memory channel: the spares of its stack that it has taken, and whether it was withdrawn from service (R23). -/
structure Channel where
  spares : Nat
  withdrawn : Bool
  deriving DecidableEq, Repr

/-- Where the bytes of a piece lie: not translated yet, at an owner of this device, or on a peer (R101, R158). -/
inductive Where where
  | untranslated
  | here (key : Nat)
  | peer (dev : Nat) (phys : Nat)
  deriving DecidableEq, Repr

/-- A single-copy atomic piece of an access (R142): its address, its place in the result, its bytes (to store, or read). -/
structure Piece where
  va : Word
  off : Nat
  bytes : List Byte
  loc : Where
  /-- The tenant of the node that translated it (R103). -/
  tenant : Nat
  done : Bool
  /-- The detail code of a poisoned result (R66, R235), if this piece met one. -/
  bad : Option Byte
  deriving DecidableEq, Repr

/-- The operations of `amo` (R303). -/
inductive AmoOp where
  | add | and | or | xor | min | max | minu | maxu | swap | addF32
  deriving DecidableEq, Repr

/-- What an access does at its owner (R147, R160). -/
inductive AccKind where
  | load | store
  | amo (op : AmoOp)
  | cas (expected new : Word)
  | casp (e0 e1 n0 n1 : Word)
  | lds | ldf | stf | ste | ftag
  /-- The subtraction of `arrive` (R181). -/
  | arrive (n : Word)
  /-- A `tagpub` toward a peer's table (R207). -/
  | tagpub (obj tile gen cons : Nat)
  /-- The release of `hdone`: handle, partition and step (R203). -/
  | hdone (g part step : Nat)
  /-- The release of an arrival at the cell of this key (R56, R163). -/
  | barrier (key : Nat)
  /-- A `map` or `grant` into a space homed on a peer (R106): the source node, the source's virtual page, the pages, the rights, and
  the destination space and virtual page. -/
  | derive (grant : Bool) (node src pages rights space dst : Nat)
  deriving DecidableEq, Repr

/-- Where a result goes (R65): nowhere, a scalar register (with the result's bytes and sign), a pair, the bytes of a
vector register under a byte mask, or the window of a host function whose ROOT_SPACE command it ends (R256). -/
inductive Dest where
  | none
  | g (n : GNum) (signed : Bool)
  | pair (n : GNum)
  | v (n : VNum) (mask : BitVec 64)
  | host (fn : Nat)
  deriving DecidableEq, Repr

/-- How far an access has come. -/
inductive AccPhase where
  | flying
  /-- Waits at the owner of its word; the number orders the waiters (R148). -/
  | waiting (n : Nat)
  /-- Performed; its result is on its way back (R65). -/
  | returning
  deriving DecidableEq, Repr

/-- An access that was issued and not performed, or not returned yet (R142 to R164). -/
structure Access where
  uid : Nat
  ep : BitVec 32
  launch : Option Nat
  cid : Nat
  core : Nat
  kind : AccKind
  pieces : List Piece
  dest : Dest
  kf : Bool
  acq : Bool
  rel : Bool
  va : Word
  phase : AccPhase
  /-- The nodes that translated it. -/
  nodes : List Nat
  /-- Its failure has been reported. -/
  told : Bool
  /-- Device time of its first attempt at a peer, once it is sent there. -/
  first : Option Nat
  refused : Bool
  /-- A NACK has answered it (R164). -/
  nacked : Bool
  /-- Its destination takes P with this detail, or its thread traps with this cause under keep-full. -/
  failed : Option (Nat × Byte)
  deriving DecidableEq, Repr

/-- A register result on its way that no memory access makes (R65): a status, an endpoint, a barrier value. -/
structure Pending where
  uid : Nat
  dest : Dest
  bytes : List Byte
  bad : Option Byte
  kf : Bool
  /-- The node whose earlier translations must be performed first (R108). -/
  node : Option Nat
  /-- The tile and the accumulator slot that an `mrd` has read: the slot is not free before the fill (R193). -/
  slot : Option (Nat × Nat)
  /-- The core that a query of `endp` goes to: the bytes are what it finds there (R333). -/
  asks : Option Nat := none
  deriving DecidableEq, Repr

/-- What a forked child joins and takes from its parent (R38, R341). -/
structure Join where
  launch : Nat
  gang : Nat
  pool : Nat
  high : Bool
  idx : List Nat
  linear : Nat
  deriving DecidableEq, Repr

/-- A `fork` on its way (R38, R39). -/
structure ForkReq where
  uid : Nat
  core : Option Nat
  cid : Nat
  pc : Word
  first : Nat
  vals : List Word
  dest : GNum
  kf : Bool
  after : Nat
  /-- None when there is no gang to join (R341). -/
  join : Option Join
  deriving DecidableEq, Repr

/-- A node of the Watershed (R101). -/
structure Node where
  space : Nat
  vpage : Nat
  pages : Nat
  dev : Nat
  page : Nat
  rights : BitVec 5
  parent : Option Nat
  /-- The parent lies in the node store of this device (R106). -/
  parentDev : Option Nat
  depth : Nat
  tenant : Nat
  withdrawn : Bool
  deriving DecidableEq, Repr

/-- A child that a node of this device has in the node store of another device (R106). -/
structure Remote where
  parent : Nat
  dev : Nat
  page : Nat
  pages : Nat
  deriving DecidableEq, Repr

/-- A space (R101, R109, R389). -/
structure Space where
  tenant : Nat
  deleted : Bool
  deriving DecidableEq, Repr

/-- What a withdrawal fills when it completes (R110, R113, R120). -/
inductive WdDest where
  | reg (u : Nat) (dest : Dest) (kf : Bool)
  | host (fn : Nat)
  | peer (dev : Nat)
  | kill (cid : Nat)
  deriving DecidableEq, Repr

/-- A withdrawal in flight (R113 to R120). -/
structure Withdrawal where
  cid : Nat
  dest : WdDest
  /-- Physical ranges of the subtree roots: device, first page, pages. -/
  ranges : List (Nat × Nat × Nat)
  /-- The nodes still to sweep, in the order of the walk. -/
  left : List Nat
  /-- Nodes swept, which in-flight accesses may still use. -/
  swept : List Nat
  count : Nat
  /-- Stations of this device that have not installed the entry yet. -/
  uncut : List Nat
  /-- Peers whose acknowledgement is awaited, with the time of the first attempt. -/
  acks : List (Nat × Nat)
  /-- Earlier withdrawals that must complete first (R114). -/
  waits : List Nat
  /-- Holds every translation into its ranges until its sweep ends, since no filter entry was free at its cut (R118, R120). -/
  holds : Bool
  /-- It has a filter entry (R113, R120). -/
  entry : Bool
  /-- The nodes of this device above its roots: a later withdrawal of one of them contains this one (R114). -/
  above : List Nat
  /-- The space that is freed when this completes (R110). -/
  space : Option Nat
  started : Nat
  deriving DecidableEq, Repr

/-- The seal of a page: counters, faults, and its state in the seal cache (R123, R127, R130, R134). -/
structure Seal where
  ver : Nat
  gpar : Bool
  failed : Bool
  frozen : Bool
  cached : Bool
  dirty : Bool
  /-- The stored page or its counters no longer match the tag. -/
  broken : Bool
  deriving DecidableEq, Repr

/-- A key roll that runs: where its completion record goes, in the steward's space or to a host function's window (R135,
R256). -/
inductive Roll where
  | steward (addr : Word)
  | host (fn : Nat)
  deriving DecidableEq, Repr

/-- A tenant's keys: generation, version mark, running roll, whether the mark's notice came due, and whether it is still to be
written (R125, R128, R134, R135). While a roll runs two generations are live; `hnew` is the mark of the new one (R135, R136). -/
structure Tenant where
  kgen : Nat
  high : Nat
  roll : Option Roll
  hnew : Nat
  aging : Bool
  due : Bool
  deriving DecidableEq, Repr

/-- An arrival at the open phase of a barrier (R53). -/
structure Arrival where
  uid : Nat
  dest : Option GNum
  split : Bool
  kf : Bool
  retired : Bool
  /-- The accesses that the member issued before it are performed (R56, R163). -/
  covered : Bool
  deriving DecidableEq, Repr

/-- The barrier of a cell (R53). -/
structure BarCell where
  phase : Nat
  op : Nat
  acc : Word
  members : Nat
  exited : Nat
  arrivals : List Arrival
  deriving DecidableEq, Repr

/-- A level of a launch (R31). -/
structure Level where
  ext : Nat
  bind : Nat
  bar : Option Nat
  deriving DecidableEq, Repr

/-- An input declaration of a consumer block, as its 96 bits, with its producer's launch ID (R210). -/
structure Input where
  word : Nat
  lid : Nat
  deriving DecidableEq, Repr

/-- What a gang of a launch has come to (R223 to R225). -/
inductive GangSt where
  | waiting | held | placed | dropped
  deriving DecidableEq, Repr

/-- Where the completion record of a launch goes once its context is being killed (R120, R231): nowhere; to bytes of this device that
a node of some tenant maps; to another device; or it cannot be written. -/
inductive DoneAt where
  | none
  | here (key tenant : Nat)
  | away
  | failed (c : Cause)
  deriving DecidableEq, Repr

/-- An open launch (R30 to R37, R219). -/
structure Launch where
  cid : Nat
  addr : Word
  entry : Word
  lid : Nat
  donerec : Word
  args : List Word
  levels : List Level
  pool : Nat
  high : Bool
  hasin : Bool
  blklvl : Nat
  inputs : List Input
  queue : Option Nat
  prio : Nat
  taken : Nat
  gangs : Table GangSt
  readyAt : Table Nat
  /-- The cores on which a gang was placed (R36, R340). -/
  places : Table (List Nat)
  started : Option Nat
  /-- Device time that the context spent halted since the start (R229). -/
  pausedFor : Nat
  alive : Nat
  total : Nat
  retired : Nat
  failed : Nat
  /-- A gang was sent to another package (R32). -/
  away : Bool
  doneAt : DoneAt
  deriving DecidableEq, Repr

/-- The ladder of a context (R229 to R232). -/
structure Ladder where
  trigger : Nat
  start : Nat
  /-- Issue has ended: at grace expiry, or once every thread stopped (R230). -/
  halting : Bool
  /-- The grace timer of the ladder, as TIMERS left it at its start (R256). -/
  grace : Nat
  kill : Nat
  seq : Nat
  stoppedYield : Nat
  stoppedBoundary : Nat
  /-- The kill detail of a kill that goes on (R231, R232). -/
  detail : Nat
  /-- The context's ID is freed once the kill is over (R256). -/
  destroy : Bool
  /-- Host functions whose HALT or KILL ends with the ladder. -/
  answers : List Nat
  deriving DecidableEq, Repr

/-- A halted context: its trigger and everything its save extent holds (R233). -/
structure Saved where
  trigger : Nat
  cores : List Nat
  frames : List Nat
  since : Nat
  deriving DecidableEq, Repr

/-- The life of a context. -/
inductive CtxSt where
  | running
  | halted (s : Saved)
  | dead
  deriving DecidableEq, Repr

/-- A successor that an `exit` named: its record's address, and the exiting thread, whose accesses below a number come first
(R12, R40). -/
structure Successor where
  addr : Word
  uid : Nat
  after : Nat
  deriving DecidableEq, Repr

/-- A context: its block, its fault descriptor and its dispatcher state (R221, R237, R244, R40). -/
structure Context where
  fn : Nat
  /-- The order of creation (R259). -/
  born : Nat
  part : Nat
  tenant : Nat
  space : Nat
  st : CtxSt
  ovbase : Word
  ovcfg : Word
  ovhead : Nat
  ovtail : Nat
  savebase : Nat
  savesize : Nat
  grace : Nat
  kill : Nat
  wdog : Nat
  hang : Nat
  ladrep : Word
  fhentry : Word
  eqbase : Word
  eqcfg : Word
  errqhead : Word
  eqtail : Nat
  eqlost : Nat
  pendingInt : Bool
  devq : List Successor
  /-- Who named the entries of the overflow ring, oldest first; their addresses lie in the ring (R40, R222). -/
  ovq : List Successor
  counters : Vector Word 13
  ocsat : BitVec 13
  ladder : Option Ladder
  seq : Nat
  lastRetire : Nat
  /-- The launch IDs of launches that completed, each with the time of the last completion (R211, R225). -/
  completed : Table Nat
  /-- How many threads retired at `exit` in the last cycle in which one did, and that cycle (R241, R277). -/
  lastExits : Nat × Nat
  /-- A report with bit 24 set was written: the counters cannot change again (R269). -/
  final : Bool
  deriving DecidableEq, Repr

/-- A work queue of a function's range (R217, R218). -/
structure Queue where
  cid : Nat
  qbase : Word
  lsz : Nat
  prio : Nat
  quota : Nat
  headaddr : Word
  head : Nat
  tail : Nat
  opened : Bool
  fenced : Bool
  deriving DecidableEq, Repr

/-- A command that a host function runs, as far as it needs more than one step. -/
structure Command where
  code : BitVec 8
  cid : BitVec 16
  done : Bool
  status : Nat
  result : Nat
  deriving DecidableEq, Repr

/-- A host function: its BAR0 registers and its notices (R254, R255). -/
structure HostFn where
  part : Nat
  cmd : Option Command
  status : BitVec 8
  result : BitVec 32
  lost : Bool
  notices : List (Nat × Nat)
  ovf : Bool
  window : Vector Byte 256
  tails : Table Word
  /-- What the function's last read of `fltq` returned. -/
  fltq : Word
  msix0 : Nat
  msix1 : Nat
  deriving DecidableEq, Repr

/-- A partition (R258). -/
structure Partition where
  tenant : Nat
  sliced : Bool
  islands : List Nat
  groups : List Nat
  share : Nat
  slice : Nat
  qfirst : Nat
  qcount : Nat
  raw : List Byte
  deriving DecidableEq, Repr

/-- The state of a peer (R252). -/
inductive PeerSt where
  | absent | live | disabled | lost
  deriving DecidableEq, Repr

/-- A peer package: its state and what its join handshake sent (R252, R253). -/
structure Peer where
  st : PeerSt
  ident : List Byte
  /-- Its measurements M0 to M3, recorded with the identity (R253). -/
  measures : List (List Byte)
  deriving DecidableEq, Repr

/-- The job of a partition, open or closed last: its composition record (R261 to R264). -/
structure Job where
  id : List Byte
  members : List Nat
  /-- The members' identities at JOB_OPEN. -/
  idents : List (List Byte)
  openedAt : Nat
  /-- The members marked exchanged, each with the time of the first exchange. -/
  exchanged : Table Nat
  lost : List Nat
  closed : Bool
  deriving DecidableEq, Repr

/-- A Decrov port and its lane (R250, R251). -/
structure Port where
  live : Bool
  level : Nat
  seq : Nat
  replays : Nat
  lastFlit : Nat
  deriving DecidableEq, Repr

/-- An operand of an `mma`: a scratchpad base with its layout word (R188), or a run of vector registers with the bytes that it
held at issue (R190). -/
inductive MxOperand where
  | pool (base layout : Word)
  | run (x n : Nat) (bytes : List Byte)
  deriving DecidableEq, Repr

/-- A command in a core's matrix queue (R185). -/
inductive MxOp where
  | mma (ta tb : EType) (m : Nat) (a b : MxOperand)
  | mzero
  | mwr (sel src : Nat) (row : List (BitVec 32))
  | mrel
  deriving DecidableEq, Repr

/-- A matrix command with its slot, its issuer, how many of its k-blocks retired, and the weight of its grant (R185 to R187,
R195). -/
structure MxCmd where
  uid : Nat
  cid : Nat
  ep : BitVec 32
  launch : Option Nat
  slot : Nat
  handle : Nat
  op : MxOp
  blocks : Nat
  weight : Nat
  /-- Accesses of the thread numbered below this come before the reads of its operands (R152). -/
  after : Nat
  /-- Its POISON record is written (R366). -/
  told : Bool
  deriving DecidableEq, Repr

/-- An `mrd` that waits for its row (R192, R193). -/
structure Mrd where
  uid : Nat
  cid : Nat
  ep : BitVec 32
  slot : Nat
  handle : Nat
  sel : Nat
  dest : VNum
  kf : Bool
  deriving DecidableEq, Repr

/-- An accumulator slot that is not on the free list: its words, flags, watermark, poisoning, and a soft error whose record is
due (R191 to R193, R87, R246, R366). -/
structure AccSlot where
  owner : Option (Nat × Nat)
  words : List (BitVec 32)
  flags : BitVec 6
  rows : Nat
  poisoned : Bool
  soft : Bool
  softTold : Bool
  /-- `mrel` has retired. -/
  leaving : Bool
  deriving DecidableEq, Repr

/-- A frame of a halted context: what is saved of an agent besides its thread record (R76, R195): the images of its slots by
their old numbers, its matrix commands, its refill entries. -/
structure Frame where
  images : Table AccSlot
  cmds : List MxCmd
  refills : Table Mrd
  deriving DecidableEq, Repr

/-- A core area of a halted context: the pool's bytes and word states by offset, and what the core kept (R233). -/
structure CoreArea where
  bytes : List Host.Cell
  words : Table WordSt
  soft : List Nat
  pool : Nat
  inbox : List Message
  faults : List Delivery
  hlfsr : BitVec 32
  /-- Requests of the context that wait at the pool's words (R150). -/
  waiters : Table Access
  deriving DecidableEq, Repr

/-- A tile's matrix unit: the slots in use, the command queues of the eight core positions, the arbiter's pointer and what is
left of its grant, the waiting `mrd` reads and the waiters on the free list (R185, R186, R191). -/
structure Tile where
  slots : Table AccSlot
  queues : Table (List MxCmd)
  pointer : Nat
  units : Nat
  reads : Table Mrd
  waiters : List (Nat × Nat)
  deriving DecidableEq, Repr

/-- A block of a quantising transfer that was read in full: its elements' codes, each with the flags it raises, and its scale (R179,
R87, R92). -/
structure XBlock where
  elems : List (Nat × BitVec 6)
  scale : Nat
  deriving DecidableEq, Repr

/-- A transfer in a station's table (R178, R184). -/
structure Transfer where
  uid : Nat
  cid : Nat
  ep : BitVec 32
  launch : Option Nat
  core : Nat
  station : Nat
  shape : Shape
  dst : Word
  src : Word
  ctr : Word
  frm : BitVec 3
  seed : BitVec 32
  /-- Accesses of the thread numbered below this come before the reads of its sources (R152). -/
  after : Nat
  /-- The first element of each destination word that landed or was reported. -/
  landed : List Nat
  /-- Those of them that were not written. -/
  missed : List Nat
  blocks : Table XBlock
  parked : Bool
  /-- Failed seals that were reported (R130). -/
  badSeals : List Nat
  /-- A delivery that found its count word in P was reported (R422). -/
  ctrTold : Bool
  deriving DecidableEq, Repr

/-- The state of a ghost buffer (R203). -/
inductive BufSt where
  | none | filling (t : Nat) | ready (t : Nat) | released (t : Nat)
  deriving DecidableEq, Repr

/-- A ghost buffer: its state, its pending release, and the step of its stamp (R204). -/
structure GhostBuf where
  st : BufSt
  pending : Option Nat
  stamp : Option Nat
  deriving DecidableEq, Repr

/-- That a publication of a step by a partition has filled a piece, by the piece's partition and index (R201). -/
structure Mark where
  part : Nat
  step : Nat
  q : Nat
  f : Nat
  deriving DecidableEq, Repr

/-- A binding of a grid handle in a context (R196 to R204): the header and the partition table that its `gdecl` read, the
highest step each partition has published, the marks, and the buffers. -/
structure Binding where
  header : List Word
  parts : List (List Word)
  last : Table Nat
  marks : List Mark
  bufs : Table GhostBuf
  deriving DecidableEq, Repr

/-- A publication in the halo engine (R201). -/
structure Publication where
  uid : Nat
  cid : Nat
  ep : BitVec 32
  launch : Option Nat
  g : Nat
  part : Nat
  step : Nat
  /-- The pieces still to fill, by partition and index. -/
  left : List (Nat × Nat)
  /-- Accesses of the thread numbered below this come before the reads of its interior (R171). -/
  after : Nat
  /-- When the wait for the next piece's buffer began. -/
  waiting : Option Nat
  /-- When the next piece's write was first refused (R198). -/
  first : Option Nat
  /-- A NACK has answered the next piece's write (R164, R198). -/
  nacked : Bool
  /-- Interior words whose failure was reported (R201). -/
  told : List Nat
  deriving DecidableEq, Repr

/-- A Confluence entry (R206). -/
structure Tag where
  gen : BitVec 16
  left : BitVec 16
  cid : Nat
  /-- When the entry took its generation (R225). -/
  since : Nat
  deriving DecidableEq, Repr

/-- Whose turn it is, with the device cycles that pass before it: an event from outside the cores, or an issue of one core.
The model's own (log 1). -/
inductive Turn where
  | event (dt : Nat) (i : Instr)
  | core (dt : Nat) (c : Nat)
  deriving DecidableEq, Repr

/-- A write of firmware whose translation is held: an error-queue record of a context with its cause code, or bytes of the root
space (R118, R120, R232, R243). -/
inductive Late where
  | record (cid code : Nat) (bytes : List Byte)
  | root (va : Word) (bytes : List Byte)
  deriving DecidableEq, Repr

/-- The machine. -/
structure State where
  /- The agents of the cores. -/
  threads : Table Thread
  saved : Table Thread
  frames : Table Frame
  areas : Table CoreArea
  cores : Table Core
  islands : Table Island
  channels : Table Channel
  /- Memory and words. -/
  mem : List Host.Cell
  words : Table WordSt
  softWords : List Nat
  hist : Table (List (Nat × BitVec 16))
  seals : Table Seal
  owner : Table Nat
  tenants : Table Tenant
  /- The counters of the version tree: in L2 nodes over L1 nodes, in L3 nodes over L2 nodes, in station SRAM over L3 nodes; each
  with the value of a node that is not listed (R123, R128). -/
  l2 : Table Nat
  l3 : Table Nat
  sram : Table Nat
  l2base : Nat
  l3base : Nat
  sramBase : Nat
  devErrors : List Nat
  /- Accesses, results and requests on their way. -/
  accs : Table Access
  pending : Table Pending
  msgs : Table Message
  forks : Table ForkReq
  /- Spaces. -/
  nodes : Table Node
  remotes : Table Remote
  spaces : Table Space
  wds : Table Withdrawal
  /-- Writes of firmware that wait for a held translation, oldest first. -/
  late : List Late
  /- Engines. -/
  tiles : Table Tile
  xfers : Table Transfer
  grids : Table Binding
  pubs : Table Publication
  tags : Table Tag
  /- Launches and contexts. -/
  launches : Table Launch
  bars : Table BarCell
  contexts : Table Context
  queues : Table Queue
  lastQueue : Table Nat
  /-- Of the sliced partition: the context whose turn it is, by its order of creation, and the start of its slice (R259). -/
  runningSlice : Table (Nat × Nat)
  /- The host and the fabric. -/
  fns : Table HostFn
  hostMem : List Host.Cell
  parts : Table Partition
  jobs : Table Job
  peers : Table Peer
  ports : Table Port
  device : Nat
  time : Nat
  boot : BitVec 2
  why : BitVec 8
  measures : List (List Byte)
  /- The model's own (logs 1, 2). -/
  cur : Option Nat
  agenda : List Turn
  nextId : Nat
  wclock : Nat
  draws : Nat
  deriving DecidableEq, Repr


/-- The device after reset (R20, R252 to R258, R270): boot ROM running, no image, no partition, nothing in memory. -/
def State.reset : State :=
  { threads := [], saved := [], frames := [], areas := [], cores := [], islands := [], channels := []
    mem := [], words := [], softWords := [], hist := [], seals := [], owner := [], tenants := [], l2 := [], l3 := [], sram := [], l2base := 0, l3base := 0, sramBase := 0
    devErrors := []
    accs := [], pending := [], msgs := [], forks := []
    nodes := [], remotes := [], spaces := [(0, { tenant := 0, deleted := false })], wds := [], late := []
    tiles := [], xfers := [], grids := [], pubs := [], tags := []
    launches := [], bars := [], contexts := [], queues := [], lastQueue := [], runningSlice := []
    fns := [], hostMem := [], parts := [], jobs := [], peers := [], ports := []
    device := 0, time := 0, boot := 0, why := 0, measures := []
    cur := none, agenda := [], nextId := 0, wclock := 0, draws := 0 }

end Sys2Proof.Machine
end

