-- ==== Sys2Proof/Machine/Basic.lean ====
section
/-! DEFINITION. The plainest operations over the state: sparse tables, memory cells in canonical form, little-endian
bytes, the numbering of cores and addresses, registers. -/

namespace Sys2Proof.Machine

open Sys2Proof

/-- The outcome of a step of this machine. -/
abbrev Out := Host.Outcome State Fault Refusal

/-- The entry of a table at a key. -/
def tget {α : Type} (k : Nat) : Table α → Option α
  | [] => none
  | (j, a) :: t => if k = j then some a else tget k t

/-- Sets the entry of a table at a key. -/
def tput {α : Type} (k : Nat) (x : α) : Table α → Table α
  | [] => [(k, x)]
  | (j, a) :: t => if k < j then (k, x) :: (j, a) :: t else if k = j then (k, x) :: t else (j, a) :: tput k x t

/-- Removes the entry of a table at a key. -/
def tdel {α : Type} (k : Nat) : Table α → Table α
  | [] => []
  | (j, a) :: t => if k = j then tdel k t else (j, a) :: tdel k t

/-- Changes every entry of a table. -/
def tmap {α : Type} (f : Nat → α → α) (t : Table α) : Table α := t.map fun e => (e.1, f e.1 e.2)

/-- The first entry of a table with a property. -/
def tfind {α : Type} (p : Nat → α → Bool) : Table α → Option (Nat × α)
  | [] => none
  | (j, a) :: t => if p j a then some (j, a) else tfind p t

/-- What a byte of memory that nothing has written reads as: zero, for a pool after power-up (R20), and for Pysil memory by
the model's choice (DESIGN CHOICE, log 4). -/
def blankByte : Byte := 0

/-- Reading one byte. -/
def memByte (m : List Host.Cell) (a : Nat) : Byte :=
  match m with
  | [] => blankByte
  | (j, b) :: t => if a = j then b else memByte t a

/-- Writing one byte, keeping the canonical form: rising addresses, and no entry equal to a blank byte. -/
def memPut (m : List Host.Cell) (a : Nat) (b : Byte) : List Host.Cell :=
  match m with
  | [] => if b = blankByte then [] else [(a, b)]
  | (j, c) :: t =>
    if a < j then (if b = blankByte then (j, c) :: t else (a, b) :: (j, c) :: t)
    else if a = j then (if b = blankByte then t else (a, b) :: t)
    else (j, c) :: memPut t a b

/-- Memory lists rising addresses and no blank byte. -/
def Memory.wf : List Host.Cell → Bool
  | [] => true
  | (a, b) :: t => decide (b ≠ blankByte) && (match t with | [] => true | (j, _) :: _ => decide (a < j)) && Memory.wf t

/-- Reading `n` bytes, lowest address first. -/
def memBytes (m : List Host.Cell) (a : Nat) : Nat → List Byte
  | 0 => []
  | n + 1 => memByte m a :: memBytes m (a + 1) n

/-- Writing bytes, lowest address first. -/
def memPutBytes (m : List Host.Cell) (a : Nat) : List Byte → List Host.Cell
  | [] => m
  | b :: bs => memPutBytes (memPut m a b) (a + 1) bs

/-- The number that bytes hold, least significant byte first (R3). -/
def leNat : List Byte → Nat
  | [] => 0
  | b :: bs => b.toNat + 256 * leNat bs

/-- The `n` bytes of a number, least significant byte first (R3). -/
def leBytes : Nat → Nat → List Byte
  | 0, _ => []
  | n + 1, x => BitVec.ofNat 8 x :: leBytes n (x / 256)

/-- The low 64 bits of a number. -/
def w64 (n : Nat) : Word := BitVec.ofNat 64 n

/-- A bit field of a number. -/
def bitsOf (x lo n : Nat) : Nat := x / 2 ^ lo % 2 ^ n

/-- The largest 64-bit value a counter saturates at. -/
def max64 : Nat := 2 ^ 64 - 1

/-! ### The numbering of R13 and R14 -/

/-- The steward core of a die (R71): it lies outside the clusters, so the model numbers it from 4096. -/
def stewardCore (die : Nat) : Nat := 4096 + die
/-- Whether a core is a steward core. -/
def isSteward (c : Nat) : Bool := decide (4096 ≤ c)
/-- The die of a core. -/
def dieOf (c : Nat) : Nat := if isSteward c then c - 4096 else c / 1024
/-- The cluster of a core, numbered over the device. -/
def clusterOf (c : Nat) : Nat := if isSteward c then (c - 4096) * 4 else c / 256
/-- The tile of a core, numbered over the device. -/
def tileOf (c : Nat) : Nat := c / 8
/-- The island of a core, numbered over the device. -/
def islandOf (c : Nat) : Nat := c / 32

/-- Where the pool of a core begins in the model's memory; physical memory lies below 2^48 (R21). -/
def poolBase (c : Nat) : Nat := 2 ^ 48 + c * 2 ^ 19
/-- The bytes of a pool (R13). -/
def poolSize : Nat := 0x60000
/-- Whether a memory key is a pool byte. -/
def isPoolKey (k : Nat) : Bool := decide (2 ^ 48 ≤ k)
/-- The core whose pool a key lies in. -/
def poolCore (k : Nat) : Nat := (k - 2 ^ 48) / 2 ^ 19

/-- The vector registers per thread of a pool code (R30). -/
def poolRegs (code : Nat) : Nat := match code with | 0 => 0 | 1 => 8 | 2 => 16 | _ => 32
/-- Where the vector storage of a pool begins (R61). -/
def vbaseOf (code : Nat) : Nat := 0x60000 - 512 * poolRegs code
/-- Where a vector register is held (R61). -/
def vregKey (c code slot v : Nat) : Nat := poolBase c + vbaseOf code + (slot * poolRegs code + v) * 64

/-- The station that owns a physical address (R21). -/
def ownerStation (p : Nat) : Nat := p / 0xC0000000
/-- The channel of a physical address: station and page mod 8 (R21). -/
def channelOf (p : Nat) : Nat := ownerStation p * 8 + p % 0xC0000000 / 4096 % 8

/-- A core after power-up (R20, R28); no reset value of a slot generation is given (log 3). -/
def Core.blank : Core :=
  { ctx := none, gens := Vector.replicate 9 0, pool := 0, inbox := [], faults := [], hlfsr := 1, tenant := 0, last := none, absent := false
    vecLeft := 2, went := [] }
/-- A core begins a control cycle (R228). -/
def Core.newCycle (x : Core) : Core := { x with vecLeft := 2, went := [] }
/-- A core of the device. -/
def State.core (s : State) (c : Nat) : Core := (tget c s.cores).getD Core.blank
/-- Replaces a core. -/
def State.setCore (s : State) (c : Nat) (x : Core) : State := { s with cores := tput c x s.cores }

/-- An island after power-up. -/
def Island.blank : Island := { gated := false, point := .f0, spareUsed := false, reserved := none }
/-- An island of the device. -/
def State.island (s : State) (i : Nat) : Island := (tget i s.islands).getD Island.blank

/-- A seal whose version and status are 0 (R123); that they are so after reset is the model's choice (log 3). -/
def Seal.blank : Seal :=
  { ver := 0, gpar := false, failed := false, frozen := false, cached := false, dirty := false, broken := false }
/-- A tenant that owns nothing (R136), whose key generation and version mark begin at 0 (log 3). -/
def Tenant.blank : Tenant := { kgen := 0, high := 0, roll := none, hnew := 0, aging := false, due := false }
/-- The parity that selects a tenant's current generation (R125). -/
def Tenant.parity (x : Tenant) : Bool := x.kgen % 2 == 1
/-- A tenant. -/
def State.tenant (s : State) (t : Nat) : Tenant := (tget t s.tenants).getD Tenant.blank
/-- Replaces a tenant. -/
def State.setTenant (s : State) (t : Nat) (x : Tenant) : State := { s with tenants := tput t x s.tenants }

/-- The seal of a page. A page that nothing has touched is owned by tenant 0 and sealed under its generation (R103, R125). -/
def State.seal (s : State) (pg : Nat) : Seal :=
  (tget pg s.seals).getD { Seal.blank with gpar := (s.tenant 0).kgen % 2 == 1 }
/-- Replaces a seal. -/
def State.setSeal (s : State) (pg : Nat) (x : Seal) : State := { s with seals := tput pg x s.seals }

/-- The largest version or counter of the version tree (R134). -/
def maxVersion : Nat := 2 ^ 48 - 1
/-- The pages that can be sealed in a station's range (R122). -/
def stationSeals : Nat := 761856
/-- The pages that can be sealed on a device. -/
def deviceSeals : Nat := 128 * stationSeals
/-- The number of a page's seal over the device, whole nodes of eight children at every level of the tree (R123). -/
def sealNo (pg : Nat) : Nat := pg / 786432 * stationSeals + pg % 786432
/-- The L1 node of a page, numbered over the device (R123). -/
def l1Of (pg : Nat) : Nat := sealNo pg / 8
/-- The L2 node of a page. -/
def l2Of (pg : Nat) : Nat := sealNo pg / 64
/-- The L3 node of a page. -/
def l3Of (pg : Nat) : Nat := sealNo pg / 512
/-- The L2 counter over an L1 node. -/
def State.l2Ctr (s : State) (i : Nat) : Nat := (tget i s.l2).getD s.l2base
/-- The L3 counter over an L2 node. -/
def State.l3Ctr (s : State) (i : Nat) : Nat := (tget i s.l3).getD s.l3base
/-- The SRAM counter over an L3 node. -/
def State.sramCtr (s : State) (i : Nat) : Nat := (tget i s.sram).getD s.sramBase
/-- Whether a seal is frozen: its version, the L2 counter over its L1 node, or the L3 counter over its L2 node is spent
(R134). -/
def sealFrozen (s : State) (pg : Nat) : Bool :=
  (s.seal pg).frozen || s.l2Ctr (l1Of pg) == maxVersion || s.l3Ctr (l2Of pg) == maxVersion

/-- One more writeback of each of these nodes. -/
def raiseCtrs (base : Nat) (is : List Nat) (t : Table Nat) : Table Nat :=
  is.foldl (fun c i => tput i (min ((tget i c).getD base + 1) maxVersion) c) t
/-- L1 nodes are written back, and with each its path of the version tree, up to the SRAM of its station (R128; log 16). -/
def raisePaths (s : State) (l1s : List Nat) : State :=
  { s with l2 := raiseCtrs s.l2base l1s s.l2
           l3 := raiseCtrs s.l3base (l1s.map (· / 8)).eraseDups s.l3
           sram := raiseCtrs s.sramBase (l1s.map (· / 64)).eraseDups s.sram }

/-- A free value for what the spec leaves open, and the state after its draw (log 15). -/
def drawField (s : State) : Nat × State := (Config.openField s.draws, { s with draws := s.draws + 1 })

/-- The first number below n from a start on, in a circle, that is not in use. -/
def pickUnused (used : Nat → Bool) (start n : Nat) : Option Nat :=
  ((List.range n).map fun i => (start + i) % n).find? fun i => !used i

/-- The owner of a page in the ownership table (R103). -/
def State.ownerOf (s : State) (pg : Nat) : Nat := (tget pg s.owner).getD 0

/-- A port of a device after reset (R250, R251). -/
def Port.blank : Port := { live := true, level := 0, seq := 0, replays := 0, lastFlit := 0 }

/-- A peer: the device's own number is LIVE, every other ABSENT at reset (R252). -/
def State.peer (s : State) (d : Nat) : Peer :=
  (tget d s.peers).getD { st := if d = s.device then .live else .absent, ident := [], measures := [] }

/-- A host function after reset: registers 0, bound to partition 0 (R254). -/
def HostFn.blank : HostFn :=
  { part := 0, cmd := none, status := 0, result := 0, lost := false, notices := [], ovf := false
    window := Vector.replicate 256 0, tails := [], fltq := 0, msix0 := 0, msix1 := 0 }
/-- No partition: what a VF is bound to before the PF binds it (log 19). -/
def noPart : Nat := 64
/-- A host function: the PF is bound to partition 0 (R254). -/
def State.fn (s : State) (n : Nat) : HostFn := (tget n s.fns).getD { HostFn.blank with part := if n = 0 then 0 else noPart }
/-- Replaces a host function. -/
def State.setFn (s : State) (n : Nat) (f : HostFn) : State := { s with fns := tput n f s.fns }

/-- Bytes written into a function's window (R254). -/
def HostFn.put (f : HostFn) (off : Nat) (bs : List Byte) : HostFn :=
  { f with window := bs.zipIdx.foldl (fun w e => w.set! (off + e.2) e.1) f.window }
/-- The running command of a function is over; COMMAND_END then clears `busy` (R255). -/
def HostFn.finish (f : HostFn) (status result : Nat) : HostFn :=
  { f with cmd := f.cmd.map fun c => { c with done := true, status := status, result := result } }
/-- A command of a function is over. -/
def endCommand (s : State) (n status result : Nat) : State := s.setFn n ((s.fn n).finish status result)
/-- A ROOT_SPACE command ends with its status word (R256). -/
def endRootSpace (s : State) (n : Nat) (bs : List Byte) : State :=
  s.setFn n (((s.fn n).put 0 (bs.take 8)).finish 0 (leNat (bs.take 4)))

/-- A memory channel of this device. -/
def State.channel (s : State) (ch : Nat) : Channel := (tget ch s.channels).getD { spares := 0, withdrawn := false }
/-- The state that an unlisted word has: E in a pool (R20), F in Pysil memory (log 4). -/
def defaultWord (k : Nat) : WordSt := if isPoolKey (k * 8) then .empty else .full
/-- Whether a word lies in a channel that was withdrawn from service: it is P (R23). -/
def lostWord (s : State) (k : Nat) : Bool := !isPoolKey (k * 8) && (s.channel (channelOf (k * 8))).withdrawn
/-- The state of the 8-byte word numbered `k` (R146). -/
def State.word (s : State) (k : Nat) : WordSt := if lostWord s k then .poison else (tget k s.words).getD (defaultWord k)
/-- Sets the state of a word. A word of a channel that was withdrawn from service stays P whatever is written there (R23; DESIGN CHOICE,
log 66). -/
def State.setWord (s : State) (k : Nat) (w : WordSt) : State :=
  if lostWord s k then s
  else if w = defaultWord k then { s with words := tdel k s.words } else { s with words := tput k w s.words }
/-- Whether a word is in P by an uncorrectable soft error whose record is due (R23, R246). -/
def softHere (s : State) (k : Nat) : Bool :=
  s.word k == .poison && (s.softWords.contains k || (lostWord s k && tget k s.words != some .poison))
/-- The record of a soft error of a word is written. -/
def softTold (s : State) (k : Nat) : State :=
  { s with softWords := s.softWords.filter (· != k), words := if lostWord s k then tput k .poison s.words else s.words }

/-- The code of a word state (R146). -/
def WordSt.code : WordSt → Nat
  | .empty => 0 | .full => 1 | .poison => 2

/-- The code of a register state in a record (R76). -/
def RegSt.code : RegSt → Nat
  | .empty => 0 | .full => 1 | .poison => 2

/-! ### Threads and their registers -/

/-- A scalar register that is full. -/
def GReg.ofWord (w : Word) : GReg := { val := w, st := .full, src := 0, det := 0 }
/-- A vector register's code when full. -/
def VReg.fullReg : VReg := { st := .full, src := 0, det := 0 }

/-- The value of a scalar register. -/
def Thread.gval (t : Thread) (n : GNum) : Word := (t.g.get n).val
/-- Writes a scalar register, which leaves it full (R65, R66). -/
def Thread.setG (t : Thread) (n : GNum) (w : Word) : Thread := { t with g := t.g.set n (GReg.ofWord w) }
/-- Empties a scalar register for a result on its way; its value stays (R65, R69). -/
def Thread.emptyG (t : Thread) (n : GNum) : Thread :=
  { t with g := t.g.set n { val := t.gval n, st := .empty, src := 0, det := 0 } }
/-- Empties a vector register. -/
def Thread.emptyV (t : Thread) (n : VNum) : Thread :=
  { t with v := t.v.set n { st := .empty, src := 0, det := 0 } }
/-- Poisons a scalar register; its value stays (R66). -/
def Thread.poisonG (t : Thread) (n : GNum) (src : Word) (det : Byte) : Thread :=
  { t with g := t.g.set n { val := t.gval n, st := .poison, src := src, det := det } }
/-- Poisons a vector register. -/
def Thread.poisonV (t : Thread) (n : VNum) (src : Word) (det : Byte) : Thread :=
  { t with v := t.v.set n { st := .poison, src := src, det := det } }

/-- A privilege level (R71). -/
inductive Priv where
  | thread | handler | steward
  deriving DecidableEq, Repr

/-- The level at which an agent runs (R71). -/
def Thread.level (t : Thread) : Priv :=
  if isSteward t.core then .steward
  else match t.kind with
    | .faultRun _ => .handler
    | _ => .thread

/-- Whether an agent is a message handler or a fault run: it runs in the handler slot (R46, R238). -/
def Thread.inHandler (t : Thread) : Bool :=
  match t.kind with
  | .thread => false
  | _ => true

/-- The endpoint of a slot of this device (R43). No endpoint names a steward core (R71): it reads as 0 there (log 10). -/
def endpoint (s : State) (c slot : Nat) : BitVec 32 :=
  if isSteward c then 0
  else BitVec.ofNat 32 (s.device * 2 ^ 23 + c * 2 ^ 11 + slot * 2 ^ 7 + ((s.core c).gens.toList.getD slot 0).toNat)

/-- The endpoint of an agent. -/
def epOf (s : State) (t : Thread) : BitVec 32 := endpoint s t.core t.slot

/-- The data of a vector register: 64 bytes, lowest first (R60, R61). -/
def vBytes (s : State) (t : Thread) (n : VNum) : List Byte := memBytes s.mem (vregKey t.core t.pool t.slot n) 64
/-- The data of a vector register as one number, byte 0 lowest. -/
def vval (s : State) (t : Thread) (n : VNum) : BitVec 512 := BitVec.ofNat 512 (leNat (vBytes s t n))
/-- Writes the data of a vector register; the word states of the pool stay (R62). -/
def setVData (s : State) (t : Thread) (n : VNum) (x : BitVec 512) : State :=
  { s with mem := memPutBytes s.mem (vregKey t.core t.pool t.slot n) (leBytes 64 x.toNat) }

/-- Whether the register exists in the agent's pool (R63). -/
def Thread.hasV (t : Thread) (n : VNum) : Bool := decide (n.val < poolRegs t.pool)

/-- The context of an agent. -/
def State.ctx? (s : State) (c : Nat) : Option Context := tget c s.contexts
/-- Replaces a context. -/
def State.setCtx (s : State) (c : Nat) (x : Context) : State := { s with contexts := tput c x s.contexts }
/-- Changes a context, if it exists. -/
def State.modCtx (s : State) (c : Nat) (f : Context → Context) : State :=
  match tget c s.contexts with
  | some x => s.setCtx c (f x)
  | none => s
/-- Changes an agent, if it is resident. -/
def State.modThread (s : State) (u : Nat) (f : Thread → Thread) : State :=
  match tget u s.threads with
  | some t => { s with threads := tput u (f t) s.threads }
  | none => s
/-- Changes an agent, resident or saved (R77). -/
def State.modAgent (s : State) (u : Nat) (f : Thread → Thread) : State :=
  match tget u s.threads with
  | some _ => s.modThread u f
  | none => match tget u s.saved with
    | some t => { s with saved := tput u (f t) s.saved }
    | none => s
/-- An agent, resident or saved. -/
def State.agent? (s : State) (u : Nat) : Option Thread :=
  match tget u s.threads with
  | some t => some t
  | none => tget u s.saved
/-- Replaces a resident agent. -/
def State.setThread (s : State) (u : Nat) (t : Thread) : State := { s with threads := tput u t s.threads }

/-- Whether an agent waits for something of a kind. -/
def Thread.waitsFor (t : Thread) (p : Wait → Bool) : Bool :=
  match t.status with
  | .blocked w => p w
  | _ => false

/-- Makes the Blocked agents with a property Ready (R29); one that executes its instruction again waits again if its
condition does not hold. -/
def State.wake (s : State) (p : Nat → Thread → Bool) : State :=
  { s with threads := tmap (fun u t =>
      match t.status with
      | .blocked _ => if p u t then { t with status := .ready, since := s.time } else t
      | _ => t) s.threads }

/-- Makes the agents Ready that wait for this. -/
def State.wakeAll (s : State) (w : Wait) : State := s.wake fun _ t => t.waitsFor (· == w)
/-- Makes one agent Ready, if it waits for this. -/
def State.wakeOne (s : State) (u : Nat) (w : Wait) : State := s.wake fun j t => j == u && t.waitsFor (· == w)

/-- Threads alone, or handlers too, that are in a slot. -/
def agentAt (s : State) (c slot : Nat) : Option (Nat × Thread) := tfind (fun _ t => t.core == c && t.slot == slot) s.threads

/-- Whether a seal lies under the generation that a running roll of its owner draws: its `gpar` names the other parity (R125,
R136). -/
def underNew (s : State) (pg : Nat) : Bool :=
  let t := s.tenant (s.ownerOf pg)
  t.roll.isSome && (s.seal pg).gpar != t.parity

/-- A seal of a tenant takes a version under a generation: the mark H rises to it, or that of the generation which a roll draws. H's
first reaching of 2^48 − 2^32 under a generation makes a notice due (R128, R134). -/
def raiseMark (s : State) (t v : Nat) (new : Bool) : State :=
  let x := s.tenant t
  if new then s.setTenant t { x with hnew := max x.hnew v }
  else
    let fresh := decide (2 ^ 48 - 2 ^ 32 ≤ max x.high v) && !x.aging
    s.setTenant t { x with high := max x.high v, aging := x.aging || fresh, due := x.due || fresh }

/-- A dirty seal takes its next version under its owner's current generation, one that a running roll has passed under the new one,
and the path of the version tree is written back with it (R128, R134, R135; log 16). -/
def versionUp (s : State) (pg : Nat) : State :=
  let x := s.seal pg
  let t := s.ownerOf pg
  let v := x.ver + 1
  let new := underNew s pg
  let s1 := s.setSeal pg { x with ver := v, gpar := (s.tenant t).parity != new, frozen := v == maxVersion, dirty := false, broken := false }
  raiseMark (raisePaths s1 [l1Of pg]) t v new

/-- A seal leaves its station's cache; a dirty one is written back (R127, R128). -/
def evict (s : State) (pg : Nat) : State :=
  let s1 := if (s.seal pg).dirty then versionUp s pg else s
  s1.setSeal pg { s1.seal pg with cached := false }

/-- Room for one more seal in the 512 places of its station's cache: which seal leaves a full cache is a free value (R1, R127;
log 15). -/
def makeRoom (s : State) (pg : Nat) : State :=
  let here := s.seals.filter fun e => e.1 / 786432 == pg / 786432 && e.2.cached
  if here.length < 512 then s
  else
    let d := drawField s
    match here[d.1 % here.length]? with
    | some e => evict d.2 e.1
    | none => d.2

/-- The plaintext of a seal stands in its station's cache (R127, R129). -/
def install (s : State) (pg : Nat) : State :=
  if (s.seal pg).cached then s
  else
    let s1 := makeRoom s pg
    s1.setSeal pg { s1.seal pg with cached := true }

/-- Whether the keys of a seal are held: `gpar` selects its owner's current generation, or the other live one while a roll runs
(R125). -/
def keysHeld (s : State) (pg : Nat) : Bool :=
  let t := s.tenant (s.ownerOf pg)
  (s.seal pg).gpar == t.parity || t.roll.isSome

/-- Marks that a seal is needed and says whether its page can be read (R127, R130, R132): a fill verifies and installs the
page, or sets `failed` for good. -/
def sealFill (s : State) (pg : Nat) : Bool × State :=
  let x := s.seal pg
  if x.failed then (false, s)
  else if x.cached then (true, s)
  else if x.broken || !keysHeld s pg then (false, s.setSeal pg { x with failed := true })
  else (true, install s pg)

/-- Writes bytes at an owner, noting each instruction word's earlier value for fetches (R153). -/
def putBytes (s : State) (key : Nat) (bs : List Byte) : State :=
  let first := key / 2
  let last := (key + bs.length - 1) / 2
  let old := (List.range (last - first + 1)).map fun i =>
    (first + i, BitVec.ofNat 16 (leNat (memBytes s.mem ((first + i) * 2) 2)))
  { s with
    mem := memPutBytes s.mem key bs
    wclock := s.wclock + 1
    hist := old.foldl (fun h e => tput e.1 ((s.wclock, e.2) :: (tget e.1 h).getD []) h) s.hist }

/-- Marks a page written since its last writeback (R128). -/
def dirtyPage (s : State) (pg : Nat) : State :=
  let s1 := install s pg
  s1.setSeal pg { s1.seal pg with cached := true, dirty := true }

end Sys2Proof.Machine
end

