-- ==== Sys2Proof/Machine/Flags.lean ====
section
/-! DEFINITION. Number formats, exact arithmetic, rounding and the numeric flags (R79 to R93, R95, R96). A floating value is
decoded to an exact dyadic number, computed on exactly, and rounded once. -/

namespace Sys2Proof.Machine

open Sys2Proof

/-- The numeric flags in the arrangement of `fflags` (R72). -/
abbrev Flags := BitVec 6

/-- Invalid. -/
def flInvalid : Flags := 1
/-- Divide by zero. -/
def flDivzero : Flags := 2
/-- Overflow. -/
def flOverflow : Flags := 4
/-- Underflow. -/
def flUnderflow : Flags := 8
/-- Inexact. -/
def flInexact : Flags := 16
/-- Saturated. -/
def flSat : Flags := 32

/-- A floating-point format (R79): width of the exponent and mantissa fields, bias, infinity, and whether its all-ones
exponent holds numbers too (e4m3, and the formats without NaN). -/
structure Fmt where
  bits : Nat
  eb : Nat
  p : Nat
  bias : Nat
  hasInf : Bool
  hasNan : Bool
  canon : Nat
  deriving DecidableEq, Repr

/-- The formats of R79, with the canonical NaN of R81. Integer types have none; f32 stands in their place. -/
def fmtOf : EType → Fmt
  | .f64 => ⟨64, 11, 52, 1023, true, true, 0x7FF8000000000000⟩
  | .f16 => ⟨16, 5, 10, 15, true, true, 0x7E00⟩
  | .bf16 => ⟨16, 8, 7, 127, true, true, 0x7FC0⟩
  | .e5m2 => ⟨8, 5, 2, 15, true, true, 0x7E⟩
  | .e4m3 => ⟨8, 4, 3, 7, false, true, 0x7F⟩
  | .e3m2 => ⟨6, 3, 2, 3, false, false, 0⟩
  | .e2m3 => ⟨6, 2, 3, 1, false, false, 0⟩
  | .e2m1 => ⟨4, 2, 1, 1, false, false, 0⟩
  | _ => ⟨32, 8, 23, 127, true, true, 0x7FC00000⟩

/-- An exact value: NaN, an infinity, or (−1)^neg × m × 2^e. -/
inductive FVal where
  | nan
  | inf (neg : Bool)
  | fin (neg : Bool) (m : Nat) (e : Int)
  deriving DecidableEq, Repr

/-- The value of an encoding (R79, R80). -/
def decodeF (t : EType) (x : Nat) : FVal :=
  let f := fmtOf t
  let neg := x / 2 ^ (f.bits - 1) % 2 = 1
  let e := x / 2 ^ f.p % 2 ^ f.eb
  let m := x % 2 ^ f.p
  if e = 0 then .fin neg m (1 - f.bias - f.p)
  else if f.hasInf && e == 2 ^ f.eb - 1 then (if m = 0 then .inf neg else .nan)
  else if f.hasNan && !f.hasInf && e == 2 ^ f.eb - 1 && m == 2 ^ f.p - 1 then .nan
  else .fin neg (2 ^ f.p + m) ((e : Int) - f.bias - f.p)

/-- The largest finite magnitude of a format: a p+1 bit mantissa and its exponent (R79). -/
def Fmt.maxFin (f : Fmt) : Nat × Int :=
  if f.hasInf then (2 ^ (f.p + 1) - 1, ((2 ^ f.eb - 2 : Nat) : Int) - f.bias - f.p)
  else if f.hasNan then (2 ^ (f.p + 1) - 2, ((2 ^ f.eb - 1 : Nat) : Int) - f.bias - f.p)
  else (2 ^ (f.p + 1) - 1, ((2 ^ f.eb - 1 : Nat) : Int) - f.bias - f.p)

/-- The encoding of the largest finite magnitude. -/
def Fmt.maxBits (f : Fmt) : Nat :=
  if f.hasInf then (2 ^ f.eb - 2) * 2 ^ f.p + (2 ^ f.p - 1)
  else if f.hasNan then 2 ^ (f.bits - 1) - 2 else 2 ^ (f.bits - 1) - 1

/-- A sign bit in its place. -/
def Fmt.sign (f : Fmt) (neg : Bool) : Nat := if neg then 2 ^ (f.bits - 1) else 0

/-- The encoding of an infinity. -/
def Fmt.infBits (f : Fmt) (neg : Bool) : Nat := f.sign neg + (2 ^ f.eb - 1) * 2 ^ f.p

/-- The bits of a number: the position above its highest 1 bit. -/
def bitLen (n : Nat) : Nat := if n = 0 then 0 else Nat.log2 n + 1

/-- Comparison of m × 2^e with n × 2^g. -/
def dyadicLt (m : Nat) (e : Int) (n : Nat) (g : Int) : Bool :=
  if e ≤ g then decide (m < n * 2 ^ (g - e).toNat) else decide (m * 2 ^ (e - g).toNat < n)

/-- Whether a remainder below 2^sh rounds a magnitude up (R84, R85). -/
def roundsUp (mode : Nat) (draw : Option Nat) (neg : Bool) (r rem sh : Nat) : Bool :=
  match draw with
  | some d => decide (2 ^ 32 ≤ rem * 2 ^ 32 / 2 ^ sh + d)
  | none => match mode with
    | 1 => false
    | 2 => neg && rem != 0
    | 3 => !neg && rem != 0
    | _ => decide (2 ^ sh < 2 * rem) || (decide (2 * rem = 2 ^ sh) && r % 2 == 1)

/-- One rounding of an exact finite value into a format, with its flags (R84 to R86, R91). `draw` is the new `lfsr` value
of a stochastic rounding. R86 does not say whether the nonzero result that raises underflow is the exact or the delivered one: it is the
delivered one here (DESIGN CHOICE, log 75). -/
def roundF (t : EType) (mode : Nat) (draw : Option Nat) (neg : Bool) (m : Nat) (e : Int) : Nat × Flags :=
  let f := fmtOf t
  if m = 0 then (f.sign neg, 0)
  else
    let emin : Int := 1 - f.bias
    let q : Int := max ((bitLen m : Int) - 1 + e - f.p) (emin - f.p)
    let sh := (q - e).toNat
    let r := if e < q then m / 2 ^ sh else m * 2 ^ (e - q).toNat
    let rem := if e < q then m % 2 ^ sh else 0
    let r' := if roundsUp mode draw neg r rem sh then r + 1 else r
    let inx : Flags := if rem = 0 then 0 else flInexact
    if dyadicLt f.maxFin.1 f.maxFin.2 r' q then
      if f.hasInf && draw.isNone then
        (if mode = 0 ∨ 4 ≤ mode ∨ (mode = 2 ∧ neg) ∨ (mode = 3 ∧ !neg) then f.infBits neg else f.sign neg + f.maxBits,
          flOverflow ||| flInexact)
      else (f.sign neg + f.maxBits, flSat ||| flInexact ||| (if f.hasInf then flOverflow else 0))
    else if r' = 0 then (f.sign neg, inx)
    else if r' < 2 ^ f.p then (f.sign neg + r', if rem = 0 then 0 else flInexact ||| flUnderflow)
    else
      let up := decide (2 ^ (f.p + 1) ≤ r')
      let mant := if up then r' / 2 else r'
      let ex := (if up then q + 1 else q) + f.p + f.bias
      (f.sign neg + (ex.toNat * 2 ^ f.p + (mant - 2 ^ f.p)), inx)

/-- The encoding of a value in a format, rounded (R91: the float rows). -/
def encodeF (t : EType) (mode : Nat) (draw : Option Nat) (v : FVal) : Nat × Flags :=
  let f := fmtOf t
  match v with
  | .nan => if f.hasNan then (f.canon, 0) else (0, flInvalid)
  | .inf neg => if f.hasInf then (f.infBits neg, 0) else (f.sign neg + f.maxBits, flSat ||| flInexact)
  | .fin neg m e => roundF t mode draw neg m e

/-- The rounding mode of an instruction that is no narrow conversion: mode 4 is nearest even (R84). -/
def plainMode (frm : Nat) : Nat := if frm = 4 then 0 else frm

/-- A signed exact number m × 2^e as a finite value; an exact zero takes the sign given. -/
def FVal.ofInt (m : Int) (e : Int) (zeroNeg : Bool) : FVal :=
  if m = 0 then .fin zeroNeg 0 e else .fin (decide (m < 0)) m.natAbs e

/-- The signed mantissa of a finite value at exponent `g`, below its own. -/
def scaledTo (neg : Bool) (m : Nat) (e g : Int) : Int :=
  (if neg then -1 else 1) * (m * 2 ^ (e - g).toNat : Nat)

/-- The sign of an exact sum of zero (R89). -/
def zeroSign (mode : Nat) (allNeg allPos : Bool) : Bool := if allNeg then true else if allPos then false else mode == 2

/-- An exact sum (R89, R96): its terms are values; NaN and infinities as R89 lays down. -/
def sumVals (mode : Nat) (vs : List FVal) : FVal × Flags :=
  if vs.any fun v => v == .nan then (.nan, 0)
  else if vs.contains (.inf true) && vs.contains (.inf false) then (.nan, flInvalid)
  else if vs.contains (.inf true) then (.inf true, 0)
  else if vs.contains (.inf false) then (.inf false, 0)
  else
    let g := vs.foldl (fun a v => match v with | .fin _ m e => if m = 0 then a else min a e | _ => a) 0
    let total := vs.foldl (fun (a : Int) v => match v with
      | .fin n m e => if m = 0 then a else a + scaledTo n m e g
      | _ => a) 0
    let neg := vs.all fun v => match v with | .fin n m _ => n && m == 0 | _ => false
    let pos := vs.all fun v => match v with | .fin n m _ => !n && m == 0 | _ => false
    (FVal.ofInt total g (zeroSign mode neg pos), 0)

/-- An exact product (R89, R96). -/
def mulVals (a b : FVal) : FVal × Flags :=
  match a, b with
  | .nan, _ => (.nan, 0)
  | _, .nan => (.nan, 0)
  | .inf n, .inf k => (.inf (n != k), 0)
  | .inf n, .fin k m _ => if m = 0 then (.nan, flInvalid) else (.inf (n != k), 0)
  | .fin n m _, .inf k => if m = 0 then (.nan, flInvalid) else (.inf (n != k), 0)
  | .fin n m e, .fin k l g => (.fin (n != k) (m * l) (e + g), 0)

/-- A quotient with enough bits for one rounding of any format; its last bit is sticky (R89). -/
def divVals (a b : FVal) : FVal × Flags :=
  match a, b with
  | .nan, _ => (.nan, 0)
  | _, .nan => (.nan, 0)
  | .inf _, .inf _ => (.nan, flInvalid)
  | .inf n, .fin k _ _ => (.inf (n != k), 0)
  | .fin n _ _, .inf k => (.fin (n != k) 0 0, 0)
  | .fin n m e, .fin k l g =>
    if l = 0 then (if m = 0 then (.nan, flInvalid) else (.inf (n != k), flDivzero))
    else
      let sh := bitLen l + 64
      let x := m * 2 ^ sh
      (.fin (n != k) (2 * (x / l) + if x % l = 0 then 0 else 1) (e - g - sh - 1), 0)

/-- The integer square root of a number below 4^n, bit by bit. -/
def isqrtFrom (x : Nat) : Nat → Nat → Nat
  | 0, acc => acc
  | n + 1, acc => if (acc + 2 ^ n) * (acc + 2 ^ n) ≤ x then isqrtFrom x n (acc + 2 ^ n) else isqrtFrom x n acc

/-- The integer square root. -/
def isqrt (x : Nat) : Nat := isqrtFrom x (bitLen x / 2 + 1) 0

/-- A square root with a sticky last bit (R89). -/
def sqrtVal (a : FVal) : FVal × Flags :=
  match a with
  | .nan => (.nan, 0)
  | .inf true => (.nan, flInvalid)
  | .inf false => (.inf false, 0)
  | .fin neg m e =>
    if m = 0 then (.fin neg 0 0, 0)
    else if neg then (.nan, flInvalid)
    else
      let m1 := if e % 2 = 0 then m else 2 * m
      let e1 := if e % 2 = 0 then e else e - 1
      let x := m1 * 4 ^ 64
      let s := isqrt x
      (.fin false (2 * s + if s * s = x then 0 else 1) (e1 / 2 - 64 - 1), 0)

/-- A reciprocal square root with a sticky last bit (R89). -/
def rsqVal (a : FVal) : FVal × Flags :=
  match a with
  | .nan => (.nan, 0)
  | .inf true => (.nan, flInvalid)
  | .inf false => (.fin false 0 0, 0)
  | .fin neg m e =>
    if m = 0 then (.inf neg, flDivzero)
    else if neg then (.nan, flInvalid)
    else
      let m1 := if e % 2 = 0 then m else 2 * m
      let e1 := if e % 2 = 0 then e else e - 1
      let k := bitLen m1 + 64
      let s := isqrt (4 ^ k / m1)
      (.fin false (2 * s + if s * s * m1 = 4 ^ k then 0 else 1) (-(e1 / 2) - k - 1), 0)

/-- The fixed-point precision of `vexp2` and `vlog2`: far beyond every format's need (log 11). -/
def transBits : Nat := 320

/-- 2 to a fraction, by its bits from the highest: `c` is 2^(2^−i) for the next bit, each step rounded down. -/
def exp2Frac (frac : Nat) : Nat → Nat → Nat → Nat
  | 0, _, acc => acc
  | n + 1, c, acc =>
    let acc' := if frac / 2 ^ n % 2 = 1 then acc * c / 2 ^ transBits else acc
    exp2Frac frac n (isqrt (c * 2 ^ transBits)) acc'

/-- 2^a (R89): exact for an integer, else with a sticky last bit. -/
def exp2Val (a : FVal) : FVal × Flags :=
  match a with
  | .nan => (.nan, 0)
  | .inf true => (.fin false 0 0, 0)
  | .inf false => (.inf false, 0)
  | .fin neg m e =>
    if m = 0 then (.fin false 1 0, 0)
    else if dyadicLt 4095 0 m e then (.fin false 1 (if neg then -8192 else 8192), 0)
    else
      -- a = n + frac / 2^transBits, rounded down
      let scaled : Int := (if neg then -1 else 1) *
        (if 0 ≤ e then (m * 2 ^ (e.toNat + transBits) : Nat)
         else if neg then ((m * 2 ^ transBits + 2 ^ (-e).toNat - 1) / 2 ^ (-e).toNat : Nat)
         else (m * 2 ^ transBits / 2 ^ (-e).toNat : Nat))
      let whole := 0 ≤ e || m % 2 ^ (-e).toNat == 0
      let n := scaled / 2 ^ transBits
      let frac := (scaled % 2 ^ transBits).toNat
      if whole then (.fin false 1 n, 0)
      else
        let r := exp2Frac frac transBits (isqrt (2 * 4 ^ transBits)) (2 ^ transBits)
        (.fin false (2 * r + 1) (n - transBits - 1), 0)

/-- The bits of log₂ of y in [1, 2), by repeated squaring, each step rounded down. -/
def log2Frac : Nat → Nat → Nat → Nat
  | 0, _, acc => acc
  | n + 1, y, acc =>
    let z := y * y / 2 ^ (2 * transBits)
    if 2 * 2 ^ (2 * transBits) ≤ z then log2Frac n (z / 2) (2 * acc + 1) else log2Frac n z (2 * acc)

/-- log₂ a (R89): exact for a power of two, else with a sticky last bit. The zero of log₂ 1 is +0 in every mode (DESIGN CHOICE,
log 60). -/
def log2Val (a : FVal) : FVal × Flags :=
  match a with
  | .nan => (.nan, 0)
  | .inf true => (.nan, flInvalid)
  | .inf false => (.inf false, 0)
  | .fin neg m e =>
    if m = 0 then (.inf true, flDivzero)
    else if neg then (.nan, flInvalid)
    else
      let l := bitLen m - 1
      let n : Int := l + e
      if m = 2 ^ l then (FVal.ofInt n 0 false, 0)
      else
        let frac := log2Frac transBits (m * 2 ^ (2 * transBits) / 2 ^ l) 0
        let v : Int := n * 2 ^ transBits + frac
        if v < 0 then (.fin true (2 * (v.natAbs - 1) + 1) (-(transBits : Int) - 1), 0)
        else (.fin false (2 * v.natAbs + 1) (-(transBits : Int) - 1), 0)

/-- One arithmetic result, rounded once under `frm`, with the flags of the operation and of the rounding (R89). -/
def rounded (t : EType) (frm : Nat) (r : FVal × Flags) : Nat × Flags :=
  let x := encodeF t (plainMode frm) none r.1
  (x.1, x.2 ||| r.2)

/-- a + b in a format (R89). -/
def fAdd (t : EType) (frm : Nat) (a b : Nat) : Nat × Flags :=
  rounded t frm (sumVals (plainMode frm) [decodeF t a, decodeF t b])

/-- The value with its sign changed. -/
def FVal.negate : FVal → FVal
  | .nan => .nan
  | .inf n => .inf (!n)
  | .fin n m e => .fin (!n) m e

/-- a − b. -/
def fSub (t : EType) (frm : Nat) (a b : Nat) : Nat × Flags :=
  rounded t frm (sumVals (plainMode frm) [decodeF t a, (decodeF t b).negate])

/-- a × b. -/
def fMul (t : EType) (frm : Nat) (a b : Nat) : Nat × Flags := rounded t frm (mulVals (decodeF t a) (decodeF t b))

/-- a × b + c with one rounding. -/
def fFma (t : EType) (frm : Nat) (a b c : Nat) : Nat × Flags :=
  let p := mulVals (decodeF t a) (decodeF t b)
  let r := sumVals (plainMode frm) [p.1, decodeF t c]
  rounded t frm (r.1, if decodeF t c = .nan then 0 else r.2 ||| p.2)

/-- a / b. -/
def fDiv (t : EType) (frm : Nat) (a b : Nat) : Nat × Flags := rounded t frm (divVals (decodeF t a) (decodeF t b))

/-- 1 / a; ±0 raises `divzero` (R89). -/
def fRcp (t : EType) (frm : Nat) (a : Nat) : Nat × Flags := rounded t frm (divVals (.fin false 1 0) (decodeF t a))

/-- The order of two values that are not NaN, −0 below +0 (R89). -/
def valLt (a b : FVal) : Bool :=
  match a, b with
  | .nan, _ => false
  | _, .nan => false
  | .inf n, .inf k => n && !k
  | .inf n, .fin _ _ _ => n
  | .fin _ _ _, .inf k => !k
  | .fin n m e, .fin k l g =>
    if m = 0 ∧ l = 0 then n && !k
    else if m = 0 then !k
    else if l = 0 then n
    else if n != k then n
    else if n then dyadicLt l g m e else dyadicLt m e l g

/-- Numeric equality: −0 equals +0 (R411). -/
def valEq (a b : FVal) : Bool :=
  match a, b with
  | .fin _ 0 _, .fin _ 0 _ => true
  | .nan, _ => false
  | _, .nan => false
  | _, _ => !valLt a b && !valLt b a

/-- The smaller of two numbers of a format; NaN if either is (R89). -/
def fMin (t : EType) (a b : Nat) : Nat :=
  if decodeF t a = .nan ∨ decodeF t b = .nan then (fmtOf t).canon
  else if valLt (decodeF t b) (decodeF t a) then b else a

/-- The larger. -/
def fMax (t : EType) (a b : Nat) : Nat :=
  if decodeF t a = .nan ∨ decodeF t b = .nan then (fmtOf t).canon
  else if valLt (decodeF t a) (decodeF t b) then b else a

/-! ### Integers and conversions (R82, R91) -/

/-- The value of an integer element. -/
def decodeI (t : EType) (x : Nat) : Int :=
  if t.isSigned && decide (2 ^ (t.bits - 1) ≤ x) then (x : Int) - 2 ^ t.bits else x

/-- The low bits of an integer as an element (R82). -/
def wrapI (t : EType) (x : Int) : Nat := (x % 2 ^ t.bits).toNat

/-- The bounds of an integer type. -/
def boundsI (t : EType) : Int × Int :=
  if t.isSigned then (-(2 ^ (t.bits - 1)), 2 ^ (t.bits - 1) - 1) else (0, 2 ^ t.bits - 1)

/-- An integer into a type's bounds, saturating (R91). -/
def saturateI (t : EType) (x : Int) : Nat × Flags :=
  let b := boundsI t
  if x < b.1 then (wrapI t b.1, flSat ||| flInexact)
  else if b.2 < x then (wrapI t b.2, flSat ||| flInexact)
  else (wrapI t x, 0)

/-- A value rounded to an integer under a mode, and whether it was inexact. -/
def roundToInt (mode : Nat) (neg : Bool) (m : Nat) (e : Int) : Int × Bool :=
  if 0 ≤ e then ((if neg then -1 else 1) * (m * 2 ^ e.toNat : Nat), false)
  else
    let sh := (-e).toNat
    let r := m / 2 ^ sh
    let rem := m % 2 ^ sh
    let r' := if roundsUp mode none neg r rem sh then r + 1 else r
    ((if neg then -1 else 1) * (r' : Int), rem != 0)

/-- A floating value to an integer type (R91). -/
def toInteger (t : EType) (frm : Nat) (v : FVal) : Nat × Flags :=
  match v with
  | .nan => (0, flInvalid)
  | .inf neg => (wrapI t (if neg then (boundsI t).1 else (boundsI t).2), flSat ||| flInexact)
  | .fin neg m e =>
    if dyadicLt (2 ^ 70) 0 m e then (wrapI t (if neg then (boundsI t).1 else (boundsI t).2), flSat ||| flInexact)
    else
      let r := roundToInt (plainMode frm) neg m e
      let x := saturateI t r.1
      (x.1, x.2 ||| if r.2 then flInexact else 0)

/-- One step of the stochastic generator (R85). -/
def lfsrStep (s : BitVec 32) : BitVec 32 := if s.getLsbD 0 then (s >>> 1) ^^^ 0x80200003 else s >>> 1

/-- Whether a conversion into a type draws (R84, R85). -/
def draws (d : EType) (frm : Nat) : Bool := d.isNarrow && frm == 4

/-- The conversion of one element (R91); `draw` is the new `lfsr` value where the conversion draws. No rule gives the sign of the zero
into which an integer 0 converts: +0 in every mode (DESIGN CHOICE, log 75). -/
def convert (d s : EType) (frm : Nat) (draw : Option Nat) (x : Nat) : Nat × Flags :=
  if d = s then (x, 0)
  else if s.isFloat then
    (if d.isFloat then encodeF d (if draw.isSome then 4 else plainMode frm) draw (decodeF s x)
     else toInteger d frm (decodeF s x))
  else if d.isFloat then
    let v := decodeI s x
    encodeF d (if draw.isSome then 4 else plainMode frm) draw (FVal.ofInt v 0 false)
  else saturateI d (decodeI s x)

/-! ### Blocks (R83, R92, R93) -/

/-- The exponent of R92. -/
def emaxOf : EType → Int
  | .e4m3 => 8
  | .e5m2 => 15
  | .e3m2 => 4
  | _ => 2

/-- A value times 2^k. -/
def FVal.scale (k : Int) : FVal → FVal
  | .fin n m e => .fin n m (e + k)
  | v => v

/-- Whether a block holds a NaN or an infinity. -/
def blockBad (vs : List FVal) : Bool := vs.any fun v => match v with | .fin _ _ _ => false | _ => true

/-- floor(log₂ |v|) of a nonzero finite value. -/
def FVal.log : FVal → Option Int
  | .fin _ m e => if m = 0 then none else some ((bitLen m : Int) - 1 + e)
  | _ => none

/-- The scale of a block (R92). -/
def blockScale (d : EType) (vs : List FVal) : Nat :=
  if blockBad vs then 0xFF
  else match (vs.filterMap FVal.log) with
  | [] => 127
  | x :: xs =>
    let top := xs.foldl max x
    (max 0 (min 254 (top - emaxOf d + 127))).toNat

/-- The elements of a quantised block under a scale, in order, each with the flags it raises; `draw` gives each element's stochastic
value (R92). A block that holds NaN or ∞ raises `invalid` whatever its scale, with each of its elements (R86). -/
def quantElems (d : EType) (frm scale : Nat) (vs : List FVal) (draw : Nat → Option Nat) : List (Nat × Flags) :=
  let bad : Flags := if blockBad vs then flInvalid else 0
  vs.zipIdx.map fun e =>
    if scale = 0xFF then (0, bad)
    else
      let r := encodeF d (if (draw e.2).isSome then 4 else plainMode frm) (draw e.2) (e.1.scale (127 - (scale : Int)))
      (r.1, r.2 ||| bad)

/-- The elements of a quantised block and the flags that the block raises (R92). -/
def quantBlock (d : EType) (frm scale : Nat) (vs : List FVal) (draw : Nat → Option Nat) : List Nat × Flags :=
  let rs := quantElems d frm scale vs draw
  (rs.map Prod.fst, rs.foldl (fun a r => a ||| r.2) 0)

/-- One element of a block, multiplied by its scale and rounded (R93). -/
def dequant (d s : EType) (frm scale x : Nat) : Nat × Flags :=
  if scale = 0xFF then ((fmtOf d).canon, 0)
  else encodeF d (plainMode frm) none ((decodeF s x).scale ((scale : Int) - 127))

/-! ### Inside `mma` (R95, R96) -/

/-- One block sum into a floating accumulator: c + s × 2^e, rounded to nearest even in f32 (R95, R96). A sum that cancels exactly is +0
(DESIGN CHOICE, log 60). -/
def accumulate (c : BitVec 32) (s : FVal × Flags) (e : Int) : BitVec 32 × Flags :=
  let cv := decodeF .f32 c.toNat
  match s.1, cv with
  | .nan, _ => (0x7FC00000, s.2)
  | _, .nan => (0x7FC00000, s.2)
  | .fin _ 0 _, _ => (c, s.2)
  | sv, _ =>
    let r := rounded .f32 0 (sumVals 0 [cv, sv.scale e])
    (BitVec.ofNat 32 r.1, r.2 ||| s.2)

/-- The exact sum of a block's products (R95, R96). Products of +∞ and −∞ raise `invalid` beside a NaN product too. -/
def blockSum (ps : List (FVal × FVal)) : FVal × Flags :=
  let prods := ps.map fun p => mulVals p.1 p.2
  let vs := prods.map Prod.fst
  let both : Flags := if vs.contains (.inf true) && vs.contains (.inf false) then flInvalid else 0
  ((sumVals 0 vs).1, prods.foldl (fun a p => a ||| p.2) both)

/-- The low 32 bits of an f32 sum of `amo.add.f32`: nearest even, no flag (R314). -/
def amoAddF32 (a b : Nat) : Nat := (fAdd .f32 0 a b).1

/-- The larger of two f32 values for a barrier: any NaN gives 0x7FC00000, +0 above −0 (R54). -/
def barMaxF32 (a b : Nat) : Nat := fMax .f32 a b

end Sys2Proof.Machine
end

