-- ==== Sys2Proof/Machine/Translate.lean ====
section
/-! DEFINITION. Addresses: the classes of R99, translation at a station (R101 to R103, R113, R114, R118), the splitting of
an access into pieces (R142). -/

namespace Sys2Proof.Machine

open Sys2Proof

/-- The number of a cause (R235). -/
def Cause.code : Cause → Nat
  | .illegal => 0x01 | .illegalPrefix => 0x02 | .privilege => 0x03 | .misaligned => 0x04 | .misalignedTarget => 0x05
  | .fetchFault => 0x06 | .regEmpty => 0x07 | .poison => 0x08 | .brk => 0x09 | .service => 0x0A
  | .unmapped => 0x10 | .notOwned => 0x11 | .coreAbsent => 0x12 | .poolRange => 0x13 | .accessRight => 0x14
  | .withdrawn => 0x15 | .ownership => 0x16 | .peerAbsent => 0x17 | .peerDisabled => 0x18 | .peerFenced => 0x19
  | .integrity => 0x1A | .sealWorn => 0x1B | .sealAging => 0x1C | .handlerBlock => 0x20 | .migrateHeavy => 0x21
  | .migrateTarget => 0x22 | .accExhausted => 0x23 | .accUnbound => 0x24 | .barLevel => 0x25 | .barMismatch => 0x26
  | .haloTimeout => 0x28 | .haloStale => 0x29 | .haloRange => 0x2A | .haloOwner => 0x2B | .gridHandle => 0x2C
  | .gridDesc => 0x2D | .staleTag => 0x2E | .staleEndpoint => 0x30 | .inboxTimeout => 0x31 | .remoteTimeout => 0x32
  | .peerLost => 0x33 | .overflowUnmapped => 0x34 | .launchShape => 0x35 | .queueOverrun => 0x36 | .queueRecord => 0x37
  | .softError => 0x38 | .itemLost => 0x39 | .launchRecord => 0x3A

/-- The class of an address (R99). -/
inductive AddrClass where
  | own (off : Nat)
  | window (c : Nat) (off : Nat)
  | translated
  | nothing
  deriving DecidableEq, Repr

/-- The rows of R99. -/
def classify (va : Word) : AddrClass :=
  let n := va.toNat
  if n < poolSize then .own n
  else if 0x100000000 ≤ n ∧ n < 0x200000000 then
    (if (n - 0x100000000) % 0x1000000 < poolSize then
      .window ((n - 0x100000000) / 0x1000000) ((n - 0x100000000) % 0x1000000) else .nothing)
  else if 0x1000000000000 ≤ n ∧ n < 0x100000000000000 then .translated
  else .nothing

/-- The rights of R102 and R104, by bit. -/
def rRead : Nat := 1
/-- Write. -/
def rWrite : Nat := 2
/-- Execute. -/
def rExec : Nat := 4
/-- Read, write and atomic: what an atomic needs. -/
def rAtomic : Nat := 11

/-- Whether a node holds every right of a set. -/
def hasRights (have_ : BitVec 5) (need : Nat) : Bool := have_.toNat &&& need == need

/-- A node covers a virtual page of a space. -/
def Node.covers (n : Node) (space pg : Nat) : Bool := n.space == space && decide (n.vpage ≤ pg) && decide (pg < n.vpage + n.pages)

/-- The node of a space that covers a page (R102). -/
def findNode (s : State) (space pg : Nat) : Option (Nat × Node) := tfind (fun _ n => n.covers space pg) s.nodes

/-- Whether the node or an ancestor on this device is marked withdrawn: the walk of at most 15 steps (R102, R113). -/
def markedFrom (s : State) : Nat → Nat → Bool
  | 0, _ => false
  | fuel + 1, i => match tget i s.nodes with
    | none => false
    | some n => n.withdrawn || (match n.parent, n.parentDev with
      | some p, none => markedFrom s fuel p
      | _, _ => false)

/-- The node or an ancestor is marked withdrawn. -/
def marked (s : State) (i : Nat) : Bool := markedFrom s 16 i

/-- A range of pages overlaps another. -/
def overlaps (a n b m : Nat) : Bool := decide (a < b + m) && decide (b < a + n)

/-- Whether a physical page lies in the ranges of a withdrawal. -/
def Withdrawal.inRange (w : Withdrawal) (dev pg : Nat) : Bool :=
  w.ranges.any fun r => r.1 == dev && decide (r.2.1 ≤ pg) && decide (pg < r.2.1 + r.2.2)

/-- What a translation finds. -/
inductive Trans where
  | ok (node dev phys : Nat)
  | fail (c : Cause)
  /-- Held until a sweep ends (R118, R120) or a scrub does. -/
  | hold
  deriving DecidableEq, Repr

/-- The station of a cluster that translates a page (R102). -/
def stationFor (cluster pg : Nat) : Nat := cluster * 8 + (Config.stationHash pg).val

/-- Whether a station has made its local cut of a withdrawal: its entry is installed, at the latest 600 cycles after the cut (R17,
R113). -/
def Withdrawal.cutAt (w : Withdrawal) (now st : Nat) : Bool := !w.uncut.contains st || decide (w.started + 600 ≤ now)

/-- Whether every station of this device has made its local cut of a withdrawal (R113, R116). -/
def Withdrawal.allCut (w : Withdrawal) (now : Nat) : Bool := w.uncut.isEmpty || decide (w.started + 600 ≤ now)

/-- The filter of the station that translates a page holds an entry whose range covers the physical page: a hit (R102, R113). -/
def filterHit (s : State) (cluster pg dev phys : Nat) : Bool :=
  s.wds.any fun e => e.2.entry && e.2.inRange dev phys && e.2.cutAt s.time (stationFor cluster pg)

/-- Translation of an address of a space by a station of a cluster (R102, R114, R118). -/
def translate (s : State) (space cluster : Nat) (va : Word) (need : Nat) : Trans :=
  let pg := va.toNat / 4096
  if (match tget space s.spaces with | some x => x.deleted | none => true) then .fail .unmapped
  else match findNode s space pg with
  | none => .fail .unmapped
  | some (i, n) =>
    let ppg := n.page + (pg - n.vpage)
    if s.wds.any (fun e => e.2.holds && !e.2.left.isEmpty && e.2.inRange n.dev ppg) then .hold
    else if filterHit s cluster pg n.dev ppg && marked s i then .fail .withdrawn
    else if hasRights n.rights need then .ok i n.dev (ppg * 4096 + va.toNat % 4096)
    else .fail .accessRight

/-- The islands that a context's partition holds: its own, or for the sliced partition those left over (R258, R259). -/
def partIslands (s : State) (part : Nat) : List Nat :=
  match tget part s.parts with
  | some p =>
    if p.sliced then (List.range 128).filter fun i => !s.parts.any fun e => e.2.islands.contains i
    else p.islands
  | none => []

/-- Whether every pool that a thread of a context reaches from a core through the cluster window is powered (R20, R99). -/
def reachPowered (s : State) (cid core : Nat) : Bool :=
  (partIslands s (match s.ctx? cid with | some x => x.part | none => 0)).all fun i => i / 8 != clusterOf core || !(s.island i).gated

/-- Whether a thread of a context reaches the pools of an island from a core through the cluster window (R99). -/
def reachesIsland (s : State) (cid core isl : Nat) : Bool :=
  !isSteward core && isl / 8 == clusterOf core && (partIslands s (match s.ctx? cid with | some x => x.part | none => 0)).contains isl

/-- What an address resolves to for an agent of a core and a context. -/
inductive Res where
  | ok (loc : Where) (node : Option Nat)
  | fail (c : Cause)
  | hold
  deriving DecidableEq, Repr

/-- The composition check of an access to a peer (R245). -/
def peerCheck (s : State) (part dev : Nat) : Option Cause :=
  match (s.peer dev).st with
  | .absent => some .peerAbsent
  | .disabled | .lost => some .peerDisabled
  | .live => match tget part s.jobs with
    | some j => if !j.closed && j.members.contains dev then none else some .peerFenced
    | none => some .peerFenced

/-- The checks of R99 and R102 on one address. -/
def resolve (s : State) (cid core : Nat) (va : Word) (need : Nat) : Res :=
  match classify va with
  | .own off => if vbaseOf (s.core core).pool ≤ off then .fail .poolRange else .ok (.here (poolBase core + off)) none
  | .window c off =>
    let g := clusterOf core * 256 + c
    let part := match s.ctx? cid with | some x => x.part | none => 0
    if isSteward core || !(partIslands s part).contains (islandOf g) then .fail .notOwned
    else if (s.core g).absent then .fail .coreAbsent
    else if vbaseOf (s.core g).pool ≤ off then .fail .poolRange
    else .ok (.here (poolBase g + off)) none
  | .translated =>
    match s.ctx? cid with
    | none => .fail .unmapped
    | some x => match translate s x.space (clusterOf core) va need with
      | .ok i dev phys =>
        if dev = s.device then .ok (.here phys) (some i)
        else match peerCheck s x.part dev with
          | some c => .fail c
          | none => .ok (.peer dev phys) (some i)
      | .fail c => .fail c
      | .hold => .hold
  | .nothing => .fail .unmapped

/-- Every row of R99 and every page is bounded at multiples of 4 KiB, so an access is checked at its first byte and at each
page boundary that it crosses. -/
def spanChunks (va : Word) (n : Nat) : List (Word × Nat) :=
  if va.toNat % 4096 + n ≤ 4096 then [(va, n)]
  else [(va, 4096 - va.toNat % 4096), (va + w64 (4096 - va.toNat % 4096), va.toNat % 4096 + n - 4096)]

/-- What the checks of an access find: nothing wrong, the first failing byte in address order, or a held translation. -/
inductive SpanRes where
  | ok (nodes : List Nat)
  | fail (c : Cause) (va : Word)
  | hold
  deriving DecidableEq, Repr

/-- The checks over the chunks of an access (R99: the first failing byte decides). -/
def checkChunks (s : State) (cid core : Nat) (need : Nat) : List (Word × Nat) → SpanRes
  | [] => .ok []
  | (va, _) :: rest => match resolve s cid core va need with
    | .fail c => .fail c va
    | .hold => .hold
    | .ok _ node => match checkChunks s cid core need rest with
      | .ok ns => .ok (node.toList ++ ns)
      | r => r

/-- The checks of an access of `n` bytes. -/
def checkSpan (s : State) (cid core : Nat) (va : Word) (n need : Nat) : SpanRes :=
  checkChunks s cid core need (spanChunks va n)

/-- Whether an address lies in the agent's own pool, by either of its two addresses (R151, R154). -/
def ownPool (core : Nat) (va : Word) : Bool :=
  match classify va with
  | .own _ => true
  | .window c _ => !isSteward core && clusterOf core * 256 + c == core
  | _ => false

/-- A piece not translated yet. -/
def mkPiece (va : Word) (off : Nat) (bs : List Byte) : Piece :=
  { va := va, off := off, bytes := bs, loc := .untranslated, tenant := 0, done := false, bad := none }

/-- One piece per byte. -/
def bytePieces (va : Word) (off : Nat) : List Byte → List Piece
  | [] => []
  | b :: bs => mkPiece va off [b] :: bytePieces (va + 1) (off + 1) bs

/-- The pieces of a scalar access (R142): the whole access at a multiple of its size, else each byte alone. -/
def scalarPieces (va : Word) (off : Nat) (bs : List Byte) : List Piece :=
  if va.toNat % bs.length = 0 then [mkPiece va off bs] else bytePieces va off bs

/-- The pieces of a vector access (R142): each aligned 8-byte piece inside it, and the other bytes alone. -/
def vectorPieces : Nat → Word → Nat → List Byte → List Piece
  | 0, _, _, _ => []
  | fuel + 1, va, off, bs =>
    match bs with
    | [] => []
    | b :: rest =>
      if va.toNat % 8 = 0 ∧ 8 ≤ bs.length then
        mkPiece va off (bs.take 8) :: vectorPieces fuel (va + 8) (off + 8) (bs.drop 8)
      else mkPiece va off [b] :: vectorPieces fuel (va + 1) (off + 1) rest

end Sys2Proof.Machine
end

