-- ==== Sys2Proof/Machine/Words.lean ====
section
/-! DEFINITION. Words at their owner: states, waiting `lds` and `ldf` requests (R147, R148), demand access to seals (R130,
R134), device writes, fills of registers (R65, R66). -/

namespace Sys2Proof.Machine

open Sys2Proof

/-- The word that the first piece of a word access names, once translated. -/
def Access.wordKey (a : Access) : Option Nat :=
  match a.pieces with
  | p :: _ => match p.loc with
    | .here k => some (k / 8)
    | _ => none
  | [] => none

/-- Whether an access waits on a word at its owner, and its place in the order of waiters (R148). -/
def Access.waitsOn (a : Access) (k : Nat) : Option Nat :=
  match a.phase with
  | .waiting n => if a.wordKey = some k then some n else none
  | _ => none

/-- Gives an access its data; the result is then on its way back. -/
def Access.answered (a : Access) (bs : List Byte) : Access :=
  { a with phase := .returning, pieces := a.pieces.map fun p => { p with bytes := bs, done := true } }

/-- Ends an access without its data: its destination is to be poisoned, or its thread trapped under keep-full. -/
def Access.failedWith (a : Access) (c : Cause) (det : Byte) : Access :=
  { a with phase := .returning, failed := some (c.code, det) }

/-- Changes every access in flight. -/
def State.mapAccs (s : State) (f : Nat → Access → Access) : State := { s with accs := tmap f s.accs }

/-- The oldest `lds` that waits on a word (R148). -/
def oldestTaker (s : State) (k : Nat) : Option (Nat × Nat) :=
  s.accs.foldl (fun best e =>
    match e.2.kind, e.2.waitsOn k with
    | .lds, some n => match best with
      | some (_, m) => if n < m then some (e.1, n) else best
      | none => some (e.1, n)
    | _, _ => best) none

/-- A word becomes F: every waiting `ldf` and the oldest waiting `lds` are satisfied, and that `lds` sets E (R148). -/
def fillWord (s : State) (k : Nat) : State :=
  let bs := memBytes s.mem (k * 8) 8
  let s1 := s.mapAccs fun _ a =>
    match a.kind, a.waitsOn k with
    | .ldf, some _ => a.answered bs
    | _, _ => a
  match oldestTaker s1 k with
  | none => s1.setWord k .full
  | some (id, _) =>
    (s1.mapAccs fun j a => if j = id then a.answered bs else a).setWord k .empty

/-- A word becomes P: every request that waits on it meets the load outcome (R148). -/
def poisonWord (s : State) (k : Nat) : State :=
  (s.mapAccs fun _ a =>
    match a.waitsOn k with
    | some _ => a.failedWith .poison 0
    | none => a).setWord k .poison

/-- The 8-byte words that a byte range covers whole. -/
def wholeWords (key n : Nat) : List Nat :=
  let first := (key + 7) / 8
  (List.range ((key + n) / 8 - first)).map (first + ·)

/-- The 8-byte words that a byte range touches. -/
def touchedWords (key n : Nat) : List Nat :=
  if n = 0 then [] else (List.range ((key + n - 1) / 8 + 1 - key / 8)).map (key / 8 + ·)

/-- Whether a byte range touches a word in P. -/
def touchesPoison (s : State) (key n : Nat) : Bool := (touchedWords key n).any fun k => s.word k == .poison

/-- Bytes written by an engine, the device or the host: each whole word is set F (R147, R146, R167). -/
def engineWrite (s : State) (key : Nat) (bs : List Byte) : State :=
  let s1 := putBytes s key bs
  let s2 := if isPoolKey key then s1 else dirtyPage s1 (key / 4096)
  (wholeWords key bs.length).foldl (fun s k => { fillWord s k with softWords := s.softWords.filter (· != k) }) s2

/-- Why a byte range of Pysil memory cannot be read by a demand access, after the seal's fill (R103, R130). Range entries are not held:
ownership is checked at every access (DEDUCED, log 68). -/
def demandRead (s : State) (key tenant : Nat) : Option Cause × State :=
  if isPoolKey key then (none, s)
  else if s.ownerOf (key / 4096) ≠ tenant then
    (some .ownership, { s with devErrors := s.devErrors ++ [Cause.ownership.code] })
  else match sealFill s (key / 4096) with
    | (true, s') => (none, s')
    | (false, s') => (some .integrity, s')

/-- Why a byte range cannot be written by a demand access (R103, R130, R134). -/
def demandWrite (s : State) (key tenant : Nat) : Option Cause × State :=
  match demandRead s key tenant with
  | (some c, s') => (some c, s')
  | (none, s') => if !isPoolKey key && sealFrozen s' (key / 4096) then (some .sealWorn, s') else (none, s')

/-- The bytes of a vector register with those under a byte mask replaced. -/
def mergeBytes (old new : List Byte) (mask : BitVec 64) : List Byte :=
  (List.range 64).map fun i => if mask.getLsbD i then new.getD i 0 else old.getD i 0

/-- The value that a result's bytes give a scalar register: sign-extended or zero-extended (R353). -/
def extendBytes (signed : Bool) (bs : List Byte) : Word :=
  match signed, bs.length with
  | true, 1 => (BitVec.ofNat 8 (leNat bs)).signExtend 64
  | true, 2 => (BitVec.ofNat 16 (leNat bs)).signExtend 64
  | true, 4 => (BitVec.ofNat 32 (leNat bs)).signExtend 64
  | _, _ => w64 (leNat bs)

/-- The partner of a register pair. -/
def nextG (n : GNum) : GNum := Fin.ofNat 16 (n.val + 1)

/-- The key of a core's area in the save extent of a context. -/
def areaKey (cid core : Nat) : Nat := cid * 8192 + core

/-- The bytes of a vector register of an agent: in its core's pool, or, once it is saved, in the pool's image (R77). -/
def agentV (s : State) (u : Nat) (t : Thread) (n : VNum) : List Byte :=
  match tget u s.threads, tget (areaKey t.cid t.core) s.areas with
  | none, some a => memBytes a.bytes (vregKey t.core t.pool t.slot n - poolBase t.core) 64
  | _, _ => vBytes s t n

/-- Writes the bytes of a vector register of an agent, resident or saved. -/
def agentPutV (s : State) (u : Nat) (t : Thread) (n : VNum) (bs : List Byte) : State :=
  match tget u s.threads, tget (areaKey t.cid t.core) s.areas with
  | none, some a =>
    let b := { a with bytes := memPutBytes a.bytes (vregKey t.core t.pool t.slot n - poolBase t.core) bs }
    { s with areas := tput (areaKey t.cid t.core) b s.areas }
  | _, _ => { s with mem := memPutBytes s.mem (vregKey t.core t.pool t.slot n) bs }

/-- State codes, 2 bits each from bit 0 (R76). -/
def codesOf (cs : List Nat) : Nat := cs.foldr (fun c acc => c + 4 * acc) 0

/-- Where the record of a saved agent begins in the save extent of its halted context (R233). -/
def recordBase (s : State) (u : Nat) : Option Nat :=
  match tget u s.threads, tget u s.saved with
  | none, some t => match s.ctx? t.cid with
    | some x => (match x.st with
      | .halted v => (v.frames.findIdx? (· == u)).map fun i => x.savebase + 0x1000 + 0x22000 * i
      | _ => none)
    | none => none
  | _, _ => none

/-- What a fill of a saved agent changes in its record: the image of the registers and their state codes, written together (R77). A Parked
agent's registers are discarded (R29, R330). -/
def recordPatch (s : State) (u b : Nat) (d : Dest) : List (Nat × List Byte) :=
  match s.agent? u with
  | none => []
  | some t =>
    if t.status = .parked then []
    else match d with
    | .g _ _ | .pair _ => [(b, (t.g.toList.map fun r => leBytes 8 r.val.toNat).flatten), (b + 0x88, leBytes 8 (codesOf (t.g.toList.map fun r => r.st.code)))]
    | .v n _ => [(b + 0x200 + 64 * n.val, agentV s u t n), (b + 0x90, leBytes 8 (codesOf (t.v.toList.map fun r => r.st.code)))]
    | .none | .host _ => []

/-- Lands a result in the registers of an agent (R65). -/
def fillRegs (s : State) (u : Nat) (d : Dest) (bs : List Byte) : State :=
  match d with
  | .none => s
  | .g n signed => s.modAgent u fun t => t.setG n (extendBytes signed bs)
  | .pair n => s.modAgent u fun t => (t.setG n (w64 (leNat (bs.take 8)))).setG (nextG n) (w64 (leNat (bs.drop 8)))
  | .v n mask =>
    match s.agent? u with
    | none => s
    | some t =>
      (agentPutV s u t n (mergeBytes (agentV s u t n) bs mask)).modAgent u fun t => { t with v := t.v.set n VReg.fullReg }
  | .host fn => endRootSpace s fn bs

/-- Poisons the destination registers of a result (R66). -/
def poisonRegs (s : State) (u : Nat) (d : Dest) (src : Word) (det : Byte) : State :=
  match d with
  | .none => s
  | .g n _ => s.modAgent u fun t => t.poisonG n src det
  | .pair n => s.modAgent u fun t => (t.poisonG n src det).poisonG (nextG n) src det
  | .v n _ => s.modAgent u fun t => t.poisonV n src det
  | .host _ => s

/-- Empties the destination of a result on its way (R65). -/
def Thread.emptyDest (t : Thread) : Dest → Thread
  | .none => t
  | .g n _ => t.emptyG n
  | .pair n => (t.emptyG n).emptyG (nextG n)
  | .v n _ => t.emptyV n
  | .host _ => t

/-- Whether a record of an agent waits to be written while the translation of its error queue is held: the record of one of its failed
accesses, whose releases wait for it (R165, R243). -/
def lateRecord (s : State) (u : Nat) : Bool :=
  match s.agent? u with
  | none => false
  | some t => s.late.any fun e => match e with
    | .record c _ bs => c == t.cid && (bs.drop 16).take 4 == leBytes 4 (epOf s t).toNat
    | .root _ _ => false

/-- Whether an earlier access of the agent, numbered below `n`, is not performed yet, or its failure not recorded (R141, R163, R165):
one in flight, or an `lds` or `ldf` that a halt has saved with the pool where it waits (R174). -/
def accessOpen (s : State) (u n : Nat) : Bool :=
  (s.accs.any fun e => e.2.uid == u && decide (e.1 < n) && decide (e.2.phase ≠ .returning)) ||
    (s.areas.any fun e => e.2.waiters.any fun w => w.2.uid == u && decide (w.1 < n)) || lateRecord s u

/-- Whether an earlier access or message of the agent, numbered below `n`, is not over yet.  A message counts while it has no answer: a
release after a failed `send` is performed only once the failure's record is written (R165, R385).  That `mma`, `migrate` and `map`,
which wait for accesses, wait for messages too is the model's choice (log 12). -/
def accessesBefore (s : State) (u n : Nat) : Bool :=
  accessOpen s u n || s.msgs.any fun e => e.2.uid == u && decide (e.1 < n)

/-- Whether an earlier access of the agent to bytes of a range, by virtual address, is not performed yet (R144, R152). -/
def sameByteBefore (s : State) (u n : Nat) (va : Word) (len : Nat) : Bool :=
  s.accs.any fun e => e.2.uid == u && decide (e.1 < n) && decide (e.2.phase ≠ .returning) &&
    e.2.pieces.any fun p => !p.done && overlaps p.va.toNat p.bytes.length va.toNat len

/-- Whether an acquire of the agent is not performed yet: no later access may issue (R141). -/
def acquirePending (s : State) (u : Nat) : Bool :=
  s.accs.any fun e => e.2.uid == u && e.2.acq && decide (e.2.phase ≠ .returning)

/-- Whether any port of this device is live: without one, every peer is silent (R24, R251). -/
def anyPort (s : State) : Bool := (List.range 72).any fun i => ((tget i s.ports).getD Port.blank).live

/-- Whether a live port may send: a new message at OPEN only, a message already begun at SLOW too (R250). With no live port an attempt
is made and nothing answers it (R251). -/
def portFor (s : State) (new : Bool) : Bool :=
  !anyPort s || (List.range 72).any fun i =>
    let x := (tget i s.ports).getD Port.blank
    x.live && decide (x.level ≤ if new then 0 else 1)

/-- A good flit comes in at one of the live ports, whose row of replays ends (R250, R251); which port is a free value (log 1). -/
def flitIn (s : State) : State :=
  let live := (List.range 72).filter fun i => ((tget i s.ports).getD Port.blank).live
  let p := live.getD (Config.openField s.draws % live.length) 0
  let x := (tget p s.ports).getD Port.blank
  { s with draws := s.draws + 1, ports := tput p { x with lastFlit := s.time, replays := 0, seq := x.seq + 1 } s.ports }

/-- A member of a partition's job is marked exchanged at its first performed access or message (R262). -/
def markPeer (s : State) (part dev : Nat) : State :=
  match tget part s.jobs with
  | some j =>
    if !j.closed && j.members.contains dev && (tget dev j.exchanged).isNone then
      { s with jobs := tput part { j with exchanged := tput dev s.time j.exchanged } s.jobs }
    else s
  | none => s

/-- The same, for the partition of a context. -/
def markExchanged (s : State) (cid dev : Nat) : State :=
  match s.ctx? cid with
  | none => s
  | some x => markPeer s x.part dev

/-- A peer becomes LOST, and is marked so in every open job (R252, R262). -/
def losePeer (s : State) (dev : Nat) : State :=
  { s with peers := tput dev { s.peer dev with st := .lost } s.peers
           jobs := tmap (fun _ (j : Job) => if !j.closed && j.members.contains dev && !j.lost.contains dev then
             { j with lost := j.lost ++ [dev] } else j) s.jobs }

/-- Whether a peer can be reached now by what is sent and answered in one step: a live port may send a new message (R24, R250,
R251). -/
def peerOpen (s : State) : Bool := anyPort s && portFor s true

/-- Bytes of a peer's memory: free values (log 2). -/
def peerBytes (s : State) (n : Nat) : List Byte × State :=
  ((List.range n).map fun i => Config.peerByte (s.draws + i), { s with draws := s.draws + n })

/-- The tenant of a node. -/
def nodeOwner (s : State) (i : Nat) : Nat := match tget i s.nodes with | some m => m.tenant | none => 0

/-- What a read or a write of a space by the dispatcher or firmware comes to: done, with the bytes read; a failure, with what a seal's
fill left behind; or a translation that is held (R118, R120). -/
inductive RoomRes where
  | ok (bs : List Byte) (s : State)
  | fail (c : Cause) (s : State)
  | hold
  deriving DecidableEq, Repr

/-- Where bytes of a space lie, for a partition: here with the tenant of their node, at a peer, nowhere, or under a hold. -/
inductive RoomAt where
  | here (key tenant : Nat)
  | peer (dev : Nat)
  | fail (c : Cause)
  | hold
  deriving DecidableEq, Repr

/-- The translation of an address of a space for the dispatcher or firmware (R99, R102, R245). An access to a peer waits, as under a
hold, while no live port may send it (R250); with no live port the peer is silent (R251; DESIGN CHOICE, log 2: PEER_LOST at once). -/
def roomAt (s : State) (space part cluster : Nat) (va : Word) (need : Nat) : RoomAt :=
  match classify va with
  | .translated => (match translate s space cluster va need with
    | .ok i dev phys =>
      if dev = s.device then .here phys (nodeOwner s i)
      else match peerCheck s part dev with
        | some e => .fail e
        | none => if !anyPort s then .fail .peerLost else if portFor s true then .peer dev else .hold
    | .fail e => .fail e
    | .hold => .hold)
  | _ => .fail .unmapped

/-- Reading bytes of a space, for a partition, by the dispatcher or firmware: the checks of R102, R103 and R130. -/
def roomRead (s : State) (space part cluster : Nat) (va : Word) (n : Nat) : RoomRes :=
  (spanChunks va n).foldl (fun r c => match r with
    | .ok bs s => (match roomAt s space part cluster c.1 rRead with
      | .fail e => .fail e s
      | .hold => .hold
      | .peer dev => .ok (bs ++ (peerBytes s c.2).1) (markPeer (peerBytes s c.2).2 part dev)
      | .here phys tenant => match demandRead s phys tenant with
        | (none, s') => if touchesPoison s' phys c.2 then .fail .poison s' else .ok (bs ++ memBytes s'.mem phys c.2) s'
        | (some e, s') => .fail e s')
    | r => r) (.ok [] s)

/-- Reading bytes of a context's space by the dispatcher or firmware. -/
def spaceRead (s : State) (cid cluster : Nat) (va : Word) (n : Nat) : RoomRes :=
  match s.ctx? cid with
  | none => .fail .unmapped s
  | some x => roomRead s x.space x.part cluster va n

/-- Where the bytes of a write go: at an owner of this device, or at a peer, which is marked exchanged; or why they go nowhere. -/
inductive RoomPlan where
  | ok (ks : List (Option Nat × Nat)) (s : State)
  | fail (c : Cause) (s : State)
  | hold
  deriving DecidableEq, Repr

/-- One part of a write of a space joins its plan, once it is checked at its owner. -/
def planPart (space part cluster : Nat) (r : RoomPlan) (c : Word × Nat) : RoomPlan :=
  match r with
  | .ok ks s => (match roomAt s space part cluster c.1 rWrite with
    | .fail e => .fail e s
    | .hold => .hold
    | .peer dev => .ok (ks ++ [(none, c.2)]) (markPeer s part dev)
    | .here phys tenant =>
      let d := demandWrite s phys tenant
      match d.1 with
      | none => .ok (ks ++ [(some phys, c.2)]) d.2
      | some e => .fail e d.2)
  | r => r

/-- One part of a planned write: its bytes go to their owner, and the rest remain. -/
def writePart (r : State × List Byte) (k : Option Nat × Nat) : State × List Byte :=
  (match k.1 with
    | some key => engineWrite r.1 key (r.2.take k.2)
    | none => r.1, r.2.drop k.2)

/-- Writing bytes of a space, for a partition, by the dispatcher or firmware. All of it is checked before any byte is written. -/
def roomWrite (s : State) (space part cluster : Nat) (va : Word) (bs : List Byte) : RoomRes :=
  match (spanChunks va bs.length).foldl (planPart space part cluster) (.ok [] s) with
  | .fail e s1 => .fail e s1
  | .hold => .hold
  | .ok ks s1 => .ok [] (ks.foldl writePart (s1, bs)).1

/-- Writing bytes of a context's space by the dispatcher or firmware. -/
def spaceWrite (s : State) (cid cluster : Nat) (va : Word) (bs : List Byte) : RoomRes :=
  match s.ctx? cid with
  | none => .fail .unmapped s
  | some x => roomWrite s x.space x.part cluster va bs

/-- A write of firmware in the root space, which nothing reports if it fails, and which waits while its translation is held. -/
def rootWrite (s : State) (va : Word) (bs : List Byte) : State :=
  match roomWrite s 0 0 0 va bs with
  | .ok _ s1 => s1
  | .fail _ s1 => s1
  | .hold => { s with late := s.late ++ [.root va bs] }

end Sys2Proof.Machine
end

