-- ==== Sys2Proof/Machine/Ops.lean ====
section
/-! DEFINITION. Named operations shared by every meaning: notices and error-queue records (R243, R244, R255), taking a trap
(R236, R238, R240), the checks on operands (R63, R66 to R69), retiring an instruction and retiring an agent. -/

namespace Sys2Proof.Machine

open Sys2Proof

/-! ### Notices, interrupts and records -/

/-- A fault interrupt toward the host: one notice in the FIFO of the context's function, or `ovf`, and MSI-X vector 1
(R255). -/
def hostNotice (s : State) (cid cause : Nat) : State :=
  match s.ctx? cid with
  | none => s
  | some x =>
    let f := s.fn x.fn
    if f.notices.length < 64 then s.setFn x.fn { f with notices := f.notices ++ [(cause, cid)], msix1 := f.msix1 + 1 }
    else s.setFn x.fn { f with ovf := true, msix1 := f.msix1 + 1 }

/-- The cores that a context holds, lowest number first (R227). -/
def heldCores (s : State) (cid : Nat) : List Nat := (s.cores.filter fun e => e.2.ctx == some cid).map Prod.fst

/-- Whether a fault interrupt of a context waits in one of its cores (R238). -/
def intQueued (s : State) (cid : Nat) : Bool := s.cores.any fun e => e.2.ctx == some cid && e.2.faults.contains .interrupt

/-- A fault interrupt toward a context's fault handler (R238, R244): at most one is pending; the host is told when the
context has no fault handler or holds no core. -/
def contextInterrupt (s : State) (cid cause : Nat) : State :=
  match s.ctx? cid with
  | none => s
  | some x =>
    if x.fhentry = 0 then hostNotice s cid cause
    else if x.pendingInt || intQueued s cid then s
    else
      let s1 := s.setCtx cid { x with pendingInt := true }
      if (heldCores s1 cid).isEmpty then hostNotice s1 cid cause else s1

/-- A fault interrupt that has not started when a halt or a lost core takes cores away: it stays pending for the context, and the host
gets a notice where no core is left (R238). -/
def strandInterrupt (s : State) (cid : Nat) (queued : Bool) : State :=
  match s.ctx? cid with
  | none => s
  | some x =>
    if x.pendingInt || queued then
      let s1 := s.setCtx cid { x with pendingInt := true }
      if (heldCores s1 cid).isEmpty then hostNotice s1 cid 0 else s1
    else s

/-- What an error-queue record says (R243). -/
structure Report where
  addr : Word
  cause : Cause
  detail : Nat
  item : Nat
  peer : Option Nat
  ep : BitVec 32
  deriving DecidableEq, Repr

/-- The 32 bytes of a record (R243). -/
def Report.bytes (r : Report) (cid time : Nat) : List Byte :=
  leBytes 8 r.addr.toNat
  ++ leBytes 8 (r.cause.code + r.detail * 2 ^ 16 + r.item * 2 ^ 24
      + (match r.peer with | some d => d % 512 * 2 ^ 28 + 2 ^ 37 | none => 0))
  ++ leBytes 8 (r.ep.toNat + cid * 2 ^ 32)
  ++ leBytes 8 time

/-- A record that a full queue, or a page that fails, turns away is counted in `lost`; none while the page's translation is held
(R243, R244). -/
def loseRecord (s : State) (cid : Nat) (x : Context) : Option State :=
  let n := min (x.eqlost + 1) max64
  match spaceWrite (s.setCtx cid { x with eqlost := n }) cid 0 (x.eqbase + 8) (leBytes 8 n) with
  | .ok _ s1 => some s1
  | .fail _ s1 => some s1
  | .hold => none

/-- A record goes to the error queue of a context: written, then `tail`; or counted in `lost` when the queue is full, or
when its own page fails (R243, R244). None while the translation of the queue's page is held (R118, R120). -/
def putRecord (s : State) (cid code : Nat) (bytes : List Byte) : Option State :=
  match s.ctx? cid with
  | none => some s
  | some x =>
    let n := 2 ^ (x.eqcfg.toNat % 32)
    if (x.eqtail + 2 ^ 64 - x.errqhead.toNat) % 2 ^ 64 = n then loseRecord s cid x
    else
      match spaceWrite s cid 0 (x.eqbase + w64 (64 + 32 * (x.eqtail % n))) bytes with
      | .hold => none
      | .fail _ s1 => (loseRecord s1 cid x).map fun s2 => hostNotice s2 cid code
      | .ok _ s1 =>
        match spaceWrite s1 cid 0 x.eqbase (leBytes 8 (x.eqtail + 1)) with
        | .hold => none
        | .fail _ s2 => (loseRecord s2 cid x).map fun s3 => hostNotice s3 cid code
        | .ok _ s2 =>
          let s3 := s2.modCtx cid fun y => { y with eqtail := (x.eqtail + 1) % 2 ^ 64 }
          some (if x.eqtail = x.errqhead.toNat then contextInterrupt s3 cid 0 else s3)

/-- Whether a record of a context waits already. -/
def hasLate (s : State) (cid : Nat) : Bool := s.late.any fun e => match e with | .record c _ _ => c == cid | .root _ _ => false

/-- A record is reported: it goes to the queue of its context, or waits in order while the translation of the queue's page is held. -/
def reportBytes (s : State) (cid code : Nat) (bytes : List Byte) : State :=
  match hasLate s cid, putRecord s cid code bytes with
  | false, some s1 => s1
  | _, _ => { s with late := s.late ++ [.record cid code bytes] }

/-- A record goes to the error queue of a context (R243, R244). -/
def report (s : State) (cid : Nat) (r : Report) : State := reportBytes s cid r.cause.code (r.bytes cid s.time)

/-- Writes that waited for held translations look again, in order. -/
def flushLate (s : State) : State :=
  s.late.foldl (fun s e => match e with
    | .record cid code bs => reportBytes s cid code bs
    | .root va bs => rootWrite s va bs) { s with late := [] }

/-- A record of cause INTEGRITY also raises a fault interrupt toward the context's handler, or the host (R130). -/
def reportAccess (s : State) (cid : Nat) (r : Report) : State :=
  let s1 := report s cid r
  if r.cause = .integrity then contextInterrupt s1 cid r.cause.code else s1

/-- Firmware writes bytes within one page of a context's save extent, which is sealed as any page of its tenant (R132, R134, R221): a page
whose seal failed takes nothing, a frozen one is not written, with one SEAL_WORN record. No rule states the address of that record, nor
that firmware's write is dropped on a failed seal (DEDUCED, log 68). -/
def extentWrite (s : State) (cid key : Nat) (bs : List Byte) : State :=
  let r := sealFill s (key / 4096)
  if !r.1 then r.2
  else if sealFrozen r.2 (key / 4096) then
    let a := drawField r.2
    report a.2 cid { addr := w64 a.1, cause := .sealWorn, detail := 0, item := 10, peer := none, ep := 0 }
  else engineWrite r.2 key bs

/-- A fill of a saved agent lands in its record (R77). -/
def keepRecord (s : State) (u : Nat) (d : Dest) : State :=
  match s.agent? u, recordBase s u with
  | some t, some b => (recordPatch s u b d).foldl (fun s e => extentWrite s t.cid e.1 e.2) s
  | _, _ => s

/-- Lands a result in an agent, resident or saved (R65, R77). -/
def fillDest (s : State) (u : Nat) (d : Dest) (bs : List Byte) : State := keepRecord (fillRegs s u d bs) u d

/-- Poisons the destination of a result, in an agent that is resident or saved (R66, R77). -/
def poisonDest (s : State) (u : Nat) (d : Dest) (src : Word) (det : Byte) : State := keepRecord (poisonRegs s u d src det) u d

/-- One failed item of a launch, while it is outstanding (R37, R240). -/
def failItem (s : State) (l : Option Nat) : State :=
  match l with
  | none => s
  | some i => match tget i s.launches with
    | some x => { s with launches := tput i { x with failed := min (x.failed + 1) (2 ^ 32 - 1) } s.launches }
    | none => s

/-! ### The end of an agent -/

/-- The key of the barrier cell of a launch, level and cell (R53). -/
def barKey (l level cell : Nat) : Nat := (l * 2 ^ 32 + cell) * 8 + level
/-- The level of a barrier cell's key. -/
def barLevelOf (key : Nat) : Nat := key % 8
/-- The cell of a key, among those of its level. -/
def barCellOf (key : Nat) : Nat := key / 8 % 2 ^ 32
/-- The launch of a key. -/
def barLaunchOf (key : Nat) : Nat := key / 8 / 2 ^ 32

/-- The cell of a level that indices lie in: their index over the levels above it (R33). -/
def cellIndex (levels : List Level) (idx : List Nat) (k : Nat) : Nat :=
  ((levels.zip idx).drop (k + 1)).foldr (fun e acc => e.2 + e.1.ext * acc) 0

/-- A member whose arrival at a level blocks goes on after its `bar` once the phase there is released; one that waits at `barw`, or to
arrive again, looks again (R53, R278). An agent that waits at another level stays. -/
def Thread.released (t : Thread) (now level : Nat) : Thread :=
  match t.status, t.prog with
  | .blocked (.barrier k), .arrived _ next => if k = level then { t with pc := next, prog := .none, status := .ready, since := now } else t
  | .blocked (.barrier k), _ => if k = level then { t with status := .ready, since := now } else t
  | _, _ => t

/-- The result of an arrival at a release: filled in a waiting thread, or on its way to that of a split form (R53, R319). -/
def fillArrival (acc : Word) (s : State) (a : Arrival) : State :=
  match a.dest with
  | none => s
  | some d =>
    if a.split && !a.kf then
      { s with pending := tput s.nextId { uid := a.uid, dest := .g d false, bytes := leBytes 8 acc.toNat, bad := none, kf := false, node := none, slot := none } s.pending
               nextId := s.nextId + 1 }
    else fillDest s a.uid (.g d false) (leBytes 8 acc.toNat)

/-- Whether an agent stands at a `bar` of a level whose arrival is counted, and which retires at the release. -/
def Thread.atBar (t : Thread) (level : Nat) : Bool :=
  match t.status, t.prog with
  | .blocked (.barrier k), .arrived _ _ => k == level
  | _, _ => false

/-- A member of a phase released at a level goes on; the `bar` of one that waited retires. -/
def releaseMember (level : Nat) (s : State) (a : Arrival) : State :=
  match s.agent? a.uid with
  | none => s
  | some t => (s.modAgent a.uid fun t => t.released s.time level).modCtx t.cid fun x =>
      { x with lastRetire := if t.atBar level then s.time else x.lastRetire }

/-- Whether a cell's open phase may be released: every member has arrived or retired, and the accesses that the arrivals' releases cover
are performed (R53, R56, R163). -/
def BarCell.complete (c : BarCell) : Bool := c.arrivals.length + c.exited == c.members && c.arrivals.all fun a => a.covered

/-- A cell's phase is released: each arrival's result is filled, an arrival whose thread has retired counts as exited, and
the phase advances (R53). Waiting members go on. -/
def releaseBar (s : State) (key : Nat) (c : BarCell) : State :=
  let s1 := c.arrivals.foldl (fillArrival c.acc) s
  let c' := { c with phase := c.phase + 1, op := 0, acc := 0, arrivals := []
                     exited := c.exited + (c.arrivals.filter fun a => a.retired).length }
  let s2 := { s1 with bars := tput key c' s1.bars }
  c.arrivals.foldl (releaseMember (barLevelOf key)) s2

/-- A cell is kept, or its open phase released once that is complete (R53). -/
def keepCell (s : State) (key : Nat) (c : BarCell) : State :=
  if c.complete && !c.arrivals.isEmpty then releaseBar s key c else { s with bars := tput key c s.bars }

/-- The accesses that a member issued before its arrival are performed: its release is done (R56, R163). -/
def arrivalCovered (s : State) (u key : Nat) : State :=
  match tget key s.bars with
  | none => s
  | some c => keepCell s key { c with arrivals := c.arrivals.map fun a => if a.uid = u then { a with covered := true } else a }

/-- A member of a cell retires (R53, R55): its pending arrival stays counted, or it counts as exited at once. -/
def barExit (s : State) (u key : Nat) : State :=
  match tget key s.bars with
  | none => s
  | some c =>
    if c.arrivals.any fun a => a.uid == u then
      { s with bars := tput key { c with arrivals := c.arrivals.map fun a => if a.uid = u then { a with retired := true } else a } s.bars }
    else keepCell s key { c with exited := c.exited + 1 }

/-- The barrier cells that an agent is a member of (R55: a forked thread is of none). -/
def Thread.barKeys (t : Thread) (s : State) : List Nat :=
  if t.forked || t.inHandler then [] else
  match t.launch with
  | none => []
  | some l => match tget l s.launches with
    | none => []
    | some x => ((List.range 8).filter fun k => match x.levels[k]? with | some v => v.bar.isSome | none => false).map fun k =>
        barKey l k (cellIndex x.levels t.idx k)

/-- A tile's matrix unit after power-up: every slot free (R20). -/
def Tile.blank : Tile := { slots := [], queues := [], pointer := 0, units := 0, reads := [], waiters := [] }
/-- A tile's matrix unit. -/
def State.tile (s : State) (i : Nat) : Tile := (tget i s.tiles).getD Tile.blank
/-- Replaces a tile's matrix unit. -/
def State.setTile (s : State) (i : Nat) (t : Tile) : State := { s with tiles := tput i t s.tiles }
/-- The command queue of a core position. -/
def Tile.queue (t : Tile) (p : Nat) : List MxCmd := (tget p t.queues).getD []
/-- Changes a slot, if it is in use. -/
def Tile.modSlot (t : Tile) (k : Nat) (f : AccSlot → AccSlot) : Tile :=
  match tget k t.slots with
  | some x => { t with slots := tput k (f x) t.slots }
  | none => t

/-- The commands of a tile that are queued on a slot. -/
def Tile.queuedOn (t : Tile) (slot : Nat) : Bool := t.queues.any fun e => e.2.any fun c => c.slot == slot

/-- The slots whose `mrel` has retired return to the free list of a tile once no command and no `mrd` of theirs is left, the fill of its
register included (R193); a waiter may then bind them. -/
def collectSlots (s : State) (tile : Nat) : State :=
  let t := s.tile tile
  let inUse (k : Nat) : Bool := t.queuedOn k || t.reads.any (fun r => r.2.slot == k) || s.pending.any fun e => e.2.slot == some (tile, k)
  let gone := t.slots.filter fun e => e.2.leaving && !inUse e.1
  if gone.isEmpty then s
  else (s.setTile tile { t with slots := t.slots.filter fun e => gone.all fun g => g.1 != e.1 }).wakeAll .matrix

/-- A matrix command joins a core's queue in its tile, and the slot's watermark becomes 0 (R185, R192). -/
def pushMx (s : State) (core : Nat) (c : MxCmd) : State :=
  let t := (s.tile (tileOf core)).modSlot c.slot fun x => { x with rows := 0 }
  s.setTile (tileOf core) { t with queues := tput (core % 8) (t.queue (core % 8) ++ [c]) t.queues }

/-- A matrix command of an agent on a slot. -/
def mxCommand (s : State) (u : Nat) (t : Thread) (h slot : Nat) (op : MxOp) : MxCmd :=
  { uid := u, cid := t.cid, ep := epOf s t, launch := t.launch, slot := slot, handle := h, op := op, blocks := 0
    weight := t.mxweight.toNat, after := s.nextId, told := false }

/-- `mrel` of a handle: it is unbound at once, and the slot is returned by a command (R64, R193, R370). -/
def releaseSlot (s : State) (u : Nat) (t : Thread) (h slot : Nat) : State :=
  let s1 := s.setTile (tileOf t.core) ((s.tile (tileOf t.core)).modSlot slot fun x => { x with owner := none })
  { pushMx s1 t.core (mxCommand s1 u t h slot .mrel) with nextId := s.nextId + 1 }

/-- The end of an agent: its waiting `mrd` reads fall away, and the slots that its handles bind are returned as `mrel` does
(R64, R370). -/
def releaseHandles (s : State) (u : Nat) (t : Thread) : State :=
  let x := s.tile (tileOf t.core)
  let s1 := if x.reads.isEmpty then s
    else collectSlots (s.setTile (tileOf t.core) { x with reads := x.reads.filter fun e => e.2.uid != u }) (tileOf t.core)
  (List.range 8).foldl (fun s h => match t.a.toList.getD h none with
    | none => s
    | some slot => releaseSlot s u t h slot) s1

/-- Whether an access of an agent waits at the owner of its word: it is withdrawn when the agent ends (R150, R336). -/
def waitingOf (u : Nat) (a : Access) : Bool := a.uid == u && match a.phase with | .waiting _ => true | _ => false

/-- An agent leaves the machine: its slot becomes Free (R40). Results still on their way to it go nowhere, and the accumulator slots
that waited for them are free (R193). -/
def dropAgent (s : State) (u : Nat) : State :=
  let s1 := { s with
    threads := tdel u s.threads
    accs := tmap (fun _ a => if a.uid = u then { a with dest := .none, kf := false } else a) (s.accs.filter fun e => !waitingOf u e.2)
    pending := s.pending.filter fun e => e.2.uid != u }
  ((s.pending.filter fun e => e.2.uid == u).filterMap fun e => e.2.slot.map Prod.fst).foldl collectSlots s1

/-- A thread retires: it counts in its launch, its barriers and its accumulator slots (R37, R55, R64). -/
def retireThread (s : State) (u : Nat) (t : Thread) (asFailed : Bool) : State :=
  let s1 := (t.barKeys s).foldl (fun s k => barExit s u k) s
  let s2 := releaseHandles s1 u t
  let s3 := match t.launch with
    | none => s2
    | some l => match tget l s2.launches with
      | none => s2
      | some x => { s2 with launches := tput l { x with alive := x.alive - 1, retired := x.retired + 1 } s2.launches }
  let s4 := if asFailed then failItem s3 t.launch else s3
  dropAgent s4 u

/-! ### Traps -/

/-- A delivery for the fault handler of a core's context (R238). -/
def queueFault (s : State) (c : Nat) (d : Delivery) (first : Bool) : State :=
  let x := s.core c
  s.setCore c { x with faults := if first then d :: x.faults else x.faults ++ [d] }

/-- An agent meets a trap with its trap registers set (R236 to R240). -/
def deliverTrap (s : State) (u : Nat) (t : Thread) (c : Cause) : State :=
  if t.level = .thread ∧ t.tvec ≠ 0 then
    s.setThread u { t with pc := t.tvec, tvec := 0, status := .ready, since := s.time, prog := .none }
  else match t.kind with
  | .thread =>
    let s1 := s.setThread u { t with status := .blocked .held, prog := .none }
    if isSteward t.core then s1
    else match s1.ctx? t.cid with
      | none => s1
      | some x => if x.fhentry = 0 then hostNotice s1 t.cid c.code else queueFault s1 t.core (.thread u) false
  | .faultRun _ =>
    let s1 := dropAgent s u
    hostNotice (s1.setCore t.core { s1.core t.core with hlfsr := t.lfsr }) t.cid c.code
  | .message m =>
    let ep := epOf s t
    let s1 := report s t.cid
      { addr := w64 ep.toNat, cause := c, detail := t.tcause.toNat / 2 ^ 16 % 256, item := 3, peer := none, ep := ep }
    let s2 := failItem s1 m.launch
    let s3 := (dropAgent s2 u).setCore t.core { s2.core t.core with hlfsr := t.lfsr }
    match s3.ctx? t.cid with
    | none => s3
    | some x =>
      if x.fhentry = 0 then hostNotice s3 t.cid c.code
      else queueFault s3 t.core (.message t.tcause t.taddr t.tresume ep m.sender m.pc) true

/-- Taking a trap (R236): the trap registers, and the way to the trap routine or the fault handler. `resume` is the
instruction's address unless the cause says otherwise. -/
def takeTrap (s : State) (u : Nat) (c : Cause) (det : Nat) (addr resume : Word) : State :=
  match tget u s.threads with
  | none => s
  | some t => deliverTrap s u { t with tcause := w64 (det % 256 * 2 ^ 16 + c.code), taddr := addr, tresume := resume } c

/-- A trap at the current instruction, whose address `taddr` holds (R235, R236). -/
def trapHere (s : State) (u : Nat) (t : Thread) (c : Cause) (det : Nat) : Out := .next (takeTrap s u c det t.pc t.pc)

/-- A trap at the current instruction about an address. -/
def trapAt (s : State) (u : Nat) (t : Thread) (c : Cause) (det : Nat) (addr : Word) : Out :=
  .next (takeTrap s u c det addr t.pc)

/-! ### Issuing and retiring -/

/-- The issuing agent. -/
def withCur (s : State) (k : Nat → Thread → Out) : Out :=
  match s.cur with
  | none => .fault .noAgent
  | some u => match tget u s.threads with
    | none => .fault .noAgent
    | some t => k u t

/-- A register as an operand. -/
inductive RegName where
  | g (n : GNum)
  | v (n : VNum)
  deriving DecidableEq, Repr

/-- The number that REG_EMPTY reports (R67). -/
def RegName.number : RegName → Nat
  | .g n => n.val
  | .v n => n.val

/-- The state code of an operand. -/
def Thread.regSt (t : Thread) : RegName → RegSt
  | .g n => (t.g.get n).st
  | .v n => (t.v.get n).st

/-- What a POISON trap of an operand's reader reports (R66, R131). -/
def Thread.regSrc (t : Thread) : RegName → Word × Byte
  | .g n => ((t.g.get n).src, (t.g.get n).det)
  | .v n => ((t.v.get n).src, (t.v.get n).det)

/-- Whether the register exists for the agent (R63). -/
def Thread.hasReg (t : Thread) : RegName → Bool
  | .g _ => true
  | .v n => t.hasV n

/-- What the operands of an instruction say before it acts. -/
inductive Gate where
  | go | wait | limit
  | empty (n : Nat)
  | poison (src : Word) (det : Byte)
  deriving DecidableEq, Repr

/-- The first register in a state. -/
def firstIn (t : Thread) (st : RegSt) : List RegName → Option RegName
  | [] => none
  | r :: rs => if t.regSt r = st then some r else firstIn t st rs

/-- The trap bits of a SYNC prefix. -/
def syTrs (y : Sync) : Bool := match y with | some f => f.trs | none => false
/-- The rt trap bit. -/
def syTrt (y : Sync) : Bool := match y with | some f => f.trt | none => false
/-- The keep-destination-full bit. -/
def syKf (y : Sync) : Bool := match y with | some f => f.kf | none => false
/-- The scope code. -/
def syScopeCode (y : Sync) : Nat := match y with | some f => f.scope.val | none => 0
/-- The order code. -/
def syOrder (y : Sync) : Nat := match y with | some f => f.order.val | none => 0

/-- The checks on operands (R63, R66 to R68): vector limits; sources in E, those outside rt first, wait or trap by their
bit; then sources in P; then destinations in E wait. -/
def gateOf (t : Thread) (y : Sync) (rs rt dst : List RegName) : Gate :=
  if (rs ++ rt ++ dst).any fun r => !t.hasReg r then .limit
  else match firstIn t .empty rs with
  | some r => if syTrs y then .empty r.number else .wait
  | none => match firstIn t .empty rt with
    | some r => if syTrt y then .empty r.number else .wait
    | none => match firstIn t .poison (rs ++ rt) with
      | some r => .poison (t.regSrc r).1 (t.regSrc r).2
      | none => match firstIn t .empty dst with
        | some _ => .wait
        | none => .go

/-- The agent becomes Blocked at its instruction (R29). -/
def blockOn (s : State) (u : Nat) (t : Thread) (w : Wait) : Out := .next (s.setThread u { t with status := .blocked w })

/-- The agent becomes Blocked at its instruction, which has got so far. -/
def blockAt (s : State) (u : Nat) (t : Thread) (w : Wait) (p : Progress) : Out :=
  .next (s.setThread u { t with status := .blocked w, prog := p })

/-- Whether a register lies in a vector run. -/
def inRun (o : MxOperand) (n : Nat) : Bool :=
  match o with
  | .run x len _ => decide (x ≤ n) && decide (n < x + len)
  | .pool _ _ => false

/-- Whether a register belongs to a run that a queued `mma` of the agent names: a write of it waits (R190). -/
def runHolds (s : State) (u : Nat) (t : Thread) : RegName → Bool
  | .g _ => false
  | .v n => ((s.tile (tileOf t.core)).queue (t.core % 8)).any fun c => c.uid == u && match c.op with
    | .mma _ _ _ a b => inRun a n.val || inRun b n.val
    | _ => false

/-- An instruction reaches its meaning once its operands allow it. -/
def issue (s : State) (y : Sync) (rs rt dst : List RegName) (k : Nat → Thread → Out) : Out :=
  withCur s fun u t =>
    match gateOf t y rs rt dst with
    | .go => if dst.any (runHolds s u t) then blockOn s u t .matrix else k u t
    | .wait => blockOn s u t .regs
    | .limit => trapHere s u t .illegal 0
    | .empty n => trapHere s u t .regEmpty n
    | .poison src det => trapAt s u t .poison det.toNat src

/-- The agent has retired an instruction and goes on at an address: one device cycle passes, and its age counts anew
(R57). -/
def retireTo (s : State) (u : Nat) (t : Thread) (pc : Word) : State :=
  { s with
    threads := tput u { t with pc := pc, prog := .none, status := .ready, since := s.time + 1 } s.threads
    contexts := match tget t.cid s.contexts with
      | some x => tput t.cid { x with lastRetire := if t.inHandler then x.lastRetire else s.time + 1 } s.contexts
      | none => s.contexts
    time := s.time + 1 }

/-- The address of the next instruction. -/
def nextPc (i : Instr) (t : Thread) : Word := t.pc + w64 i.len

/-- The instruction retires and the next one follows it. -/
def finish (s : State) (i : Instr) (u : Nat) (t : Thread) : Out := .next (retireTo s u t (nextPc i t))

/-- Retires with one scalar register written. -/
def finishG (s : State) (i : Instr) (u : Nat) (t : Thread) (d : GNum) (w : Word) : Out := finish s i u (t.setG d w)

/-- Retires with one vector register written. -/
def finishV (s : State) (i : Instr) (u : Nat) (t : Thread) (d : VNum) (x : BitVec 512) : Out :=
  finish (setVData s t d x) i u { t with v := t.v.set d VReg.fullReg }

/-- A result that no memory access makes leaves its destination E and comes later; under keep-full the agent waits for it at
the instruction (R65, R69). -/
def sendResult (s : State) (i : Instr) (y : Sync) (u : Nat) (t : Thread) (d : GNum) (bs : List Byte) : Out :=
  let s1 := { s with pending := tput s.nextId { uid := u, dest := .g d false, bytes := bs, bad := none, kf := syKf y, node := none, slot := none } s.pending
                     nextId := s.nextId + 1 }
  if syKf y then blockAt s1 u t .result (.sent s.nextId) else finish s1 i u (t.emptyG d)

/-- An instruction that waits for its result under keep-full goes on once the result has landed. -/
def resumeResult (s : State) (i : Instr) (u : Nat) (t : Thread) (id : Nat) : Out :=
  if (tget id s.pending).isSome || (tget id s.accs).isSome || (tget id s.forks).isSome || (tget id s.wds).isSome
      || s.areas.any (fun e => (tget id e.2.waiters).isSome) then blockAt s u t .result (.sent id)
  else finish s i u t

/-- Whether issue of a context has ended, or the context is halted or dead (R230). -/
def haltedCtx (s : State) (cid : Nat) : Bool :=
  match s.ctx? cid with
  | none => true
  | some x => decide (x.st ≠ .running) || (match x.ladder with | some l => l.halting | none => false)

/-- A thread of a context under a ladder has stopped at `yield` or `exit` (R230, R232). -/
def stoppedAt (s : State) (cid : Nat) : State :=
  s.modCtx cid fun x => { x with ladder := x.ladder.map fun l => { l with stoppedYield := l.stoppedYield + 1 } }

/-- What R47 forbids a handler: HANDLER_BLOCK before any effect. -/
def notInHandler (s : State) (k : Out) : Out :=
  withCur s fun u t => if t.inHandler then trapHere s u t .handlerBlock 0 else k

/-- One addition to an op counter of a context (R266); none once a final report was written (R269; DEDUCED, log 63). -/
def Context.addCount (x : Context) (i : Fin 13) (n : Nat) : Context :=
  if x.final then x
  else if max64 < (x.counters.get i).toNat + n then
    { x with counters := x.counters.set i (BitVec.allOnes 64), ocsat := x.ocsat ||| (1 <<< i.val) }
  else { x with counters := x.counters.set i (x.counters.get i + w64 n) }

/-- One addition to an op counter; the steward context's are never reported (R71, R266). -/
def addCount (s : State) (cid : Nat) (i : Fin 13) (n : Nat) : State := s.modCtx cid fun x => x.addCount i n

/-- The immediate of an instruction, sign-extended from its width (R298). -/
def immSigned (i : Imm) (base : Bool) : Word :=
  let n := 12 * i.n + if base then 4 else 0
  if n = 0 then 0 else w64 (if i.raw % 2 ^ n < 2 ^ (n - 1) then i.raw % 2 ^ n else 2 ^ 64 - 2 ^ n + i.raw % 2 ^ n)

/-- The immediate of an instruction, zero-extended. -/
def immUnsigned (i : Imm) : Word := w64 i.raw

end Sys2Proof.Machine
end

