-- ==== Sys2Proof/Machine/Ghost.lean ====
section
/-! DEFINITION. Grid bindings and ghost buffers: the fields of a binding's header and table (R196, R197), pieces (R199), and the
states of a buffer (R204). -/

namespace Sys2Proof.Machine

open Sys2Proof

/-! ### The header and the table of a binding (R196, R197) -/

/-- A word of the header. -/
def Binding.hdr (b : Binding) (k : Nat) : Nat := (b.header.getD k 0).toNat
/-- The object of its ghost tags; 0 for none. -/
def Binding.tagobj (b : Binding) : Nat := bitsOf (b.hdr 0) 40 24
/-- The consumers of a ghost tag. -/
def Binding.tagcons (b : Binding) : Nat := bitsOf (b.hdr 0) 32 8
/-- The stencil radius. -/
def Binding.rad (b : Binding) : Nat := bitsOf (b.hdr 0) 24 4
/-- The temporal depth d. -/
def Binding.depth (b : Binding) : Nat := bitsOf (b.hdr 0) 20 2 + 1
/-- The halo width w. -/
def Binding.width (b : Binding) : Nat := bitsOf (b.hdr 0) 16 4
/-- The element type's code. -/
def Binding.typeCode (b : Binding) : Nat := bitsOf (b.hdr 0) 8 5
/-- The bytes of an element. -/
def Binding.size (b : Binding) : Nat := match EType.ofCode b.typeCode with | some t => t.bits / 8 | none => 1
/-- The components of a cell. -/
def Binding.comps (b : Binding) : Nat := bitsOf (b.hdr 0) 4 4 + 1
/-- The dimensions in use. -/
def Binding.dims (b : Binding) : Nat := bitsOf (b.hdr 0) 0 2 + 1
/-- The global extent of a dimension. -/
def Binding.ext (b : Binding) (k : Nat) : Nat := bitsOf (b.hdr 1) (16 * k) 16 + 1
/-- The partitions of a dimension. -/
def Binding.pcount (b : Binding) (k : Nat) : Nat := bitsOf (b.hdr 2) (8 * k) 8 + 1
/-- The bound code of a face, in the order −x, +x, −y, +y, −z, +z. -/
def Binding.bound (b : Binding) (j : Nat) : Nat := bitsOf (b.hdr 3) (4 * j) 4
/-- The constant of a face. -/
def Binding.const (b : Binding) (j : Nat) : Nat := b.hdr (4 + j)
/-- The address of the partition table. -/
def Binding.ptab (b : Binding) : Nat := b.hdr 10
/-- The grid's identity within its tenant. -/
def Binding.gridid (b : Binding) : Nat := bitsOf (b.hdr 11) 0 32
/-- The number of partitions. -/
def Binding.count (b : Binding) : Nat := b.pcount 0 * b.pcount 1 * b.pcount 2

/-- The extent n of a partition in a dimension. -/
def Binding.n (b : Binding) (k : Nat) : Nat := b.ext k / b.pcount k
/-- The coordinate of partition p in a dimension (R197). -/
def Binding.pcoord (b : Binding) (p k : Nat) : Nat :=
  match k with
  | 0 => p % b.pcount 0
  | 1 => p / b.pcount 0 % b.pcount 1
  | _ => p / b.pcount 0 / b.pcount 1

/-- A word of partition p's record. -/
def Binding.prec (b : Binding) (p k : Nat) : Nat := (((b.parts.getD p []).getD k 0)).toNat
/-- The device that partition p's owner names. -/
def Binding.ownerDev (b : Binding) (p : Nat) : Nat := bitsOf (b.prec p 0) 23 9
/-- The core that partition p's owner names, by its die, cluster and core fields (R43). -/
def Binding.ownerCore (b : Binding) (p : Nat) : Nat := bitsOf (b.prec p 0) 11 12
/-- The interior's address. -/
def Binding.ibase (b : Binding) (p : Nat) : Nat := b.prec p 1
/-- The row pitch. -/
def Binding.rowPitch (b : Binding) (p : Nat) : Nat := bitsOf (b.prec p 2) 0 32
/-- The plane pitch. -/
def Binding.planePitch (b : Binding) (p : Nat) : Nat := bitsOf (b.prec p 2) 32 32
/-- The ghost area's address. -/
def Binding.gbase (b : Binding) (p : Nat) : Nat := b.prec p 3

/-- The partition whose owner core is a core of this device (R197). -/
def Binding.ownPart (b : Binding) (dev core : Nat) : Option Nat :=
  (List.range b.count).find? fun p => b.ownerDev p == dev && b.ownerCore p == core

/-- The key of a context's binding of a handle. -/
def gridKey (cid g : Nat) : Nat := cid * 64 + g

/-! ### Pieces (R199) -/

/-- The digit of a piece index in a dimension: 0 for −1, 1 for 0, 2 for +1. -/
def pieceDigit (f k : Nat) : Nat := f / 3 ^ k % 3

/-- Whether f is a piece of the grid: not all zero, and 0 in unused dimensions. -/
def Binding.isPiece (b : Binding) (f : Nat) : Bool :=
  decide (f < 27) && f != 13 && (List.range 3).all fun k => decide (k < b.dims) || pieceDigit f k == 1

/-- The pieces of the grid, in increasing index. -/
def Binding.pieces (b : Binding) : List Nat := (List.range 27).filter b.isPiece

/-- The extent of a piece in a dimension. -/
def Binding.m (b : Binding) (f k : Nat) : Nat := if pieceDigit f k = 1 then b.n k else b.width

/-- The bytes of one buffer of a piece. -/
def Binding.bufBytes (b : Binding) (f : Nat) : Nat :=
  (b.m f 0 * b.m f 1 * b.m f 2 * b.comps * b.size + 63) / 64 * 64

/-- Where a buffer of a piece lies in the ghost area. -/
def Binding.bufOff (b : Binding) (f buf : Nat) : Nat :=
  ((b.pieces.filter fun e => decide (e < f)).map fun e => 2 * b.bufBytes e).foldl (· + ·) 0 + buf * b.bufBytes f

/-- The address of component c of a piece's cell with local coordinates u. -/
def Binding.ghostAddr (b : Binding) (p f buf ux uy uz c : Nat) : Word :=
  w64 (b.gbase p + b.bufOff f buf + ((uz * b.m f 1 + uy) * b.m f 0 + ux) * b.comps * b.size + c * b.size)

/-- The address of component c of an interior cell (R197). -/
def Binding.cellAddr (b : Binding) (p x y z c : Nat) : Word :=
  w64 (b.ibase p + z * b.planePitch p + y * b.rowPitch p + (x * b.comps + c) * b.size)

/-! ### Buffers (R204) -/

/-- The buffer that a step selects. -/
def Binding.bufOf (b : Binding) (s : Nat) : Nat := s / b.depth % 2
/-- The base step of a step. -/
def Binding.base (b : Binding) (s : Nat) : Nat := s / b.depth * b.depth

/-- The key of a buffer of a binding. -/
def bufKey (q f buf : Nat) : Nat := (q * 32 + f) * 2 + buf

/-- A buffer after `gdecl`. -/
def GhostBuf.blank : GhostBuf := { st := .none, pending := none, stamp := none }
/-- A buffer of a binding. -/
def Binding.buf (b : Binding) (q f buf : Nat) : GhostBuf := (tget (bufKey q f buf) b.bufs).getD GhostBuf.blank
/-- Replaces a buffer of a binding. -/
def Binding.setBuf (b : Binding) (q f buf : Nat) (x : GhostBuf) : Binding := { b with bufs := tput (bufKey q f buf) x b.bufs }

/-- What a buffer's state says to an `ldh` for a base step. -/
inductive Verdict where
  | proceed | stall
  | stale (det : Nat)
  deriving DecidableEq, Repr

/-- The column "`ldh` for base e" of R204. -/
def BufSt.verdict (e : Nat) : BufSt → Verdict
  | .none => .stall
  | .filling k => if e < k then .stale 0 else .stall
  | .ready k => if e = k then .proceed else if e < k then .stale 0 else .stall
  | .released k => if e < k then .stale 0 else if e = k then .stale 1 else .stall

/-- What a buffer's state says to a contributor's write. -/
inductive Admit where
  | go | wait | drop
  deriving DecidableEq, Repr

/-- The column "Write for k" of R204. -/
def BufSt.admits (j : Nat) : BufSt → Admit
  | .none => .go
  | .filling k => if j = k then .go else if k < j then .wait else .drop
  | .ready k => if k < j then .wait else .drop
  | .released k => if k < j then .go else .drop

/-- The state of a buffer that a write for a step enters. -/
def GhostBuf.fillingFor (x : GhostBuf) (k : Nat) : GhostBuf := { x with st := .filling k }

/-- The column "Last contributor done" of R204, with the stamp. -/
def GhostBuf.done (x : GhostBuf) (k stamp : Nat) : GhostBuf :=
  if x.pending = some k then { st := .released k, pending := none, stamp := some stamp }
  else { x with st := .ready k, stamp := some stamp }

/-- The column "`hdone` for e" of R204. -/
def GhostBuf.release (x : GhostBuf) (e : Nat) : GhostBuf :=
  match x.st with
  | .none => { x with pending := some e }
  | .filling k => if k ≤ e then { x with pending := some e } else x
  | .ready k => if e = k then { x with st := .released k } else if k < e then { x with pending := some e } else x
  | .released k => if k < e then { x with pending := some e } else x

/-- The release of `hdone` by partition p for a step: every piece's buffer of that step (R203). -/
def hdoneApply (s : State) (cid g p step : Nat) : State :=
  match tget (gridKey cid g) s.grids with
  | none => s
  | some b =>
    let b1 := b.pieces.foldl (fun x f => x.setBuf p f (b.bufOf step) ((x.buf p f (b.bufOf step)).release (b.base step))) b
    { s with grids := tput (gridKey cid g) b1 s.grids }

end Sys2Proof.Machine
end

