-- ==== Sys2Proof/Machine/Seals.lean ====
section
/-! DEFINITION. Seals: the writeback (R128, R134), the key roll (R135), the scrub (R136), a station's own fill (R129). -/

namespace Sys2Proof.Machine

open Sys2Proof

/-- The contexts of a tenant. -/
def contextsOf (s : State) (t : Nat) : List Nat :=
  (s.contexts.filter fun e => e.2.tenant == t && decide (e.2.st ≠ .dead)).map Prod.fst

/-- A notice of SEAL_AGING to a context; R134 states no address and no detail for it (log 15). -/
def agingNotice (s : State) (cid : Nat) : State :=
  let a := drawField s
  report a.2 cid { addr := w64 a.1, cause := .sealAging, detail := 0, item := 10, peer := none, ep := 0 }

/-- The SEAL_AGING records of a tenant that are due are written (R134). -/
def giveNotice (s : State) (t : Nat) : State :=
  if (s.tenant t).due then (contextsOf s t).foldl agingNotice (s.setTenant t { s.tenant t with due := false }) else s

/-- A writeback, with the notice that may come due (R128, R134). -/
def writeback (s : State) (pg : Nat) : State := giveNotice (versionUp s pg) (s.ownerOf pg)

/-- SEAL_WRITEBACK (R128, R137): a dirty seal is written back. A notice that an eviction made due for its owner is written, too
(R134). -/
def execSealWriteback (pg : Nat) (s : State) : Out :=
  if (s.seal pg).dirty && !sealFrozen s pg then .next (writeback s pg) else .next (giveNotice s (s.ownerOf pg))

/-- OWN_ACCORD_FILL: a fill that a station starts itself; its failure sets `failed` and reports nothing (R129). -/
def execOwnAccordFill (pg : Nat) (s : State) : Out := .next (sealFill s pg).2

/-! ### The key roll (R135) -/

/-- One seal of a roll: a seal that failed, or that cannot be verified, stays failed; every other starts at version 0. -/
def rollSeal (par : Bool) (x : Seal) : Seal × Bool :=
  if x.failed || (!x.cached && x.broken) then ({ x with failed := true, gpar := par, frozen := false }, false)
  else ({ x with ver := 0, gpar := par, frozen := false, dirty := false, broken := false }, true)

/-- The nodes all of whose eight children lie in a list. -/
def wholeNodes (xs : List Nat) : List Nat :=
  ((xs.map (· / 8)).eraseDups).filter fun n => (List.range 8).all fun j => xs.contains (8 * n + j)

/-- Every counter of a level rises by one, but for those over the nodes in `keep`; with the value of a node that is not listed. -/
def raiseAll (t : Table Nat) (base : Nat) (keep : List Nat) : Table Nat × Nat :=
  ((t.map Prod.fst ++ keep).eraseDups.foldl (fun m i =>
    tput i (if keep.contains i then (tget i t).getD base else min ((tget i t).getD base + 1) maxVersion) m) [], min (base + 1) maxVersion)

/-- The L1 nodes over a tenant's seals are written back with their paths (R128, R135). Tenant 0 owns every page that the ownership
table does not list. -/
def raiseTenant (s : State) (t : Nat) : State :=
  if t ≠ 0 then raisePaths s (((s.owner.filter fun e => e.2 == t).map fun e => l1Of e.1).eraseDups)
  else
    let k1 := wholeNodes ((s.owner.filter fun e => e.2 != 0).map fun e => sealNo e.1)
    let a := raiseAll s.l2 s.l2base k1
    let b := raiseAll s.l3 s.l3base (wholeNodes k1)
    let c := raiseAll s.sram s.sramBase (wholeNodes (wholeNodes k1))
    { s with l2 := a.1, l2base := a.2, l3 := b.1, l3base := b.2, sram := c.1, sramBase := c.2 }

/-- The roll of a tenant, seal by seal in rising address: the state, the seals resealed and the seals failed (R135; log 26). Pages of
tenant 0 that nothing has touched count as resealed; so do seals that a scrub during the roll has put under the new generation
(R136), whose versions stay. A notice of the old generation that is still to be written stays so (R134). -/
def rollKeys (s : State) (t : Nat) : State × Nat × Nat :=
  let g := (s.tenant t).kgen + 1
  let mine := s.seals.filter fun e => s.ownerOf e.1 == t && decide (e.1 % 786432 < stationSeals) && !underNew s e.1
  let done := mine.map fun e => (e.1, rollSeal (g % 2 == 1) e.2)
  let bad := (done.filter fun e => !e.2.2).length
  let owned := if t = 0 then deviceSeals - (s.owner.filter fun e => e.2 != 0).length else (s.owner.filter fun e => e.2 == t).length
  let s1 := raiseTenant (done.foldl (fun s e => s.setSeal e.1 e.2.1) s) t
  (s1.setTenant t { s1.tenant t with kgen := g, high := (s1.tenant t).hnew, hnew := 0, aging := false }, owned - bad, bad)

/-- The 32 bytes of a roll's completion record (R135). -/
def rollRecord (s : State) (t n f : Nat) : List Byte :=
  leBytes 8 (1 + n % 2 ^ 32 * 2 ^ 32) ++ leBytes 8 f ++ leBytes 8 t ++ leBytes 8 s.time

/-- A tenant that owns no page and has no context loses its keys, once no roll of it runs (R136). -/
def retireTenant (s : State) (t : Nat) : State :=
  if t ≠ 0 ∧ (s.tenant t).roll = none ∧ !s.owner.any (fun e => e.2 == t) ∧ !s.contexts.any (fun e => e.2.tenant == t) then
    { s with tenants := tdel t s.tenants }
  else s

/-- ROLL_COMPLETE: the roll of a tenant finishes, unless the translation of its record is held, and its record is written, to the steward's space, or to the window of the
host function that asked for it, whose command then ends (R135, R256). -/
def rollComplete (s : State) (t : Nat) (r : Roll) : State :=
  let k := rollKeys s t
  let s1 := retireTenant (k.1.setTenant t { k.1.tenant t with roll := none }) t
  match r with
  | .steward addr => match spaceWrite s1 0xFFFF 0 addr (rollRecord s1 t k.2.1 k.2.2) with
    | .ok _ s2 => s2
    | .fail _ s2 => s2
    | .hold => s
  | .host fn =>
    s1.setFn fn (((s1.fn fn).put 0 (rollRecord s1 t k.2.1 k.2.2)).finish 0 0)

/-- ROLL_COMPLETE (R135). -/
def execRollComplete (t : Nat) (s : State) : Out :=
  match (s.tenant t).roll with
  | some r => .next (rollComplete s t r)
  | none => .next s

/-- The statuses of `keyroll` (R135). -/
inductive RollStart where
  | started | busy | noTenant | spent
  deriving DecidableEq, Repr

/-- The code of a status of `keyroll`. -/
def RollStart.code : RollStart → Nat
  | .started => 0 | .busy => 1 | .noTenant => 2 | .spent => 3

/-- Whether a tenant's ID is in use on the device: it is tenant 0, a partition or a context names it, or it owns a page. -/
def tenantInUse (s : State) (t : Nat) : Bool :=
  t == 0 || s.parts.any (fun e => e.2.tenant == t) || s.contexts.any (fun e => e.2.tenant == t) || s.owner.any (fun e => e.2 == t)

/-- The answer of `keyroll` for a tenant (R135). Where two refusals apply, the order BUSY, NO_TENANT, KEYS_SPENT is the model's
(DESIGN CHOICE, log 58). -/
def rollStart (s : State) (t : Nat) : RollStart :=
  if (s.tenant t).roll.isSome then .busy
  else if !tenantInUse s t then .noTenant
  else if (s.tenant t).kgen = 0xFFFF then .spent
  else .started

/-- A roll begins. -/
def beginRoll (s : State) (t : Nat) (r : Roll) : State := s.setTenant t { s.tenant t with roll := some r, hnew := 0 }

/-! ### Scrub and reseal (R136) -/

/-- The mark and the generation under which a scrub seals: those of the roll that runs, or the tenant's own (R136). -/
def scrubUnder (s : State) (u : Nat) : Nat × Nat :=
  let t := s.tenant u
  if t.roll.isSome then (t.hnew, t.kgen + 1) else (t.high, t.kgen)

/-- Whether a scrub of n pages under a tenant would need a roll that KEYS_SPENT refuses (R136). -/
def keysSpent (s : State) (u n : Nat) : Bool :=
  decide (0 < n) && decide (maxVersion < (scrubUnder s u).1 + n) && (scrubUnder s u).2 == 0xFFFF

/-- Zeros in a page, every word F (R136, R147); fetches may still return the words that stood there (R153). -/
def zeroPage (s : State) (pg : Nat) : State :=
  let old := ((s.mem.filter fun c => c.1 / 4096 == pg).map fun c => c.1 / 2).eraseDups.map fun h =>
    (h, BitVec.ofNat 16 (leNat (memBytes s.mem (h * 2) 2)))
  { s with
    mem := s.mem.filter fun c => c.1 / 4096 != pg
    words := s.words.filter fun e => e.1 / 512 != pg
    softWords := s.softWords.filter fun k => k / 512 != pg
    wclock := s.wclock + 1
    hist := old.foldl (fun h e => tput e.1 ((s.wclock, e.2) :: (tget e.1 h).getD []) h) s.hist }

/-- The tenant's generation and mark as one page of a scrub finds them: a spent mark is rolled first, unless a roll runs (R136). -/
def scrubRoll (s : State) (u : Nat) : State :=
  if (s.tenant u).high = maxVersion ∧ (s.tenant u).roll = none then (rollKeys s u).1 else s

/-- *Scrub_reseal* of a page under tenant u (R136); a scrub during a roll of u uses the new generation. The path of the version tree is
written back with the new version (R128; log 16). -/
def scrubPage (u : Nat) (s : State) (pg : Nat) : State :=
  let s0 := scrubRoll s u
  let old := s0.ownerOf pg
  let w := scrubUnder s0 u
  let v := min (w.1 + 1) maxVersion
  let s1 := (raisePaths (zeroPage s0 pg) [l1Of pg]).setSeal pg { Seal.blank with ver := v, gpar := w.2 % 2 == 1, frozen := v == maxVersion }
  let s2 := { s1 with owner := if u = 0 then tdel pg s1.owner else tput pg u s1.owner }
  retireTenant (giveNotice (raiseMark s2 u v (s2.tenant u).roll.isSome) u) old

end Sys2Proof.Machine
end

