-- ==== Sys2Proof/Machine/Nodes.lean ====
section
/-! DEFINITION. The Watershed: statuses (R107), derivations (R105, R106), the cut, the sweep and the completion of a withdrawal
(R110, R113 to R120). -/

namespace Sys2Proof.Machine

open Sys2Proof

/-! ### Statuses (R107) -/

/-- The codes of a status (R107). -/
inductive NodeCode where
  | ok | noRight | overlap | withdrawn | depth | busy | noNode | crossTenant | noSpace | inUse | keysSpent
  deriving DecidableEq, Repr

/-- The number of a code. -/
def NodeCode.code : NodeCode → Nat
  | .ok => 0 | .noRight => 1 | .overlap => 2 | .withdrawn => 3 | .depth => 4 | .busy => 5 | .noNode => 6 | .crossTenant => 7
  | .noSpace => 8 | .inUse => 9 | .keysSpent => 10

/-- A status word (R107). -/
def statusWord (c : NodeCode) (detail depth value : Nat) : Word :=
  w64 (c.code + detail * 2 ^ 8 + depth * 2 ^ 16 + min value (2 ^ 32 - 1) * 2 ^ 32)

/-! ### Derivations (R105, R106) -/

/-- The operands of a derivation: pages in place of addresses (R104). -/
structure Quad where
  src : Nat
  space : Nat
  rights : Nat
  dev : Nat
  dst : Nat
  pages : Nat
  deriving DecidableEq, Repr

/-- What a derivation comes to: a status, with the node whose earlier translations its fill waits for; or a request to the
destination's home device. -/
inductive DeriveRes where
  | status (w : Word) (s : State) (node : Option Nat)
  | remote (node : Nat)
  deriving DecidableEq, Repr

/-- The limit on nodes (R121). -/
def maxNodes : Nat := 16777216

/-- The pages of a physical range whose owner a root `map` into another tenant's space scrubs (R105). -/
def scrubbedBy (s : State) (first n : Nat) : List Nat :=
  ((s.owner.filter fun e => decide (first ≤ e.1) && decide (e.1 < first + n) && e.2 != 0).map Prod.fst)

/-- The pages of a physical range. -/
def pageRange (first n : Nat) : List Nat := (List.range n).map (first + ·)

/-- A derivation in the node store of this device (R105), its checks in the order of that rule. `caller` is the calling
space. -/
def derive (s : State) (caller tenant : Nat) (grant : Bool) (q : Quad) : DeriveRes :=
  let fail (c : NodeCode) (d : Nat) : DeriveRes := .status (statusWord c d 0 0) s none
  match findNode s caller q.src with
  | none => fail .noRight 1
  | some (i, n) =>
    if n.vpage + n.pages < q.src + q.pages then fail .noRight 1
    else if marked s i then fail .withdrawn 0
    else if !n.rights.getLsbD 4 then fail .noRight 2
    else if !grant && !hasRights n.rights q.rights then fail .noRight 2
    else if grant && !(decide (q.src = n.vpage) && decide (q.pages = n.pages)) then fail .noRight 3
    else
      let first := n.page + (q.src - n.vpage)
      if q.dev ≠ s.device then
        if (s.peer q.dev).st ≠ .live then fail .noSpace 0 else .remote i
      else match tget q.space s.spaces with
      | none => fail .noSpace 0
      | some d =>
        if d.deleted then fail .noSpace 0
        else if d.tenant ≠ tenant ∧ tenant ≠ 0 then fail .crossTenant 0
        else if s.nodes.any (fun e => e.2.space == q.space && overlaps e.2.vpage e.2.pages q.dst q.pages) then fail .overlap 0
        else if !grant && n.depth == 15 then fail .depth 0
        else if !grant && decide (maxNodes ≤ s.nodes.length) then fail .noNode 0
        else
          let toOther := tenant == 0 && d.tenant != 0
          if grant then
            if toOther && keysSpent s d.tenant n.pages then fail .keysSpent 0
            else
              let s1 := if toOther && n.dev == s.device then (pageRange n.page n.pages).foldl (scrubPage d.tenant) s else s
              let m := { n with space := q.space, vpage := q.dst, tenant := if toOther then d.tenant else n.tenant }
              .status (statusWord .ok 0 n.depth 0) { s1 with nodes := tput i m s1.nodes } (some i)
          else
            let dirty := if toOther && n.dev == s.device then scrubbedBy s first q.pages else []
            if keysSpent s 0 dirty.length then fail .keysSpent 0
            else
              let s1 := dirty.foldl (scrubPage 0) s
              let m : Node := { space := q.space, vpage := q.dst, pages := q.pages, dev := n.dev, page := first
                                rights := BitVec.ofNat 5 q.rights, parent := some i, parentDev := none, depth := n.depth + 1
                                tenant := n.tenant, withdrawn := false }
              .status (statusWord .ok 0 (n.depth + 1) 0) { s1 with nodes := tput s1.nextId m s1.nodes, nextId := s1.nextId + 1 } none

/-- The node of a `grant` leaves for another device: its parent here records a remote child, and its children here hang under a
node of that device (R106). -/
def moveAway (s : State) (i dev : Nat) (n : Node) : State :=
  let kids := tmap (fun _ m => if m.parent = some i ∧ m.parentDev = none then { m with parentDev := some dev } else m) (tdel i s.nodes)
  let s1 := { s with nodes := kids, remotes := s.remotes.filter fun e => e.2.parent != i }
  match n.parent, n.parentDev with
  | some p, none => { s1 with
      remotes := tput s1.nextId { parent := p, dev := dev, page := n.page, pages := n.pages } s1.remotes, nextId := s1.nextId + 1 }
  | _, _ => s1

/-- What the destination's home device finds of a derivation (R105, R106): the checks of R105 that it makes. -/
def peerVerdict (answer : Nat) : NodeCode :=
  if answer = 0 then .ok else if answer = 2 then .overlap else if answer = 7 then .crossTenant else if answer = 8 then .noSpace else .noNode

/-- What a derivation whose request is answered finds of its source, which may have moved or been withdrawn meanwhile (R105): the node,
or the refusal. -/
def sourceNow (s : State) (space i src pages : Nat) : Except (NodeCode × Nat) Node :=
  match tget i s.nodes with
  | none => .error (if s.wds.any fun e => e.2.swept.contains i then (.withdrawn, 0) else (.noRight, 1))
  | some n =>
    if n.space ≠ space ∨ src < n.vpage ∨ n.vpage + n.pages < src + pages then .error (.noRight, 1)
    else if marked s i then .error (.withdrawn, 0)
    else .ok n

/-- The answer of the destination's home device to a derivation by a space and its tenant, and the node whose earlier translations the
fill of a moved node waits for (R105, R106, R108). The device checks the destination space, its tenant and the range; then come the
depth, its node store and the keys of the scrub, whose tenant the answer names. On OK the child is recorded, or the node moves. The
source is looked at anew in the same step, so that the derivation is atomic. -/
def deriveAnswered (s : State) (space caller : Nat) (grant : Bool) (i src pages dev answer dstTenant : Nat) : Word × State × Option Nat :=
  let fail (c : NodeCode) : Word × State × Option Nat := (statusWord c 0 0 0, s, none)
  match sourceNow s space i src pages with
  | .error e => (statusWord e.1 e.2 0 0, s, none)
  | .ok n =>
    let first := n.page + (src - n.vpage)
    let v := peerVerdict answer
    let toOther := caller == 0 && dstTenant != 0
    let mine := n.dev == s.device
    if v = .noSpace ∨ v = .crossTenant ∨ v = .overlap then fail v
    else if !grant && n.depth == 15 then fail .depth
    else if !grant && v == .noNode then fail .noNode
    else if grant then
      if toOther && keysSpent s dstTenant n.pages then fail .keysSpent
      else
        let s1 := if toOther && mine then (pageRange n.page n.pages).foldl (scrubPage dstTenant) s else s
        (statusWord .ok 0 n.depth 0, moveAway s1 i dev n, some i)
    else
      let dirty := if toOther && mine then scrubbedBy s first pages else []
      if keysSpent s 0 dirty.length then fail .keysSpent
      else
        let s1 := dirty.foldl (scrubPage 0) s
        (statusWord .ok 0 (n.depth + 1) 0,
          { s1 with remotes := tput s1.nextId { parent := i, dev := dev, page := first, pages := pages } s1.remotes
                    nextId := s1.nextId + 1 }, none)

/-! ### Withdrawals (R113 to R120) -/

/-- The children of a node on this device, oldest first (R116). -/
def childrenOf (s : State) (i : Nat) : List Nat :=
  (s.nodes.filter fun e => e.2.parent == some i && e.2.parentDev == none).map Prod.fst

/-- A subtree in pre-order, siblings oldest first, without the parts that an earlier withdrawal has cut (R114, R116); the depth
is at most 15. -/
def subtree (s : State) : Nat → Nat → List Nat
  | 0, _ => []
  | fuel + 1, i => match tget i s.nodes with
    | none => []
    | some n => if n.withdrawn then [] else i :: ((childrenOf s i).map (subtree s fuel)).flatten

/-- A node and the nodes of this device above it, nearest first. -/
def lineOf (s : State) : Nat → Nat → List Nat
  | 0, _ => []
  | fuel + 1, i => i :: match tget i s.nodes with
    | none => []
    | some n => match n.parent, n.parentDev with
      | some p, none => lineOf s fuel p
      | _, _ => []

/-- The stations of this device. -/
def allStations : List Nat := List.range 128

/-- The filter entries in use (R113, R121). -/
def filterUsed (s : State) : Nat := (s.wds.filter fun e => e.2.entry).length

/-- Whether a local `unmap` or `spdel` is turned away: every filter entry is in use, or translations are held in place of an entry
(R113, R118). -/
def filterBusy (s : State) : Bool := decide (64 ≤ filterUsed s) || s.wds.any fun e => e.2.holds && !e.2.left.isEmpty

/-- The withdrawals in flight that a subtree contains: one of its nodes lies above their roots, or is one of them (R114). -/
def containedIn (s : State) (nodes : List Nat) : List Nat :=
  (s.wds.filter fun e => e.2.above.any fun i => nodes.contains i).map Prod.fst

/-- The cut: the roots are marked in one step, a filter entry is on its way to every station, and a cut message goes to the home
of every remote child (R113, R118). `more` are remote children that are roots themselves. -/
def cut (s : State) (cid : Nat) (dest : WdDest) (roots : List Nat) (more : List Remote) (holds : Bool) (space : Option Nat)
    (count : Nat) : Withdrawal × State :=
  let nodes := (roots.map (subtree s 16)).flatten
  let gone := (s.remotes.filter fun e => nodes.contains e.2.parent).map Prod.snd
  let devs := (gone ++ more).map fun r => r.dev
  let w : Withdrawal :=
    { cid := cid, dest := dest
      ranges := roots.filterMap (fun i => (tget i s.nodes).map fun n => (n.dev, n.page, n.pages))
      left := nodes, swept := [], count := count, uncut := allStations
      acks := devs.map fun d => (d, s.time), waits := containedIn s (roots ++ nodes)
      holds := holds, entry := !holds, above := ((roots ++ more.map Remote.parent).map (lineOf s 16)).flatten
      space := space, started := s.time }
  (w, { s with
        nodes := tmap (fun i n => if roots.contains i then { n with withdrawn := true } else n) s.nodes
        remotes := s.remotes.filter fun e => !(nodes.contains e.2.parent || more.contains e.2) })

/-- A withdrawal of subtree roots begins. -/
def withdraw (s : State) (cid : Nat) (dest : WdDest) (roots : List Nat) (more : List Remote) (holds : Bool) (space : Option Nat) :
    State :=
  let r := cut s cid dest roots more holds space 0
  { r.2 with wds := tput s.nextId r.1 r.2.wds, nextId := s.nextId + 1 }

/-- Whether a range of source pages of node n, by virtual page, meets a physical range taken from it. -/
def sourceMeets (n : Node) (first len page pages : Nat) : Bool :=
  overlaps (n.page + (first - n.vpage)) len page pages

/-- What `unmap` comes to: a status at once, or a withdrawal of these roots. -/
inductive UnmapRes where
  | status (w : Word)
  | roots (is : List Nat) (more : List Remote)
  deriving DecidableEq, Repr

/-- The checks of `unmap` and `unmap.self` (R113). -/
def unmapCheck (s : State) (space : Nat) (self : Bool) (first pages : Nat) : UnmapRes :=
  let fail (c : NodeCode) (d : Nat) : UnmapRes := .status (statusWord c d 0 0)
  match findNode s space first with
  | none => fail .noRight 1
  | some (i, n) =>
    if n.vpage + n.pages < first + pages then fail .noRight 1
    else if marked s i then fail .withdrawn 0
    else if self then
      if first = n.vpage ∧ pages = n.pages then
        if filterBusy s then fail .busy 0 else .roots [i] []
      else fail .noRight 3
    else
      let kids := (childrenOf s i).filter fun k => match tget k s.nodes with
        | some m => sourceMeets n first pages m.page m.pages
        | none => false
      let far := (s.remotes.filter fun e => e.2.parent == i && sourceMeets n first pages e.2.page e.2.pages).map Prod.snd
      if kids.isEmpty && far.isEmpty then .status (statusWord .ok 0 0 0)
      else if filterBusy s then fail .busy 0
      else .roots kids far

/-- The nodes of a space in rising address (R110). -/
def nodesOf (s : State) (space : Nat) : List Nat :=
  let mine := s.nodes.filter fun e => e.2.space == space
  (mine.foldl (fun (acc : Table Nat) e => tput e.2.vpage e.1 acc) []).map Prod.snd

/-- The next node of a space, in rising address, that no withdrawal has cut, itself or by an ancestor (R110, R113). -/
def nextOfSpace (s : State) (space : Nat) : Option Nat := (nodesOf s space).find? fun i => !marked s i

/-- Whether withdrawals of a space's nodes by others are still in flight. -/
def spaceBusy (s : State) (space : Nat) : Bool := s.nodes.any fun e => e.2.space == space

/-- The refusals of `spdel` (R110). -/
def spdelRefusal (s : State) (tenant space : Nat) : Option NodeCode :=
  match tget space s.spaces with
  | none => some .noSpace
  | some x =>
    if x.deleted || space == 0 then some .noSpace
    else if x.tenant ≠ tenant ∧ tenant ≠ 0 then some .crossTenant
    else if s.contexts.any (fun e => e.2.space == space && decide (e.2.st ≠ .dead)) then some .inUse
    else if filterBusy s then some .busy
    else none

/-- The mark of a deletion (R389). -/
def markSpace (s : State) (space : Nat) : State :=
  match tget space s.spaces with
  | some x => { s with spaces := tput space { x with deleted := true } s.spaces }
  | none => s

/-- A new space for a tenant: an unused ID, which R109 leaves open (log 15). -/
def newSpace (s : State) (tenant : Nat) : Option (Nat × State) :=
  let d := drawField s
  match pickUnused (fun i => i == 0 || (tget i s.spaces).isSome) (d.1 % 2 ^ 20) (2 ^ 20) with
  | some i => some (i, { d.2 with spaces := tput i { tenant := tenant, deleted := false } s.spaces })
  | none => none

/-! ### `mprobe` (R112) -/

/-- The word that `mprobe` gives for a page of a space. -/
def probeWord (s : State) (space : Nat) (va : Word) : Word :=
  match classify va with
  | .translated => match findNode s space (va.toNat / 4096) with
    | some (i, n) => w64 (n.rights.toNat + n.depth * 2 ^ 8 + 2 ^ 12 + (if marked s i then 2 ^ 13 else 0) + n.tenant * 2 ^ 16
        + min (n.vpage + n.pages - va.toNat / 4096) (2 ^ 32 - 1) * 2 ^ 32)
    | none => 0
  | _ => 0

end Sys2Proof.Machine
end

