-- ==== Sys2Proof/Machine/Operands.lean ====
section
/-! DEFINITION. The scalar operand forms and the functions that the scalar instructions compute (R311, R316, R326, R332,
R361, R371, R378, R381, R382, R386, R394, R427), each of the operands a and b of R316. -/

namespace Sys2Proof.Machine

open Sys2Proof

/-- The signed value of a 64-bit word. -/
def sval (a : Word) : Int := a.toInt

/-- The quotient of `div.i64` (R332). -/
def divS (a b : Word) : Word :=
  if b = 0 then BitVec.allOnes 64 else BitVec.ofInt 64 (Int.tdiv a.toInt b.toInt)
/-- The quotient of `div.n64` (R332). -/
def divU (a b : Word) : Word := if b = 0 then BitVec.allOnes 64 else a / b
/-- The remainder of `rem.i64`: the sign of the dividend (R332). -/
def remS (a b : Word) : Word := if b = 0 then a else BitVec.ofInt 64 (Int.tmod a.toInt b.toInt)
/-- The remainder of `rem.n64` (R332). -/
def remU (a b : Word) : Word := if b = 0 then a else a % b

/-- The four forms of opcode 0x08. -/
def divRem (v : Fin 4) : Word → Word → Word :=
  match v with
  | 0 => divS | 1 => divU | 2 => remS | 3 => remU

/-- Bits [127:64] of the signed product (R371). -/
def mulhS (a b : Word) : Word := BitVec.ofInt 64 (a.toInt * b.toInt / 2 ^ 64)
/-- Bits [127:64] of the unsigned product (R371). -/
def mulhU (a b : Word) : Word := w64 (a.toNat * b.toNat / 2 ^ 64)

/-- The three forms of opcode 0x07. -/
def mulForm (v : Fin 3) : Word → Word → Word :=
  match v with
  | 0 => fun a b => a * b
  | 1 => mulhS
  | 2 => mulhU

/-- `and`, `andn`, `or`, `xor` (R316, R376, R423). -/
def logicForm (v : Fin 4) (a b : Word) : Word :=
  match v with
  | 0 => a &&& b
  | 1 => a &&& ~~~b
  | 2 => a ||| b
  | 3 => a ^^^ b

/-- `shl`, `shr`, `sar`, `rot` by the low 6 bits of the amount (R381, R382). -/
def shiftForm (v : Fin 4) (a b : Word) : Word :=
  let n := b.toNat % 64
  match v with
  | 0 => a <<< n
  | 1 => a >>> n
  | 2 => a.sshiftRight n
  | 3 => a.rotateLeft n

/-- `min.i64`, `max.i64`, `min.n64`, `max.n64` (R361). -/
def minMaxForm (v : Fin 4) (a b : Word) : Word :=
  match v with
  | 0 => if a.slt b then a else b
  | 1 => if a.slt b then b else a
  | 2 => if a.ult b then a else b
  | 3 => if a.ult b then b else a

/-- The number of leading zero bits, of `n` bits below a position. -/
def leadingZeros (a : Nat) : Nat → Nat
  | 0 => 0
  | n + 1 => if a / 2 ^ n % 2 = 1 then 0 else leadingZeros a n + 1

/-- The number of trailing zero bits among `n` bits. -/
def trailingZeros (a : Nat) : Nat → Nat
  | 0 => 0
  | n + 1 => if a % 2 = 1 then 0 else trailingZeros (a / 2) n + 1

/-- The number of 1 bits among `n` bits. -/
def onesIn (a : Nat) : Nat → Nat
  | 0 => 0
  | n + 1 => a % 2 + onesIn (a / 2) n

/-- `clz` (R326). -/
def clzWord (a : Word) : Word := w64 (leadingZeros a.toNat 64)
/-- `ctz` (R326). -/
def ctzWord (a : Word) : Word := w64 (trailingZeros a.toNat 64)
/-- `popc` (R378). -/
def popcWord (a : Word) : Word := w64 (onesIn a.toNat 64)

/-- `sext.i8`, `sext.i16`, `sext.i32` (R386). -/
def sextForm (v : Fin 3) (a : Word) : Word :=
  match v with
  | 0 => (a.setWidth 8).signExtend 64
  | 1 => (a.setWidth 16).signExtend 64
  | 2 => (a.setWidth 32).signExtend 64

/-- `zext.n8`, `zext.n16`, `zext.n32` (R427). -/
def zextForm (v : Fin 3) (a : Word) : Word :=
  match v with
  | 0 => (a.setWidth 8).setWidth 64
  | 1 => (a.setWidth 16).setWidth 64
  | 2 => (a.setWidth 32).setWidth 64

/-- The conditions of `cmp` (R327): eq, ne, lt, ge, ltu, geu. -/
def cmpCond (c : Fin 6) (a b : Word) : Bool :=
  match c with
  | 0 => a == b
  | 1 => a != b
  | 2 => a.slt b
  | 3 => !a.slt b
  | 4 => a.ult b
  | 5 => !a.ult b

/-- Two-operand form: rd = rd op rs (R303, R311, R316). -/
def aluTwo (i : Instr) (y : Sync) (d s : GNum) (f : Word → Word → Word) (st : State) : Out :=
  issue st y [.g d, .g s] [] [.g d] fun u t => finishG st i u t d (f (t.gval d) (t.gval s))

/-- Three-operand form: rd = rs op rt (R303). -/
def aluThree (i : Instr) (y : Sync) (d s r : GNum) (f : Word → Word → Word) (st : State) : Out :=
  issue st y [.g s] [.g r] [.g d] fun u t => finishG st i u t d (f (t.gval s) (t.gval r))

/-- Immediate form: rd = rd op imm. -/
def aluImm (i : Instr) (y : Sync) (d : GNum) (e : Word) (f : Word → Word → Word) (st : State) : Out :=
  issue st y [.g d] [] [.g d] fun u t => finishG st i u t d (f (t.gval d) e)

/-- One-source form: rd = op rs. -/
def aluOne (i : Instr) (y : Sync) (d s : GNum) (f : Word → Word) (st : State) : Out :=
  issue st y [.g s] [] [.g d] fun u t => finishG st i u t d (f (t.gval s))

end Sys2Proof.Machine
end

