-- ==== Sys2Proof/Machine/Access.lean ====
section
/-! DEFINITION. Accesses in flight: issue, translation, the step at the owner, answers from peers, the return of results
(R99 to R103, R140 to R149, R158 to R165), with the device events that move them. -/

namespace Sys2Proof.Machine

open Sys2Proof

/-- The value that `amo` writes (R314), on `w` bytes. -/
def amoApply (op : AmoOp) (w old x : Nat) : Nat :=
  let n := 8 * w
  let sgn (a : Nat) : Int := if 2 ^ (n - 1) ≤ a then (a : Int) - 2 ^ n else a
  match op with
  | .add => (old + x) % 2 ^ n
  | .and => old &&& x
  | .or => old ||| x
  | .xor => old ^^^ x
  | .min => if sgn old < sgn x then old else x
  | .max => if sgn old < sgn x then x else old
  | .minu => if old < x then old else x
  | .maxu => if old < x then x else old
  | .swap => x
  | .addF32 => amoAddF32 old x

/-- The item code of an access in a record (R243). -/
def AccKind.item : AccKind → Nat
  | .load | .lds | .ldf | .ftag | .derive _ _ _ _ _ _ _ => 0
  | .store | .stf | .ste => 1
  | .amo _ | .cas _ _ | .casp _ _ _ _ | .arrive _ => 2
  | .tagpub _ _ _ _ | .hdone _ _ _ | .barrier _ => 6

/-- Whether an access gives its register a value. -/
def AccKind.returns : AccKind → Bool
  | .store | .stf | .ste | .arrive _ | .hdone _ _ _ | .barrier _ => false
  | _ => true

/-- Whether an access is a request to another device that answers with a status: a tag or a derivation (R207, R106). -/
def AccKind.isRequest : AccKind → Bool
  | .tagpub _ _ _ _ | .derive _ _ _ _ _ _ _ => true
  | _ => false

/-- Whether an access is an atomic (R160). -/
def AccKind.isAtomic : AccKind → Bool
  | .amo _ | .cas _ _ | .casp _ _ _ _ => true
  | _ => false

/-- The rights that an access needs (R102, R393, R354). -/
def AccKind.need : AccKind → Nat
  | .load | .ldf | .ftag => rRead
  | .store | .stf | .ste => rWrite
  | .lds => rRead + rWrite
  | _ => rAtomic

/-- Translates the pieces of an access one by one. -/
def resolvePieces (s : State) (cid core need : Nat) : List Piece → List Piece × List Nat
  | [] => ([], [])
  | p :: ps =>
    let r := resolvePieces s cid core need ps
    match resolve s cid core p.va need with
    | .ok loc node =>
      ({ p with loc := loc, tenant := match node with
          | some i => (match tget i s.nodes with | some n => n.tenant | none => 0)
          | none => 0 } :: r.1, node.toList ++ r.2)
    | _ => (p :: r.1, r.2)

/-- A failure of an access after issue, reported once and counted as a failed item of its launch (R37, R100, R130, R164). -/
def tellFailure (s : State) (id : Nat) (a : Access) (c : Cause) (va : Word) (det : Nat) (peer : Option Nat) : State :=
  if a.told then s
  else
    let s1 := failItem (reportAccess s a.cid
      { addr := va, cause := c, detail := det, item := a.kind.item, peer := peer, ep := a.ep }) a.launch
    { s1 with accs := tmap (fun j b => if j = id then { b with told := true } else b) s1.accs }

/-- Wakes an agent whose accesses, or whose own request, have moved. -/
def wakeIssuer (s : State) (u : Nat) : State :=
  s.wake fun j t => j == u && t.waitsFor fun w => match w with
    | .accesses | .result | .regs | .matrix => true
    | _ => false

/-- Replaces an access in flight. -/
def putAcc (s : State) (id : Nat) (a : Access) : State := { s with accs := tput id a s.accs }
/-- Removes an access that is over. -/
def delAcc (s : State) (id : Nat) : State := { s with accs := tdel id s.accs }

/-- The pieces of an access, grouped into runs of adjacent bytes. -/
def runsOf : List Piece → List (List Piece)
  | [] => []
  | p :: ps => match runsOf ps with
    | (q :: r) :: rest => if p.va + w64 p.bytes.length = q.va then (p :: q :: r) :: rest else [p] :: (q :: r) :: rest
    | rest => [p] :: rest

/-- The pieces of a store that may still be written: those in whose run no piece fails. A run with a failing byte is not performed,
the other runs of a `vst` are (R100, R392, R417; DEDUCED, log 71). -/
def standing (fault : Piece → Option Cause) (ps : List Piece) : List Piece :=
  ((runsOf ps).filter fun r => r.all fun p => (fault p).isNone).flatten

/-- The pieces of a store whose runs fail are over; a failing piece keeps its cause's code, the others of its run keep 0. -/
def refuseRuns (fault : Piece → Option Cause) (ps : List Piece) : List Piece :=
  ps.map fun p => if p.done || (standing fault ps).contains p then p
    else { p with done := true, bad := some (match fault p with | some c => BitVec.ofNat 8 c.code | none => 0) }

/-- The causes with which bytes of a store fail (R103, R130, R134, R147, R245). -/
def storeCauses : List Cause :=
  [.poison, .ownership, .integrity, .sealWorn, .unmapped, .notOwned, .coreAbsent, .poolRange, .accessRight, .withdrawn, .peerAbsent,
    .peerDisabled, .peerFenced]

/-- The cause of a piece of a store that was not performed, from the code that the piece keeps; none for code 0. -/
def storeCause (b : Byte) : Option Cause := storeCauses.find? fun c => c.code == b.toNat

/-- The peer that a record names: that of the node, for the causes of a peer that cannot be reached (R243, R245). -/
def peerNamed (s : State) (cid : Nat) (c : Cause) (va : Word) : Option Nat :=
  if c = .peerAbsent ∨ c = .peerDisabled ∨ c = .peerFenced then
    (match s.ctx? cid with
      | some x => (findNode s x.space (va.toNat / 4096)).map fun e => e.2.dev
      | none => none)
  else none

/-- A store whose pieces are all over reports its lowest failing byte with that byte's cause (R392, R417). -/
def tellStore (s : State) (id : Nat) (a : Access) : State :=
  match a.kind, a.pieces.findSome? fun p => (p.bad.bind storeCause).map fun c => (c, p.va) with
  | .store, some (c, va) => tellFailure s id a c va 0 (peerNamed s a.cid c va)
  | _, _ => s

/-- An `lds` or `ldf` is dropped without taking its word, since the node that translated it is swept: one WITHDRAWN record, and its
destination P or, under keep-full, its thread's trap (R117). -/
def dropTaker (s : State) (id : Nat) (a : Access) : State :=
  let s1 := tellFailure s id a .withdrawn a.va 0 none
  match tget id s1.accs with
  | some b => wakeIssuer (putAcc s1 id (b.failedWith .withdrawn 0)) b.uid
  | none => s1

/-- Whether a node that translated an access has been swept by a withdrawal in flight (R117). -/
def sweptUnder (s : State) (a : Access) : Bool := s.wds.any fun e => a.nodes.any fun i => e.2.swept.contains i

/-- An `lds` or `ldf` meets a word in E: it waits at the owner, in order (R148, R149), unless its node has been swept meanwhile (R117), or
its agent is gone, whose request is withdrawn (R336, R354). -/
def waitWord (s : State) (id : Nat) (a : Access) : State :=
  if a.dest = .none then delAcc s id
  else if sweptUnder s a then dropTaker s id a
  else { putAcc s id { a with phase := .waiting s.nextId } with nextId := s.nextId + 1 }

/-- A piece is done; when all are, a result is on its way back, and any other access is over. -/
def settleAcc (s : State) (id : Nat) (u : Nat) : State :=
  match tget id s.accs with
  | none => s
  | some a =>
    let s1 := if a.pieces.all fun p => p.done then
        (if a.kind.returns && a.dest != .none then putAcc s id { a with phase := .returning } else delAcc (tellStore s id a) id)
      else s
    wakeIssuer s1 u

/-- Replaces one piece of an access. -/
def putPiece (a : Access) (k : Nat) (p : Piece) : Access := { a with pieces := a.pieces.set k p }

/-- A piece ends with poison for the destination (R66). -/
def poisonPiece (s : State) (id k : Nat) (p : Piece) (det : Byte) : State :=
  match tget id s.accs with
  | some a => putAcc s id (putPiece a k { p with done := true, bad := some det })
  | none => s

/-- Bytes of a store are not performed, nor is their run; the causes stay for the store's one record. -/
def refuseStore (s : State) (id : Nat) (fault : Piece → Option Cause) : State :=
  match tget id s.accs with
  | some a => putAcc s id { a with pieces := refuseRuns fault a.pieces }
  | none => s

/-- The cause of one piece. -/
def faultAt (p : Piece) (c : Cause) (q : Piece) : Option Cause := if q.va = p.va then some c else none

/-- A piece ends with these bytes. -/
def donePiece (s : State) (id k : Nat) (p : Piece) (bs : List Byte) : State :=
  match tget id s.accs with
  | some a => putAcc s id (putPiece a k { p with done := true, bytes := bs, bad := none })
  | none => s

/-- The record of a word with an uncorrectable soft error, at its first demand access (R246). -/
def softRecord (s : State) (a : Access) (p : Piece) (key : Nat) : State :=
  (touchedWords key p.bytes.length).foldl (fun s k =>
    if softHere s k then
      let first := if k * 8 ≤ key then p.va else p.va + w64 (k * 8 - key)
      report (softTold s k) a.cid
        { addr := first, cause := .softError, detail := 0, item := a.kind.item, peer := none, ep := a.ep }
    else s) s

/-- The records of words with an uncorrectable soft error that an engine meets first, with the item of its access (R246). -/
def softMet (s : State) (cid : Nat) (ep : BitVec 32) (item : Nat) (va : Word) (key n : Nat) : State :=
  (touchedWords key n).foldl (fun s k =>
    if softHere s k then
      report (softTold s k) cid
        { addr := if k * 8 ≤ key then va else va + w64 (k * 8 - key), cause := .softError, detail := 0, item := item, peer := none, ep := ep }
    else s) s

/-- Those of a read by an engine. -/
def softEngine (s : State) (cid : Nat) (ep : BitVec 32) (va : Word) (key n : Nat) : State := softMet s cid ep 0 va key n

/-- An ordinary store of bytes at an owner, which keeps the words' states, but for a whole word in P, which becomes F
(R147). -/
def storeBytes (s : State) (key : Nat) (bs : List Byte) : State :=
  let wasBad := (wholeWords key bs.length).filter fun k => s.word k == .poison
  let s1 := putBytes s key bs
  let s2 := if isPoolKey key then s1 else dirtyPage s1 (key / 4096)
  wasBad.foldl fillWord s2

/-- Whether a store of a piece meets a word in P that it does not cover whole (R147). -/
def storeBlocked (s : State) (key n : Nat) : Bool :=
  (touchedWords key n).any fun k => s.word k == .poison && !(wholeWords key n).contains k

/-- The words of the completion counter at an owner: its count and its flags word (R180). -/
def counterAt (s : State) (key : Nat) : Word × Word :=
  (w64 (leNat (memBytes s.mem key 8)), w64 (leNat (memBytes s.mem (key + 8) 8)))

/-- Whether a completion counter is complete: armed, with a count of 0 (R180). -/
def counterComplete (c : Word × Word) : Bool := c.1 == 0 && c.2.getLsbD 63

/-- The step of `arrive` at the owner of the pair: n is subtracted and `armed` set, in one step (R181). -/
def arriveAt (s : State) (key : Nat) (n : Word) : State :=
  let c := counterAt s key
  storeBytes s key (leBytes 8 (c.1 - n).toNat ++ leBytes 8 (c.2 ||| 0x8000000000000000).toNat)

/-- Whether an access writes at its owner. An `lds` changes the state of its word alone: it is a load (R130, R134, R147). -/
def AccKind.writes : AccKind → Bool
  | .load | .lds | .ldf | .ftag | .hdone _ _ _ | .barrier _ | .tagpub _ _ _ _ | .derive _ _ _ _ _ _ _ => false
  | _ => true

/-- The address of the first byte of a range that lies in a word in P (R243). -/
def poisonAt (s : State) (key n : Nat) (va : Word) : Word :=
  match (touchedWords key n).find? fun k => s.word k == .poison with
  | some k => if k * 8 ≤ key then va else va + w64 (k * 8 - key)
  | none => va

/-- A piece meets a word in P at its owner (R147): a load's destination takes P; any other access is not performed, and one record is
written; an atomic's result takes P as well; `ftag` reads the state alone (R342). -/
def pieceMeetsP (s : State) (id k : Nat) (a : Access) (p : Piece) (va : Word) : State :=
  match a.kind with
  | .store => refuseStore s id (faultAt p .poison)
  | .amo _ | .cas _ _ | .casp _ _ _ _ => poisonPiece (tellFailure s id a .poison va 0 none) id k p 0
  | .stf | .ste | .arrive _ => donePiece (tellFailure s id a .poison va 0 none) id k p p.bytes
  | .ftag => donePiece s id k p (leBytes 8 WordSt.poison.code)
  | _ => poisonPiece s id k p 0

/-- A piece cannot be performed at its owner, for its page's tenant, its seal or its wear (R103, R130, R134): a store keeps the cause for
its one record; any other access is reported, but for a load whose seal failed, and a result takes P. -/
def pieceRefused (s : State) (id k : Nat) (a : Access) (p : Piece) (c : Cause) : State :=
  if a.kind = .store then refuseStore s id (faultAt p c)
  else
    let det : Byte := if c = .integrity then 1 else 0
    let s1 := if c = .integrity && a.kind.item == 0 then s else tellFailure s id a c p.va 0 none
    let s2 := poisonPiece s1 id k p det
    match tget id s2.accs with
    | some b => putAcc s2 id { b with failed := some (c.code, det) }
    | none => s2

/-- Whether an access of an agent that comes before another still holds it: to a byte of it (R144), or, for a byte of a peer, to a word
of it (R162). -/
def heldByEarlier (s : State) (id : Nat) (a : Access) (p : Piece) : Bool :=
  match p.loc with
  | .peer _ _ =>
    let lo := p.va.toNat / 8 * 8
    sameByteBefore s a.uid id (w64 lo) ((p.va.toNat + p.bytes.length + 7) / 8 * 8 - lo)
  | _ => sameByteBefore s a.uid id p.va p.bytes.length

/-- Whether a piece may be performed now: same-byte order, and for a release, every earlier access (R141, R144, R162). -/
def mayPerform (s : State) (id : Nat) (a : Access) (p : Piece) : Bool :=
  !p.done && decide (a.phase = .flying) && !heldByEarlier s id a p && (!a.rel || !accessesBefore s a.uid id)

/-- The cause with which a piece of a store fails at its owner now: it covers part of a word in P (R147). -/
def storeFault (s : State) (id : Nat) (a : Access) (p : Piece) : Option Cause :=
  match p.loc with
  | .here key => if mayPerform s id a p && storeBlocked s key p.bytes.length then some .poison else none
  | _ => none

/-- The step of one piece at its owner, once the page may be accessed (R147, R148, R160). -/
def ownerAct (s : State) (id k : Nat) (a : Access) (p : Piece) (key : Nat) : State :=
  let n := p.bytes.length
  let w := key / 8
  let bad : State := pieceMeetsP s id k a p (poisonAt s key n p.va)
  match a.kind with
  | .load => if touchesPoison s key n then bad else donePiece s id k p (memBytes s.mem key n)
  | .store =>
    if (standing (storeFault s id a) a.pieces).contains p then donePiece (storeBytes s key p.bytes) id k p p.bytes
    else refuseStore s id (storeFault s id a)
  | .amo op =>
    if touchesPoison s key n then bad
    else
      let old := memBytes s.mem key n
      donePiece (storeBytes s key (leBytes n (amoApply op n (leNat old) (leNat p.bytes)))) id k p old
  | .cas e v =>
    if touchesPoison s key n then bad
    else
      let old := memBytes s.mem key n
      let s1 := if leNat old = e.toNat % 2 ^ (8 * n) then storeBytes s key (leBytes n v.toNat) else s
      donePiece s1 id k p old
  | .casp e0 e1 n0 n1 =>
    if touchesPoison s key n then bad
    else
      let old := memBytes s.mem key n
      let s1 := if leNat old = e0.toNat + 2 ^ 64 * e1.toNat then
        storeBytes s key (leBytes n (n0.toNat + 2 ^ 64 * n1.toNat)) else s
      donePiece s1 id k p old
  | .lds => match s.word w with
    | .poison => bad
    | .full => donePiece (s.setWord w .empty) id k p (memBytes s.mem key 8)
    | .empty => waitWord s id a
  | .ldf => match s.word w with
    | .poison => bad
    | .full => donePiece s id k p (memBytes s.mem key 8)
    | .empty => waitWord s id a
  | .stf =>
    if s.word w = .poison then bad
    else
      let s1 := putBytes s key p.bytes
      let s2 := if isPoolKey key then s1 else dirtyPage s1 (key / 4096)
      donePiece (fillWord s2 w) id k p p.bytes
  | .ste => if s.word w = .poison then bad else donePiece (s.setWord w .empty) id k p p.bytes
  | .ftag => donePiece s id k p (leBytes 8 (s.word w).code)
  | .arrive x => if s.word w = .poison then bad else donePiece (arriveAt s key x) id k p p.bytes
  | .hdone g q step => donePiece (hdoneApply s a.cid g q step) id k p p.bytes
  | .barrier b => donePiece (arrivalCovered s a.uid b) id k p p.bytes
  | .tagpub _ _ _ _ | .derive _ _ _ _ _ _ _ => donePiece s id k p p.bytes

/-- A piece arrives at its owner: ownership, the seal, soft errors, then the act (R103, R127, R130, R134, R158). -/
def ownerStep (s : State) (id k : Nat) (a : Access) (p : Piece) (key : Nat) : State :=
  let r := match a.kind with
    | .hdone _ _ _ | .barrier _ => (none, s)
    | k => if k.writes then demandWrite s key p.tenant else demandRead s key p.tenant
  match r with
  | (some c, s1) => settleAcc (pieceRefused s1 id k a p c) id a.uid
  | (none, s1) => settleAcc (ownerAct (softRecord s1 a p key) id k a p key) id a.uid

/-- The peer that an access goes to next. -/
def Access.peer (a : Access) : Option Nat :=
  (a.pieces.filterMap fun p => match p.loc with | .peer d _ => if p.done then none else some d | _ => none).head?

/-- Whether a piece is still to be performed at a peer. -/
def Piece.waitsAt (p : Piece) (dev : Nat) : Bool := !p.done && match p.loc with | .peer d _ => d == dev | _ => false

/-- Whether an access may leave for the peer that it goes to next: nothing holds the pieces that go there, and a port may
send (R141, R162, R250). -/
def maySend (s : State) (id : Nat) (a : Access) : Bool :=
  match a.peer with
  | some dev => portFor s a.first.isNone && a.pieces.all fun p => !p.waitsAt dev || mayPerform s id a p
  | none => false

/-- An access leaves for its peer, if it may: its first attempt there is now (R164). -/
def sentNow (s : State) (id : Nat) (a : Access) : Access :=
  if a.first.isNone && maySend s id a then { a with first := some s.time } else a

/-- Issues an access: it is in flight from now on. -/
def sendAccess (s : State) (a : Access) : State :=
  { s with accs := tput s.nextId (sentNow s s.nextId a) s.accs, nextId := s.nextId + 1 }

/-- An access of the issuing agent. -/
def newAccess (s : State) (u : Nat) (t : Thread) (k : AccKind) (ps : List Piece) (d : Dest) (va : Word) (y : Sync) : Access :=
  { uid := u, ep := epOf s t, launch := t.launch, cid := t.cid, core := t.core, kind := k, pieces := ps, dest := d, kf := syKf y
    acq := syOrder y % 2 == 1, rel := decide (2 ≤ syOrder y), va := va, phase := .flying, nodes := [], told := false
    first := none, refused := false, nacked := false, failed := none }

/-- The addresses of the bytes of pieces that lie in the agent's own pool. -/
def allOwn (core : Nat) (ps : List Piece) : Bool := ps.all fun p => ownPool core p.va

/-- The first failing check over the pieces of an access, in address order. -/
def checkPieces (s : State) (cid core need : Nat) : List Piece → SpanRes
  | [] => .ok []
  | p :: ps => match resolve s cid core p.va need with
    | .fail c => .fail c p.va
    | .hold => .hold
    | .ok _ _ => checkPieces s cid core need ps

/-- A piece of a load in the own pool is performed as it issues (R154); the others are on their way. -/
def readOwn (s : State) (core : Nat) (p : Piece) : Piece :=
  match ownPool core p.va, p.loc with
  | true, .here key => { p with done := true, bytes := memBytes s.mem key p.bytes.length }
  | _, _ => p

/-- The first piece of a load that meets a word in P of the own pool (R147). -/
def ownPoison (s : State) (core : Nat) (ps : List Piece) : Option Piece :=
  ps.find? fun p => ownPool core p.va && match p.loc with | .here key => touchesPoison s key p.bytes.length | _ => false

/-- The bytes of the pieces of a load, each at its place among 64. -/
def placedBytes (ps : List Piece) : List Byte :=
  ps.foldl (fun (acc : List Byte) p => acc.take p.off ++ p.bytes ++ acc.drop (p.off + p.bytes.length)) (List.replicate 64 0)

/-- A load whose every byte lies in the own pool writes its destination at once (R65, R353). -/
def finishLoad (s : State) (i : Instr) (u : Nat) (t : Thread) (d : Dest) (ps : List Piece) : Out :=
  match d with
  | .g n signed => finishG s i u t n (extendBytes signed (ps.map fun p => p.bytes).flatten)
  | .v n m => finishV s i u t n (BitVec.ofNat 512 (leNat (mergeBytes (vBytes s t n) (placedBytes ps) m)))
  | _ => finish s i u t

/-- A load: checked precisely at issue (R100); what it reads of the own pool is read as it issues, a word in P there being a precise trap
(R147, R154); else its destination is E until the data return (R65, R353). -/
def loadAccess (s : State) (i : Instr) (y : Sync) (u : Nat) (t : Thread) (d : Dest) (va : Word) (ps : List Piece) : Out :=
  match t.prog with
  | .sent id => resumeResult s i u t id
  | _ =>
  if acquirePending s u then blockOn s u t .accesses
  else match checkPieces s t.cid t.core rRead ps with
  | .fail c a => trapAt s u t c 0 a
  | .hold => blockOn s u t .accesses
  | .ok _ =>
    let r := resolvePieces s t.cid t.core rRead ps
    match ownPoison s t.core r.1 with
    | some p =>
      let s1 := match p.loc with | .here key => softRecord s (newAccess s u t .load r.1 d va y) p key | _ => s
      trapAt s1 u t .poison 0 p.va
    | none =>
      let ps1 := r.1.map (readOwn s t.core)
      if allOwn t.core ps then finishLoad s i u t d ps1
      else
        let a := { newAccess s u t .load ps1 d va y with nodes := r.2 }
        if syKf y then blockAt (sendAccess s a) u t .result (.sent s.nextId)
        else finish (sendAccess s a) i u (t.emptyDest d)

/-- A failure of a store that is performed at issue is reported (R61, R392). -/
def storeReport (s : State) (t : Thread) (c : Cause) (va : Word) : State :=
  failItem (report s t.cid { addr := va, cause := c, detail := 0, item := 1, peer := none, ep := epOf s t }) t.launch

/-- The cause with which a piece of a store fails as it issues: its checks, or a word in P that it covers in part (R61, R147). -/
def ownStoreFault (s : State) (t : Thread) (p : Piece) : Option Cause :=
  match resolve s t.cid t.core p.va rWrite with
  | .fail c => some c
  | .ok (.here key) _ => if storeBlocked s key p.bytes.length then some .poison else none
  | _ => none

/-- Whether a store is performed as it issues: every byte lies in the own pool, or some do, and then all others lie nowhere, since the
addresses beside each of a pool's two ranges are in no row of R99 (R154). -/
def storesOwn (core : Nat) (ps : List Piece) : Bool := allOwn core ps || ps.any fun p => ownPool core p.va

/-- A store: to the own pool performed at issue, else in flight; it never traps on its address (R154, R392). -/
def storeAccess (s : State) (i : Instr) (y : Sync) (u : Nat) (t : Thread) (va : Word) (ps : List Piece) : Out :=
  if acquirePending s u then blockOn s u t .accesses
  else if storesOwn t.core ps then
    if decide (2 ≤ syOrder y) && accessesBefore s u s.nextId then blockOn s u t .accesses
    else
      let r := resolvePieces s t.cid t.core rWrite ps
      let a := newAccess s u t .store r.1 .none va y
      let bad := r.1.findSome? fun p => (ownStoreFault s t p).map fun c => (c, p.va)
      let s1 := r.1.foldl (fun s p => match p.loc with | .here key => softRecord s a p key | _ => s) s
      let s2 := match bad with | some e => storeReport s1 t e.1 e.2 | none => s1
      let s3 := (standing (ownStoreFault s t) r.1).foldl (fun s p => match p.loc with
        | .here key => storeBytes s key p.bytes
        | _ => s) s2
      finish s3 i u t
  else finish (sendAccess s (newAccess s u t .store ps .none va y)) i u t

/-- A failure traps an agent that waits for its result, precisely at the instruction (R69, R148); one that is saved traps as it is
restored (R77, R78). -/
def failWaiting (s : State) (u : Nat) (c : Cause) (det : Byte) (addr : Word) : State :=
  match tget u s.threads with
  | some t => takeTrap s u c det.toNat addr t.pc
  | none => s.modAgent u fun t => { t with prog := .failing c det addr }

/-- A result that returned lands: its register is filled or poisoned; under keep-full a failure traps its thread
precisely at the instruction (R65, R66, R69, R130, R148). -/
def landAccess (s : State) (id : Nat) (a : Access) : State :=
  let s1 := delAcc s id
  let badPiece := a.pieces.find? fun p => p.bad.isSome
  let verdict : Option (Cause × Byte) := match a.failed, badPiece with
    | some (c, det), _ => some (if c = Cause.integrity.code then (.integrity, det)
        else if c = Cause.withdrawn.code then (.withdrawn, det) else (.poison, det))
    | none, some p => some (.poison, p.bad.getD 0)
    | none, none => none
  match verdict with
  | some (c, det) =>
    if a.kf && !a.kind.isAtomic then
      failWaiting s1 a.uid c (if c = .poison then det else 0) ((badPiece.map Piece.va).getD a.va)
    else wakeIssuer (poisonDest s1 a.uid a.dest a.va det) a.uid
  | none =>
    let bs := match a.dest with
      | .v _ _ => placedBytes a.pieces
      | _ => (a.pieces.map fun p => p.bytes).flatten
    wakeIssuer (fillDest s1 a.uid a.dest bs) a.uid

/-- Whether an access that a node translated before it moved is not performed yet: the status of a `grant` waits for it (R108). The
request numbered `id` moved it as it issued; a node that has left this device translates nothing here any more. -/
def nodePending (s : State) (id : Nat) (node : Option Nat) : Bool :=
  match node with
  | none => false
  | some n => s.accs.any fun e => (decide (e.1 < id) || (tget n s.nodes).isNone) && decide (e.2.phase ≠ .returning) && e.2.nodes.contains n

/-- The bytes of a result, those of a query of `endp` as the query finds them at its core: the endpoint of the handler slot with its
generation then, or bit 32 alone for an absent core (R333). -/
def Pending.value (s : State) (p : Pending) : List Byte :=
  match p.asks with
  | none => p.bytes
  | some c => leBytes 8 (if (s.core c).absent then 2 ^ 32 else (endpoint s c 8).toNat)

/-- REGISTER_FILL: a result that has returned fills its register (R65, R68: fills of one register land in the order of the
instructions that emptied it, which R68 makes at most one). No rule states the address that the reader of a register reports which no
load filled P, as an `mrd` of a poisoned slot does: a free value (R66, R366; log 15). -/
def execRegisterFill (id : Nat) (s : State) : Out :=
  match tget id s.accs with
  | some a => if a.phase = .returning then .next (landAccess s id a) else .next s
  | none => match tget id s.pending with
    | some p =>
      if nodePending s id p.node then .next s
      else
      let s1 := { s with pending := tdel id s.pending }
      let s2 := wakeIssuer (match p.bad with
        | some det => poisonDest (drawField s1).2 p.uid p.dest (w64 (drawField s1).1) det
        | none => fillDest s1 p.uid p.dest (p.value s)) p.uid
      .next (match p.slot with | some e => collectSlots s2 e.1 | none => s2)
    | none => .next s

/-- An access that its peer did not perform is over: a record, and its destination P (R164). -/
def failAtPeer (s : State) (id : Nat) (a : Access) (c : Cause) : State :=
  let s1 := tellFailure s id a c (((a.pieces.find? fun p => !p.done).map Piece.va).getD a.va) 0 a.peer
  let a1 : Access := { a with told := true, pieces := a.pieces.map (fun (p : Piece) => { p with done := true }) }
  if a.kind.returns && a.dest != .none then
    wakeIssuer (putAcc s1 id { a1 with phase := .returning, failed := some (c.code, 0) }) a.uid
  else wakeIssuer (delAcc s1 id) a.uid

/-- A store to a peer that may not be accessed is not performed there; its other runs are (R100, R245, R392). -/
def refuseAtPeer (s : State) (id : Nat) (a : Access) (dev : Nat) (c : Cause) : State :=
  settleAcc (refuseStore s id fun q => if q.waitsAt dev then some c else none) id a.uid

/-- An access leaves for its next peer, if it may. What is unpopulated, disabled or outside the job by then is never sent to: the access
fails as if it had been found so at issue (R164, R245). A request's device answers for itself. -/
def tryLeave (s : State) (id : Nat) (a : Access) : State :=
  match a.peer with
  | some dev =>
    if a.first.isNone && maySend s id a then
      match (if a.kind.isRequest then none else peerCheck s (match s.ctx? a.cid with | some x => x.part | none => 0) dev) with
      | some c => if a.kind = .store then refuseAtPeer s id a dev c else failAtPeer s id a c
      | none => putAcc s id { a with first := some s.time }
    else s
  | none => s

/-- The cause with which the translation of a piece of a store fails (R102). -/
def stationFault (s : State) (a : Access) (p : Piece) : Option Cause :=
  match resolve s a.cid a.core p.va a.kind.need with | .fail c => some c | _ => none

/-- Bytes of a store fail at the station: their runs are not performed, any others go on (R100, R392, R417; log 71). -/
def storeAtStation (s : State) (id : Nat) (a : Access) : State :=
  let ps := refuseRuns (stationFault s a) a.pieces
  if ps.all fun p => p.done then settleAcc (putAcc s id { a with pieces := ps }) id a.uid
  else
    let r := resolvePieces s a.cid a.core a.kind.need ps
    putAcc s id (sentNow s id { a with pieces := r.1, nodes := r.2 })

/-- The translation of a store or an atomic at its station (R100, R102): a failure leaves it unperformed and reported. -/
def stationStep (s : State) (id : Nat) (a : Access) : State :=
  match checkPieces s a.cid a.core a.kind.need a.pieces with
  | .hold => s
  | .fail c va =>
    if a.kind = .store then storeAtStation s id a
    else
      let s1 := tellFailure s id a c va 0 (peerNamed s a.cid c va)
      if a.kind.returns && a.dest != .none then
        wakeIssuer (putAcc s1 id { a with phase := .returning, told := true, failed := some (c.code, 0) }) a.uid
      else wakeIssuer (delAcc s1 id) a.uid
  | .ok _ =>
    let r := resolvePieces s a.cid a.core a.kind.need a.pieces
    putAcc s id (sentNow s id { a with pieces := r.1, nodes := r.2 })

/-- ACCESS_AT_OWNER: a stage of an access: at a station its translation, then its leaving for a peer once nothing holds it; or the
performing of a piece at its owner (R102, R158, R160, R162, R164). -/
def execAccessAtOwner (id : Nat) (g : AccStage) (s : State) : Out :=
  match tget id s.accs with
  | none => .next s
  | some a => match g with
    | .station =>
      if a.phase ≠ .flying then .next s
      else if a.pieces.any (fun p => p.loc == .untranslated && !p.done) then .next (stationStep s id a)
      else .next (tryLeave s id a)
    | .owner k => match a.pieces[k]? with
      | none => .next s
      | some p => match p.loc with
        | .here key => if mayPerform s id a p then .next (ownerStep s id k a p key) else .next s
        | _ => .next s

/-- The bytes that a peer's answer gives a piece: as many as the piece has; to `ftag`, the code of a word state (R342). -/
def peerData (k : AccKind) (got mine : List Byte) : List Byte :=
  if k = .ftag then leBytes 8 (min (leNat got % 4) 2)
  else if k.returns then got.take mine.length ++ List.replicate (mine.length - got.length) 0 else mine

/-- What a peer's answer to a request fills its destination with, its effect here, and the node that its fill waits for: the status of
a `tagpub` (R207), or that of a derivation (R106, R108). -/
def requestAnswer (s : State) (a : Access) (dev : Nat) (f : Feed) : List Byte × State × Option Nat :=
  match a.kind with
  | .tagpub _ _ _ _ => (leBytes 8 (f.n % 3), s, none)
  | .derive g i src pages _ _ _ =>
    let by_ := match s.ctx? a.cid with | some x => (x.space, x.tenant) | none => (0, 0)
    let r := deriveAnswered s by_.1 by_.2 g i src pages dev (f.n % 256) (leNat f.bytes % 4096)
    (leBytes 8 r.1.toNat, r.2)
  | _ => ([], s, none)

/-- The status of a request fills its register, at once or when the node's earlier translations are performed (R108). -/
def requestFill (id : Nat) (a : Access) (r : List Byte × State × Option Nat) : State :=
  match r.2.2 with
  | none => settleAcc (putAcc r.2.1 id { a with pieces := a.pieces.map fun (p : Piece) => { p with done := true, bytes := r.1 } }) id a.uid
  | some i =>
    let s1 := delAcc r.2.1 id
    wakeIssuer { s1 with pending := tput id { uid := a.uid, dest := a.dest, bytes := r.1, bad := none, kf := a.kf, node := some i, slot := none } s1.pending } a.uid

/-- An access that a peer has performed its part of goes to the next peer, if it has one, or is over (R162). -/
def peerDone (s : State) (id : Nat) : State :=
  match tget id s.accs with
  | none => s
  | some a =>
    let a1 : Access := { a with first := none, refused := false, nacked := false }
    settleAcc (tryLeave (putAcc s id a1) id a1) id a.uid

/-- A peer performs the pieces of an access that go to it, with the data of its answer (R162). -/
def answeredPieces (a : Access) (dev : Nat) (parts : List (List Byte)) : List Piece :=
  a.pieces.zipIdx.map fun e =>
    if e.1.waitsAt dev then { e.1 with done := true, bytes := peerData a.kind (parts.getD e.2 []) e.1.bytes, bad := none } else e.1

/-- A peer answers: its part of the access is performed there (R162). -/
def peerAnswers (s : State) (id : Nat) (a : Access) (dev : Nat) (f : Feed) : State :=
  let s0 := markExchanged s a.cid dev
  if a.kind.isRequest then requestFill id a (requestAnswer s0 a dev f)
  else peerDone (putAcc s0 id { a with pieces := answeredPieces a dev f.parts }) id

/-- What an owner at a peer finds, by its cause code: a word in P, another tenant's page, a seal that failed, a frozen seal (R103, R130,
R134, R147). -/
def peerFinds (n : Nat) : Option Cause :=
  if n = Cause.poison.code then some .poison
  else if n = Cause.ownership.code then some .ownership
  else if n = Cause.integrity.code then some .integrity
  else if n = Cause.sealWorn.code then some .sealWorn
  else none

/-- A peer's owner cannot perform a piece: the outcome is that of an owner here (R103, R130, R134, R147, R314, R315, R317). -/
def peerFails (s : State) (id : Nat) (a : Access) (dev k : Nat) (p : Piece) (c : Cause) : State :=
  let s0 := markExchanged s a.cid dev
  peerDone (if c = .poison then pieceMeetsP s0 id k a p p.va else pieceRefused s0 id k a p c) id

/-- A message is not delivered: one record in its sender's context, with the destination endpoint as its address (R44, R48,
R385). -/
def bounce (s : State) (id : Nat) (m : Message) (c : Cause) (peer : Option Nat) : State :=
  wakeIssuer (failItem (report { s with msgs := tdel id s.msgs } m.cid
    { addr := w64 m.dest.toNat, cause := c, detail := 0, item := 3, peer := peer, ep := m.sender }) m.launch) m.uid

/-- The device that a message goes to (R43). -/
def Message.dev (m : Message) : Nat := bitsOf m.dest.toNat 23 9

/-- Whether a message may be accepted: the accesses that its release covers are performed, it is not refused, and for another device a
port may send it (R45, R48, R250). Messages are unordered among themselves (R45). -/
def mayArrive (s : State) (m : Message) : Bool :=
  !m.refused && !accessOpen s m.uid m.after && (m.dev == s.device || portFor s m.first.isNone)

/-- A message is tried: its first delivery attempt is noted (R48, R164). -/
def Message.tried (m : Message) (now : Nat) : Message := { m with first := some (m.first.getD now) }

/-- A peer answers a message: accepted there, STALE_ENDPOINT, or refused by a full inbox (R44, R48, R164, R385). -/
def messageAnswered (s : State) (id : Nat) (m : Message) (f : Feed) : State :=
  if m.dev = s.device ∨ mayArrive s m = false then s
  else if f.ok then wakeIssuer (markExchanged { s with msgs := tdel id s.msgs } m.cid m.dev) m.uid
  else if f.n = 0 then bounce s id m .staleEndpoint (some m.dev)
  else { s with msgs := tput id { m.tried s.time with refused := true, nacked := true } s.msgs }

/-- Whether a peer's answer drops an `lds` or `ldf` that waits there, since the node that translated it is swept (R117). -/
def dropsTaker (s : State) (a : Access) (n : Nat) : Bool :=
  n == Cause.withdrawn.code && sweptUnder s a && match a.kind with | .lds | .ldf => true | _ => false

/-- A peer answers an access that was sent to it: performed; refused by NACK; or, for one piece, what its owner finds (R162, R164). The
feed's `n` is the cause, and its first byte the piece. -/
def accessAnswered (s : State) (id : Nat) (a : Access) (dev : Nat) (f : Feed) : State :=
  if f.ok then peerAnswers s id a dev f
  else if dropsTaker s a f.n then dropTaker s id a
  else match peerFinds f.n with
  | none => putAcc s id { a with refused := true, nacked := true }
  | some c =>
    let k := leNat (f.bytes.take 1)
    match a.pieces[k]? with
    | some p => if p.waitsAt dev && !a.kind.isRequest then peerFails s id a dev k p c else s
    | none => s

/-- REMOTE_ACK: a peer answers a sent access, or a message (R162, R164). With no live port no peer is heard (R251). -/
def execRemoteAck (id : Nat) (f : Feed) (s : State) : Out :=
  if !anyPort s then .next s
  else match tget id s.accs with
  | none => match tget id s.msgs with
    | some m => .next (flitIn (messageAnswered s id m f))
    | none => .next s
  | some a => match a.peer with
    | some dev => if a.first.isSome && maySend s id a then .next (flitIn (accessAnswered s id a dev f)) else .next s
    | none => .next s

/-- NACK_RETRY: a refused access is tried again (R164). -/
def execNackRetry (id : Nat) (s : State) : Out :=
  match tget id s.accs with
  | none => .next s
  | some a => if a.refused then .next (putAcc s id { a with refused := false }) else .next s

/-- REMOTE_TIMEOUT: an access that NACKs refused until 2^16 cycles after its first attempt is reported (R164). -/
def execRemoteTimeout (id : Nat) (s : State) : Out :=
  match tget id s.accs with
  | none => .next s
  | some a => match a.first with
    | some f => if a.nacked && !a.kind.isRequest && decide (f + 2 ^ 16 ≤ s.time) then .next (failAtPeer s id a Cause.remoteTimeout) else .next s
    | none => .next s

/-! ### The loads and stores of page 0 -/

/-- The bytes of a size code (R303). -/
def accBytes (z : Fin 4) : Nat := match z with | 0 => 8 | 1 => 4 | 2 => 2 | 3 => 1

/-- The shift of an index (R303). -/
def indexed (t : Thread) (b x : GNum) (k : Fin 4) : Word := t.gval b + (t.gval x <<< k.val)
/-- A base and an offset. -/
def offsetted (t : Thread) (b : GNum) (i : Imm) : Word := t.gval b + immSigned i false

/-- A scalar load (R353). -/
def scalarLoad (s : State) (i : Instr) (y : Sync) (u : Nat) (t : Thread) (d : GNum) (signed : Bool) (z : Fin 4) (va : Word) :
    Out :=
  loadAccess s i y u t (.g d signed) va (scalarPieces va 0 (List.replicate (accBytes z) 0))

/-- Sign-extending `ld` (R352, R353). -/
def execLd (y : Sync) (z : Fin 4) (d b : GNum) (i : Imm) (s : State) : Out :=
  issue s y [.g b] [] [.g d] fun u t => scalarLoad s (.ld y z d b i) y u t d true z (offsetted t b i)

/-- Zero-extending `ld` (R352, R353). -/
def execLdZext (y : Sync) (z : Fin 4) (d b : GNum) (i : Imm) (s : State) : Out :=
  issue s y [.g b] [] [.g d] fun u t => scalarLoad s (.ldZext y z d b i) y u t d false z (offsetted t b i)

/-- Indexed sign-extending `ldx` (R353). -/
def execLdx (y : Sync) (z k : Fin 4) (d b x : GNum) (s : State) : Out :=
  issue s y [.g b] [.g x] [.g d] fun u t => scalarLoad s (.ldx y z k d b x) y u t d true z (indexed t b x k)

/-- Indexed zero-extending `ldx` (R353). -/
def execLdxZext (y : Sync) (z k : Fin 4) (d b x : GNum) (s : State) : Out :=
  issue s y [.g b] [.g x] [.g d] fun u t => scalarLoad s (.ldxZext y z k d b x) y u t d false z (indexed t b x k)

/-- A scalar store (R392). -/
def scalarStore (s : State) (i : Instr) (y : Sync) (u : Nat) (t : Thread) (v : GNum) (z : Fin 4) (va : Word) : Out :=
  storeAccess s i y u t va (scalarPieces va 0 (leBytes (accBytes z) (t.gval v).toNat))

/-- `st` (R391, R392). -/
def execSt (y : Sync) (z : Fin 4) (v b : GNum) (i : Imm) (s : State) : Out :=
  issue s y [.g v, .g b] [] [] fun u t => scalarStore s (.st y z v b i) y u t v z (offsetted t b i)

/-- Indexed `stx` (R391, R392). -/
def execStx (y : Sync) (z k : Fin 4) (v b x : GNum) (s : State) : Out :=
  issue s y [.g v, .g b] [.g x] [] fun u t => scalarStore s (.stx y z k v b x) y u t v z (indexed t b x k)

/-- `pf`: the owning station brings the page's seal into its cache; nothing else happens, and nothing is reported
(R377, R129). -/
def execPf (y : Sync) (b : GNum) (i : Imm) (s : State) : Out :=
  issue s y [.g b] [] [] fun u t =>
    match classify (offsetted t b i), resolve s t.cid t.core (offsetted t b i) rRead with
    | .translated, .ok (.here key) _ => finish (sealFill s (key / 4096)).2 (.pf y b i) u t
    | _, _ => finish s (.pf y b i) u t

/-! ### Fences -/

/-- A fence: its order applies to every earlier access and every later one. The model lets it wait at issue for every
earlier access, at every scope (R141, R163; log 12). -/
def fence (i : Instr) (s : State) : Out :=
  withCur s fun u t => if accessesBefore s u s.nextId then blockOn s u t .accesses else finish s i u t

/-- `fence.acq` (R337). -/
def execFenceAcq (y : Sync) (s : State) : Out := fence (.fenceAcq y) s
/-- `fence.rel` (R337). -/
def execFenceRel (y : Sync) (s : State) : Out := fence (.fenceRel y) s
/-- `fence.ar` (R337). -/
def execFenceAr (y : Sync) (s : State) : Out := fence (.fenceAr y) s
/-- `fence.sc` (R337): each takes effect in one step, so all fall in one order (R141). -/
def execFenceSc (y : Sync) (s : State) : Out := fence (.fenceSc y) s

/-- `ifence`: waits for the thread's earlier stores, and for its acquires, after which come the stores that happen before it; then it
discards its fetched words (R153, R349). -/
def execIfence (y : Sync) (s : State) : Out :=
  withCur s fun u t =>
    if acquirePending s u || s.accs.any (fun e => e.2.uid == u && e.2.kind.writes && decide (e.2.phase ≠ .returning)) then blockOn s u t .accesses
    else finish s (.ifence y) u { t with fetchFrom := s.wclock }

/-! ### Atomics -/

/-- An atomic (R314, R315, R325): aligned; its address classified precisely; at the own pool performed at issue, else in
flight; the destination is E until the result fills. -/
def atomicAccess (s : State) (i : Instr) (y : Sync) (u : Nat) (t : Thread) (k : AccKind) (d : Dest) (va : Word)
    (bs : List Byte) : Out :=
  match t.prog with
  | .sent id => resumeResult s i u t id
  | _ =>
  if va.toNat % bs.length ≠ 0 then trapAt s u t .misaligned 0 va
  else if acquirePending s u then blockOn s u t .accesses
  else
    let precise : Option Cause := match classify va with
      | .translated => none
      | _ => match resolve s t.cid t.core va rAtomic with | .fail c => some c | _ => none
    match precise with
    | some c => trapAt s u t c 0 va
    | none =>
      let own := ownPool t.core va
      if own && decide (2 ≤ syOrder y) && accessesBefore s u s.nextId then blockOn s u t .accesses
      else
        let a := newAccess s u t k [mkPiece va 0 bs] d va y
        let id := s.nextId
        let s1 := sendAccess s a
        let s2 := if own then
            (match resolve s t.cid t.core va rAtomic with
              | .ok (.here key) _ =>
                let p := { mkPiece va 0 bs with loc := .here key }
                ownerStep (putAcc s1 id { a with pieces := [p] }) id 0 { a with pieces := [p] } p key
              | _ => s1)
          else s1
        if d != .none && syKf y then blockAt s2 u t .result (.sent id) else finish s2 i u (t.emptyDest d)

/-- The operation of an `amo` form (R303, R313). -/
def amoOp (u : Bool) (o : Fin 8) : AmoOp :=
  match o, u with
  | 0, _ => .add | 1, _ => .and | 2, _ => .or | 3, _ => .xor
  | 4, false => .min | 4, true => .minu | 5, false => .max | 5, true => .maxu
  | 6, _ => .swap | 7, _ => .addF32

/-- The bytes of an atomic's width code. -/
def amoWidth (w : Fin 2) : Nat := if w.val = 0 then 8 else 4

/-- An instruction whose destination is also a source: once its result has come, it is over, whatever state the result left
the register in (R69, R325). -/
def orResumed (i : Instr) (s : State) (k : Out) : Out :=
  withCur s fun u t => match t.prog with
    | .sent id => resumeResult s i u t id
    | _ => k

/-- `amo` without a result (R313, R314). -/
def execAmo (y : Sync) (w : Fin 2) (u : Bool) (o : Fin 8) (a v : GNum) (s : State) : Out :=
  issue s y [.g a] [.g v] [] fun me t =>
    atomicAccess s (.amo y w u o a v) y me t (.amo (amoOp u o)) .none (t.gval a) (leBytes (amoWidth w) (t.gval v).toNat)

/-- `amo` with a result (R313, R314). -/
def execAmoResult (y : Sync) (w : Fin 2) (u : Bool) (o : Fin 8) (d a v : GNum) (s : State) : Out :=
  orResumed (.amoResult y w u o d a v) s <| issue s y [.g a] [.g v] [.g d] fun me t =>
    atomicAccess s (.amoResult y w u o d a v) y me t (.amo (amoOp u o)) (.g d false) (t.gval a)
      (leBytes (amoWidth w) (t.gval v).toNat)

/-- 8-byte `cas` (R325). -/
def execCas (y : Sync) (d a n : GNum) (s : State) : Out :=
  orResumed (.cas y d a n) s <| issue s y [.g d, .g a] [.g n] [.g d] fun u t =>
    atomicAccess s (.cas y d a n) y u t (.cas (t.gval d) (t.gval n)) (.g d false) (t.gval a) (List.replicate 8 0)

/-- 4-byte `cas` (R325). -/
def execCasI32 (y : Sync) (d a n : GNum) (s : State) : Out :=
  orResumed (.casI32 y d a n) s <| issue s y [.g d, .g a] [.g n] [.g d] fun u t =>
    atomicAccess s (.casI32 y d a n) y u t (.cas (t.gval d) (t.gval n)) (.g d false) (t.gval a) (List.replicate 4 0)

/-- 16-byte `casp` on register pairs (R325). -/
def execCasp (y : Sync) (d a n : GNum) (s : State) : Out :=
  orResumed (.casp y d a n) s <| issue s y [.g d, .g (nextG d), .g a, .g (nextG n)] [.g n] [.g d, .g (nextG d)] fun u t =>
    atomicAccess s (.casp y d a n) y u t (.casp (t.gval d) (t.gval (nextG d)) (t.gval n) (t.gval (nextG n))) (.pair d)
      (t.gval a) (List.replicate 16 0)

/-! ### Word-state instructions -/

/-- A synchronising access to one word (R149, R354, R393): aligned, checked precisely at issue; on the own pool it acts at
once, and `lds` or `ldf` of a word in E leaves the agent Blocked at the instruction. -/
def wordAccess (s : State) (i : Instr) (y : Sync) (u : Nat) (t : Thread) (k : AccKind) (d : Dest) (va : Word)
    (bs : List Byte) (acq rel : Bool) : Out :=
  match t.prog with
  | .sent id => resumeResult s i u t id
  | _ =>
  if va.toNat % 8 ≠ 0 then trapAt s u t .misaligned 0 va
  else if acquirePending s u then blockOn s u t .accesses
  else match resolve s t.cid t.core va k.need with
  | .fail c => trapAt s u t c 0 va
  | .hold => blockOn s u t .accesses
  | .ok loc node =>
    let own := ownPool t.core va
    if own && rel && accessesBefore s u s.nextId then blockOn s u t .accesses
    else
      let tenant := match node with
        | some n => (match tget n s.nodes with | some m => m.tenant | none => 0)
        | none => 0
      let p := { mkPiece va 0 bs with loc := loc, tenant := tenant }
      let a := { newAccess s u t k [p] d va y with nodes := node.toList, acq := acq, rel := rel, kf := syKf y || own }
      let id := s.nextId
      match own, loc with
      | true, .here key =>
        let bad := s.word (key / 8) == .poison
        match k with
        | .ftag => match d with
          | .g n _ => finishG (softRecord s a p key) i u t n (w64 (s.word (key / 8)).code)
          | _ => finish (softRecord s a p key) i u t
        | .lds | .ldf =>
          if bad then trapAt (softRecord s a p key) u t .poison 0 va
          else if s.word (key / 8) = .empty then blockAt (ownerStep (sendAccess s a) id 0 a p key) u t .result (.sent id)
          else
            let s1 := if k = .lds then s.setWord (key / 8) .empty else s
            match d with
            | .g n _ => finishG s1 i u t n (w64 (leNat (memBytes s.mem key 8)))
            | _ => finish s1 i u t
        | _ => finish (ownerStep (sendAccess s a) id 0 a p key) i u t
      | _, _ =>
        if d != .none && syKf y then blockAt (sendAccess s a) u t .result (.sent id)
        else finish (sendAccess s a) i u (t.emptyDest d)

/-- `lds` (R147, R149, R354). -/
def execLds (y : Sync) (d b : GNum) (i : Imm) (s : State) : Out :=
  notInHandler s <| issue s y [.g b] [] [.g d] fun u t =>
    wordAccess s (.lds y d b i) y u t .lds (.g d false) (offsetted t b i) (List.replicate 8 0) true false

/-- `ldf` (R147, R149, R354). -/
def execLdf (y : Sync) (d b : GNum) (i : Imm) (s : State) : Out :=
  notInHandler s <| issue s y [.g b] [] [.g d] fun u t =>
    wordAccess s (.ldf y d b i) y u t .ldf (.g d false) (offsetted t b i) (List.replicate 8 0) true false

/-- `ftag` (R342). -/
def execFtag (y : Sync) (d b : GNum) (i : Imm) (s : State) : Out :=
  issue s y [.g b] [] [.g d] fun u t =>
    wordAccess s (.ftag y d b i) y u t .ftag (.g d false) (offsetted t b i) (List.replicate 8 0) false false

/-- `stf` (R393). -/
def execStf (y : Sync) (v b : GNum) (i : Imm) (s : State) : Out :=
  issue s y [.g v, .g b] [] [] fun u t =>
    wordAccess s (.stf y v b i) y u t .stf .none (offsetted t b i) (leBytes 8 (t.gval v).toNat) false true

/-- `ste` (R393). -/
def execSte (y : Sync) (b : GNum) (i : Imm) (s : State) : Out :=
  issue s y [.g b] [] [] fun u t =>
    wordAccess s (.ste y b i) y u t .ste .none (offsetted t b i) (List.replicate 8 0) false false

end Sys2Proof.Machine
end

