-- ==== Sys2Proof/Machine/Control.lean ====
section
/-! DEFINITION. Branches, jumps, calls, `svc` and `brk` (R318, R323, R324, R350, R351, R359, R322, R395). -/

namespace Sys2Proof.Machine

open Sys2Proof

/-- A branch that retires at an address. A target that cannot be fetched traps at the next fetch, when `tcause`, `taddr` and
`tresume` name the target (R242). -/
def branchTo (s : State) (u : Nat) (t : Thread) (pc : Word) : Out := .next (retireTo s u t pc)

/-- The PC of a taken branch: a displacement in halfwords from the first word (R303). -/
def halfTarget (t : Thread) (i : Imm) (base : Bool) : Word := t.pc + immSigned i base * 2

/-- The condition of `b.eq`, `b.ne`, `b.lt`, `b.ge` (R318). -/
def bCondOf (c : Fin 4) (a b : Word) : Bool :=
  match c with
  | 0 => a == b
  | 1 => a != b
  | 2 => a.slt b
  | 3 => !a.slt b

/-- The condition of `b.ltu`, `b.geu` (R318). -/
def bCondUnsignedOf (c : Fin 2) (a b : Word) : Bool :=
  match c with
  | 0 => a.ult b
  | 1 => !a.ult b

/-- Signed and equality branches (R318). -/
def execBCond (y : Sync) (c : Fin 4) (a b : GNum) (i : Imm) (st : State) : Out :=
  issue st y [.g a, .g b] [] [] fun u t =>
    branchTo st u t (if bCondOf c (t.gval a) (t.gval b) then halfTarget t i false else nextPc (.bCond y c a b i) t)

/-- Unsigned branches (R318). -/
def execBCondUnsigned (y : Sync) (c : Fin 2) (a b : GNum) (i : Imm) (st : State) : Out :=
  issue st y [.g a, .g b] [] [] fun u t =>
    branchTo st u t (if bCondUnsignedOf c (t.gval a) (t.gval b) then halfTarget t i false
      else nextPc (.bCondUnsigned y c a b i) t)

/-- `bz` (R323). -/
def execBz (y : Sync) (a : GNum) (i : Imm) (st : State) : Out :=
  issue st y [.g a] [] [] fun u t =>
    branchTo st u t (if t.gval a = 0 then halfTarget t i true else nextPc (.bz y a i) t)

/-- `loop`: counts down and branches while the count is not 0 (R359). -/
def execLoop (y : Sync) (c : GNum) (i : Imm) (st : State) : Out :=
  issue st y [.g c] [] [.g c] fun u t =>
    branchTo st u (t.setG c (t.gval c - 1))
      (if t.gval c - 1 ≠ 0 then halfTarget t i true else nextPc (.loop y c i) t)

/-- `j` (R350). -/
def execJ (_y : Sync) (i : Imm) (st : State) : Out :=
  withCur st fun u t => branchTo st u t (halfTarget t i true)

/-- `call`: the link register takes the next address (R324). -/
def execCall (y : Sync) (l : GNum) (i : Imm) (st : State) : Out :=
  issue st y [] [] [.g l] fun u t =>
    branchTo st u (t.setG l (nextPc (.call y l i) t)) (halfTarget t i true)

/-- `jr` (R351). -/
def execJr (y : Sync) (a : GNum) (st : State) : Out :=
  issue st y [.g a] [] [] fun u t => branchTo st u t (t.gval a)

/-- `ret` (R351). -/
def execRet (y : Sync) (a : GNum) (st : State) : Out :=
  issue st y [.g a] [] [] fun u t => branchTo st u t (t.gval a)

/-- `svc`: traps with SERVICE, its immediate as detail, and resumes after it (R395). -/
def execSvc (y : Sync) (i : Imm) (st : State) : Out :=
  withCur st fun u t => .next (takeTrap st u .service (i.raw % 256) t.pc (nextPc (.svc y i) t))

/-- `brk`: traps with BREAK and resumes after it (R322). -/
def execBrk (y : Sync) (st : State) : Out :=
  withCur st fun u t => .next (takeTrap st u .brk 0 t.pc (nextPc (.brk y) t))

end Sys2Proof.Machine
end

