-- ==== Sys2Proof/Machine/Vector.lean ====
section
/-! DEFINITION. The vector instructions of pages 1 and 2 (R405 to R421), their masks (R60), flags (R87) and counts (R265). -/

namespace Sys2Proof.Machine

open Sys2Proof

/-! ### Elements and masks -/

/-- The elements of a register at a width (R60). -/
def elemCount (w : Nat) : Nat := 512 / w

/-- An element of 64 bytes. -/
def elemOf (x : BitVec 512) (w j : Nat) : Nat := x.toNat / 2 ^ (w * j) % 2 ^ w

/-- The mask bit that governs an element (R60). -/
def governing (w j : Nat) : Nat := if w = 64 then j else j * w / 32

/-- Whether an element is active (R405). -/
def maskActive (k : VMask) (t : Thread) (w j : Nat) : Bool := !k.m || (t.q.get k.q).getLsbD (governing w j)

/-- The elements that are active, lowest first. -/
def activeElems (k : VMask) (t : Thread) (w : Nat) : List Nat := (List.range (elemCount w)).filter fun j => maskActive k t w j

/-- Elements of a width as one register value, the first lowest. -/
def assemble (w : Nat) : List Nat → Nat
  | [] => 0
  | x :: xs => x % 2 ^ w + 2 ^ w * assemble w xs

/-- A register value from a function of its elements. -/
def buildV (w : Nat) (f : Nat → Nat) : BitVec 512 := BitVec.ofNat 512 (assemble w ((List.range (elemCount w)).map f))

/-- The op-counter class of an element type (R265). -/
def countClass (t : EType) : Fin 13 :=
  match t with
  | .f64 => 9
  | .f32 => 10
  | .f16 | .bf16 | .e5m2 | .e4m3 | .e3m2 | .e2m3 | .e2m1 => 11
  | _ => 12

/-- A vector register as a destination of a register write: F, unless no element was written (R65, R405; log 13). -/
def Thread.fillV (t : Thread) (d : VNum) (any : Bool) : Thread := if any then { t with v := t.v.set d VReg.fullReg } else t

/-- Adds flags at retirement (R87). -/
def Thread.addFlags (t : Thread) (f : Flags) : Thread := { t with fflags := t.fflags ||| f }

/-- Retires a vector instruction that writes a vector register: data, flags and counts together (R87, R265). -/
def vecDone (s : State) (i : Instr) (u : Nat) (t : Thread) (d : VNum) (x : BitVec 512) (any : Bool) (f : Flags)
    (cls : Fin 13) (n : Nat) : Out :=
  finish (addCount (setVData s t d x) t.cid cls n) i u ((t.fillV d any).addFlags f)

/-- The data of a second source; a form with one source has none. -/
def secondData (s : State) (t : Thread) (b : Option VNum) : BitVec 512 := match b with | some n => vval s t n | none => 0

/-- An element-wise instruction (R408): `f` takes the rounding mode and the elements a, b and the old c. -/
def elementWise (s : State) (i : Instr) (y : Sync) (k : VMask) (ty : EType) (d a : VNum) (b : Option VNum) (readsD : Bool)
    (each : Nat) (f : Nat → Nat → Nat → Nat → Nat × Flags) : Out :=
  issue s y (RegName.v a :: if readsD then [RegName.v d] else []) (b.toList.map RegName.v) [.v d] fun u t =>
    let w := ty.bits
    let av := vval s t a
    let bv := secondData s t b
    let dv := vval s t d
    let r := fun j => f t.frm.toNat (elemOf av w j) (elemOf bv w j) (elemOf dv w j)
    let act := activeElems k t w
    vecDone s i u t d (buildV w fun j => if maskActive k t w j then (r j).1 else elemOf dv w j) (!act.isEmpty)
      (act.foldl (fun g j => g ||| (r j).2) 0) (countClass ty) (each * act.length)

/-- Integer arithmetic on elements, wrapping and without flags (R82). -/
def intOp (ty : EType) (f : Int → Int → Int) (a b : Nat) : Nat × Flags := (wrapI ty (f (decodeI ty a) (decodeI ty b)), 0)

/-- An operation of both kinds of type. -/
def bothOp (ty : EType) (ff : EType → Nat → Nat → Nat → Nat × Flags) (fi : Int → Int → Int) : Nat → Nat → Nat → Nat → Nat × Flags :=
  fun frm a b _ => if ty.isF then ff ty frm a b else intOp ty fi a b

/-- `vadd` (R408). -/
def execVadd (y : Sync) (k : VMask) (t : EType) (d a b : VNum) (s : State) : Out :=
  elementWise s (.vadd y k t d a b) y k t d a (some b) false 1 (bothOp t fAdd (· + ·))

/-- `vsub` (R408). -/
def execVsub (y : Sync) (k : VMask) (t : EType) (d a b : VNum) (s : State) : Out :=
  elementWise s (.vsub y k t d a b) y k t d a (some b) false 1 (bothOp t fSub (· - ·))

/-- `vmul` (R408). -/
def execVmul (y : Sync) (k : VMask) (t : EType) (d a b : VNum) (s : State) : Out :=
  elementWise s (.vmul y k t d a b) y k t d a (some b) false 1 (bothOp t fMul (· * ·))

/-- `vfma`, which reads its destination (R408); it counts 2 per element (R265). -/
def execVfma (y : Sync) (k : VMask) (t : EType) (d a b : VNum) (s : State) : Out :=
  elementWise s (.vfma y k t d a b) y k t d a (some b) true 2 fun frm x z c =>
    if t.isF then fFma t frm x z c else (wrapI t (decodeI t x * decodeI t z + decodeI t c), 0)

/-- `vdiv` (R408). -/
def execVdiv (y : Sync) (k : VMask) (t : EType) (d a b : VNum) (s : State) : Out :=
  elementWise s (.vdiv y k t d a b) y k t d a (some b) false 1 fun frm x z _ => fDiv t frm x z

/-- `vsqrt` (R408). -/
def execVsqrt (y : Sync) (k : VMask) (t : EType) (d r : VNum) (s : State) : Out :=
  elementWise s (.vsqrt y k t d r) y k t d r none false 1 fun frm x _ _ => rounded t frm (sqrtVal (decodeF t x))

/-- `vrcp` (R408). -/
def execVrcp (y : Sync) (k : VMask) (t : EType) (d r : VNum) (s : State) : Out :=
  elementWise s (.vrcp y k t d r) y k t d r none false 1 fun frm x _ _ => fRcp t frm x

/-- `vrsq` (R408). -/
def execVrsq (y : Sync) (k : VMask) (t : EType) (d r : VNum) (s : State) : Out :=
  elementWise s (.vrsq y k t d r) y k t d r none false 1 fun frm x _ _ => rounded t frm (rsqVal (decodeF t x))

/-- `vexp2` (R408). -/
def execVexp2 (y : Sync) (k : VMask) (t : EType) (d r : VNum) (s : State) : Out :=
  elementWise s (.vexp2 y k t d r) y k t d r none false 1 fun frm x _ _ => rounded t frm (exp2Val (decodeF t x))

/-- `vlog2` (R408). -/
def execVlog2 (y : Sync) (k : VMask) (t : EType) (d r : VNum) (s : State) : Out :=
  elementWise s (.vlog2 y k t d r) y k t d r none false 1 fun frm x _ _ => rounded t frm (log2Val (decodeF t x))

/-- The smaller element (R408, R89). -/
def elemMin (t : EType) (a b : Nat) : Nat := if t.isF then fMin t a b else if decodeI t b < decodeI t a then b else a
/-- The larger element. -/
def elemMax (t : EType) (a b : Nat) : Nat := if t.isF then fMax t a b else if decodeI t a < decodeI t b then b else a

/-- `vmin` (R408). -/
def execVmin (y : Sync) (k : VMask) (t : EType) (d a b : VNum) (s : State) : Out :=
  elementWise s (.vmin y k t d a b) y k t d a (some b) false 1 fun _ x z _ => (elemMin t x z, 0)

/-- `vmax` (R408). -/
def execVmax (y : Sync) (k : VMask) (t : EType) (d a b : VNum) (s : State) : Out :=
  elementWise s (.vmax y k t d a b) y k t d a (some b) false 1 fun _ x z _ => (elemMax t x z, 0)

/-- `vabs` (R408, R81). -/
def execVabs (y : Sync) (k : VMask) (t : EType) (d r : VNum) (s : State) : Out :=
  elementWise s (.vabs y k t d r) y k t d r none false 1 fun _ x _ _ =>
    if t.isF then (x % 2 ^ (t.bits - 1), 0) else (wrapI t (decodeI t x).natAbs, 0)

/-- `vneg` (R408, R81). -/
def execVneg (y : Sync) (k : VMask) (t : EType) (d r : VNum) (s : State) : Out :=
  elementWise s (.vneg y k t d r) y k t d r none false 1 fun _ x _ _ =>
    if t.isF then (x ^^^ 2 ^ (t.bits - 1), 0) else (wrapI t (-decodeI t x), 0)

/-- `vand` (R408). -/
def execVand (y : Sync) (k : VMask) (t : EType) (d a b : VNum) (s : State) : Out :=
  elementWise s (.vand y k t d a b) y k t d a (some b) false 1 fun _ x z _ => (x &&& z, 0)

/-- `vor` (R408). -/
def execVor (y : Sync) (k : VMask) (t : EType) (d a b : VNum) (s : State) : Out :=
  elementWise s (.vor y k t d a b) y k t d a (some b) false 1 fun _ x z _ => (x ||| z, 0)

/-- `vxor` (R408). -/
def execVxor (y : Sync) (k : VMask) (t : EType) (d a b : VNum) (s : State) : Out :=
  elementWise s (.vxor y k t d a b) y k t d a (some b) false 1 fun _ x z _ => (x ^^^ z, 0)

/-- `vshl` (R408). -/
def execVshl (y : Sync) (k : VMask) (t : EType) (d a b : VNum) (s : State) : Out :=
  elementWise s (.vshl y k t d a b) y k t d a (some b) false 1 fun _ x z _ => (x * 2 ^ (z % t.bits) % 2 ^ t.bits, 0)

/-- `vshr`: arithmetic for i types, logical for n types (R408). -/
def execVshr (y : Sync) (k : VMask) (t : EType) (d a b : VNum) (s : State) : Out :=
  elementWise s (.vshr y k t d a b) y k t d a (some b) false 1 fun _ x z _ =>
    (wrapI t (decodeI t x / 2 ^ (z % t.bits)), 0)

/-! ### Comparison, selection, reduction, dot product, class -/

/-- The condition of `vcmp` on two elements (R411). -/
def elemCmp (t : EType) (c : Fin 6) (a b : Nat) : Bool :=
  let eq := if t.isF then valEq (decodeF t a) (decodeF t b) else decide (decodeI t a = decodeI t b)
  let lt := if t.isF then valLt (decodeF t a) (decodeF t b) && !eq else decide (decodeI t a < decodeI t b)
  let gt := if t.isF then valLt (decodeF t b) (decodeF t a) && !eq else decide (decodeI t b < decodeI t a)
  match c with
  | 0 => eq
  | 1 => !eq
  | 2 => lt
  | 3 => lt || eq
  | 4 => gt
  | 5 => gt || eq

/-- `vcmp` (R411). -/
def execVcmp (y : Sync) (k : VMask) (t : EType) (c : Fin 6) (d : QNum) (a b : VNum) (s : State) : Out :=
  issue s y [.v a] [.v b] [] fun u th =>
    let w := t.bits
    let av := vval s th a
    let bv := vval s th b
    let holds (i : Nat) : Bool :=
      let js := (List.range (elemCount w)).filter fun j => governing w j == i
      !js.isEmpty && js.all fun j => maskActive k th w j && elemCmp t c (elemOf av w j) (elemOf bv w j)
    let q : BitVec 16 := BitVec.ofNat 16 (assemble 1 ((List.range 16).map fun i => if holds i then 1 else 0))
    finish (addCount s th.cid (countClass t) (activeElems k th w).length) (.vcmp y k t c d a b) u { th with q := th.q.set d q }

/-- `vsel`: every element is written (R421). -/
def execVsel (y : Sync) (q : QNum) (t : EType) (d a b : VNum) (s : State) : Out :=
  issue s y [.v a] [.v b] [.v d] fun u th =>
    let w := t.bits
    let m : VMask := { m := true, q := q }
    finishV s (.vsel y q t d a b) u th d
      (buildV w fun j => if maskActive m th w j then elemOf (vval s th a) w j else elemOf (vval s th b) w j)

/-- One stage of the tree of R90. -/
def redStage (op : Nat → Nat → Nat × Flags) (r : List (Option Nat) × Flags) : List (Option Nat) × Flags :=
  let h := r.1.length / 2
  ((r.1.take h).zip (r.1.drop h)).foldl (fun acc p => match p with
    | (some a, some b) => (acc.1 ++ [some (op a b).1], acc.2 ||| (op a b).2)
    | (some a, none) => (acc.1 ++ [some a], acc.2)
    | (none, x) => (acc.1 ++ [x], acc.2)) ([], r.2)

/-- The tree of R90, in at most `n` stages. -/
def redTree (op : Nat → Nat → Nat × Flags) : Nat → List (Option Nat) × Flags → List (Option Nat) × Flags
  | 0, r => r
  | n + 1, r => if r.1.length ≤ 1 then r else redTree op n (redStage op r)

/-- The operations of `vred` (R420). -/
def redOp (t : EType) (frm : Nat) (o : Fin 6) (a b : Nat) : Nat × Flags :=
  match o with
  | 0 => if t.isF then fAdd t frm a b else intOp t (· + ·) a b
  | 1 => (elemMin t a b, 0)
  | 2 => (elemMax t a b, 0)
  | 3 => (a &&& b, 0)
  | 4 => (a ||| b, 0)
  | 5 => (a ^^^ b, 0)

/-- The identity of a reduction without active elements (R90, R420). -/
def redIdentity (t : EType) (o : Fin 6) : Nat :=
  match o with
  | 0 => if t.isF then (fmtOf t).sign true else 0
  | 1 => if t.isF then (fmtOf t).infBits false else wrapI t (boundsI t).2
  | 2 => if t.isF then (fmtOf t).infBits true else wrapI t (boundsI t).1
  | 3 => 2 ^ t.bits - 1
  | _ => 0

/-- An element into a scalar register: sign-extended for i types, else zero-extended (R415, R420). -/
def elemToWord (t : EType) (x : Nat) : Word := if t.isSigned then BitVec.ofInt 64 (decodeI t x) else w64 x

/-- `vred` (R420). -/
def execVred (y : Sync) (k : VMask) (t : EType) (o : Fin 6) (d : GNum) (r : VNum) (s : State) : Out :=
  issue s y [.v r] [] [.g d] fun u th =>
    let w := t.bits
    let leaves := (List.range (elemCount w)).map fun j => if maskActive k th w j then some (elemOf (vval s th r) w j) else none
    let res := redTree (redOp t th.frm.toNat o) 6 (leaves, 0)
    let x := match res.1 with
      | some x :: _ => x
      | _ => redIdentity t o
    finish (addCount s th.cid (countClass t) ((activeElems k th w).length - 1)) (.vred y k t o d r) u
      ((th.setG d (elemToWord t x)).addFlags res.2)

/-- One lane of `vdot` (R414); with a NaN operand it raises no flag (R89). -/
def dotLane (t : EType) (frm : Nat) (c : Nat) (ps : List (Nat × Nat)) : Nat × Flags :=
  if t.isI then
    (wrapI .i32 (ps.foldl (fun a p => a + decodeI t p.1 * decodeI t p.2) (decodeI .i32 c)), 0)
  else
    let isNaN (x : Nat) : Bool := decodeF t x == .nan
    let prods := ps.map fun p => mulVals (decodeF t p.1) (decodeF t p.2)
    let r := sumVals (plainMode frm) (prods.map Prod.fst ++ [decodeF .f32 c])
    let quiet := decodeF .f32 c == .nan || ps.any fun p => isNaN p.1 || isNaN p.2
    rounded .f32 frm (r.1, if quiet then 0 else prods.foldl (fun a p => a ||| p.2) r.2)

/-- `vdot` (R414); it counts 2 per product of an active lane (R265). -/
def execVdot (y : Sync) (k : VMask) (t : EType) (d a b : VNum) (s : State) : Out :=
  issue s y [.v a, .v d] [.v b] [.v d] fun u th =>
    let n := 32 / t.bits
    let av := vval s th a
    let bv := vval s th b
    let dv := vval s th d
    let r := fun l => dotLane t th.frm.toNat (elemOf dv 32 l)
      ((List.range n).map fun e => (elemOf av t.bits (l * n + e), elemOf bv t.bits (l * n + e)))
    let act := activeElems k th 32
    vecDone s (.vdot y k t d a b) u th d (buildV 32 fun l => if maskActive k th 32 l then (r l).1 else elemOf dv 32 l)
      (!act.isEmpty) (act.foldl (fun g l => g ||| (r l).2) 0) (countClass t) (2 * n * act.length)

/-- The class bit of an element (R410). -/
def classBit (t : EType) (x : Nat) : Nat :=
  match decodeF t x with
  | .nan => 2 ^ 8
  | .inf true => 2 ^ 0
  | .inf false => 2 ^ 7
  | .fin neg m _ =>
    if m = 0 then (if neg then 2 ^ 3 else 2 ^ 4)
    else if m < 2 ^ (fmtOf t).p then (if neg then 2 ^ 2 else 2 ^ 5)
    else if neg then 2 ^ 1 else 2 ^ 6

/-- `vclass` (R410). -/
def execVclass (y : Sync) (k : VMask) (t : EType) (d r : VNum) (s : State) : Out :=
  elementWise s (.vclass y k t d r) y k t d r none false 1 fun _ x _ _ => (classBit t x, 0)

/-! ### Loads, stores, gathers and scatters -/

/-- The bytes of active elements: every mask bit governs whole bytes (R60, R417). -/
def byteActive (k : VMask) (t : Thread) (ty : EType) (b : Nat) : Bool :=
  !k.m || (t.q.get k.q).getLsbD (if ty.bits = 64 then b / 8 else b / 4)

/-- Runs of active bytes, as first byte and length. -/
def activeRuns (act : Nat → Bool) : Nat → Nat → List (Nat × Nat)
  | 0, _ => []
  | n + 1, b =>
    let rest := activeRuns act n (b + 1)
    if act b then
      match rest with
      | (f, l) :: more => if f = b + 1 then (b, l + 1) :: more else (b, 1) :: rest
      | [] => [(b, 1)]
    else rest

/-- The pieces of a vector access to its active bytes (R142, R417). -/
def maskedPieces (va : Word) (act : Nat → Bool) (bs : List Byte) : List Piece :=
  ((activeRuns act 64 0).map fun r => vectorPieces r.2 (va + w64 r.1) r.1 ((bs.drop r.1).take r.2)).flatten

/-- The byte mask of the active bytes. -/
def byteMask (act : Nat → Bool) : BitVec 64 := BitVec.ofNat 64 (assemble 1 ((List.range 64).map fun b => if act b then 1 else 0))

/-- The offset of `vld` and `vst`: no base field (R417). -/
def vecAddr (t : Thread) (b : GNum) (i : Imm) : Word := t.gval b + immSigned i false

/-- `vld` (R417). With no active byte nothing is read or written. -/
def vecLoad (s : State) (i : Instr) (y : Sync) (k : VMask) (ty : EType) (d : VNum) (b : GNum) (im : Imm) : Out :=
  issue s y [.g b] [] [.v d] fun u t =>
    let act := byteActive k t ty
    let va := vecAddr t b im
    match maskedPieces va act (List.replicate 64 0) with
    | [] => finish s i u t
    | ps => loadAccess s i y u t (.v d (byteMask act)) va ps

/-- `vst` (R417). -/
def vecStore (s : State) (i : Instr) (y : Sync) (k : VMask) (ty : EType) (r : VNum) (b : GNum) (im : Imm) : Out :=
  issue s y [.v r, .g b] [] [] fun u t =>
    let va := vecAddr t b im
    match maskedPieces va (byteActive k t ty) (vBytes s t r) with
    | [] => finish s i u t
    | ps => storeAccess s i y u t va ps

/-- The mask of the forms without one. -/
def noMask : VMask := { m := false, q := 0 }

/-- `vld` without a REG prefix (R417). -/
def execVld (y : Sync) (d b : GNum) (i : Imm) (s : State) : Out :=
  vecLoad s (.vld y d b i) y noMask .n8 (Fin.ofNat 32 d.val) b i

/-- `vld.t` with a REG prefix (R417). -/
def execVldTyped (y : Sync) (k : VMask) (t : EType) (d : VNum) (b : GNum) (i : Imm) (s : State) : Out :=
  vecLoad s (.vldTyped y k t d b i) y k t d b i

/-- `vst` without a REG prefix (R417). -/
def execVst (y : Sync) (r b : GNum) (i : Imm) (s : State) : Out :=
  vecStore s (.vst y r b i) y noMask .n8 (Fin.ofNat 32 r.val) b i

/-- `vst.t` with a REG prefix (R417). -/
def execVstTyped (y : Sync) (k : VMask) (t : EType) (r : VNum) (b : GNum) (i : Imm) (s : State) : Out :=
  vecStore s (.vstTyped y k t r b i) y k t r b i

/-- The addresses of the active elements of a gather or scatter (R416). -/
def gatherAddrs (s : State) (t : Thread) (k : VMask) (ty : EType) (b : GNum) (x : VNum) : List (Nat × Word) :=
  (activeElems k t ty.bits).map fun j => (j, t.gval b + w64 (elemOf (vval s t x) 32 j))

/-- What stops a gather or a scatter at issue: the lowest element that is misaligned, or for a gather fails its checks. -/
def gatherFault (s : State) (t : Thread) (ty : EType) (load : Bool) : List (Nat × Word) → Option (Cause × Word)
  | [] => none
  | (_, a) :: rest =>
    if a.toNat % (ty.bits / 8) ≠ 0 then some (.misaligned, a)
    else if load then
      match resolve s t.cid t.core a rRead with
      | .fail c => some (c, a)
      | _ => gatherFault s t ty load rest
    else gatherFault s t ty load rest

/-- Whether the thread waits for the result of an access that its instruction has issued under keep-full (R69). -/
def hasSent (t : Thread) : Bool := match t.prog with | .sent _ => true | _ => false

/-- `vgat` (R416). -/
def execVgat (y : Sync) (k : VMask) (t : EType) (d : VNum) (b : GNum) (x : VNum) (s : State) : Out :=
  issue s y [.g b] [.v x] [.v d] fun u th =>
    let n := t.bits / 8
    let as := gatherAddrs s th k t b x
    match (if hasSent th then none else gatherFault s th t true as) with
    | some (c, a) => trapAt s u th c 0 a
    | none => match as with
      | [] => finish s (.vgat y k t d b x) u th
      | (_, a0) :: _ =>
        loadAccess s (.vgat y k t d b x) y u th (.v d (byteMask fun c => maskActive k th t.bits (c / n))) a0
          (as.map fun e => mkPiece e.2 (e.1 * n) (List.replicate n 0))

/-- One element of a scatter: performed at issue in the own pool, else in flight as an access of its own (R416, R154). -/
def scatterOne (s : State) (u : Nat) (t : Thread) (y : Sync) (va : Word) (bs : List Byte) : State :=
  if ownPool t.core va then
    match resolve s t.cid t.core va rWrite with
    | .ok (.here key) _ =>
      let p := mkPiece va 0 bs
      let s1 := softRecord s (newAccess s u t .store [p] .none va y) p key
      if storeBlocked s1 key bs.length then storeReport s1 t .poison va else storeBytes s1 key bs
    | .fail c => storeReport s t c va
    | _ => s
  else sendAccess s (newAccess s u t .store [mkPiece va 0 bs] .none va y)

/-- `vsct` (R416). -/
def execVsct (y : Sync) (k : VMask) (t : EType) (r : VNum) (b : GNum) (x : VNum) (s : State) : Out :=
  issue s y [.v r, .g b] [.v x] [] fun u th =>
    let n := t.bits / 8
    let as := gatherAddrs s th k t b x
    match gatherFault s th t false as with
    | some (c, a) => trapAt s u th c 0 a
    | none =>
      if acquirePending s u || (decide (2 ≤ syOrder y) && accessesBefore s u s.nextId && as.any fun e => ownPool th.core e.2) then
        blockOn s u th .accesses
      else
        finish (as.foldl (fun st e => scatterOne st u th y e.2 (leBytes n (elemOf (vval s th r) t.bits e.1))) s)
          (.vsct y k t r b x) u th

/-! ### Conversions and blocks -/

/-- The wider type of a conversion, a floating one on a tie (R265). -/
def widerType (d r : EType) : EType :=
  if r.bits < d.bits then d else if d.bits < r.bits then r else if d.isFloat then d else r

/-- The elements of a conversion in order, with the generator stepped once for each active one that draws (R85, R91):
results, flags and the new generator. A copy between equal types converts nothing and takes no step (DEDUCED, log 61). -/
def convertList (d r : EType) (frm : Nat) : List (Option Nat) → BitVec 32 → List (Option Nat) × Flags × BitVec 32
  | [], g => ([], 0, g)
  | none :: xs, g =>
    let z := convertList d r frm xs g
    (none :: z.1, z.2.1, z.2.2)
  | some x :: xs, g =>
    let dr := draws d frm && decide (d ≠ r)
    let g' := if dr then lfsrStep g else g
    let c := convert d r frm (if dr then some g'.toNat else none) x
    let z := convertList d r frm xs g'
    (some c.1 :: z.1, c.2 ||| z.2.1, z.2.2)

/-- `vcvt` (R412). -/
def execVcvt (y : Sync) (k : VMask) (dt st : EType) (p : Fin 4) (d r : VNum) (s : State) : Out :=
  issue s y [.v r] [] [.v d] fun u t =>
    let wide := max dt.bits st.bits
    let n := 512 / wide
    let sBase := if st.bits < dt.bits then p.val * n else 0
    let dBase := if dt.bits < st.bits then p.val * n else 0
    let src := (List.range n).map fun j => if maskActive k t wide j then some (elemOf (vval s t r) st.bits (sBase + j)) else none
    let z := convertList dt st t.frm.toNat src t.lfsr
    let old := vval s t d
    let act := (src.filter Option.isSome).length
    vecDone s (.vcvt y k dt st p d r) u { t with lfsr := z.2.2 } d
      (buildV dt.bits fun e => if dBase ≤ e ∧ e < dBase + n then ((z.1.getD (e - dBase) none).getD (elemOf old dt.bits e))
        else elemOf old dt.bits e)
      (decide (act ≠ 0)) z.2.1 (countClass (widerType dt st)) act

/-- The registers of the wide side of a block: two for f32 (R413). -/
def widePair (w : EType) (r : VNum) : Option (List VNum) :=
  if w = .f32 then (if h : r.val + 1 < 32 then some [r, ⟨r.val + 1, h⟩] else none) else some [r]

/-- The 32 wide elements of a block. -/
def wideElems (s : State) (t : Thread) (w : EType) (rs : List VNum) : List Nat :=
  (rs.map fun r => (List.range (elemCount w.bits)).map fun j => elemOf (vval s t r) w.bits j).flatten

/-- The successive states of the generator. -/
def lfsrRun : Nat → BitVec 32 → BitVec 32
  | 0, g => g
  | n + 1, g => lfsrRun n (lfsrStep g)

/-- Both forms of `vquant` (R413, R92): the scale is computed into gC, or given there. -/
def quantise (s : State) (i : Instr) (y : Sync) (dt : EType) (w : Fin 3) (p : Fin 4) (d r : VNum) (c : GNum) (given : Bool) : Out :=
  match widePair (wideType w) r with
  | none => withCur s fun u t => trapHere s u t .illegal 0
  | some rs =>
    issue s y (rs.map RegName.v) (if given then [.g c] else []) ([RegName.v d] ++ if given then [] else [.g c]) fun u t =>
      if given && decide (256 ≤ (t.gval c).toNat) then trapHere s u t .illegal 0
      else
        let vs := (wideElems s t (wideType w) rs).map (decodeF (wideType w))
        let scale := if given then (t.gval c).toNat else blockScale dt vs
        let dr := draws dt t.frm.toNat
        let z := quantBlock dt t.frm.toNat scale vs fun e => if dr then some (lfsrRun (e + 1) t.lfsr).toNat else none
        let b := p.val * 32
        let old := vval s t d
        let t1 := if given then t else t.setG c (w64 scale)
        vecDone s i u { t1 with lfsr := if dr then lfsrRun 32 t.lfsr else t.lfsr } d
          (buildV dt.bits fun e => if b ≤ e ∧ e < b + 32 then z.1.getD (e - b) 0 else elemOf old dt.bits e)
          true z.2 (countClass (widerType dt (wideType w))) 32

/-- `vquant` (R413). -/
def execVquant (y : Sync) (dt : EType) (w : Fin 3) (p : Fin 4) (d r : VNum) (c : GNum) (s : State) : Out :=
  quantise s (.vquant y dt w p d r c) y dt w p d r c false

/-- `vquant.given` (R413). -/
def execVquantGiven (y : Sync) (dt : EType) (w : Fin 3) (p : Fin 4) (d r : VNum) (c : GNum) (s : State) : Out :=
  quantise s (.vquantGiven y dt w p d r c) y dt w p d r c true

/-- `vdeq` (R413, R93). -/
def execVdeq (y : Sync) (st : EType) (w : Fin 3) (p : Fin 4) (d r : VNum) (c : GNum) (s : State) : Out :=
  match widePair (wideType w) d with
  | none => withCur s fun u t => trapHere s u t .illegal 0
  | some ds =>
    issue s y [.v r] [.g c] (ds.map RegName.v) fun u t =>
      if 256 ≤ (t.gval c).toNat then trapHere s u t .illegal 0
      else
        let wt := wideType w
        let zs := (List.range 32).map fun e =>
          dequant wt st t.frm.toNat (t.gval c).toNat (elemOf (vval s t r) st.bits (p.val * 32 + e))
        let n := elemCount wt.bits
        let s1 := ds.zipIdx.foldl (fun s' e => setVData s' t e.1 (buildV wt.bits fun j => (zs.getD (e.2 * n + j) (0, 0)).1)) s
        let t1 := ds.foldl (fun (t' : Thread) (r' : VNum) => { t' with v := t'.v.set r' VReg.fullReg }) t
        finish (addCount s1 t.cid (countClass (widerType wt st)) 32) (.vdeq y st w p d r c) u
          (t1.addFlags (zs.foldl (fun a z => a ||| z.2) 0))

/-! ### Moves -/

/-- `vperm` (R419). -/
def execVperm (y : Sync) (k : VMask) (t : EType) (d a x : VNum) (s : State) : Out :=
  issue s y [.v a] [.v x] [.v d] fun u th =>
    let w := t.bits
    let n := elemCount w
    finish (setVData s th d (buildV w fun j =>
        if maskActive k th w j then elemOf (vval s th a) w (elemOf (vval s th x) w j % n) else elemOf (vval s th d) w j))
      (.vperm y k t d a x) u (th.fillV d (!(activeElems k th w).isEmpty))

/-- `vbcast` (R409). -/
def execVbcast (y : Sync) (k : VMask) (t : EType) (d : VNum) (r : GNum) (s : State) : Out :=
  issue s y [.g r] [] [.v d] fun u th =>
    let w := t.bits
    finish (setVData s th d (buildV w fun j => if maskActive k th w j then (th.gval r).toNat % 2 ^ w else elemOf (vval s th d) w j))
      (.vbcast y k t d r) u (th.fillV d (!(activeElems k th w).isEmpty))

/-- `vins` (R415). -/
def execVins (y : Sync) (t : EType) (e : Fin 64) (d : VNum) (r : GNum) (s : State) : Out :=
  issue s y [.g r] [] [.v d] fun u th =>
    let w := t.bits
    finishV s (.vins y t e d r) u th d (buildV w fun j => if j = e.val then (th.gval r).toNat % 2 ^ w else elemOf (vval s th d) w j)

/-- `vext` (R415). -/
def execVext (y : Sync) (t : EType) (e : Fin 64) (d : GNum) (r : VNum) (s : State) : Out :=
  issue s y [.v r] [] [.g d] fun u th =>
    finishG s (.vext y t e d r) u th d (elemToWord t (elemOf (vval s th r) t.bits e.val))

/-- The operations of `qop` (R379). -/
def qopForm (o : Fin 5) (a b : BitVec 16) : BitVec 16 :=
  match o with
  | 0 => a &&& b
  | 1 => a ||| b
  | 2 => a ^^^ b
  | 3 => a &&& ~~~b
  | 4 => ~~~a

/-- `qop` (R379). -/
def execQop (y : Sync) (o : Fin 5) (d a b : QNum) (s : State) : Out :=
  withCur s fun u t => finish s (.qop y o d a b) u { t with q := t.q.set d (qopForm o (t.q.get a) (t.q.get b)) }

/-- `vmovq gD, qS` (R418). -/
def execVmovqToG (y : Sync) (d : GNum) (r : QNum) (s : State) : Out :=
  issue s y [] [] [.g d] fun u t => finishG s (.vmovqToG y d r) u t d ((t.q.get r).setWidth 64)

/-- `vmovq qD, gS` (R418). -/
def execVmovqToQ (y : Sync) (d : QNum) (r : GNum) (s : State) : Out :=
  issue s y [.g r] [] [] fun u t => finish s (.vmovqToQ y d r) u { t with q := t.q.set d ((t.gval r).setWidth 16) }

end Sys2Proof.Machine
end

