-- ==== Sys2Proof/Machine/Copy.lean ====
section
/-! DEFINITION. The copy engine: copy shapes, transfers word by word, completion counters (R88, R129, R130, R167, R168, R175 to
R184, R422 to R425). -/

namespace Sys2Proof.Machine

open Sys2Proof

/-! ### Copy shapes (R175 to R177) -/

/-- The extent of dimension 0 of a shape (R175). -/
def shExt0 (h : Shape) : Nat := bitsOf h.toNat 0 16 + 1
/-- The extent of dimension 1. -/
def shExt1 (h : Shape) : Nat := bitsOf h.toNat 16 10 + 1
/-- The extent of dimension 2. -/
def shExt2 (h : Shape) : Nat := bitsOf h.toNat 26 10 + 1
/-- The source stride of dimension 1, in units of 16 bytes. -/
def shSrc1 (h : Shape) : Nat := bitsOf h.toNat 36 16
/-- The source stride of dimension 2. -/
def shSrc2 (h : Shape) : Nat := bitsOf h.toNat 52 16
/-- The destination stride of dimension 1. -/
def shDst1 (h : Shape) : Nat := bitsOf h.toNat 68 16
/-- The destination stride of dimension 2. -/
def shDst2 (h : Shape) : Nat := bitsOf h.toNat 84 16
/-- The source element type. -/
def shStype (h : Shape) : Option EType := EType.ofCode (bitsOf h.toNat 100 5)
/-- The destination element type. -/
def shDtype (h : Shape) : Option EType := EType.ofCode (bitsOf h.toNat 105 5)
/-- The mode: 0 copy or convert, 1 quantise. -/
def shMode (h : Shape) : Nat := bitsOf h.toNat 110 2
/-- The offset of the scale bytes, in units of 64 bytes. -/
def shScoff (h : Shape) : Nat := bitsOf h.toNat 112 16

/-- The shape rules of R176. -/
def shapeOk (h : Shape) : Bool :=
  match shStype h, shDtype h with
  | some st, some dt =>
    st != .i4 && dt != .i4
    && (match shMode h with
      | 0 => (st == dt || convertible dt st) && shScoff h == 0
      | 1 => st.isFloat && dt.isNarrow && shExt0 h % 32 == 0
      | _ => false)
    && (!(st == .e2m1 || dt == .e2m1) || shExt0 h % 2 == 0)
  | _, _ => false

/-- A shape as its two types, for one that keeps the rules. -/
def shTypes (h : Shape) : EType × EType := ((shStype h).getD .n8, (shDtype h).getD .n8)

/-- The elements of a shape. -/
def shCount (h : Shape) : Nat := shExt0 h * shExt1 h * shExt2 h

/-- The scale bytes of a shape: one per block of 32 elements in mode 1 (R177). -/
def shScales (h : Shape) : Nat := if shMode h = 1 then shCount h / 32 else 0

/-- The address of an element on one side (R177). -/
def elemAddr (base : Word) (h : Shape) (bits s1 s2 n : Nat) : Word :=
  let a := n % shExt0 h
  let b := n / shExt0 h % shExt1 h
  let c := n / shExt0 h / shExt1 h
  base + w64 (16 * (b * s1 + c * s2) + a * bits / 8)

/-- The source address of element n. -/
def srcAddr (x : Transfer) (n : Nat) : Word := elemAddr x.src x.shape (shTypes x.shape).1.bits (shSrc1 x.shape) (shSrc2 x.shape) n

/-- The destination address of element n, or of the scale byte of block n − count (R177). -/
def dstAddr (x : Transfer) (n : Nat) : Word :=
  if n < shCount x.shape then elemAddr x.dst x.shape (shTypes x.shape).2.bits (shDst1 x.shape) (shDst2 x.shape) n
  else x.dst + w64 (64 * shScoff x.shape + (n - shCount x.shape))

/-- The aligned 8-byte destination word of element n. -/
def dstWord (x : Transfer) (n : Nat) : Nat := (dstAddr x n).toNat / 8

/-- The elements, scale bytes counted after them, of the destination word that holds element e (R179). -/
def wordElems (x : Transfer) (e : Nat) : List Nat :=
  (List.range (shCount x.shape + shScales x.shape)).filter fun n => dstWord x n == dstWord x e

/-- The block of an element or a scale byte (R177). -/
def Transfer.blockOf (x : Transfer) (n : Nat) : Nat := if n < shCount x.shape then n / 32 else n - shCount x.shape

/-- Whether a destination word begins at element e. -/
def beginsWord (x : Transfer) (e : Nat) : Bool := (wordElems x e).head? == some e

/-- Whether every destination word of a transfer has landed. -/
def transferDone (x : Transfer) : Bool :=
  (List.range (shCount x.shape + shScales x.shape)).all fun n => (wordElems x n).any fun e => x.landed.contains e

/-- The bytes of elements of a destination word that count: those of each element, or 1 per scale byte (R177, R179). -/
def wordByteCount (x : Transfer) (es : List Nat) : Nat :=
  (es.foldl (fun a n => a + if n < shCount x.shape then (shTypes x.shape).2.bits else 8) 0) / 8

/-! ### `xshape` -/

/-- One-dimensional `xshape` (R176, R424). -/
def execXshape1D (y : Sync) (t : EType) (d : HNum) (e : GNum) (s : State) : Out :=
  issue s y [.g e] [] [] fun u th =>
    let n := (th.gval e).toNat
    let h : Shape := BitVec.ofNat 128 (n - 1 + t.code * 2 ^ 100 + t.code * 2 ^ 105)
    if 1 ≤ n ∧ n ≤ 65536 ∧ shapeOk h then finish s (.xshape1D y t d e) u { th with h := th.h.set d h }
    else trapHere s u th .illegal 0

/-- `xshape` from two words (R176, R424). -/
def execXshape (y : Sync) (d : HNum) (r t : GNum) (s : State) : Out :=
  issue s y [.g r] [.g t] [] fun u th =>
    let h : Shape := (th.gval t).append (th.gval r)
    if shapeOk h then finish s (.xshape y d r t) u { th with h := th.h.set d h } else trapHere s u th .illegal 0

/-! ### Reading sources -/

/-- What a read of source bytes finds. -/
inductive SrcRes where
  | ok (x : Nat)
  | poison
  | seal (pg : Nat)
  | fail (c : Cause)
  | hold
  deriving DecidableEq, Repr

/-- The tenant of the node that translated an address (R103). -/
def nodeTenant (s : State) (node : Option Nat) : Nat :=
  match node with
  | some i => (match tget i s.nodes with | some n => n.tenant | none => 0)
  | none => 0

/-- A read by an engine for a thread: R99, translation, rights, ownership, the seal, word states. A peer is read through a live port that
may send, which is waited for (R24, R250); with no live port it is silent, and lost (R251, R252; DESIGN CHOICE, log 2: at once). -/
def engineRead (s : State) (cid core : Nat) (ep : BitVec 32) (va : Word) (n : Nat) : SrcRes × State :=
  match resolve s cid core va rRead with
  | .hold => (.hold, s)
  | .fail c => (.fail c, s)
  | .ok (.here key) node =>
    match demandRead s key (nodeTenant s node) with
    | (some .integrity, s1) => (.seal (key / 4096), s1)
    | (some c, s1) => (.fail c, s1)
    | (none, s1) =>
      if touchesPoison s1 key n then (.poison, softEngine s1 cid ep va key n)
      else (.ok (leNat (memBytes s1.mem key n)), s1)
  | .ok (.peer dev _) _ =>
    if !anyPort s then (.fail .peerLost, losePeer s dev)
    else if !portFor s true then (.hold, s)
    else let r := peerBytes (markExchanged s cid dev) n; (.ok (leNat r.1), r.2)
  | .ok .untranslated _ => (.hold, s)

/-! ### Failures and deliveries -/

/-- A report of an engine's failure: a record with item 4, a failed item, and for INTEGRITY the fault interrupt (R130, R179,
R37). The record of a failed seal has item 4 too, and not 5 (DESIGN CHOICE, log 62). -/
def xferReport (s : State) (x : Transfer) (c : Cause) (va : Word) : State :=
  failItem (reportAccess s x.cid { addr := va, cause := c, detail := 0, item := 4, peer := none, ep := x.ep }) x.launch

/-- What a landing adds to its counter besides bytes (R180). -/
structure Landing where
  fword : Nat
  fseal : Nat
  flags : Flags
  deriving DecidableEq, Repr

/-- The flags word with a landing added, its fields saturating (R180). -/
def addLanding (w : Word) (l : Landing) : Word :=
  let n := w.toNat
  w64 (n / 2 ^ 48 * 2 ^ 48 + min (bitsOf n 32 16 + l.fword) 0xFFFF * 2 ^ 32 + min (bitsOf n 16 16 + l.fseal) 0xFFFF * 2 ^ 16
    + bitsOf n 6 10 * 2 ^ 6 + (BitVec.ofNat 6 n ||| l.flags).toNat)

/-- A delivery: bytes into the count and flags into the flags word, in one step at the owner (R179, R180, R168). A count word
in P, or a counter that can no longer be reached, takes no delivery, which is reported once (R422; DEDUCED, log 14). -/
def deliver (s : State) (id : Nat) (x : Transfer) (bytes : Nat) (l : Landing) : State :=
  let told (s : State) (c : Cause) : State :=
    if x.ctrTold then s
    else
      let s1 := xferReport s x c x.ctr
      { s1 with xfers := match tget id s1.xfers with
          | some z => tput id { z with ctrTold := true } s1.xfers
          | none => s1.xfers }
  match resolve s x.cid x.core x.ctr rAtomic with
  | .ok (.here key) node =>
    match demandWrite s key (nodeTenant s node) with
    | (some c, s1) => told s1 c
    | (none, s1) =>
      if s1.word (key / 8) = .poison then told (softMet s1 x.cid x.ep 2 x.ctr key 8) .poison
      else
        let c := counterAt s1 key
        storeBytes s1 key (leBytes 8 (c.1 + w64 bytes).toNat ++ leBytes 8 (addLanding c.2 l).toNat)
  | .ok (.peer dev _) _ => if anyPort s then markExchanged s x.cid dev else told (losePeer s dev) .peerLost
  | .ok .untranslated _ => s
  | .fail c => told s c
  | .hold => s

/-! ### Landing a word -/

/-- The bytes of a destination word with some of them replaced. -/
def patchBytes (old : List Byte) (ps : List (Nat × Byte)) : List Byte :=
  ps.foldl (fun bs p => bs.set p.1 p.2) old

/-- The bytes that elements of a destination word write: their offsets in the word and their values; a nibble of e2m1 keeps
the other one, which the next element writes (R80, R177). -/
def elemBytes (x : Transfer) (n v : Nat) : List (Nat × Nat) :=
  let off := (dstAddr x n).toNat % 8
  if n < shCount x.shape then
    let bits := (shTypes x.shape).2.bits
    if bits = 4 then [(off, if n % shExt0 x.shape % 2 = 0 then v % 16 else v % 16 * 16)]
    else (leBytes (bits / 8) v).zipIdx.map fun e => (off + e.2, e.1.toNat)
  else [(off, v)]

/-- The written bytes of a word: nibble pairs combined, later elements over earlier ones. -/
def wordPatch (x : Transfer) (vs : List (Nat × Nat)) : List (Nat × Byte) :=
  let narrow := decide ((shTypes x.shape).2.bits = 4)
  let all := (vs.map fun p => (p.1, elemBytes x p.1 p.2)).map fun e => e.2.map fun b => (e.1, b)
  all.flatten.foldl (fun acc e =>
    if narrow && decide (e.1 < shCount x.shape) && e.1 % shExt0 x.shape % 2 == 1 then
      match acc.reverse.find? fun p => p.1 == e.2.1 with
      | some p => acc ++ [(e.2.1, BitVec.ofNat 8 (p.2.toNat % 16 + e.2.2))]
      | none => acc ++ [(e.2.1, BitVec.ofNat 8 e.2.2)]
    else acc ++ [(e.2.1, BitVec.ofNat 8 e.2.2)]) []

/-- Whether a transfer writes the whole of the seal that holds a virtual page (R129). -/
def wholeSeal (x : Transfer) (vpage : Nat) : Bool :=
  let all := ((List.range (shCount x.shape + shScales x.shape)).map fun n => ((dstAddr x n).toNat, n)).filter
    fun p => p.1 / 4096 == vpage
  (List.range 4096).all fun b => all.any fun p =>
    p.1 % 4096 ≤ b && b < p.1 % 4096 + (if p.2 < shCount x.shape then max 1 ((shTypes x.shape).2.bits / 8) else 1)

/-- Whether all of a transfer's words of a virtual page have landed. -/
def sealLanded (x : Transfer) (vpage : Nat) : Bool :=
  (List.range (shCount x.shape + shScales x.shape)).all fun n =>
    (dstAddr x n).toNat / 4096 != vpage || (wordElems x n).any fun e => x.landed.contains e

/-- The word that begins at element e is over: it is noted as landed, and as missed if it was not written; a transfer that is over leaves
its place (R178). -/
def landed (s : State) (id e : Nat) (wrote : Bool) : State :=
  match tget id s.xfers with
  | none => s
  | some x =>
    let x1 := { x with landed := x.landed ++ [e], missed := if wrote then x.missed else x.missed ++ [e] }
    if transferDone x1 then { s with xfers := tdel id s.xfers }.wake fun _ t => t.waitsFor fun w => w == Wait.engine || w == Wait.accesses
    else { s with xfers := tput id x1 s.xfers }

/-- A failed seal of a transfer: counted and reported once per transfer (R130). -/
def sealFault (s : State) (id : Nat) (x : Transfer) (pg : Nat) (va : Word) : State × Nat :=
  if ((tget id s.xfers).getD x).badSeals.contains pg then (s, 0)
  else
    let s1 := xferReport s x .integrity va
    ({ s1 with xfers := match tget id s1.xfers with
        | some z => tput id { z with badSeals := z.badSeals ++ [pg] } s1.xfers
        | none => s1.xfers }, 1)

/-- What is to happen to the destination word. -/
inductive WordAct where
  | write (bs : List (Nat × Byte)) (flags : Flags)
  | poison
  deriving DecidableEq, Repr

/-- The destination word is not written, for a reason: reported and counted in `fword`, unless the word is counted there already for its
source (R179). -/
def landMissed (s : State) (id e : Nat) (x : Transfer) (n : Nat) (act : WordAct) (l : Landing) (c : Cause) : State :=
  let counted := act == .poison && decide (l.fword ≠ 0)
  let s1 := if counted then s else xferReport s x c (dstAddr x e)
  landed (deliver s1 id x n { l with fword := l.fword + if counted then 0 else 1 }) id e false

/-- The word is written and set F, or set P, without a word of its seal (R146, R147, R167, R179). -/
def putWord (s : State) (k8 : Nat) (act : WordAct) : State :=
  match act with
  | .poison => poisonWord s k8
  | .write bs _ =>
    { fillWord (putBytes s (k8 * 8) (patchBytes (memBytes s.mem (k8 * 8) 8) bs)) k8 with softWords := s.softWords.filter (· != k8) }

/-- The word that begins at element e lands, and what it adds to the counter (R179, R87). -/
def landDone (s : State) (id e : Nat) (x : Transfer) (n : Nat) (act : WordAct) (l : Landing) : State :=
  landed (deliver s id x n (match act with | .write _ f => { l with flags := l.flags ||| f } | .poison => l)) id e true

/-- Why the whole of a seal cannot be written: ownership, or wear. No fill is needed (R103, R129, R134). -/
def seizeSeal (s : State) (pg tenant : Nat) : Option Cause × State :=
  if s.ownerOf pg ≠ tenant then (some .ownership, { s with devErrors := s.devErrors ++ [Cause.ownership.code] })
  else (if sealFrozen s pg then some .sealWorn else none, s)

/-- The last word of a seal that a transfer covers whole has landed: the new plaintext is installed and `failed` cleared, unless a word
of it was not written (R129). -/
def installWhole (s : State) (pg : Nat) (whole : Bool) : State :=
  if whole then dirtyPage (s.setSeal pg { s.seal pg with failed := false, broken := false }) pg
  else
    let r := sealFill s pg
    if r.1 then dirtyPage r.2 pg else r.2

/-- The destination side of a landing (R179, R129, R130, R134): the word is written and set F, or set P, or left. -/
def landAt (s : State) (id e : Nat) (x : Transfer) (n : Nat) (act : WordAct) (l : Landing) : State :=
  let va := dstAddr x e
  let vpage := va.toNat / 4096
  match resolve s x.cid x.core va rWrite with
  | .hold => s
  | .fail c => landMissed s id e x n act l c
  | .ok (.here key) node =>
    if isPoolKey key then landDone (putWord s (key / 8) act) id e x n act l
    else if wholeSeal x vpage then
      match seizeSeal s (key / 4096) (nodeTenant s node) with
      | (some c, s1) => landMissed s1 id e x n act l c
      | (none, s1) =>
        let s2 := landDone (putWord s1 (key / 8) act) id e x n act l
        if sealLanded { x with landed := x.landed ++ [e] } vpage then
          installWhole s2 (key / 4096) (x.missed.all fun m => (dstAddr x m).toNat / 4096 != vpage)
        else s2
    else match demandWrite s key (nodeTenant s node) with
      | (none, s1) => landDone (putWord (dirtyPage s1 (key / 4096)) (key / 8) act) id e x n act l
      | (some .integrity, s1) =>
        let r := sealFault s1 id x (key / 4096) va
        landed (deliver r.1 id x n { l with fseal := l.fseal + r.2 }) id e false
      | (some c, s1) => landMissed s1 id e x n act l c
  | .ok (.peer dev _) _ =>
    if anyPort s then landDone (markExchanged s x.cid dev) id e x n act l else landMissed (losePeer s dev) id e x n act l .peerLost
  | .ok .untranslated _ => s

/-- The generator value that destination element n uses, if the conversion draws (R88). -/
def xferDraw (x : Transfer) (n : Nat) : Option Nat :=
  let t := shTypes x.shape
  if draws t.2 x.frm.toNat && (decide (t.1 ≠ t.2) || shMode x.shape == 1) then some (lfsrRun (n + 1) x.seed).toNat else none

/-- A source element's code from the byte or bytes that hold it (R80). -/
def elemFromBytes (x : Transfer) (n v : Nat) : Nat :=
  if (shTypes x.shape).1.bits = 4 then (if n % shExt0 x.shape % 2 = 0 then v % 16 else v / 16 % 16) else v

/-- The bytes that hold a source element. -/
def srcBytes (x : Transfer) : Nat := max 1 ((shTypes x.shape).1.bits / 8)

/-- The sources of some elements: their codes, or the first failure with its address. -/
def readElems (s : State) (x : Transfer) : List Nat → (List (Nat × Nat) × Option (SrcRes × Word)) × State
  | [] => (([], none), s)
  | n :: ns =>
    match engineRead s x.cid x.core x.ep (srcAddr x n) (srcBytes x) with
    | (.ok v, s1) =>
      let r := readElems s1 x ns
      (((n, elemFromBytes x n v) :: r.1.1, r.1.2), r.2)
    | (e, s1) => (([], some (e, srcAddr x n)), s1)

/-- Every failed seal that a source element lies in is filled, counted and reported, once per transfer (R130): what they add to
`fseal`. -/
def failedSeals (s : State) (id : Nat) (x : Transfer) : List Nat → State × Nat
  | [] => (s, 0)
  | n :: ns =>
    let r := match engineRead s x.cid x.core x.ep (srcAddr x n) (srcBytes x) with
      | (.seal pg, s1) => sealFault s1 id x pg (srcAddr x n)
      | _ => (s, 0)
    let z := failedSeals r.1 id x ns
    (z.1, r.2 + z.2)

/-- A word of a copy or conversion lands (R177, R179, R88). Where several of its source elements fail, the first decides. -/
def landWord (s : State) (id e : Nat) (x : Transfer) : State :=
  let es := wordElems x e
  let bytes := wordByteCount x es
  let t := shTypes x.shape
  let r := readElems s x es
  match r.1.2 with
  | none =>
    let rs := r.1.1.map fun p => (p.1, convert t.2 t.1 x.frm.toNat (xferDraw x p.1) p.2)
    landAt r.2 id e x bytes
      (.write (wordPatch x (rs.map fun r => (r.1, r.2.1))) (rs.foldl (fun f r => f ||| r.2.2) 0))
      { fword := 0, fseal := 0, flags := 0 }
  | some (.hold, _) => s
  | some (f, va) =>
    let z := failedSeals r.2 id x es
    match f with
    | .fail c => landed (deliver (xferReport z.1 x c va) id x bytes { fword := 1, fseal := z.2, flags := 0 }) id e false
    | .poison => landAt (xferReport z.1 x .poison va) id e x bytes .poison { fword := 1, fseal := z.2, flags := 0 }
    | _ => landAt z.1 id e x bytes .poison { fword := 0, fseal := z.2, flags := 0 }

/-- The failing source words of a block, each reported once per block (a word that two blocks share is told in both: R179 does not say
whether a word counts once per block or per transfer; DESIGN CHOICE, log 76), and what they add to the flags word (R179): a word's first failing
element stands for it. -/
def blockFaults (s : State) (id : Nat) (x : Transfer) : List Nat → List Nat → Landing → State × Landing
  | [], _, l => (s, l)
  | n :: ns, seen, l =>
    let w := (srcAddr x n).toNat / 8
    match engineRead s x.cid x.core x.ep (srcAddr x n) (srcBytes x) with
    | (.ok _, _) => blockFaults s id x ns seen l
    | (.hold, _) => blockFaults s id x ns seen l
    | (.seal pg, s1) =>
      let r := sealFault s1 id x pg (srcAddr x n)
      blockFaults r.1 id x ns seen { l with fseal := l.fseal + r.2 }
    | (.fail c, s1) =>
      if seen.contains w then blockFaults s1 id x ns seen l
      else blockFaults (xferReport s1 x c (srcAddr x n)) id x ns (w :: seen) { l with fword := l.fword + 1 }
    | (.poison, s1) =>
      if seen.contains w then blockFaults s1 id x ns seen l
      else blockFaults (xferReport s1 x .poison (srcAddr x n)) id x ns (w :: seen) { l with fword := l.fword + 1 }

/-- A quantising transfer reads block q in full (R179, R92); a failed block is a NaN block. None while a source is held. -/
def readBlock (s : State) (id q : Nat) (x : Transfer) : Option (State × Landing) :=
  let es := (List.range 32).map fun j => q * 32 + j
  let t := shTypes x.shape
  let put (s : State) (b : XBlock) : State :=
    { s with xfers := match tget id s.xfers with
        | some z => tput id { z with blocks := tput q b z.blocks } s.xfers
        | none => s.xfers }
  match readElems s x es with
  | ((vs, none), s1) =>
    let fs := vs.map fun p => decodeF t.1 p.2
    let scale := blockScale t.2 fs
    let r := quantElems t.2 x.frm.toNat scale fs fun j => xferDraw x (q * 32 + j)
    some (put s1 { elems := r, scale := scale }, { fword := 0, fseal := 0, flags := 0 })
  | ((_, some (.hold, _)), _) => none
  | ((_, some _), s1) =>
    let r := blockFaults s1 id x es [] { fword := 0, fseal := 0, flags := 0 }
    some (put r.1 { elems := List.replicate 32 (0, 0), scale := 0xFF }, r.2)

/-- Reads the blocks that a destination word needs and that are not read yet. -/
def readBlocks (s : State) (id : Nat) : List Nat → Landing → Option (State × Landing)
  | [], l => some (s, l)
  | q :: qs, l =>
    match tget id s.xfers with
    | none => none
    | some x =>
      if (tget q x.blocks).isSome then readBlocks s id qs l
      else match readBlock s id q x with
        | none => none
        | some (s1, k) => readBlocks s1 id qs { fword := l.fword + k.fword, fseal := l.fseal + k.fseal, flags := 0 }

/-- A word of a quantising transfer lands, with the flags of its elements (R87, R177, R179, R92). -/
def landQuant (s : State) (id e : Nat) (x : Transfer) : State :=
  let es := wordElems x e
  match readBlocks s id (es.map x.blockOf).eraseDups { fword := 0, fseal := 0, flags := 0 } with
  | none => s
  | some (s1, l) => match tget id s1.xfers with
    | none => s
    | some x1 =>
      let val (n : Nat) : Nat × Flags := match tget (x.blockOf n) x1.blocks with
        | some b => if n < shCount x.shape then b.elems.getD (n % 32) (0, 0) else (b.scale, 0)
        | none => (0, 0)
      let fl := es.foldl (fun f n => f ||| (val n).2) 0
      landAt s1 id e x1 (wordByteCount x es) (.write (wordPatch x (es.map fun n => (n, (val n).1))) fl) l

/-- How many blocks of a quantising transfer have begun: those up to the last block with an element or a scale byte in a word that has
landed (R184). -/
def Transfer.begun (x : Transfer) : Nat :=
  (x.landed.map fun e => ((wordElems x e).map fun n => x.blockOf n + 1).foldl max 0).foldl max 0

/-- Whether the word that begins at element e has been started: a later word has landed, or, in mode 1, it holds something of a block
that has begun (R184). -/
def Transfer.started (x : Transfer) (e : Nat) : Bool :=
  if shMode x.shape = 1 then (wordElems x e).any fun n => decide (x.blockOf n < x.begun)
  else x.landed.any fun f => decide (e < f)

/-- Whether an address of a transfer cannot be reached for now: its translation is held (R118, R120), or it lies at a peer and no live port
may send (R250). -/
def engineHeld (s : State) (x : Transfer) (va : Word) (need : Nat) : Bool :=
  match resolve s x.cid x.core va need with
  | .hold => true
  | .ok (.peer _ _) _ => anyPort s && !portFor s true
  | _ => false

/-- XFER_WORD_LAND: the destination word of transfer x that begins at element e lands, after every access that its thread issued before
the command (R152, R167, R179). While its context is being halted, only words that were started land (R184). -/
def execXferWordLand (id e : Nat) (s : State) : Out :=
  match tget id s.xfers with
  | none => .next s
  | some x =>
    if !beginsWord x e || x.landed.contains e || accessesBefore s x.uid x.after || (x.parked && !x.started e) then .next s
    else if engineHeld s x x.ctr rAtomic || engineHeld s x (dstAddr x e) rWrite then .next s
    else .next (if shMode x.shape = 1 then landQuant s id e x else landWord s id e x)

/-! ### The instructions -/

/-- The checks of R178 on a counter address: alignment, then R99, translation and the rights. -/
def counterFault (s : State) (t : Thread) (va : Word) : Option (Cause × Word) :=
  if va.toNat % 16 ≠ 0 then some (.misaligned, va)
  else match resolve s t.cid t.core va rAtomic with
    | .fail c => some (c, va)
    | _ => none

/-- Whether a translation is held by a sweep or a scrub (R118, R120). -/
def heldAddr (s : State) (t : Thread) (va : Word) (need : Nat) : Bool :=
  match resolve s t.cid t.core va need with
  | .hold => true
  | _ => false

/-- The station whose copy engine serves a core (R178). -/
def engineStation (core : Nat) : Nat := clusterOf core * 8 + core % 256 / 32

/-- The element sizes in whole bytes that the bases must be multiples of (R178). -/
def alignOf (t : EType) : Nat := max 1 (t.bits / 8)

/-- Whether a context is halted or dead: its parked transfers stand in its save extent, and not in an engine (R184). -/
def ctxHalted (s : State) (cid : Nat) : Bool :=
  match s.ctx? cid with
  | some x => decide (x.st ≠ .running)
  | none => true

/-- `xfer` (R178, R422, R88). -/
def execXfer (y : Sync) (n : HNum) (d r c : GNum) (s : State) : Out :=
  issue s y [.g d, .g r] [.g c] [] fun u t =>
    let h := t.h.get n
    let ty := shTypes h
    if acquirePending s u then blockOn s u t .accesses
    else if (t.gval c).toNat % 16 ≠ 0 then trapAt s u t .misaligned 0 (t.gval c)
    else if (t.gval r).toNat % alignOf ty.1 ≠ 0 then trapAt s u t .misaligned 0 (t.gval r)
    else if (t.gval d).toNat % alignOf ty.2 ≠ 0 then trapAt s u t .misaligned 0 (t.gval d)
    else match counterFault s t (t.gval c) with
    | some (f, va) => trapAt s u t f 0 va
    | none =>
      if heldAddr s t (t.gval c) rAtomic then blockOn s u t .accesses
      else if 64 ≤ (s.xfers.filter fun e => e.2.station == engineStation t.core && !(e.2.parked && ctxHalted s e.2.cid)).length then blockOn s u t .engine
      else
        let x : Transfer :=
          { uid := u, cid := t.cid, ep := epOf s t, launch := t.launch, core := t.core, station := engineStation t.core, shape := h
            dst := t.gval d, src := t.gval r, ctr := t.gval c, frm := t.frm, seed := t.lfsr, after := s.nextId, landed := [], missed := []
            blocks := [], parked := false, badSeals := [], ctrTold := false }
        let steps := draws ty.2 t.frm.toNat && (decide (ty.1 ≠ ty.2) || shMode h == 1)
        finish { s with xfers := tput s.nextId x s.xfers, nextId := s.nextId + 1 } (.xfer y n d r c) u
          { t with lfsr := if steps then lfsrStep t.lfsr else t.lfsr }

/-- Both forms of `arrive` (R181, R317): checked at issue, performed at the owner of the pair; at the own pool at once. -/
def arriveWith (s : State) (i : Instr) (y : Sync) (u : Nat) (t : Thread) (va n : Word) : Out :=
  if acquirePending s u then blockOn s u t .accesses
  else match counterFault s t va with
  | some (f, a) => trapAt s u t f 0 a
  | none =>
    if heldAddr s t va rAtomic then blockOn s u t .accesses
    else
      let a := newAccess s u t (.arrive n) [mkPiece va 0 (List.replicate 16 0)] .none va y
      match ownPool t.core va, resolve s t.cid t.core va rAtomic with
      | true, .ok (.here key) _ =>
        let p := { mkPiece va 0 (List.replicate 16 0) with loc := .here key }
        finish (ownerStep (sendAccess s { a with pieces := [p] }) s.nextId 0 { a with pieces := [p] } p key) i u t
      | _, _ => finish (sendAccess s a) i u t

/-- `arrive [gC], n` (R317). -/
def execArrive (y : Sync) (c : GNum) (i : Imm) (s : State) : Out :=
  issue s y [.g c] [] [] fun u t => arriveWith s (.arrive y c i) y u t (t.gval c) (immUnsigned i)

/-- `arrive [gC], gN` (R317). -/
def execArriveReg (y : Sync) (c n : GNum) (s : State) : Out :=
  issue s y [.g c, .g n] [] [] fun u t => arriveWith s (.arriveReg y c n) y u t (t.gval c) (t.gval n)

/-- How the wait of an agent at the owner of a completion counter ends, if it is over: the counter is complete, its count word is in P, or
the node that translated it is gone (R117, R148, R149, R182). -/
def waitEnd (s : State) (key : Nat) (node : Option Nat) : Option (Option Cause) :=
  if s.word (key / 8) = .poison then some (some .poison)
  else if counterComplete (counterAt s key) then some none
  else match node with
    | some i => if (tget i s.nodes).isNone then some (some .withdrawn) else none
    | none => none

/-- A wait that is over at its counter's owner makes the agent Ready, and its `xwait` goes on whatever becomes of the counter (R29, R57,
R182); the soft error of a word that it meets is recorded (R246). -/
def endWait (s : State) (u : Nat) (t : Thread) (va : Word) (key : Nat) (r : Option Cause) : State :=
  let s1 := if r = some .poison then softEngine s t.cid (epOf s t) va key 8 else s
  s1.setThread u { t with status := .ready, since := s.time, prog := .waited r }

/-- After every step, the waits that are over at their owners end. -/
def endWaits (s : State) : State :=
  s.threads.foldl (fun r e => match e.2.status with
    | .blocked (.counter va (some key) node) => (match waitEnd r key node with
      | some c => endWait r e.1 e.2 va key c
      | none => r)
    | _ => r) s

/-- An agent asks anew at its next turn, a cycle later, for what it waits for elsewhere; other Ready agents go first (log 2). -/
def pollOn (s : State) (u : Nat) (t : Thread) (va : Word) (node : Option Nat) : Out :=
  blockOn { s with time := s.time + 1 } u { t with since := s.time + 1 } (.counter va none node)

/-- The withdrawal of its counter's node ends the wait of an agent that asks a peer: WITHDRAWN (R117, R149, R182). Neither here nor at a
counter of this device does it write a record (R117 has one for `lds` and `ldf`, R182 none: DESIGN CHOICE, log 76). -/
def waitLost (s : State) (t : Thread) : Option Word :=
  match t.status with
  | .blocked (.counter va _ (some i)) => if (tget i s.nodes).isNone then some va else none
  | _ => none

/-- `xwait` (R182, R425): Blocked until the counter is complete; its return is the acquire of R168. -/
def execXwait (y : Sync) (c : GNum) (s : State) : Out :=
  notInHandler s <| issue s y [.g c] [] [] fun u t =>
    match t.prog, waitLost s t with
    | .waited none, _ => finish s (.xwait y c) u t
    | .waited (some f), _ => trapAt s u t f 0 (t.gval c)
    | _, some va => trapAt s u t .withdrawn 0 va
    | _, none =>
    if acquirePending s u then blockOn s u t .accesses
    else match counterFault s t (t.gval c) with
    | some (f, a) => trapAt s u t f 0 a
    | none => match resolve s t.cid t.core (t.gval c) rAtomic with
      | .ok (.here key) node =>
        if sameByteBefore s u s.nextId (t.gval c) 16 then blockOn s u t .accesses
        else match demandRead s key (nodeTenant s node) with
        | (some f, s1) => trapAt s1 u t f 0 (t.gval c)
        | (none, s1) =>
          if s1.word (key / 8) = .poison then trapAt (softEngine s1 t.cid (epOf s t) (t.gval c) key 8) u t .poison 0 (t.gval c)
          else if counterComplete (counterAt s1 key) then finish s1 (.xwait y c) u t
          else blockOn s1 u t (.counter (t.gval c) (some key) node)
      | .ok (.peer dev _) node =>
        if !peerOpen s then pollOn s u t (t.gval c) node
        else
          let r := peerBytes (markExchanged s t.cid dev) 16
          if counterComplete (w64 (leNat (r.1.take 8)), w64 (leNat (r.1.drop 8))) then finish r.2 (.xwait y c) u t
          else pollOn r.2 u t (t.gval c) node
      | _ => blockOn s u t .accesses

end Sys2Proof.Machine
end

