-- ==== Sys2Proof/Machine/Issue.lean ====
section
/-! DEFINITION. Which agent issues next (R57), the fetch of its instruction (R100, R153, R242) and the traps of words that are
no instruction (R302). -/

namespace Sys2Proof.Machine

open Sys2Proof

/-- Whether an agent may be chosen: it is Ready, or it asks a peer's counter anew at each turn (R29; log 2). -/
def Thread.isReady (t : Thread) : Bool :=
  match t.status with
  | .ready | .blocked (.counter _ none _) => true
  | _ => false

/-- Whether the core may choose an agent now (R29, R57, R375). -/
def Thread.canIssue (s : State) (t : Thread) : Bool := t.isReady && !t.heldByHalt && decide (t.pauseUntil ≤ s.time)

/-- The issue class of an agent: the handler slot is in the high class (R57). -/
def Thread.isHigh (t : Thread) : Bool := t.high || t.inHandler

/-- Whether an agent goes before another of its class: it has been Ready longer, or its slot number is lower (R57, R228); between
cores, the lower core (log 1). -/
def Thread.before (a b : Thread) : Bool :=
  decide (a.since < b.since) || (a.since == b.since && decide (a.core * 16 + a.slot < b.core * 16 + b.slot))

/-- The agent that goes first among those with a property (R57, R228). -/
def oldestReady (s : State) (p : Nat → Thread → Bool) : Option (Nat × Thread) :=
  s.threads.foldl (fun best e =>
    if e.2.canIssue s && p e.1 e.2 then
      match best with
      | some b => if e.2.before b.2 then some e else best
      | none => some e
    else best) none

/-- The agent that issues among those with a property: the high class first, oldest first, but an agent Ready for 64 cycles
goes before one of the high class that became Ready after it (R57). -/
def chooseAgent (s : State) (p : Nat → Thread → Bool) : Option (Nat × Thread) :=
  match (oldestReady s fun u t => p u t && t.isHigh), (oldestReady s fun u t => p u t && !t.isHigh) with
  | none, r => r
  | r, none => r
  | some h, some n => if n.2.since + 64 ≤ s.time ∧ n.2.since < h.2.since then some n else some h

/-! ### The two ports of a core (R228) -/

/-- Whether an agent's next instruction is one of pages 1 and 2: its first word, as memory holds it now, is the PAGE prefix of one of
them (R228, R294; for a word that has changed since the agent's fetches began anew, the newest: DESIGN CHOICE, log 1; an agent whose
word lies in another package's memory counts as one of the scalar port: DESIGN CHOICE, log 1). -/
def nextVector (s : State) (t : Thread) : Bool :=
  match resolve s t.cid t.core t.pc rExec with
  | .ok (.here key) _ =>
    let w := leNat (memBytes s.mem key 2)
    w / 4096 == 0xE && (w / 256 % 16 == 1 || w / 256 % 16 == 2)
  | _ => false

/-- What a core's ports choose in what is left of its control cycle: the vector port first, for its two arithmetic cycles, then the
scalar port, which ends the cycle; an agent issues at most once in it (R228). The agent, and the core after the choice. -/
def portChoice (s : State) (c : Nat) (x : Core) : Option (Nat × Thread × Core) :=
  let free (u : Nat) (t : Thread) : Bool := t.core == c && !x.went.contains u
  match (if x.vecLeft = 0 then none else chooseAgent s fun u t => free u t && nextVector s t) with
  | some (u, t) => some (u, t, { x with vecLeft := x.vecLeft - 1, went := x.went ++ [u] })
  | none => match chooseAgent s fun u t => free u t && !nextVector s t with
    | some (u, t) => some (u, t, x.newCycle)
    | none => none

/-- The agent of a core that issues next, in this control cycle or else in a new one, with the state after the choice (R57, R228). -/
def coreChoice (s : State) (c : Nat) : Option (Nat × Thread × State) :=
  let r := match portChoice s c (s.core c) with
    | some r => some r
    | none => portChoice s c (s.core c).newCycle
  r.map fun r => (r.1, r.2.1, if r.2.2 = s.core c then s else s.setCore c r.2.2)

/-- An agent that turned out to lack an operand is not Ready and has taken no port (R29, R228): its core's control cycle goes on as it stood
before the choice. -/
def unchosen (before s : State) (u : Nat) : State :=
  match tget u s.threads with
  | some t =>
    let x := before.core t.core
    let y := s.core t.core
    if t.status = .blocked .regs ∧ (y.vecLeft ≠ x.vecLeft ∨ y.went ≠ x.went) then s.setCore t.core { y with vecLeft := x.vecLeft, went := x.went }
    else s
  | none => s

/-- The agent that issues next on a device with no turn ahead: that of the core whose agent goes first (log 1). -/
def deviceChoice (s : State) : Option (Nat × Thread × State) :=
  match chooseAgent s fun _ _ => true with
  | some (_, t) => coreChoice s t.core
  | none => none

/-- The values that an instruction word has held since the agent's fetches began anew, besides the newest (R153). -/
def staleWords (s : State) (t : Thread) (key : Nat) : List HWord :=
  (((tget (key / 2) s.hist).getD []).filter fun e => decide (t.fetchFrom ≤ e.1)).map Prod.snd

/-- The word at an owner that a fetch returns: the newest, or one that it has held since (R153; a free value, log 2). -/
def fetchHere (s : State) (t : Thread) (key : Nat) : HWord × State :=
  let newest := BitVec.ofNat 16 (leNat (memBytes s.mem key 2))
  match staleWords s t key with
  | [] => (newest, s)
  | old => ((newest :: old).getD (Config.fetchPick s.draws % (old.length + 1)) newest, { s with draws := s.draws + 1 })

/-- The fetch of one instruction word (R100, R102, R103, R130, R245). A page that another tenant owns fails with FETCH_FAULT (R242 states no
cause for it, and R235 gives OWNERSHIP kind A only: DEDUCED, log 9). A word of a peer's memory is a free value (log 2); it comes
through a live port, and the agent waits for one that may send (R250). With no live port the peer is silent (R251; log 2). -/
def fetchWord (s : State) (t : Thread) (va : Word) : Except (Cause × State) (HWord × State) :=
  match resolve s t.cid t.core va rExec with
  | .fail c => .error (if c = .peerAbsent ∨ c = .peerDisabled ∨ c = .peerFenced then c else .fetchFault, s)
  | .hold => .error (.withdrawn, s)
  | .ok (.here key) node =>
    let tenant := match node with
      | some i => (match tget i s.nodes with | some n => n.tenant | none => 0)
      | none => 0
    match demandRead s key tenant with
    | (some .integrity, s1) => .error (.integrity, s1)
    | (some _, s1) => .error (.fetchFault, s1)
    | (none, s1) => .ok (fetchHere s1 t key)
  | .ok (.peer dev _) _ =>
    if !anyPort s then .error (.fetchFault, losePeer s dev)
    else if !portFor s true then .error (.withdrawn, s)
    else .ok (Config.fetchPeer s.draws, { markExchanged s t.cid dev with draws := s.draws + 1 })
  | .ok .untranslated _ => .error (.fetchFault, s)

/-- What a fetch finds: the words of one instruction, the first failing byte, or a translation that is held. -/
inductive Fetched where
  | words (ws : List HWord) (s : State)
  | fail (c : Cause) (va : Word) (s : State)
  | hold (s : State)
  deriving DecidableEq, Repr

/-- Fetches words up to a base word, at most the longest chain and one more (R292, R295). -/
def fetchWords (s : State) (t : Thread) (va : Word) : Nat → List HWord → Fetched
  | 0, acc => .words acc s
  | fuel + 1, acc =>
    match fetchWord s t va with
    | .error (.withdrawn, s1) => .hold s1
    | .error (c, s1) => .fail c va s1
    | .ok (w, s1) =>
      if isPrefixWord w then fetchWords s1 t (va + 2) fuel (acc ++ [w]) else .words (acc ++ [w]) s1

/-- The longest chain: five prefix words, which R295 refuses, or four and a base word. -/
def maxWords : Nat := 5

/-- The trap that words which are no instruction take (R302). -/
def refusalCause (t : Thread) (e : DecodeError) : Cause :=
  match e with
  | .truncated | .badChain => .illegalPrefix
  | .illegal => .illegal
  | .stewardOnly => if t.level = .steward then .illegal else .privilege
  | .handlerOnly => if t.level = .thread then .privilege else .illegal

/-- The next instruction of an agent: its trap, or itself and the state after its fetch. -/
inductive Issued where
  | run (i : Instr) (s : State)
  | trapped (s : State)
  deriving DecidableEq, Repr

/-- Fetching and decoding at an agent's PC (R242, R302). While the translation of its word is held the agent is Blocked (R118). -/
def fetchInstr (s : State) (u : Nat) (t : Thread) : Issued :=
  if t.pc.toNat % 2 = 1 then .trapped (takeTrap s u .misalignedTarget 0 t.pc t.pc)
  else match fetchWords s t t.pc maxWords [] with
  | .fail c va s1 => .trapped (takeTrap s1 u c 0 va t.pc)
  | .hold s1 => .trapped (s1.setThread u { t with status := .blocked .accesses })
  | .words ws s1 => match decode ws with
    | .ok i => .run i { s1 with cur := some u }
    | .error e => .trapped (takeTrap s1 u (refusalCause t e) 0 t.pc t.pc)

/-- Whether a row is an instruction, and no host command or device event. -/
def isInstruction (i : Instr) : Bool := (rowOf i).isSome

/-! ### Placing an instruction at the next fetch -/

/-- A thread just placed, before it has issued (R35); the registers that R35 leaves to R70 hold their reset values. -/
def Thread.fresh (c slot cid pool : Nat) (pc : Word) : Thread :=
  { core := c, slot := slot, cid := cid, kind := .thread, launch := none, gang := 0, forked := false, high := false
    pool := pool, idx := List.replicate 8 0, linear := 0
    g := Vector.replicate 16 (GReg.ofWord 0), v := Vector.replicate 32 VReg.fullReg, q := Vector.replicate 8 0
    h := Vector.replicate 4 0, a := Vector.replicate 8 none, pc := pc, fflags := 0, frm := 0, lfsr := 1, mxweight := 8
    stepwin := 0x1000000, tvec := 0, tcause := 0, taddr := 0, tresume := 0, ocsel := 0
    status := .ready, since := 0, prog := .none, fetchFrom := 0, pauseUntil := 0, heldByHalt := false }

/-- A context with nothing set. -/
def Context.fresh (fn part tenant space : Nat) : Context :=
  { fn := fn, born := 0, part := part, tenant := tenant, space := space, st := .running, ovbase := 0, ovcfg := 0, ovhead := 0, ovtail := 0
    savebase := 0, savesize := 0, grace := 0, kill := 0, wdog := 0, hang := 0, ladrep := 0, fhentry := 0, eqbase := 0
    eqcfg := 0, errqhead := 0, eqtail := 0, eqlost := 0, pendingInt := false, devq := [], ovq := []
    counters := Vector.replicate 13 0, ocsat := 0, ladder := none, seq := 0, lastRetire := 0, completed := [], lastExits := (0, 0), final := false }

/-- Where an agent's next fetch finds its first word, if at an owner of this device. -/
def fetchKey (s : State) (t : Thread) : Option Nat :=
  match resolve s t.cid t.core t.pc rExec with
  | .ok (.here key) _ => if t.pc.toNat % 4096 + 10 ≤ 4096 then some key else none
  | _ => none

/-- A resident thread whose code page is Pysil page 0: a context of tenant 1 whose space maps that page (log 7). -/
def placedHost (s : State) : State :=
  { s with
    threads := [(0, Thread.fresh 0 0 1 3 0x1000000000000)]
    cores := tput 0 { s.core 0 with ctx := some 1, pool := 3 } s.cores
    contexts := tput 1 (Context.fresh 0 0 1 1) s.contexts
    spaces := tput 1 { tenant := 1, deleted := false } s.spaces
    nodes := [(0, { space := 1, vpage := 0x1000000000, pages := 1, dev := s.device, page := 0, rights := 31, parent := none
                    parentDev := none, depth := 0, tenant := 1, withdrawn := false })]
    owner := tput 0 1 s.owner
    seals := tput 0 { Seal.blank with cached := true } s.seals
    wds := [], agenda := [], cur := some 0, nextId := max s.nextId 1 }

/-- Instruction words at the PC of the agent that issues next, if it can fetch there and still issues next with them. -/
def placedHere (s : State) (ws : List HWord) : Option State :=
  match s.agenda, deviceChoice s with
  | [], some (u, t, _) => (match fetchKey s t with
    | some k =>
      let s1 := { s with mem := memPutBytes s.mem k (wordBytes ws), hist := [], cur := some u }
      if (deviceChoice s1).map (fun r => r.1) = some u then some s1 else none
    | none => none)
  | _, _ => none

/-- Instruction words stored where the next step fetches: at the PC of the agent that issues next, if that serves, else at that of the
one thread of a device with a code page. -/
def placeWords (s : State) (ws : List HWord) : State :=
  (placedHere s ws).getD { placedHost s with mem := memPutBytes s.mem 0 (wordBytes ws), hist := [] }

end Sys2Proof.Machine
end

