-- ==== Sys2Proof/Machine/Place.lean ====
section
/-! DEFINITION. Placing agents in slots: a core passes to a context (R28, R227), its pool code (R62), slot generations (R44), the
start of handlers and fault runs (R46, R75, R238, R240). -/

namespace Sys2Proof.Machine

open Sys2Proof

/-- The free thread slots of a core, lowest first. -/
def freeSlots (s : State) (c : Nat) : List Nat := (List.range 8).filter fun k => (agentAt s c k).isNone
/-- Whether every thread slot of a core is Free. -/
def slotsFree (s : State) (c : Nat) : Bool := (freeSlots s c).length == 8

/-- Whether a core may take a thread of a pool code (R62). -/
def codeFits (s : State) (c pool : Nat) : Bool := slotsFree s c || (s.core c).pool == pool

/-- Whether a core is free to pass to another context: all thread slots free, no handler, no message (R28). -/
def coreIdle (s : State) (c : Nat) : Bool := slotsFree s c && (agentAt s c 8).isNone && (s.core c).inbox.isEmpty

/-- Whether a core may serve a context: its island is powered, and the context holds it already, or no context holds it (R18, R28,
R227). -/
def coreFor (s : State) (c cid : Nat) : Bool :=
  !(s.core c).absent && !(s.island (islandOf c)).gated && ((s.core c).ctx == some cid || ((s.core c).ctx == none && coreIdle s c))

/-- Every word of a core's pool becomes zero data in state E (R20, R227). -/
def clearPool (s : State) (c : Nat) : State :=
  let mine (k : Nat) : Bool := isPoolKey k && poolCore k == c
  { s with
    mem := s.mem.filter fun e => !mine e.1
    words := s.words.filter fun e => !mine (e.1 * 8)
    softWords := s.softWords.filter fun k => !mine (k * 8)
    hist := s.hist.filter fun e => !mine (e.1 * 2) }

/-- Increments a slot's generation (R44). -/
def bumpGen (s : State) (c slot : Nat) : State :=
  let x := s.core c
  s.setCore c { x with gens := x.gens.set! slot ((x.gens.toList.getD slot 0) + 1) }

/-- An agent takes a slot. -/
def seat (s : State) (u : Nat) (t : Thread) : State := { s with threads := tput u t s.threads }

/-! ### The handler slot -/

/-- A handler slot's agent as it starts: no registers carried over but `lfsr` (R46, R75). -/
def handlerThread (s : State) (c cid : Nat) (k : Kind) (pc : Word) : Thread :=
  { Thread.fresh c 8 cid 0 pc with kind := k, lfsr := (s.core c).hlfsr, since := s.time, fetchFrom := s.wclock }

/-- The endpoint of an agent as a word. -/
def epWord (s : State) (t : Thread) : Word := w64 (epOf s t).toNat

/-- The launch ID of an agent, or 0. -/
def lidOf (s : State) (t : Thread) : Nat :=
  match t.launch with
  | some l => (match tget l s.launches with | some x => x.lid | none => 0)
  | none => 0

/-- What g0 holds at a fault run for an interrupt: the cause of the first unread record, marked as reported after issue (R238).
With no record that can be read there, a free value (log 15). -/
def interruptCause (s : State) (cid : Nat) : Word × State :=
  match s.ctx? cid with
  | none => (0, s)
  | some x =>
    let n := 2 ^ (x.eqcfg.toNat % 32)
    let r := spaceRead s cid 0 (x.eqbase + w64 (64 + 32 * (x.errqhead.toNat % n) + 8)) 8
    match decide (x.eqtail = x.errqhead.toNat), r with
    | false, .ok bs s1 => (w64 (leNat bs % 2 ^ 16 + 2 ^ 31), s1)
    | false, .fail _ s1 => (w64 (drawField s1).1, (drawField s1).2)
    | _, _ => (w64 (drawField s).1, (drawField s).2)

/-- A fault run starts in the handler slot of a core (R238, R240). -/
def startFaultRun (s : State) (c cid : Nat) (entry : Word) (d : Delivery) : State :=
  let x := s.ctx? cid
  let tail := w64 (match x with | some y => y.eqtail | none => 0)
  let u := s.nextId
  let t := handlerThread s c cid (.faultRun d) entry
  let s0 := { s with nextId := u + 1 }
  match d with
  | .thread v => match s0.agent? v with
    | none => s
    | some h => seat s0 u { t with g := #v[GReg.ofWord h.tcause, GReg.ofWord h.taddr, GReg.ofWord h.tresume, GReg.ofWord (epWord s0 h),
        GReg.ofWord tail, GReg.ofWord (w64 (lidOf s0 h)), GReg.ofWord 0, GReg.ofWord 0, GReg.ofWord 0, GReg.ofWord 0, GReg.ofWord 0,
        GReg.ofWord 0, GReg.ofWord 0, GReg.ofWord 0, GReg.ofWord 0, GReg.ofWord 0] }
  | .message cause addr resume ep sender pc =>
    seat s0 u { t with g := #v[GReg.ofWord cause, GReg.ofWord addr, GReg.ofWord resume, GReg.ofWord (w64 ep.toNat), GReg.ofWord tail,
      GReg.ofWord 0, GReg.ofWord (w64 sender.toNat), GReg.ofWord pc, GReg.ofWord 0, GReg.ofWord 0, GReg.ofWord 0, GReg.ofWord 0,
      GReg.ofWord 0, GReg.ofWord 0, GReg.ofWord 0, GReg.ofWord 0] }
  | .interrupt =>
    let r := interruptCause s0 cid
    seat r.2 u ((t.setG 0 r.1).setG 4 tail)

/-- A pending fault interrupt whose context held no core starts its run in the lowest-numbered core of those that the context now
holds, before any thread of the context issues there (R238). -/
def firstCore (s : State) (cid : Nat) : State :=
  match s.ctx? cid, heldCores s cid with
  | some x, c :: _ => if x.pendingInt && x.fhentry != 0 then
      startFaultRun (s.setCtx cid { x with pendingInt := false }) c cid x.fhentry .interrupt
    else s
  | _, _ => s

/-- A context holds a core: before the core passes to another tenant its pool is cleared (R227). -/
def holdCore (s : State) (c cid : Nat) : State :=
  let tenant := match s.ctx? cid with | some x => x.tenant | none => 0
  let s1 := if (s.core c).tenant = tenant then s else clearPool s c
  s1.setCore c { s1.core c with ctx := some cid, tenant := tenant, last := some cid, faults := [] }

/-- A core passes to a context: the handler slot's generation rises (R28). -/
def takeCore (s : State) (c cid : Nat) : State := bumpGen (holdCore s c cid) c 8

/-- A halted context takes back a core: it passes from another context only if one held it since (R28, R234). -/
def retakeCore (s : State) (c cid : Nat) : State := if (s.core c).last = some cid then holdCore s c cid else takeCore s c cid

/-- A core passes to a context unless that holds it already. -/
def claimCore (s : State) (c cid : Nat) : State := if (s.core c).ctx = some cid then s else takeCore s c cid

/-- Whether threads of a context are resident: agents of the handler slots are none (R46, R229). -/
def threadsResident (s : State) (cid : Nat) : Bool := s.threads.any fun e => e.2.cid == cid && !e.2.inHandler

/-- A thread is placed in a thread slot of a core of its context: the pool code is set if it is the first, and the slot's
generation rises (R44, R62). The first thread to become resident starts the count of `hang` anew (R229). -/
def placeThread (s : State) (u : Nat) (t : Thread) : State :=
  let s1 := claimCore s t.core t.cid
  let s2 := if slotsFree s1 t.core then s1.setCore t.core { s1.core t.core with pool := t.pool } else s1
  let s2 := if threadsResident s2 t.cid then s2 else s2.modCtx t.cid fun x => { x with lastRetire := s2.time }
  seat (bumpGen s2 t.core t.slot) u { t with since := s.time, status := .ready }

/-- The vector registers of a new thread are 0 (R35, R62). -/
def zeroVectors (s : State) (t : Thread) : State :=
  { s with mem := memPutBytes s.mem (vregKey t.core t.pool t.slot 0) (List.replicate (64 * poolRegs t.pool) 0) }

/-- A thread that begins is placed (R35). -/
def startThread (s : State) (u : Nat) (t : Thread) : State := zeroVectors (placeThread s u t) t

end Sys2Proof.Machine
end

