-- ==== Sys2Proof/Machine/Tags.lean ====
section
/-! DEFINITION. The Confluence table: `tagpub`, `tagpub.drop`, `tagq`, `tagwait`, consumption, TAG_LOST (R206 to R215, R398 to
R402). -/

namespace Sys2Proof.Machine

open Sys2Proof

/-- The key of an entry: tenant, object, tile (R206). -/
def tagKey (tenant obj tile : Nat) : Nat := tenant * 2 ^ 56 + obj * 2 ^ 32 + tile
/-- The slice of an entry. -/
def tagSlice (obj tile : Nat) : Nat := (obj + tile) % 16
/-- The slice of a key. -/
def sliceOfKey (k : Nat) : Nat := (k / 2 ^ 32 % 2 ^ 24 + k % 2 ^ 32) % 16
/-- The entries that a slice holds. -/
def sliceSize : Nat := 65536

/-- The verdicts of R206. -/
inductive TagVerdict where
  | ready | stale | notYet
  deriving DecidableEq, Repr

/-- The verdict of a difference of generations (R206). -/
def tagDiff (d : Nat) : TagVerdict := if d = 0 then .ready else if d < 32768 then .stale else .notYet

/-- The verdict of an entry against an expected generation. -/
def tagVerdict (e : Option Tag) (x : Nat) : TagVerdict :=
  match e with
  | none => .notYet
  | some t => tagDiff ((t.gen.toNat + 65536 - x % 65536) % 65536)

/-- The table has changed: `tagwait` looks at it again (R402). -/
def tagsChanged (s : State) (tags : Table Tag) : State := { s with tags := tags }.wakeAll .tag

/-- The slice action of a publication, and its status (R207). -/
def tagPublish (s : State) (tenant cid obj tile gen cons : Nat) : Nat × State :=
  let k := tagKey tenant obj tile
  let new : Tag := { gen := BitVec.ofNat 16 gen, left := BitVec.ofNat 16 cons, cid := cid, since := s.time }
  match tget k s.tags with
  | some t =>
    if tagVerdict (some t) gen = .notYet then (0, tagsChanged s (tput k new s.tags)) else (2, s)
  | none =>
    if sliceSize ≤ (s.tags.filter fun e => sliceOfKey e.1 == tagSlice obj tile).length then (1, s)
    else (0, tagsChanged s (tput k new s.tags))

/-- One consumption of an entry (R212). -/
def tagConsume (s : State) (k : Nat) : State :=
  match tget k s.tags with
  | none => s
  | some t =>
    if t.left = 0 then s
    else if t.left = 1 then tagsChanged s (tdel k s.tags)
    else tagsChanged s (tput k { t with left := t.left - 1 } s.tags)

/-- Whether a producer has completed: no launch of the context with its ID is open, and one has completed (R211). -/
def producerDone (s : State) (cid lid : Nat) : Bool :=
  !s.launches.any (fun e => e.2.cid == cid && e.2.lid == lid) &&
    (match s.ctx? cid with | some x => (tget lid x.completed).isSome | none => false)

/-- What an input of a context comes to (R211): ready by its entry, ready by completion, stale, or not yet. -/
inductive InputVerdict where
  | byEntry | byCompletion | stale | notYet
  deriving DecidableEq, Repr

/-- The verdict of an input in this device's table (R211). -/
def inputVerdict (s : State) (tenant cid obj tile gen lid : Nat) : InputVerdict :=
  match tagVerdict (tget (tagKey tenant obj tile) s.tags) gen with
  | .ready => .byEntry
  | .stale => .stale
  | .notYet => if producerDone s cid lid then .byCompletion else .notYet

/-- When an input of a context that is ready, or stale, became so (R225). -/
def inputSince (s : State) (tenant cid obj tile lid : Nat) (v : InputVerdict) : Nat :=
  match v with
  | .byEntry | .stale => (match tget (tagKey tenant obj tile) s.tags with | some t => t.since | none => 0)
  | .byCompletion => (match s.ctx? cid with | some x => (tget lid x.completed).getD 0 | none => 0)
  | .notYet => 0

/-- The tenant of an agent's context. -/
def tenantOf (s : State) (t : Thread) : Nat := match s.ctx? t.cid with | some x => x.tenant | none => 0

/-! ### The instructions -/

/-- `tagpub` (R207, R398, R399): a release at domain scope; at this device's table at once, and at a peer's by a request, for
whose answer the thread waits. -/
def execTagpub (y : Sync) (d k g : GNum) (s : State) : Out :=
  issue s y [.g k] [.g g] [.g d] fun u t =>
    match t.prog with
    | .sent id => resumeResult s (.tagpub y d k g) u t id
    | _ =>
    let key := (t.gval k).toNat
    let arg := (t.gval g).toNat
    let obj := bitsOf key 32 24
    let tile := bitsOf key 0 32
    let dev := if bitsOf arg 41 1 = 1 then s.device else bitsOf arg 32 9
    if bitsOf key 56 8 ≠ 0 ∨ bitsOf arg 42 22 ≠ 0 then trapHere s u t .illegal 0
    else if dev = s.device then
      if accessesBefore s u s.nextId then blockOn s u t .accesses
      else
        let r := tagPublish s (tenantOf s t) t.cid obj tile (bitsOf arg 0 16) (bitsOf arg 16 16)
        finishG r.2 (.tagpub y d k g) u t d (w64 r.1)
    else match peerCheck s (match s.ctx? t.cid with | some x => x.part | none => 0) dev with
    | some c => trapHere s u t c 0
    | none =>
      if accessesBefore s u s.nextId then blockOn s u t .accesses
      else
        let p := { mkPiece 0 0 [] with loc := .peer dev 0 }
        let a := { newAccess s u t (.tagpub obj tile (bitsOf arg 0 16) (bitsOf arg 16 16)) [p] (.g d false) 0 y with kf := true }
        blockAt (sendAccess s a) u t .result (.sent s.nextId)

/-- `tagpub.drop` (R208, R398): frees the tenant's entries of an object. -/
def execTagpubDrop (y : Sync) (d k : GNum) (s : State) : Out :=
  issue s y [.g k] [] [.g d] fun u t =>
    let key := (t.gval k).toNat
    if bitsOf key 56 8 ≠ 0 then trapHere s u t .illegal 0
    else if accessesBefore s u s.nextId then blockOn s u t .accesses
    else
      let hit (j : Nat) : Bool := j / 2 ^ 32 == tenantOf s t * 2 ^ 24 + bitsOf key 32 24
      let n := (s.tags.filter fun e => hit e.1).length
      let s1 := if n = 0 then s else tagsChanged s (s.tags.filter fun e => !hit e.1)
      finishG s1 (.tagpubDrop y d k) u t d (w64 n)

/-- The word that `tagq` gives (R208). -/
def tagWord (e : Option Tag) : Word :=
  match e with
  | none => 0
  | some t => w64 (t.gen.toNat + t.left.toNat * 2 ^ 16 + 2 ^ 32)

/-- `tagq` (R208, R400). -/
def execTagq (y : Sync) (d k : GNum) (s : State) : Out :=
  issue s y [.g k] [] [.g d] fun u t =>
    let key := (t.gval k).toNat
    if bitsOf key 56 8 ≠ 0 then trapHere s u t .illegal 0
    else finishG s (.tagq y d k) u t d (tagWord (tget (tagKey (tenantOf s t) (bitsOf key 32 24) (bitsOf key 0 32)) s.tags))

/-- Both forms of `tagwait` (R209, R402): it returns, it traps, or it waits. -/
def tagwaitWith (consume : Bool) (i : Instr) (s : State) (u : Nat) (t : Thread) (key arg : Nat) : Out :=
  if bitsOf key 56 8 ≠ 0 ∨ bitsOf arg 16 16 ≠ 0 then trapHere s u t .illegal 0
  else
    let obj := bitsOf key 32 24
    let tile := bitsOf key 0 32
    match inputVerdict s (tenantOf s t) t.cid obj tile (bitsOf arg 0 16) (bitsOf arg 32 32) with
    | .byEntry => finish (if consume then tagConsume s (tagKey (tenantOf s t) obj tile) else s) i u t
    | .byCompletion => finish s i u t
    | .stale => trapHere s u t .staleTag 0
    | .notYet => blockOn s u t .tag

/-- `tagwait` (R209, R401, R402). -/
def execTagwait (y : Sync) (k g : GNum) (s : State) : Out :=
  notInHandler s <| issue s y [.g k] [.g g] [] fun u t =>
    if acquirePending s u then blockOn s u t .accesses
    else tagwaitWith false (.tagwait y k g) s u t (t.gval k).toNat (t.gval g).toNat

/-- `tagwait.c` (R209, R212, R401, R402). -/
def execTagwaitC (y : Sync) (k g : GNum) (s : State) : Out :=
  notInHandler s <| issue s y [.g k] [.g g] [] fun u t =>
    if acquirePending s u then blockOn s u t .accesses
    else tagwaitWith true (.tagwaitC y k g) s u t (t.gval k).toNat (t.gval g).toNat

/-- TAG_LOST: the target device of a `tagpub` did not answer within 2^16 cycles: its status is LOST, a PEER_LOST record is
written, and the device is lost (R252, R262); R207 states no address for it (log 15). -/
def execTagLost (u : Nat) (s : State) : Out :=
  match tfind (fun _ a => a.uid == u && (match a.kind with | .tagpub _ _ _ _ => true | _ => false) && decide (a.phase = .flying)) s.accs with
  | none => .next s
  | some (id, a) => match a.first with
    | none => .next s
    | some f =>
      if s.time < f + 2 ^ 16 then .next s
      else
        let r := drawField s
        let s1 := failItem (report r.2 a.cid
          { addr := w64 r.1, cause := .peerLost, detail := 0, item := 6, peer := a.peer, ep := a.ep }) a.launch
        let s2 := settleAcc (putAcc s1 id
          { a with told := true, pieces := a.pieces.map (fun (p : Piece) => { p with done := true, bytes := leBytes 8 3 }) }) id u
        .next (match a.peer with | some dev => losePeer s2 dev | none => s2)

end Sys2Proof.Machine
end

