-- ==== Sys2Proof/Machine/Launches.lean ====
section
/-! DEFINITION. Launch records (R30 to R34, R210), gangs (R33), completion records (R37). -/

namespace Sys2Proof.Machine

open Sys2Proof

/-! ### The launch record (R30, R31, R210) -/

/-- The 8-byte word at an offset of a record. -/
def wordAt (bs : List Byte) (off : Nat) : Nat := leNat ((bs.drop off).take 8)

/-- The levels that a record declares. -/
def levelsOf (bs : List Byte) : List Level :=
  (List.range (bitsOf (wordAt bs 8) 0 3 + 1)).map fun k =>
    let w := wordAt bs (0x40 + 8 * k)
    { ext := bitsOf w 0 16 + 1, bind := bitsOf w 16 3, bar := if bitsOf w 20 1 = 1 then some (bitsOf w 21 3) else none }

/-- The 96 bits of an input declaration. -/
def inputWord (bs : List Byte) (i : Nat) : Nat := leNat ((bs.drop (0xA0 + 12 * i)).take 12)

/-- A signed 11-bit stride. -/
def stride (n : Nat) : Int := if n < 1024 then n else (n : Int) - 2048

/-- The tile of an input for a block, from its indices at the two levels above `blklvl` (R210). -/
def inputTile (w b1 b2 : Nat) : Nat :=
  ((bitsOf w 24 32 + stride (bitsOf w 74 11) * b1 + stride (bitsOf w 85 11) * b2) % 2 ^ 32).toNat

/-- The product of the extents of the levels with a property. -/
def extents (ls : List Level) (p : Level → Bool) : Nat := (ls.filter p).foldl (fun n l => n * l.ext) 1

/-- The packages of a partition's job, or this device alone (R32, R261). -/
def jobMembers (s : State) (part : Nat) : List Nat :=
  match tget part s.jobs with
  | some j => if j.closed then [s.device] else j.members
  | none => [s.device]

/-- The capacity of a binding (R32). -/
def bindCapacity (s : State) (part bind : Nat) : Nat :=
  match bind with
  | 0 => 8 | 1 => 8 | 2 => 4 | 3 => 8 | 4 => 4 | 5 => 4 | 6 => (jobMembers s part).length
  | _ => 2 ^ 32

/-- The units of a kind that a partition holds (R223). -/
def partUnits (s : State) (part bind : Nat) : Nat :=
  let is := partIslands s part
  let cores := (is.map fun i => ((List.range 32).filter fun k => !(s.core (i * 32 + k)).absent).length).foldl (· + ·) 0
  match bind with
  | 0 => cores * 8
  | 1 => cores
  | 2 => is.length * 4
  | 3 => is.length
  | 4 => (is.map (· / 8)).eraseDups.length
  | 5 => (is.map (· / 32)).eraseDups.length
  | 6 => (jobMembers s part).length
  | _ => 2 ^ 32

/-- The smallest scope that holds a cell of a level, by the code of its binding (R34). -/
def leastScope (bind : Nat) : Nat := match bind with | 0 => 1 | 1 => 2 | _ => 3

/-- Whether the bindings of the levels never decrease. -/
def bindsRise : List Level → Bool
  | a :: b :: rest => decide (a.bind ≤ b.bind) && bindsRise (b :: rest)
  | _ => true

/-- Whether the reserved fields of a record are zero (R30, R31, R210). -/
def reservedClear (bs : List Byte) : Bool :=
  let h := wordAt bs 8
  bitsOf h 12 52 == 0 && bitsOf h 6 2 == 0 && bitsOf (wordAt bs 0x10) 32 32 == 0
    && (List.range (bitsOf h 0 3 + 1)).all (fun k => bitsOf (wordAt bs (0x40 + 8 * k)) 24 40 == 0 && bitsOf (wordAt bs (0x40 + 8 * k)) 19 1 == 0)
    && (bitsOf h 11 1 == 0 || (bitsOf (wordAt bs 0x80) 4 60 == 0 && wordAt bs 0x88 == 0))

/-- The units of a kind that a launch needs at once on this device: its index positions at that kind go to distinct units within each
unit of every wider kind (R32, R223). Cells of a domain-bound level may run one after another, and those of a device-bound level lie on
distinct packages. -/
def unitsNeeded (ls : List Level) (b : Nat) : Nat := extents ls fun l => decide (b ≤ l.bind) && (decide (l.bind < 6) || l.bind == b)

/-- The checks of R34 and R223 on a record of a context of a partition. -/
def shapeGood (s : State) (part : Nat) (bs : List Byte) : Bool :=
  let h := wordAt bs 8
  let ls := levelsOf bs
  reservedClear bs && wordAt bs 0 % 2 == 0 && wordAt bs 0x18 % 32 == 0 && bindsRise ls
    && (List.range 7).all (fun b => decide (extents ls (fun l => l.bind == b) ≤ bindCapacity s part b))
    && decide (extents ls (fun _ => true) ≤ 2 ^ 32)
    && decide (bitsOf h 8 3 ≤ bitsOf h 0 3)
    && (bitsOf h 11 1 == 0 || decide (bitsOf (wordAt bs 0x80) 0 4 ≤ 8))
    && ls.all (fun l => match l.bar with | some sc => decide (l.bind ≤ 2) && decide (leastScope l.bind ≤ sc) | none => true)
    && (List.range 7).all (fun b => decide (unitsNeeded ls b ≤ partUnits s part b))
    && !(partIslands s part).isEmpty

/-- A launch as its record gives it. -/
def launchOf (s : State) (cid : Nat) (addr : Word) (bs : List Byte) (queue : Option Nat) (prio : Nat) : Launch :=
  let h := wordAt bs 8
  { cid := cid, addr := addr, entry := w64 (wordAt bs 0), lid := bitsOf (wordAt bs 0x10) 0 32, donerec := w64 (wordAt bs 0x18)
    args := (List.range 4).map fun i => w64 (wordAt bs (0x20 + 8 * i)), levels := levelsOf bs, pool := bitsOf h 3 2
    high := bitsOf h 5 1 == 1, hasin := bitsOf h 11 1 == 1, blklvl := bitsOf h 8 3
    inputs := (List.range (bitsOf (wordAt bs 0x80) 0 4)).map fun i =>
      { word := inputWord bs i, lid := leNat ((bs.drop (0x90 + 4 * bitsOf (inputWord bs i) 72 2)).take 4) }
    queue := queue, prio := prio, taken := s.time, gangs := [], readyAt := [], places := [], started := none, pausedFor := 0
    alive := 0, total := 0, retired := 0, failed := 0, away := false, doneAt := .none }

/-! ### Gangs (R33) -/

/-- The threads of a gang: the cell of the highest level bound at tile or narrower. -/
def Launch.gangSize (x : Launch) : Nat := extents x.levels fun l => decide (l.bind ≤ 2)
/-- The gangs of a launch. -/
def Launch.gangCount (x : Launch) : Nat := extents x.levels fun l => decide (2 < l.bind)

/-- The indices of a linear index over the levels (R33). -/
def indicesOf : List Level → Nat → List Nat
  | [], _ => []
  | l :: ls, n => n % l.ext :: indicesOf ls (n / l.ext)

/-- The composite index of a linear index over the levels of one binding. -/
def bindIndex (ls : List Level) (bind n : Nat) : Nat :=
  ((ls.zip (indicesOf ls n)).filter fun e => e.1.bind == bind).foldr (fun e acc => e.2 + e.1.ext * acc) 0

/-- What a gang has come to. -/
def Launch.gang (x : Launch) (g : Nat) : GangSt := (tget g x.gangs).getD (if x.hasin then .held else .waiting)
/-- The gangs that are placed or dropped. -/
def Launch.settled (x : Launch) : Nat := (x.gangs.filter fun e => e.2 == .placed || e.2 == .dropped).length

/-- The indices of a thread as eight numbers (R33). -/
def idxOf (x : Launch) (n : Nat) : List Nat := (indicesOf x.levels n ++ List.replicate 8 0).take 8

/-! ### Completion records (R37) -/

/-- The 32 bytes of a completion record (R37). -/
def doneBytes (s : State) (lid state cause failed retired : Nat) : List Byte :=
  leBytes 8 (state + cause * 2 ^ 16 + min failed (2 ^ 32 - 1) * 2 ^ 32) ++ leBytes 8 retired ++ leBytes 8 lid ++ leBytes 8 s.time

/-- A completion record that cannot be written is reported (R37). -/
def doneFailed (s : State) (cid : Nat) (donerec : Word) (c : Cause) : State :=
  hostNotice (report s cid { addr := donerec, cause := c, detail := 0, item := 9, peer := none, ep := 0 }) cid c.code

/-- The completion record of a launch: written whole, or not at all, and then reported (R37); none while its translation is held. -/
def writeDone (s : State) (cid : Nat) (donerec : Word) (lid state cause failed retired : Nat) : Option State :=
  if donerec = 0 then some s
  else match spaceWrite s cid 0 donerec (doneBytes s lid state cause failed retired) with
    | .ok _ s1 => some s1
    | .fail c s1 => some (doneFailed s1 cid donerec c)
    | .hold => none

/-- A launch of a context has completed (R211): its ID is remembered, and tags are looked at again. -/
def launchOver (s : State) (cid lid : Nat) : State :=
  (s.modCtx cid fun x => { x with completed := tput lid s.time x.completed }).wakeAll .tag

/-- A launch leaves the machine: its record, its barrier cells and its reservations. -/
def dropLaunch (s : State) (l : Nat) : State :=
  { s with launches := tdel l s.launches, bars := s.bars.filter fun e => barLaunchOf e.1 != l
           islands := tmap (fun _ i => match i.reserved with
             | some r => if r.1 = l then { i with reserved := none } else i
             | none => i) s.islands }

/-- The items of a killed launch that its record counts: those counted before, the threads that have not retired, and the
threads of its gangs that were not dispatched (R231). -/
def Launch.killedItems (x : Launch) : Nat := x.failed + x.alive + (x.gangCount - x.settled) * x.gangSize

/-- The completion record of a launch of a killed context is written where its address led when the kill began: the space is deleted by
now, and the cuts of its nodes are in place (R120, R231; DEDUCED, log 59). -/
def writeKilled (s : State) (x : Launch) : State :=
  match x.doneAt with
  | .none => s
  | .failed c => doneFailed s x.cid x.donerec c
  | .away => s
  | .here key tenant => match demandWrite s key tenant with
    | (none, s1) => engineWrite s1 key (doneBytes s1 x.lid 2 0 x.killedItems x.retired)
    | (some c, s1) => doneFailed s1 x.cid x.donerec c

/-- The completion record of a launch of a killed context (R231). -/
def killLaunch (s : State) (l : Nat) (x : Launch) : State := dropLaunch (launchOver (writeKilled s x) x.cid x.lid) l

end Sys2Proof.Machine
end

