-- ==== Sys2Proof/Machine/Matrix.lean ====
section
/-! DEFINITION. The matrix unit: accumulator slots, command queues, the arbiter, k-blocks, watermarks and the page 3
instructions (R94 to R98, R185 to R195, R364 to R374). -/

namespace Sys2Proof.Machine

open Sys2Proof

/-! ### Operands -/

/-- The groups of R94. -/
inductive MxGroup where
  | narrow | integer | half
  deriving DecidableEq, Repr

/-- The group of a pair of types (R94). -/
def mxGroup (a b : EType) : Option MxGroup :=
  if a.isNarrow && b.isNarrow then some .narrow
  else if (a == .i8 || a == .i4) && (b == .i8 || b == .i4) then some .integer
  else if (a == .bf16 && b == .bf16) || (a == .f16 && b == .f16) then some .half
  else none

/-- The bytes of a row of 64 elements (R189). -/
def rowBytes (t : EType) : Nat := 8 * t.bits

/-- The row pitch of a layout word (R188). -/
def layRp (l : Word) : Nat := bitsOf l.toNat 0 16
/-- The tile pitch. -/
def layTp (l : Word) : Nat := bitsOf l.toNat 16 16
/-- The bank-rotation code. -/
def layRot (l : Word) : Nat := bitsOf l.toNat 32 4
/-- The element-type code. -/
def layType (l : Word) : Option EType := EType.ofCode (bitsOf l.toNat 36 5)
/-- Whether the operand carries scales. -/
def layScaled (l : Word) : Bool := l.toNat / 2 ^ 41 % 2 == 1
/-- The offset of the scale array. -/
def layScoff (l : Word) : Nat := bitsOf l.toNat 48 16

/-- The address of a 16-byte piece of a row of an operand (R189). -/
def pieceAddr (base l : Word) (tile row piece : Nat) : Word :=
  base + w64 (tile * layTp l + row * layRp l + (piece ^^^ row % 2 ^ layRot l) * 16)

/-- The address of the scale of a row or column and a 32-element block (R189). -/
def scaleAddr (base l : Word) (row block : Nat) : Word := base + w64 (64 * layScoff l + row * 32 + block)

/-- The owner's key of a pool byte, by either class of address. -/
def poolKey (core : Nat) (va : Word) : Nat :=
  match classify va with
  | .own off => poolBase core + off
  | .window c off => poolBase (clusterOf core * 256 + c) + off
  | _ => 0

/-- The check of a byte range of an operand under R99 and R189: the first failing byte and its cause. -/
def footprint (s : State) (t : Thread) (va : Word) (n : Nat) : Option (Cause × Word) :=
  match classify va with
  | .translated | .nothing => some (.unmapped, va)
  | .own off =>
    match resolve s t.cid t.core va rRead with
    | .fail c => some (c, va)
    | _ =>
      let lim := vbaseOf (s.core t.core).pool
      if off + n ≤ lim then none
      else some (if lim < poolSize then .poolRange else .unmapped, va + w64 (lim - off))
  | .window c off =>
    match resolve s t.cid t.core va rRead with
    | .fail c => some (c, va)
    | _ =>
      let lim := vbaseOf (s.core (clusterOf t.core * 256 + c)).pool
      if off + n ≤ lim then none
      else some (if lim < poolSize then .poolRange else .unmapped, va + w64 (lim - off))

/-- What is wrong with an operand's layout word (R188, R189). -/
def layoutBad (t : EType) (l : Word) : Bool :=
  decide (rowBytes t / 16 < 2 ^ layRot l) || layRp l % 16 != 0 || layTp l % 16 != 0 || bitsOf l.toNat 42 6 != 0
    || (layScaled l && !t.isNarrow)

/-- The checks of a scratchpad operand itself: ILLEGAL, then MISALIGNED (R188, R189). -/
def operandForm (th : Thread) (t : EType) (o : MxOperand) : Option (Cause × Word) :=
  match o with
  | .run _ _ _ => none
  | .pool base l => if layoutBad t l then some (.illegal, th.pc) else if base.toNat % 16 ≠ 0 then some (.misaligned, base) else none

/-- The check of a scratchpad operand's footprint (R61, R99, R189). -/
def operandReach (s : State) (th : Thread) (t : EType) (m : Nat) (o : MxOperand) : Option (Cause × Word) :=
  match o with
  | .run _ _ _ => none
  | .pool base l =>
    match footprint s th base ((m - 1) * layTp l + 63 * layRp l + rowBytes t) with
      | some f => some f
      | none => if layScaled l then footprint s th (base + w64 (64 * layScoff l)) 2048 else none

/-- The first trap of the operands of an `mma`: both operands are checked, then each footprint (R365). -/
def operandsFault (s : State) (th : Thread) (ta tb : EType) (m : Nat) (a b : MxOperand) : Option (Cause × Word) :=
  (operandForm th ta a).or <| (operandForm th tb b).or <| (operandReach s th ta m a).or <| operandReach s th tb m b

/-! ### The k-block (R95, R96, R169, R189, R190) -/

/-- The bytes of one row of an operand. -/
def operandRow (s : State) (core : Nat) (t : EType) (o : MxOperand) (tile row : Nat) : List Byte :=
  match o with
  | .run _ _ bs => (bs.drop ((64 * tile + row) * rowBytes t)).take (rowBytes t)
  | .pool base l => ((List.range (rowBytes t / 16)).map fun p =>
      memBytes s.mem (poolKey core (pieceAddr base l tile row p)) 16).flatten

/-- The 64 elements of a row of bytes (R80). -/
def rowElems (t : EType) (bs : List Byte) : List Nat :=
  let x := leNat bs
  (List.range 64).map fun j => x / 2 ^ (t.bits * j) % 2 ^ t.bits

/-- The value of an element: an integer as an exact value, or a floating value. -/
def mxVal (t : EType) (x : Nat) : FVal := if t.isFloat then decodeF t x else FVal.ofInt (decodeI t x) 0 false

/-- The scale byte of a row or column of an operand in a 32-element block (R83, R189). -/
def operandScale (s : State) (core : Nat) (o : MxOperand) (row block : Nat) : Nat :=
  match o with
  | .run _ _ _ => 127
  | .pool base l => if layScaled l then (memByte s.mem (poolKey core (scaleAddr base l row block))).toNat else 127

/-- A word address of an operand that is in P, if one of a list of byte addresses meets one (R366). -/
def firstPoison (s : State) (core : Nat) (vas : List Word) : Option Word :=
  (vas.find? fun va => s.word (poolKey core va / 8) == .poison).map fun va => va - w64 (va.toNat % 8)

/-- An address in every word that a k-block reads of an operand. -/
def operandWords (t : EType) (o : MxOperand) (tile : Nat) : List Word :=
  match o with
  | .run _ _ _ => []
  | .pool base l =>
    let rows := ((List.range 64).map fun r => ((List.range (rowBytes t / 16)).map fun p =>
      [pieceAddr base l tile r p, pieceAddr base l tile r p + 8]).flatten).flatten
    rows ++ if layScaled l then (List.range 64).map fun r => scaleAddr base l r (2 * tile) else []

/-- The first word in P that a k-block reads of an operand (R366). -/
def operandPoison (s : State) (core : Nat) (t : EType) (o : MxOperand) (tile : Nat) : Option Word := firstPoison s core (operandWords t o tile)

/-- The records of the soft errors that a k-block meets first in its operands (R246). -/
def operandSofts (s : State) (core : Nat) (c : MxCmd) (vas : List Word) : State :=
  vas.foldl (fun s va => softEngine s c.cid c.ep va (poolKey core va) 1) s

/-- An integer block sum into an i32 accumulator, saturating (R95). -/
def accumulateInt (c : BitVec 32) (ps : List (FVal × FVal)) : BitVec 32 × Flags :=
  let v (x : FVal) : Int := match x with
    | .fin neg m _ => if neg then -(m : Int) else m
    | _ => 0
  let r := saturateI .i32 (ps.foldl (fun a p => a + v p.1 * v p.2) c.toInt)
  (BitVec.ofNat 32 r.1, r.2)

/-- One group of products into a cell, under its two scales (R95, R96). -/
def applyGroup (g : MxGroup) (c : BitVec 32) (sa sb : Nat) (ps : List (FVal × FVal)) : BitVec 32 × Flags :=
  match g with
  | .integer => accumulateInt c ps
  | _ =>
    if sa = 0xFF ∨ sb = 0xFF then accumulate c (.nan, 0) 0
    else accumulate c (blockSum ps) ((sa : Int) + sb - 254)

/-- The elements of one sum unit (R94). -/
def groupSize (g : MxGroup) : Nat := match g with | .half => 8 | _ => 32

/-- A cell through the sum units of one k-block, in increasing k (R95). -/
def cellThrough (g : MxGroup) (sa sb : Nat → Nat) (ps : List (FVal × FVal)) (c : BitVec 32) : BitVec 32 × Flags :=
  let n := groupSize g
  (List.range (64 / n)).foldl (fun (r : BitVec 32 × Flags) b =>
    let z := applyGroup g r.1 (sa b) (sb b) ((ps.drop (b * n)).take n)
    (z.1, r.2 ||| z.2)) (c, 0)

/-- One k-block of an `mma` on the words of its slot (R95). -/
def kBlock (s : State) (core : Nat) (g : MxGroup) (ta tb : EType) (a b : MxOperand) (tile : Nat) (words : List (BitVec 32)) :
    List (BitVec 32) × Flags :=
  let rowsA := (List.range 64).map fun i => (rowElems ta (operandRow s core ta a tile i)).map (mxVal ta)
  let rowsB := (List.range 64).map fun k => (rowElems tb (operandRow s core tb b tile k)).map (mxVal tb)
  let colsB := (List.range 64).map fun j => rowsB.map fun r => r.getD j .nan
  let sa := (List.range 64).map fun i => (List.range 2).map fun q => operandScale s core a i (2 * tile + q)
  let sb := (List.range 64).map fun j => (List.range 2).map fun q => operandScale s core b j (2 * tile + q)
  let cells := (rowsA.zip sa).map fun ra => (colsB.zip sb).map fun cb =>
    cellThrough g (fun q => ra.2.getD q 127) (fun q => cb.2.getD q 127) (ra.1.zip cb.1)
  let out := (cells.flatten.zip words).map fun e => e.1 e.2
  (out.map Prod.fst, out.foldl (fun f e => f ||| e.2) 0)

/-- The op counter of a type of A (R74). -/
def macCounter : EType → Fin 13
  | .e2m1 => 0 | .e3m2 => 1 | .e2m3 => 2 | .e4m3 => 3 | .e5m2 => 4 | .i8 => 5 | .i4 => 6 | .bf16 => 7 | _ => 8

/-! ### Slots, queues and the arbiter (R185, R186, R191, R192) -/

/-- An accumulator slot just bound: +0 in every word (R191). -/
def AccSlot.fresh (u h : Nat) : AccSlot :=
  { owner := some (u, h), words := List.replicate 4096 0, flags := 0, rows := 64, poisoned := false, soft := false
    softTold := false, leaving := false }

/-- Whether a matrix command is stopped: issue of its context has ended, and its thread is not gone (R195, R230). -/
def mxStopped (s : State) (c : MxCmd) : Bool := haltedCtx s c.cid && (s.agent? c.uid).isSome

/-- Whether the operands of a command may be read: those of an `mma` after every earlier access of its thread (R152, R169). -/
def mxReads (s : State) (c : MxCmd) : Bool :=
  match c.op with
  | .mma _ _ _ _ _ => !accessesBefore s c.uid c.after
  | _ => true

/-- Whether the matrix command of a thread may begin a k-block, or run. -/
def mxReady (s : State) (c : MxCmd) : Bool := !mxStopped s c && mxReads s c

/-- The first core position from the pointer on whose queue head may run (R186). -/
def nextPosition (s : State) (t : Tile) : Option Nat :=
  ((List.range 8).map fun k => (t.pointer + k) % 8).find? fun p => match t.queue p with
    | c :: _ => mxReady s c
    | [] => false

/-- ARBITER_GRANT: with no grant running, the first core from the pointer on whose queue head is ready gets up to w units,
w the weight of the thread that issued the head (R186). -/
def execArbiterGrant (tile : Nat) (s : State) : Out :=
  let t := s.tile tile
  if t.units ≠ 0 then .next s
  else match nextPosition s t with
    | none => .next s
    | some p => match t.queue p with
      | [] => .next s
      | c :: _ => .next (s.setTile tile { t with pointer := p, units := c.weight })

/-- The read of one selector of a slot: its 16 words (R193). -/
def slotRow (x : AccSlot) (sel : Nat) : List (BitVec 32) := (x.words.drop (sel / 4 * 64 + sel % 4 * 16)).take 16

/-- The 64 bytes of 16 words. -/
def rowBytesOf (ws : List (BitVec 32)) : List Byte := (ws.map fun w => leBytes 4 w.toNat).flatten

/-- One `mrd` reads its row: its result is on its way; a poisoned slot gives P, and a soft error its record (R192, R366,
R246). -/
def serveRead (s : State) (tile id : Nat) (r : Mrd) (x : AccSlot) : State :=
  let due := x.soft && !x.softTold
  let t := s.tile tile
  let s1 := s.setTile tile { t.modSlot r.slot (fun y => if due then { y with softTold := true } else y) with reads := tdel id t.reads }
  let s2 := if due then report s1 r.cid
      { addr := w64 r.ep.toNat, cause := .softError, detail := 0x30 + r.handle, item := 7, peer := none, ep := r.ep } else s1
  { s2 with pending := tput id { uid := r.uid, dest := .v r.dest (BitVec.allOnes 64), bytes := rowBytesOf (slotRow x r.sel), node := none, slot := some (tile, r.slot)
                                 bad := if x.soft then some 2 else if x.poisoned then some 0 else none, kf := r.kf } s2.pending }

/-- Every waiting `mrd` whose row is final is served (R192), oldest first. -/
def serveReads (s : State) (tile : Nat) : State :=
  collectSlots ((s.tile tile).reads.foldl (fun s e => match tget e.2.slot (s.tile tile).slots with
    | some x => if e.2.sel / 4 < x.rows then serveRead s tile e.1 e.2 x else s
    | none => s) s) tile

/-- The head command of a core position is over: the next one reaches the head, whose weight is read then (R186). That of a thread that has
exited by then is the one it had at issue (DESIGN CHOICE, log 76). -/
def popQueue (s : State) (tile p : Nat) : State :=
  let t := s.tile tile
  let rest := match (t.queue p).drop 1 with
    | c :: cs => { c with weight := match s.agent? c.uid with | some th => th.mxweight.toNat | none => c.weight } :: cs
    | [] => []
  s.setTile tile { t with queues := if rest.isEmpty then tdel p t.queues else tput p rest t.queues }

/-- One unit of the grant is used; the grant ends with its units, with the queue, or at a head that a halt has stopped (R186, R195). -/
def useUnit (s : State) (tile p : Nat) : State :=
  let t := s.tile tile
  let left := if (match t.queue p with | [] => true | c :: _ => mxStopped s c) then 0 else t.units - 1
  s.setTile tile { t with units := left, pointer := if left = 0 then (p + 1) % 8 else p }

/-- A command on a slot retires: with no later one queued, `mzero`, `mwr` and `mrel` make all rows final (R192). -/
def slotRetired (s : State) (tile slot : Nat) (final : Bool) : State :=
  let t := s.tile tile
  let t1 := if final && !t.queuedOn slot then t.modSlot slot fun x => { x with rows := 64 } else t
  serveReads ((s.setTile tile t1).wakeAll .matrix) tile

/-- The array has been granted to a core position, and its head command may run. A grant that a halt leaves to a command that it stops is
that of the k-block which ran then (R195, R230). -/
def granted (s : State) (t : Tile) (p : Nat) (c : MxCmd) : Bool := t.pointer == p && decide (t.units ≠ 0) && mxReads s c

/-- The queue of a core position after a k-block of its head: a command that a halt has stopped gives way to those of threads that are gone
(R195). -/
def afterBlock (s : State) (c : MxCmd) (cs : List MxCmd) : List MxCmd :=
  if mxStopped s c then cs.filter (fun x => !mxStopped s x) ++ c :: cs.filter (mxStopped s) else c :: cs

/-- K_BLOCK_RETIRE: a k-block of the head `mma` of a core position retires: its sums are in the slot, its flags with them,
and it is counted (R87, R95, R187, R265, R366). -/
def execKBlockRetire (tile : Nat) (p : Fin 8) (s : State) : Out :=
  let t := s.tile tile
  match t.queue p.val with
  | [] => .next s
  | c :: cs => match c.op with
    | .mma ta tb m a b => match mxGroup ta tb, tget c.slot t.slots with
      | some g, some x =>
        if !granted s t p.val c then .next s
        else
          let core := tile * 8 + p.val
          let r := kBlock s core g ta tb a b c.blocks x.words
          let bad := match operandPoison s core ta a c.blocks with
            | some va => some va
            | none => operandPoison s core tb b c.blocks
          let t1 := t.modSlot c.slot fun x => { x with words := r.1, flags := x.flags ||| r.2, poisoned := x.poisoned || bad.isSome }
          let c1 := { c with blocks := c.blocks + 1, told := c.told || bad.isSome }
          let s0 := s.setTile tile { t1 with queues := tput p.val (c1 :: cs) t1.queues }
          let s1 := if bad.isSome then operandSofts s0 core c (operandWords ta a c.blocks ++ operandWords tb b c.blocks) else s0
          let s2 := match bad with
            | some va => if c.told then s1 else failItem (report s1 c.cid
                { addr := va, cause := .poison, detail := 0, item := 4, peer := none, ep := c.ep }) c.launch
            | none => s1
          let s3 := addCount s2 c.cid (macCounter ta) 262144
          if c.blocks + 1 < m then
            let t3 := s3.tile tile
            .next (useUnit (s3.setTile tile { t3 with queues := tput p.val (afterBlock s3 c1 cs) t3.queues }) tile p.val)
          else
            let s4 := useUnit (popQueue s3 tile p.val) tile p.val
            .next ((slotRetired s4 tile c.slot false).wakeAll .regs)
      | _, _ => .next s
    | _ => .next s

/-- MATRIX_COMMAND_RETIRE: the head `mzero`, `mwr` or `mrel` of a core position retires (R187, R193). -/
def execMatrixCommandRetire (tile : Nat) (p : Fin 8) (s : State) : Out :=
  let t := s.tile tile
  match t.queue p.val with
  | [] => .next s
  | c :: _ =>
    if !granted s t p.val c then .next s
    else
      let done (f : AccSlot → AccSlot) : Out :=
        let s1 := s.setTile tile (t.modSlot c.slot f)
        .next (slotRetired (useUnit (popQueue s1 tile p.val) tile p.val) tile c.slot true)
      match c.op with
      | .mma _ _ _ _ _ => .next s
      | .mzero => done fun x => { x with words := List.replicate 4096 0, flags := 0, poisoned := false, soft := false, softTold := false }
      | .mwr sel _ row => done fun x =>
          { x with words := x.words.take (sel / 4 * 64 + sel % 4 * 16) ++ row ++ x.words.drop (sel / 4 * 64 + sel % 4 * 16 + 16)
                   flags := 0, poisoned := false, soft := false, softTold := false }
      | .mrel => done fun x => { x with leaving := true }

/-- ROW_WRITE_OUT: with no command queued on the slot, its next row becomes final, and the reads that waited for it are
served (R192). -/
def execRowWriteOut (tile : Nat) (slot : Fin 32) (s : State) : Out :=
  let t := s.tile tile
  match tget slot.val t.slots with
  | some x =>
    if x.rows < 64 ∧ !t.queuedOn slot.val then
      .next (serveReads (s.setTile tile (t.modSlot slot.val fun x => { x with rows := x.rows + 1 })) tile)
    else .next s
  | none => .next s

/-! ### The instructions of page 3 -/

/-- An instruction of page 3: no matrix unit serves a steward core (R71), and a handler has no handle (R47). -/
def onMatrix (s : State) (k : Out) : Out :=
  withCur s fun u t => if isSteward t.core ∨ t.inHandler then trapHere s u t .illegal 0 else k

/-- The lowest slot on a tile's free list. -/
def freeSlot (t : Tile) : Option Nat := (List.range 32).find? fun k => (tget k t.slots).isNone

/-- Whether an agent still waits for a slot: its wait began and has not ended. -/
def stillWaits (s : State) (u : Nat) : Bool :=
  match tget u s.threads with
  | some t => (match t.prog with | .since _ => true | _ => false)
  | none => false

/-- What binding a handle comes to. -/
inductive Bound where
  | slot (k : Nat) (s : State) (t : Thread)
  | wait (o : Out)

/-- The slot of a handle, bound now if it was not: free slots go to the oldest waiter; with none the agent waits (R191). -/
def bindSlot (s : State) (u : Nat) (t : Thread) (h : ANum) : Bound :=
  match t.a.get h with
  | some k => .slot k s t
  | none =>
    let x := s.tile (tileOf t.core)
    let queue := x.waiters.filter fun w => w.1 != u && stillWaits s w.1
    let mine := x.waiters.find? fun w => w.1 == u
    let first := match mine, queue with
      | some w, o :: _ => decide (w.2 ≤ o.2)
      | none, _ :: _ => false
      | _, [] => true
    match freeSlot x, first with
    | some k, true =>
      let s1 := s.setTile (tileOf t.core) { x with slots := tput k (AccSlot.fresh u h.val) x.slots, waiters := queue }
      .slot k s1 { t with a := t.a.set h (some k), prog := .none }
    | _, _ =>
      let t0 := match t.prog with | .since t0 => t0 | _ => s.time
      let w := (u, t0)
      let s1 := s.setTile (tileOf t.core) { x with waiters := match mine with
        | some _ => x.waiters.filter fun w => w.1 == u || stillWaits s w.1
        | none => queue ++ [w] }
      .wait (blockAt s1 u t .matrix (.since t0))

/-- Whether an agent has an `mrd` of a slot outstanding (R185). -/
def readsPending (s : State) (t : Thread) (slot : Nat) : Bool := (s.tile (tileOf t.core)).reads.any fun r => r.2.slot == slot

/-- A command of the issuing agent on a handle: it binds a slot if need be, waits for an `mrd` of the slot and for a place in
the queue, and is queued (R185, R191). -/
def queueCommand (s : State) (i : Instr) (u : Nat) (t : Thread) (h : ANum) (op : MxOp) : Out :=
  match bindSlot s u t h with
  | .wait o => o
  | .slot k s1 t1 =>
    if readsPending s1 t1 k || decide (4 ≤ ((s1.tile (tileOf t.core)).queue (t.core % 8)).length) then blockOn s1 u t1 .matrix
    else
      let s2 := pushMx s1 t1.core (mxCommand s1 u t1 h.val k op)
      finish { s2 with nextId := s1.nextId + 1 } i u t1

/-- `mzero` (R374). -/
def execMzero (y : Sync) (h : ANum) (s : State) : Out :=
  onMatrix s <| withCur s fun u t => queueCommand s (.mzero y h) u t h .mzero

/-- The selector of `mrd` and `mwr` (R194). -/
def selectorOf (i : Imm) : Nat := i.raw % 256

/-- `mwr`: vS is read at issue (R373). -/
def execMwr (y : Sync) (h : ANum) (r : VNum) (i : Imm) (s : State) : Out :=
  onMatrix s <| issue s y [.v r] [] [] fun u t =>
    queueCommand s (.mwr y h r i) u t h
      (.mwr (selectorOf i) r.val ((List.range 16).map fun l => BitVec.ofNat 32 (elemOf (vval s t r) 32 l)))

/-- `mrel` (R193, R370): the handle is unbound at once; an `mrd` of the slot that has not read yet reads it as `mrel` leaves it. -/
def execMrel (y : Sync) (h : ANum) (s : State) : Out :=
  onMatrix s <| withCur s fun u t =>
    match t.a.get h with
    | none => finish s (.mrel y h) u t
    | some k =>
      if decide (4 ≤ ((s.tile (tileOf t.core)).queue (t.core % 8)).length) then blockOn s u t .matrix
      else finish (releaseSlot s u t h.val k) (.mrel y h) u { t with a := t.a.set h none }

/-- How many `mrd` results an agent waits for (R64). -/
def outstandingReads (s : State) (u : Nat) (t : Thread) : Nat :=
  ((s.tile (tileOf t.core)).reads.filter fun r => r.2.uid == u).length
    + (s.pending.filter fun e => e.2.uid == u && match e.2.dest with | .v _ _ => true | _ => false).length

/-- Whether an `mrd` under keep-full still waits for its result. -/
def readOpen (s : State) (t : Thread) (id : Nat) : Bool :=
  (tget id s.pending).isSome || (tget id (s.tile (tileOf t.core)).reads).isSome

/-- `mrd` (R369, R192, R193, R64). -/
def execMrd (y : Sync) (h : ANum) (d : VNum) (i : Imm) (s : State) : Out :=
  onMatrix s <| issue s y [] [] [.v d] fun u t =>
    match t.prog with
    | .sent id => if readOpen s t id then blockAt s u t .result (.sent id) else finish s (.mrd y h d i) u t
    | _ => match t.a.get h with
      | none => trapHere s u t .accUnbound 0
      | some k =>
        if 8 ≤ outstandingReads s u t then blockOn s u t .matrix
        else
          let x := s.tile (tileOf t.core)
          let r : Mrd := { uid := u, cid := t.cid, ep := epOf s t, slot := k, handle := h.val, sel := selectorOf i, dest := d
                           kf := syKf y }
          let s1 := { s.setTile (tileOf t.core) { x with reads := tput s.nextId r x.reads } with nextId := s.nextId + 1 }
          let s2 := serveReads s1 (tileOf t.core)
          if syKf y then blockAt s2 u t .result (.sent s.nextId) else finish s2 (.mrd y h d i) u (t.emptyV d)

/-- `mwm`: the watermark and the slot's flags (R372, R193, R87). -/
def execMwm (y : Sync) (h : ANum) (d : GNum) (s : State) : Out :=
  onMatrix s <| issue s y [] [] [.g d] fun u t =>
    match t.a.get h with
    | none => trapHere s u t .accUnbound 0
    | some k =>
      let w := match tget k (s.tile (tileOf t.core)).slots with
        | some x => x.rows + x.flags.toNat * 2 ^ 16
        | none => 0
      finishG s (.mwm y h d) u t d (w64 w)

/-- The registers that an operand of `mma` names: a pair, or a run of vector registers (R188, R190). -/
def operandRegs (ka : Bool) (x : VNum) (t : EType) (m : Nat) : List RegName :=
  if ka then (List.range (rowBytes t * m)).filterMap fun e => if h : x.val + e < 32 then some (.v ⟨x.val + e, h⟩) else none
  else [.g (Fin.ofNat 16 x.val), .g (nextG (Fin.ofNat 16 x.val))]

/-- The operand as read at issue. -/
def readOperand (s : State) (th : Thread) (ka : Bool) (x : VNum) (t : EType) (m : Nat) : MxOperand :=
  if ka then
    .run x.val (rowBytes t * m)
      ((List.range (rowBytes t * m)).map fun e => vBytes s th (Fin.ofNat 32 (x.val + e))).flatten
  else .pool (th.gval (Fin.ofNat 16 x.val)) (th.gval (nextG (Fin.ofNat 16 x.val)))

/-- The type of B: of its layout word, or of A for a run (R194). -/
def typeOfB (t : EType) (o : MxOperand) : Option EType :=
  match o with
  | .run _ _ _ => some t
  | .pool _ l => layType l

/-- Whether A's layout word, if it has one, names its type (R194). -/
def typeOfAOk (t : EType) (o : MxOperand) : Bool :=
  match o with
  | .run _ _ _ => true
  | .pool _ l => layType l == some t

/-- Whether a run of registers passes the pool limit (R190). -/
def runTooLong (th : Thread) (ka : Bool) (x : VNum) (t : EType) (m : Nat) : Bool :=
  ka && decide (poolRegs th.pool < x.val + rowBytes t * m)

/-- `mma` (R364, R365). It reads memory, so it issues after an earlier acquire is performed (R141). -/
def execMma (y : Sync) (h : ANum) (m : Fin 16) (t : EType) (ka kb : Bool) (a b : VNum) (s : State) : Out :=
  let n := m.val + 1
  onMatrix s <| withCur s fun u0 t0 =>
    if runTooLong t0 ka a t n || runTooLong t0 kb b t n then trapHere s u0 t0 .illegal 0
    else issue s y (operandRegs ka a t n ++ operandRegs kb b t n) [] [] fun u th =>
      let oa := readOperand s th ka a t n
      let ob := readOperand s th kb b t n
      match typeOfB t ob with
      | none => trapHere s u th .illegal 0
      | some tb =>
        if (mxGroup t tb).isNone || !typeOfAOk t oa then trapHere s u th .illegal 0
        else match operandsFault s th t tb n oa ob with
          | some (c, va) => trapAt s u th c 0 va
          | none =>
            if acquirePending s u then blockOn s u th .accesses
            else queueCommand s (.mma y h m t ka kb a b) u th h (.mma t tb n oa ob)

/-- ACC_EXHAUSTED: an agent's wait for a slot has lasted 2^20 cycles; the instruction traps with its handle unbound and
nothing queued (R191). -/
def execAccExhausted (u : Nat) (s : State) : Out :=
  match tget u s.threads with
  | none => .next s
  | some t =>
    let x := s.tile (tileOf t.core)
    match t.prog with
    | .since t0 =>
      if x.waiters.any (fun w => w.1 == u) && t.status == .blocked .matrix && decide (t0 + 2 ^ 20 ≤ s.time) && (freeSlot x).isNone then
        .next (takeTrap (s.setTile (tileOf t.core) { x with waiters := x.waiters.filter fun w => w.1 != u }) u .accExhausted 0 t.pc t.pc)
      else .next s
    | _ => .next s

end Sys2Proof.Machine
end

