-- ==== Sys2Proof/Machine/Threads.lean ====
section
/-! DEFINITION. `exit`, `fork`, `migrate`, `endp` and the barriers, with the events that complete them (R38 to R42, R49 to R56, R161,
R278, R319 to R321, R333, R335, R336, R339 to R341, R362, R363). -/

namespace Sys2Proof.Machine

open Sys2Proof

/-! ### `exit` (R40, R41, R335, R336) -/

/-- What enqueueing one successor comes to. -/
inductive Enqueue where
  | done (s : State)
  /-- The ring is full, or the translation of its next entry is held. -/
  | full
  | unmapped (va : Word) (s : State)
  deriving DecidableEq, Repr

/-- The address of an entry of a context's overflow ring (R40, R221). -/
def ringAddr (x : Context) (n : Nat) : Word := x.ovbase + w64 (8 * (n % 2 ^ (x.ovcfg.toNat % 32)))

/-- Appends a successor to the device queue, or to the overflow ring while the device queue is full or the ring is not empty
(R40, R222). -/
def enqueue (s : State) (cid cluster : Nat) (e : Successor) : Enqueue :=
  match s.ctx? cid with
  | none => .done s
  | some x =>
    if x.ovhead = x.ovtail ∧ x.devq.length < 256 then .done (s.setCtx cid { x with devq := x.devq ++ [e] })
    else if 2 ^ (x.ovcfg.toNat % 32) ≤ x.ovtail - x.ovhead then .full
    else match spaceWrite s cid cluster (ringAddr x x.ovtail) (leBytes 8 e.addr.toNat) with
      | .hold => .full
      | .fail _ s1 => .unmapped (ringAddr x x.ovtail) s1
      | .ok _ s1 => .done (s1.modCtx cid fun y => { y with ovtail := x.ovtail + 1, ovq := y.ovq ++ [e] })

/-- An exiting thread retires; under a ladder it has stopped at `exit` (R40, R241). -/
def exitDone (s : State) (u : Nat) (t : Thread) : State :=
  retireThread ((stoppedAt s t.cid).modCtx t.cid fun x => { x with
    lastRetire := s.time, lastExits := (s.time, if x.lastExits.1 = s.time then x.lastExits.2 + 1 else 1) }) u t false

/-- Enqueues the successors that are left, then retires; the thread is Parked at a full ring, and for an unmapped page of the
ring OVERFLOW_UNMAPPED goes to the fault handler (R41). `taddr` is the ring entry's address (DEDUCED, log 18). -/
def exitEnqueue (s : State) (u : Nat) (t : Thread) (after : Nat) : List Word → State
  | [] => exitDone s u t
  | a :: rest => match enqueue s t.cid (clusterOf t.core) { addr := a, uid := u, after := after } with
    | .done s1 => exitEnqueue s1 u t after rest
    | .full => s.setThread u { t with status := .parked, prog := .exiting (a :: rest) }
    | .unmapped va s0 =>
      let t1 := { t with status := .parked, prog := .exitHeld (a :: rest), tcause := w64 Cause.overflowUnmapped.code, taddr := va
                         tresume := t.pc }
      let s1 := s0.setThread u t1
      match s1.ctx? t.cid with
      | none => s1
      | some x => if x.fhentry = 0 then hostNotice s1 t.cid Cause.overflowUnmapped.code else queueFault s1 t.core (.thread u) false

/-- Every form of `exit`: MISALIGNED before any effect, then the queueing in the order named (R40). -/
def exitWith (s : State) (y : Sync) (rs rt : List GNum) : Out :=
  notInHandler s <| issue s y (rs.map .g) (rt.map .g) [] fun u t =>
    let as := (rs ++ rt).map t.gval
    match as.find? fun a => a.toNat % 256 != 0 with
    | some a => trapAt s u t .misaligned 0 a
    | none => .next (exitEnqueue { s with time := s.time + 1 } u t s.nextId as)

/-- `exit` (R40, R335). -/
def execExit (y : Sync) (s : State) : Out := exitWith s y [] []
/-- `exit gA` (R335). -/
def execExit1 (y : Sync) (a : GNum) (s : State) : Out := exitWith s y [a] []
/-- `exit gA, gB` (R335). -/
def execExit2 (y : Sync) (a b : GNum) (s : State) : Out := exitWith s y [a, b] []
/-- `exit gA, gB, gC` (R335). -/
def execExit3 (y : Sync) (a b c : GNum) (s : State) : Out := exitWith s y [a, b] [c]
/-- `exit gA, gB, gC, gD` (R335): the fourth register stands in the REG prefix's type field, and the rs trap bit covers it. -/
def execExit4 (y : Sync) (a b c e : GNum) (s : State) : Out :=
  notInHandler s <| issue s y [.g a, .g b, .g e] [.g c] [] fun u t =>
    let as := [t.gval a, t.gval b, t.gval c, t.gval e]
    match as.find? fun a => a.toNat % 256 != 0 with
    | some a => trapAt s u t .misaligned 0 a
    | none => .next (exitEnqueue { s with time := s.time + 1 } u t s.nextId as)

/-- EXIT_RESUME: a Parked agent goes on enqueueing (R41). -/
def execExitResume (u : Nat) (s : State) : Out :=
  match tget u s.threads with
  | none => .next s
  | some t => match t.status, t.prog with
    | .parked, .exiting left => if t.heldByHalt then .next s else .next (exitEnqueue s u t s.nextId left)
    | _, _ => .next s

/-! ### `fork` (R38, R39, R339 to R341) -/

/-- The registers gS to gS+n−1. -/
def regRange (r : GNum) (n : Nat) : List GNum := (List.range n).map fun i => Fin.ofNat 16 (r.val + i)

/-- The oldest resident thread of a core (R341). -/
def oldestThread (s : State) (c : Nat) : Option Thread := (tfind (fun _ t => t.core == c && !t.inHandler) s.threads).map Prod.snd

/-- What a child of a thread joins (R38). -/
def joinOf (t : Thread) : Option Join :=
  t.launch.map fun l => { launch := l, gang := t.gang, pool := t.pool, high := t.high, idx := t.idx, linear := t.linear }

/-- The target core that a `fork` names, if it is on this device, and in a handler the handler's own. -/
def forkCore (s : State) (t : Thread) (ep : Nat) : Option Nat :=
  if bitsOf ep 23 9 = s.device ∧ (t.inHandler = false ∨ bitsOf ep 11 12 = t.core) then some (bitsOf ep 11 12) else none

/-- `fork` (R38, R339, R340): gD is E until FORK_COMPLETE; the caller goes on. -/
def execFork (y : Sync) (n : Fin 17) (d e : GNum) (i : Imm) (r : GNum) (s : State) : Out :=
  let rs := regRange r n.val
  issue s y (.g e :: (rs.drop 1).map .g) ((rs.take 1).map .g) [.g d] fun u t =>
    let ins : Instr := .fork y n d e i r
    match t.prog with
    | .sent id => resumeResult s ins u t id
    | _ =>
    let f : ForkReq :=
      { uid := u, core := forkCore s t (t.gval e).toNat, cid := t.cid, pc := t.pc + immSigned i false * 2, first := r.val
        vals := rs.map t.gval, dest := d, kf := syKf y, after := s.nextId
        join := if t.inHandler then (oldestThread s t.core).bind joinOf else joinOf t }
    let s1 := { s with forks := tput s.nextId f s.forks, nextId := s.nextId + 1 }
    if syKf y then blockAt s1 u t .result (.sent s.nextId) else finish s1 ins u (t.emptyG d)

/-- The child of a `fork` (R38). -/
def childOf (s : State) (f : ForkReq) (j : Join) (c slot : Nat) : Thread :=
  let t := { Thread.fresh c slot f.cid j.pool f.pc with
    launch := some j.launch, gang := j.gang, forked := true, high := j.high, idx := j.idx, linear := j.linear, fetchFrom := s.wclock }
  (f.vals.zipIdx).foldl (fun t e => t.setG (Fin.ofNat 16 (f.first + e.2)) e.1) t

/-- The status of a `fork` is on its way to gD (R340). -/
def forkStatus (s : State) (id : Nat) (f : ForkReq) (st ep : Nat) : State :=
  { s with forks := tdel id s.forks
           pending := tput id { uid := f.uid, dest := .g f.dest false, bytes := leBytes 8 (st * 2 ^ 32 + ep), bad := none, kf := f.kf
                                node := none, slot := none } s.pending }

/-- FORK_COMPLETE: a `fork` reaches its target core (R38, R39, R340, R341): after the accesses that its release covers, and not
while its context is halted. -/
def execForkComplete (id : Nat) (s : State) : Out :=
  match tget id s.forks with
  | none => .next s
  | some f =>
    if accessesBefore s f.uid f.after || haltedCtx s f.cid then .next s
    else match f.core, f.join with
    | some c, some j =>
      let placed := match tget j.launch s.launches with
        | some x => ((tget j.gang x.places).getD []).contains c
        | none => false
      if !placed || (s.core c).absent then .next (forkStatus s id f 2 0)
      else if !coreFor s c f.cid || !codeFits s c j.pool then .next (forkStatus s id f 1 0)
      else match freeSlots s c with
        | [] => .next (forkStatus s id f 1 0)
        | slot :: _ =>
          let s1 := startThread { s with nextId := s.nextId + 1 } s.nextId (childOf s f j c slot)
          let s2 := { s1 with launches := match tget j.launch s1.launches with
            | some x => tput j.launch { x with alive := x.alive + 1, total := x.total + 1 } s1.launches
            | none => s1.launches }
          .next (forkStatus s2 id f 0 (endpoint s2 c slot).toNat)
    | _, _ => .next (forkStatus s id f 2 0)

/-! ### `migrate` (R49 to R52, R161, R362) -/

/-- Whether a thread is heavy (R49). -/
def heavy (s : State) (u : Nat) (t : Thread) : Bool :=
  decide (t.pool ≠ 0) || t.a.toList.any Option.isSome || s.xfers.any fun e => e.2.uid == u

/-- What an address of `migrate` or `endp` names (R50, R333): the own core, or a core of the cluster. The whole window of a core
names it (DEDUCED, log 17). -/
inductive CoreName where
  | own
  | core (c : Nat)
  | notOwned
  | other
  deriving DecidableEq, Repr

/-- The classes of R50. -/
def coreNamed (s : State) (t : Thread) (va : Word) : CoreName :=
  let n := va.toNat
  if n < poolSize then .own
  else if 0x100000000 ≤ n ∧ n < 0x200000000 then
    let c := clusterOf t.core * 256 + (n - 0x100000000) / 0x1000000
    let part := match s.ctx? t.cid with | some x => x.part | none => 0
    if !isSteward t.core ∧ c = t.core then .own
    else if isSteward t.core || !(partIslands s part).contains (islandOf c) then .notOwned
    else .core c
  else .other

/-- Whether a thread has a scalar register whose fill is pending. -/
def fillsPending (t : Thread) : Bool := t.g.toList.any fun r => r.st == .empty

/-- `migrate` (R50, R51, R161, R362): it waits for the thread's fills and accesses, and then the thread is Leaving. -/
def execMigrate (y : Sync) (a : GNum) (s : State) : Out :=
  notInHandler s <| issue s y [.g a] [] [] fun u t =>
    let i : Instr := .migrate y a
    if heavy s u t then trapHere s u t .migrateHeavy 0
    else match coreNamed s t (t.gval a) with
    | .own => finish s i u t
    | .notOwned => trapAt s u t .notOwned 0 (t.gval a)
    | .other => trapHere s u t .migrateTarget 0
    | .core c =>
      if (s.core c).absent then trapAt s u t .coreAbsent 0 (t.gval a)
      else if fillsPending t then blockOn s u t .regs
      else if accessesBefore s u s.nextId then blockOn s u t .accesses
      else .next { s with threads := tput u { t with status := .leaving, prog := .moving c (nextPc i t) (t.gval a) } s.threads, time := s.time + 1 }

/-- A poisoned register as it arrives after a migration: `taddr` of its reader's trap is 0 (R52), and its detail is that of a failed seal
check or of other poison (R131). The message does not carry which: a free value among the two (log 15). -/
def GReg.moved (det : Byte) (r : GReg) : GReg := { r with src := 0, det := if r.st = .poison then det else r.det }

/-- A migrated thread as it arrives (R52). -/
def Thread.arrived (t : Thread) (draws c slot : Nat) (pc : Word) : Thread :=
  { Thread.fresh c slot t.cid 0 pc with
    launch := t.launch, gang := t.gang, forked := t.forked, high := t.high, idx := t.idx, linear := t.linear
    g := Vector.ofFn fun k => (t.g.get k).moved (BitVec.ofNat 8 (Config.openField (draws + k.val) % 2)), fflags := t.fflags, frm := t.frm, fetchFrom := t.fetchFrom, heldByHalt := t.heldByHalt }

/-- MIGRATION_ACCEPT: the target core accepts a Leaving thread in a free slot; the source slot frees, and the `migrate` has retired (R50,
R52, R62, R229). -/
def execMigrationAccept (u : Nat) (slot : Fin 8) (s : State) : Out :=
  match tget u s.threads with
  | none => .next s
  | some t => match t.status, t.prog with
    | .leaving, .moving c pc _ =>
      if coreFor s c t.cid && codeFits s c 0 && (freeSlots s c).contains slot.val then
        .next ((placeThread { s with draws := s.draws + 16, threads := tdel u s.threads } u (t.arrived s.draws c slot.val pc)).modCtx t.cid
          fun x => { x with lastRetire := s.time })
      else .next s
    | _, _ => .next s

/-- A query of `endp` goes to a core; its answer fills gD, or ends the wait under keep-full (R65, R69, R333). -/
def askCore (s : State) (i : Instr) (y : Sync) (u : Nat) (t : Thread) (d : GNum) (c : Nat) : Out :=
  let p : Pending := { uid := u, dest := .g d false, bytes := [], bad := none, kf := syKf y, node := none, slot := none, asks := some c }
  let s1 := { s with pending := tput s.nextId p s.pending, nextId := s.nextId + 1 }
  if syKf y then blockAt s1 u t .result (.sent s.nextId) else finish s1 i u (t.emptyG d)

/-- `endp` (R333): a query to the named core, whose answer is on its way to gD. -/
def execEndp (y : Sync) (d a : GNum) (s : State) : Out :=
  issue s y [.g a] [] [.g d] fun u t =>
    let i : Instr := .endp y d a
    match t.prog with
    | .sent id => resumeResult s i u t id
    | _ => match coreNamed s t (t.gval a) with
      | .own => askCore s i y u t d t.core
      | .core c => askCore s i y u t d c
      | .notOwned => trapAt s u t .notOwned 0 (t.gval a)
      | .other => trapAt s u t .unmapped 0 (t.gval a)

/-! ### Barriers (R53 to R56, R319 to R321) -/

/-- The order of two f32 codes for `max.f32`: −0 below +0 (R54). -/
def f32Rank (n : Nat) : Nat := if n < 2 ^ 31 then n + 2 ^ 31 else 2 ^ 32 - 1 - n
/-- Whether an f32 code is a NaN. -/
def f32NaN (n : Nat) : Bool := n / 2 ^ 23 % 2 ^ 8 == 255 && n % 2 ^ 23 != 0

/-- The identity of a barrier operation (R54). -/
def barIdentity (op : Nat) : Word :=
  match op with
  | 3 => 0x7FFFFFFFFFFFFFFF
  | 4 => 0x8000000000000000
  | 5 => 0xFFFFFFFFFFFFFFFF
  | 7 => 0xFF800000
  | _ => 0

/-- The combination of a barrier operation (R54, R307). -/
def barCombine (op : Nat) (a b : Word) : Word :=
  match op with
  | 1 => a + b
  | 2 => a ^^^ b
  | 3 => if a.slt b then a else b
  | 4 => if a.slt b then b else a
  | 5 => if a.ult b then a else b
  | 6 => if a.ult b then b else a
  | 7 =>
    let x := a.toNat % 2 ^ 32
    let z := b.toNat % 2 ^ 32
    if f32NaN x || f32NaN z then 0x7FC00000 else w64 (if f32Rank x < f32Rank z then z else x)
  | _ => 0

/-- The barrier of a thread at a level, or none for BAR_LEVEL (R320): the level has one, the thread is a member of its cell, and
it runs within its gang's placement. -/
def barOf (s : State) (t : Thread) (k : Nat) : Option (Nat × BarCell) :=
  if t.forked then none
  else match t.launch with
  | none => none
  | some l => match tget l s.launches with
    | none => none
    | some x =>
      if (match x.levels[k]? with | some v => v.bar.isSome | none => false) && ((tget t.gang x.places).getD []).contains t.core then
        (tget (barKey l k (cellIndex x.levels t.idx k)) s.bars).map fun c => (barKey l k (cellIndex x.levels t.idx k), c)
      else none

/-- A cell with one more arrival (R53). -/
def BarCell.arrive (c : BarCell) (u op : Nat) (v : Word) (d : Option GNum) (split kf covered : Bool) : BarCell :=
  { c with op := op, acc := barCombine op (if c.arrivals.isEmpty then barIdentity op else c.acc) v
           arrivals := c.arrivals ++ [{ uid := u, dest := d, split := split, kf := kf, retired := false, covered := covered }] }

/-- The release of an arrival over the member's earlier accesses is on its way while one of them is not performed (R56, R163). -/
def sendArrival (s : State) (u : Nat) (t : Thread) (key : Nat) : State :=
  if accessesBefore s u s.nextId then
    sendAccess s { newAccess s u t (.barrier key) [{ mkPiece 0 0 [] with loc := .here 0 }] .none 0 none with rel := true }
  else s

/-- Every form of `bar` (R53, R320): the checks, the arrival, and the wait of a blocking form or under keep-full. The arrival counts at
once; the phase is released only once the accesses before it are performed (R56, R163; log 12). -/
def barWith (s : State) (i : Instr) (u : Nat) (t : Thread) (k op : Nat) (v : Word) (d : Option GNum) (split kf : Bool) : Out :=
  match t.prog with
  | .arrived _ _ => blockOn s u t (.barrier k)
  | _ => match barOf s t k with
    | none => trapHere s u t .barLevel 0
    | some (key, c) =>
      if c.arrivals.any fun a => a.uid == u then blockOn s u t (.barrier k)
      else if !c.arrivals.isEmpty && c.op != op then trapHere s u t .barMismatch 0
      else
        let c1 := c.arrive u op v d split kf (!accessesBefore s u s.nextId)
        let s1 := sendArrival s u t key
        let t1 := if split && !kf then (match d with | some n => t.emptyG n | none => t) else t
        if split && !kf then
          .next (keepCell (retireTo s1 u t1 (nextPc i t)) key c1)
        else .next (keepCell (s1.setThread u { t with status := .blocked (.barrier k), prog := .arrived k (nextPc i t) }) key c1)

/-- `bar L` (R53, R319). -/
def execBar (y : Sync) (l : Fin 8) (s : State) : Out :=
  notInHandler s <| withCur s fun u t => barWith s (.bar y l) u t l.val 0 0 none false false

/-- `bar.op.t gD, L, gV` (R53, R319). -/
def execBarOp (y : Sync) (o l : Fin 8) (d v : GNum) (s : State) : Out :=
  notInHandler s <| issue s y [.g v] [] [.g d] fun u t => barWith s (.barOp y o l d v) u t l.val o.val (t.gval v) (some d) false false

/-- `bar.a L` (R53, R319). -/
def execBarA (y : Sync) (l : Fin 8) (s : State) : Out :=
  notInHandler s <| withCur s fun u t => barWith s (.barA y l) u t l.val 0 0 none true false

/-- `bar.a.op.t gD, L, gV` (R53, R319). -/
def execBarAOp (y : Sync) (o l : Fin 8) (d v : GNum) (s : State) : Out :=
  notInHandler s <| issue s y [.g v] [] [.g d] fun u t =>
    barWith s (.barAOp y o l d v) u t l.val o.val (t.gval v) (some d) true (syKf y)

/-- `barw L` (R53, R321). -/
def execBarw (y : Sync) (l : Fin 8) (s : State) : Out :=
  notInHandler s <| withCur s fun u t =>
    match barOf s t l.val with
    | none => trapHere s u t .barLevel 0
    | some (_, c) => if c.arrivals.any fun a => a.uid == u then blockOn s u t (.barrier l.val) else finish s (.barw y l) u t

end Sys2Proof.Machine
end

