-- ==== Sys2Proof/Machine/Messages.lean ====
section
/-! DEFINITION. Active messages, their handlers, fault runs and `hret` (R44 to R48, R75, R156, R238 to R240, R348, R384, R385). -/

namespace Sys2Proof.Machine

open Sys2Proof

/-! ### `send` (R45, R384, R385) -/

/-- The report of a `send` that is never sent (R385). -/
def sendReport (s : State) (t : Thread) (ep : Nat) (c : Cause) (peer : Option Nat) : State :=
  failItem (report s t.cid { addr := w64 ep, cause := c, detail := 0, item := 3, peer := peer, ep := epOf s t }) t.launch

/-- `send` (R45, R385): the message leaves, and the thread goes on. Its trap bit of rt covers the whole range, as its entry R384 says, where
R67 puts the further registers of the range under that of rs (DEDUCED, log 74). -/
def execSend (y : Sync) (n : Fin 9) (e h r : GNum) (s : State) : Out :=
  let rs := regRange r n.val
  issue s y [.g e, .g h] (rs.map .g) [] fun u t =>
    let i : Instr := .send y n e h r
    let ep := (t.gval e).toNat % 2 ^ 32
    let dev := bitsOf ep 23 9
    let part := match s.ctx? t.cid with | some x => x.part | none => 0
    if (t.gval h).toNat % 2 = 1 then trapAt s u t .misaligned 0 (t.gval h)
    else match if dev = s.device then none else peerCheck s part dev with
    | some c => finish (sendReport s t ep c (some dev)) i u t
    | none =>
      if dev = s.device ∧ (s.core (bitsOf ep 11 12)).absent then finish (sendReport s t ep .coreAbsent none) i u t
      else
        let m : Message :=
          { uid := u, cid := t.cid, launch := t.launch, sender := epOf s t, dest := BitVec.ofNat 32 ep, pc := t.gval h
            vals := rs.map t.gval, first := none, refused := false, nacked := false, after := s.nextId }
        finish { s with msgs := tput s.nextId m s.msgs, nextId := s.nextId + 1 } i u t

/-- Whether a slot of a core admits a message for it: the handler slot, or a thread that is Ready or Blocked, with the
generation that the endpoint names (R44). -/
def slotLive (s : State) (c slot gen : Nat) : Bool :=
  decide (slot ≤ 8) && ((s.core c).gens.toList.getD slot 0).toNat == gen
    && (slot == 8 || match agentAt s c slot with
      | some (_, t) => (match t.status with | .ready | .blocked _ => true | _ => false)
      | none => false)

/-- Whether a context is under a ladder, from its soft request on (R230). -/
def underLadder (s : State) (cid : Nat) : Bool :=
  match s.ctx? cid with
  | some x => x.ladder.isSome
  | none => false

/-- Whether a message of this device is deliverable at its destination core (R44, R230). -/
def deliverable (s : State) (m : Message) : Bool :=
  let d := m.dest.toNat
  let c := bitsOf d 11 12
  slotLive s c (bitsOf d 7 4) (bitsOf d 0 7) && (s.core c).ctx == some m.cid && !underLadder s m.cid

/-- MESSAGE_ARRIVAL: a message reaches its destination core, which takes it into its inbox, refuses it, or bounces it (R44, R45,
R48, R385). A message for another device leaves; its answer comes later (R164). -/
def execMessageArrival (id : Nat) (s : State) : Out :=
  match tget id s.msgs with
  | none => .next s
  | some m =>
    if mayArrive s m = false then .next s
    else if m.dev ≠ s.device then .next { s with msgs := tput id (m.tried s.time) s.msgs }
    else
      let c := bitsOf m.dest.toNat 11 12
      if !deliverable s m then .next (bounce s id m .staleEndpoint none)
      else if 64 ≤ (s.core c).inbox.length then .next { s with msgs := tput id { m.tried s.time with refused := true } s.msgs }
      else
        let s1 := s.setCore c { s.core c with inbox := (s.core c).inbox ++ [m] }
        .next (wakeIssuer { s1 with msgs := tdel id s1.msgs } m.uid)

/-- INBOX_NACK_RETRY: a refused message is tried again (R48). -/
def execInboxNackRetry (id : Nat) (s : State) : Out :=
  match tget id s.msgs with
  | none => .next s
  | some m => .next { s with msgs := tput id { m with refused := false } s.msgs }

/-- INBOX_TIMEOUT: a message still refused 2^16 cycles after its first attempt is reported (R48). -/
def execInboxTimeout (id : Nat) (s : State) : Out :=
  match tget id s.msgs with
  | none => .next s
  | some m =>
    if m.refused && (match m.first with | some f => decide (f + 2 ^ 16 ≤ s.time) | none => false) then
      .next (bounce s id m .inboxTimeout (if m.dev = s.device then none else some m.dev))
    else .next s

/-! ### Handlers (R46, R238) -/

/-- The handler of a message as it starts (R46). -/
def messageThread (s : State) (c cid : Nat) (m : Message) : Thread :=
  let t := handlerThread s c cid
    (.message { sender := m.sender, slotField := bitsOf m.dest.toNat 7 4, pc := m.pc, launch := m.launch }) m.pc
  let t1 := (m.vals.zipIdx).foldl (fun t e => t.setG (Fin.ofNat 16 e.2) e.1) t
  (t1.setG 8 (w64 m.sender.toNat)).setG 9 (w64 (bitsOf m.dest.toNat 7 4))

/-- Whether the handler slot of a core may start an agent now. -/
def handlerFree (s : State) (c cid : Nat) : Bool := (agentAt s c 8).isNone && !haltedCtx s cid

/-- HANDLER_START: a core starts its oldest message, when no fault delivery waits (R46, R238). -/
def execHandlerStart (c : Nat) (s : State) : Out :=
  match (s.core c).ctx, (s.core c).faults, (s.core c).inbox with
  | some cid, [], m :: rest =>
    if handlerFree s c cid then
      let s1 := s.setCore c { s.core c with inbox := rest }
      .next { seat s1 s1.nextId (messageThread s1 c cid m) with nextId := s1.nextId + 1 }
    else .next s
  | _, _, _ => .next s

/-- FAULT_RUN_START: a core starts its oldest fault delivery (R238). -/
def execFaultRunStart (c : Nat) (s : State) : Out :=
  match (s.core c).ctx, (s.core c).faults with
  | some cid, d :: rest =>
    if handlerFree s c cid then
      match s.ctx? cid with
      | some x => .next (startFaultRun (s.setCore c { s.core c with faults := rest }) c cid x.fhentry d)
      | none => .next s
    else .next s
  | _, _ => .next s

/-- FAULT_INTERRUPT: a context's pending fault interrupt is delivered to the lowest core that it holds (R238, R244). -/
def execFaultInterrupt (cid : Nat) (s : State) : Out :=
  match s.ctx? cid, heldCores s cid with
  | some x, c :: _ =>
    if x.pendingInt && x.fhentry != 0 then
      .next (queueFault (s.setCtx cid { x with pendingInt := false }) c .interrupt false)
    else .next s
  | _, _ => .next s

/-! ### `hret` (R348) -/

/-- How many successors a Parked `exit` has not enqueued (R238). -/
def Progress.left : Progress → Nat
  | .exiting l | .exitHeld l => l.length
  | _ => 0

/-- Counts failed items. -/
def failItems (s : State) (l : Option Nat) : Nat → State
  | 0 => s
  | n + 1 => failItems (failItem s l) l n

/-- The disposition of a held thread at the `hret` of its fault run (R238). A Parked `exit` that is resumed enqueues again
(R41); a thread that is held no more, after a halt, is left alone. -/
def dispose (s : State) (v : Nat) (g0 g1 : Word) : State :=
  match tget v s.threads with
  | none => s
  | some h =>
    let resume (pc : Word) : State :=
      match h.prog with
      | .exitHeld l => s.setThread v { h with prog := .exiting l }
      | _ => s.setThread v { h with status := .ready, since := s.time, pc := pc, prog := .none }
    if h.status ≠ .blocked .held ∧ (match h.prog with | .exitHeld _ => false | _ => true) = true then s
    else match g0.toNat % 4 with
    | 0 => resume h.tresume
    | 1 => if g1.toNat % 2 = 0 then resume g1 else retireThread (failItems s h.launch h.prog.left) v h true
    | _ => retireThread (failItems s h.launch h.prog.left) v h true

/-- Whether a store, an atomic or a message of an agent is still on its way (R348, R334). -/
def workPending (s : State) (u : Nat) : Bool :=
  s.accs.any (fun e => e.2.uid == u && e.2.kind.writes && decide (e.2.phase ≠ .returning)) || s.msgs.any fun e => e.2.uid == u

/-- `hret` (R46, R156, R238, R348): it waits for the handler's stores, atomics and messages; the handler ends. -/
def execHret (_y : Sync) (s : State) : Out :=
  withCur s fun u t =>
    match t.kind with
    | .thread => trapHere s u t .illegal 0
    | k =>
      if workPending s u then blockOn s u t .accesses
      else
        let s1 := dropAgent { s with time := s.time + 1 } u
        let s2 := s1.setCore t.core { s1.core t.core with hlfsr := t.lfsr }
        match k with
        | .faultRun (.thread v) => .next (dispose s2 v (t.gval 0) (t.gval 1))
        | _ => .next s2

end Sys2Proof.Machine
end

