-- ==== Sys2Proof/Machine/Weir.lean ====
section
/-! DEFINITION. The instructions of the Watershed and the Weir, and the events of a withdrawal (R104 to R121, R345, R360, R368, R388
to R390, R404). -/

namespace Sys2Proof.Machine

open Sys2Proof

/-! ### Operands (R104, R111) -/

/-- The first byte of a range of pages that lies outside translated space, if one does (R99, R111). -/
def outside (va : Word) (pages : Nat) : Option Word :=
  if va.toNat < 0x1000000000000 ∨ 0x100000000000000 ≤ va.toNat then some va
  else if 0x100000000000000 < va.toNat + pages * 4096 then some 0x100000000000000
  else none

/-- The trap of an operand of the space instructions, with its address. -/
abbrev OpTrap := Cause × Word

/-- The checks of R111 on a quad, or the quad in pages. `pc` stands for `taddr` where no address is at fault. -/
def quadOf (grant : Bool) (r0 r1 r2 r3 pc : Word) : Except OpTrap Quad :=
  if bitsOf r1.toNat 34 30 ≠ 0 ∨ (grant = true ∧ bitsOf r1.toNat 20 5 ≠ 0) then .error (.illegal, pc)
  else if r0.toNat % 4096 ≠ 0 then .error (.misaligned, r0)
  else if r2.toNat % 4096 ≠ 0 then .error (.misaligned, r2)
  else if r3.toNat = 0 ∨ 2 ^ 32 < r3.toNat then .error (.illegal, pc)
  else match outside r0 r3.toNat with
  | some a => .error (.unmapped, a)
  | none => match outside r2 r3.toNat with
    | some a => .error (.unmapped, a)
    | none => .ok { src := r0.toNat / 4096, space := bitsOf r1.toNat 0 20, rights := bitsOf r1.toNat 20 5, dev := bitsOf r1.toNat 25 9
                    dst := r2.toNat / 4096, pages := r3.toNat }

/-- The checks of R111 on the pair of `unmap`, or the range in pages. -/
def pairOf (r0 r1 pc : Word) : Except OpTrap (Nat × Nat) :=
  if r0.toNat % 4096 ≠ 0 then .error (.misaligned, r0)
  else if r1.toNat = 0 ∨ 2 ^ 32 < r1.toNat then .error (.illegal, pc)
  else match outside r0 r1.toNat with
  | some a => .error (.unmapped, a)
  | none => .ok (r0.toNat / 4096, r1.toNat)

/-- The space and the tenant of an agent (R71, R109). -/
def callerOf (s : State) (t : Thread) : Nat × Nat :=
  match s.ctx? t.cid with
  | some x => (x.space, x.tenant)
  | none => (0, 0)

/-- A status on its way to its register, when the node change is visible (R108). -/
def sendStatus (s : State) (i : Instr) (y : Sync) (u : Nat) (t : Thread) (d : GNum) (w : Word) (node : Option Nat) : Out :=
  let p : Pending := { uid := u, dest := .g d false, bytes := leBytes 8 w.toNat, bad := none, kf := syKf y, node := node, slot := none }
  let s1 := { s with pending := tput s.nextId p s.pending, nextId := s.nextId + 1 }
  if syKf y then blockAt s1 u t .result (.sent s.nextId) else finish s1 i u (t.emptyG d)

/-- The register n places after gS. -/
def gAfter (r : GNum) (n : Nat) : GNum := Fin.ofNat 16 (r.val + n)

/-- The request that carries a derivation to a peer's node store (R106). -/
def deriveAccess (s : State) (u : Nat) (t : Thread) (y : Sync) (grant : Bool) (node : Nat) (q : Quad) (d : Dest) : Access :=
  { newAccess s u t (.derive grant node q.src q.pages q.rights q.space q.dst) [{ mkPiece 0 0 [] with loc := .peer q.dev 0 }] d 0 y with
    acq := false, rel := false }

/-- `map` and `grant` (R105, R106, R108): a release over the thread's earlier accesses, then the derivation. -/
def deriveWith (s : State) (i : Instr) (y : Sync) (u : Nat) (t : Thread) (grant : Bool) (d r : GNum) : Out :=
  match t.prog with
  | .sent id => resumeResult s i u t id
  | _ =>
    match quadOf grant (t.gval r) (t.gval (gAfter r 1)) (t.gval (gAfter r 2)) (t.gval (gAfter r 3)) t.pc with
    | .error (c, a) => trapAt s u t c 0 a
    | .ok q =>
      if accessesBefore s u s.nextId then blockOn s u t .accesses
      else match derive s (callerOf s t).1 (callerOf s t).2 grant q with
      | .status w s1 node => sendStatus s1 i y u t d w node
      | .remote node =>
        let a := deriveAccess s u t y grant node q (.g d false)
        if syKf y then blockAt (sendAccess s a) u t .result (.sent s.nextId) else finish (sendAccess s a) i u (t.emptyG d)

/-- `map` (R104, R105, R360). -/
def execMap (y : Sync) (d r : GNum) (s : State) : Out :=
  orResumed (.map y d r) s <| issue s y [.g r, .g (gAfter r 1), .g (gAfter r 2), .g (gAfter r 3)] [] [.g d] fun u t =>
    deriveWith s (.map y d r) y u t false d r

/-- `grant` (R104, R105, R345). -/
def execGrant (y : Sync) (d r : GNum) (s : State) : Out :=
  orResumed (.grant y d r) s <| issue s y [.g r, .g (gAfter r 1), .g (gAfter r 2), .g (gAfter r 3)] [] [.g d] fun u t =>
    deriveWith s (.grant y d r) y u t true d r

/-- `unmap` and `unmap.self` (R113): a status at once, or the cut; gD fills at the completion (R117). -/
def unmapWith (s : State) (i : Instr) (y : Sync) (u : Nat) (t : Thread) (self : Bool) (d r : GNum) : Out :=
  match t.prog with
  | .sent id => resumeResult s i u t id
  | _ =>
    match pairOf (t.gval r) (t.gval (gAfter r 1)) t.pc with
    | .error (c, a) => trapAt s u t c 0 a
    | .ok (first, pages) => match unmapCheck s (callerOf s t).1 self first pages with
      | .status w => sendStatus s i y u t d w none
      | .roots is more =>
        let s1 := withdraw s t.cid (.reg u (.g d false) (syKf y)) is more false none
        if syKf y then blockAt s1 u t .result (.sent s.nextId) else finish s1 i u (t.emptyG d)

/-- `unmap` (R113, R404). -/
def execUnmap (y : Sync) (d r : GNum) (s : State) : Out :=
  issue s y [.g r, .g (gAfter r 1)] [] [.g d] fun u t => unmapWith s (.unmap y d r) y u t false d r

/-- `unmap.self` (R113, R404). -/
def execUnmapSelf (y : Sync) (d r : GNum) (s : State) : Out :=
  issue s y [.g r, .g (gAfter r 1)] [] [.g d] fun u t => unmapWith s (.unmapSelf y d r) y u t true d r

/-- `mprobe` (R112, R368). -/
def execMprobe (y : Sync) (d a : GNum) (s : State) : Out :=
  issue s y [.g a] [] [.g d] fun u t =>
    match t.prog with
    | .sent id => resumeResult s (.mprobe y d a) u t id
    | _ => sendStatus s (.mprobe y d a) y u t d (probeWord s (callerOf s t).1 (t.gval a)) none

/-- `spnew` (R109, R390). -/
def execSpnew (y : Sync) (d : GNum) (s : State) : Out :=
  issue s y [] [] [.g d] fun u t =>
    let i : Instr := .spnew y d
    match t.prog with
    | .sent id => resumeResult s i u t id
    | _ => match newSpace s (callerOf s t).2 with
      | some (n, s1) => sendStatus s1 i y u t d (statusWord .ok 0 0 n) none
      | none => sendStatus s i y u t d (statusWord .noSpace 0 0 0) none

/-- The deletion `w` of a space goes on: its next node that no withdrawal has cut is withdrawn, with its subtree; none when no node is
left to cut (R110). -/
def spdelNext (s : State) (w : Nat) (x : Withdrawal) (space : Nat) : Option (Withdrawal × State) :=
  (nextOfSpace s space).map fun i =>
    let r := cut s x.cid x.dest [i] [] false (some space) x.count
    ({ r.1 with swept := x.swept, waits := r.1.waits.filter (· != w) }, r.2)

/-- The deletion of a space begins (R110, R389): the mark, and the withdrawal of its first node. A space without a node to cut is
waited for by an empty withdrawal. -/
def beginSpdel (s : State) (cid : Nat) (dest : WdDest) (space : Nat) : State :=
  let s1 := markSpace s space
  let w0 : Withdrawal :=
    { cid := cid, dest := dest, ranges := [], left := [], swept := [], count := 0, uncut := [], acks := []
      waits := [], holds := false, entry := false, above := [], space := some space, started := s.time }
  let r := (spdelNext s1 s.nextId w0 space).getD (w0, s1)
  { r.2 with wds := tput s.nextId r.1 r.2.wds, nextId := s.nextId + 1 }

/-- `spdel` (R110, R388, R389). -/
def execSpdel (y : Sync) (d r : GNum) (s : State) : Out :=
  issue s y [.g r] [] [.g d] fun u t =>
    let i : Instr := .spdel y d r
    match t.prog with
    | .sent id => resumeResult s i u t id
    | _ =>
      let n := (t.gval r).toNat
      if bitsOf n 20 44 ≠ 0 then trapHere s u t .illegal 0
      else match spdelRefusal s (callerOf s t).2 n with
      | some c => sendStatus s i y u t d (statusWord c 0 0 0) none
      | none =>
        let s1 := beginSpdel s t.cid (.reg u (.g d false) (syKf y)) n
        if syKf y then blockAt s1 u t .result (.sent s.nextId) else finish s1 i u (t.emptyG d)

/-! ### The events of a withdrawal -/

/-- Replaces a withdrawal. -/
def putWd (s : State) (id : Nat) (w : Withdrawal) : State := { s with wds := tput id w s.wds }

/-- Writes that were held, and agents that wait for held translations, look again. -/
def holdsOver (s : State) : State := flushLate (s.wakeAll .accesses)

/-- An `lds` or `ldf` that waits at its word's owner and was translated by a node is dropped when the node is swept (R117). -/
def dropWaiter (i : Nat) (s : State) (e : Nat × Access) : State :=
  match e.2.phase with
  | .waiting _ => if e.2.nodes.contains i then dropTaker s e.1 e.2 else s
  | _ => s

/-- A node is swept: it leaves the store, and what waits through it is dropped (R116, R117). Its children, still to be swept, stay
those of a withdrawn ancestor: they carry the mark from now on (R102, R112 to R114). -/
def sweepNode (s : State) (i : Nat) : State :=
  let s1 := { s with
    nodes := tmap (fun _ n => if n.parent = some i ∧ n.parentDev = none then { n with withdrawn := true } else n) (tdel i s.nodes)
    remotes := s.remotes.filter fun e => e.2.parent != i }
  s.accs.foldl (dropWaiter i) s1

/-- Whether the sweep of a withdrawal may go on: every local cut is in place (R116), or it is that of a cut message under a hold,
which starts at once (R118). A kill's subtree that is held is swept once it has a filter entry and its local cuts (R120). -/
def maySweep (s : State) (x : Withdrawal) : Bool :=
  (x.entry && x.allCut s.time) || (x.holds && match x.dest with | .kill _ => false | _ => true)

/-- The Weir sweeps node i, with `rest` still to sweep. -/
def sweepOne (s : State) (w : Nat) (x : Withdrawal) (i : Nat) (rest : List Nat) : State :=
  let s1 := putWd (sweepNode s i) w { x with left := rest, swept := x.swept ++ [i], count := x.count + 1 }
  if x.holds && rest.isEmpty then holdsOver s1 else s1

/-- REMOTE_CUT: a cut message of a peer reaches this device: the nodes that it names, whose parents lie there, are marked in one
step. With no free filter entry their range is held until the sweep ends (R113, R118). -/
def execRemoteCut (dev : Nat) (ns : List Nat) (s : State) : Out :=
  let mine := ns.filter fun i => match tget i s.nodes with
    | some n => n.parentDev == some dev && !n.withdrawn
    | none => false
  if mine.isEmpty || !anyPort s then .next s
  else .next (withdraw s 0 (.peer dev) mine [] (decide (64 ≤ filterUsed s)) none)

/-- The bytes of a status and whom it goes to when a withdrawal completes (R117, R256). -/
def fillStatus (s : State) (d : WdDest) (w : Word) : State :=
  match d with
  | .reg u dest _ => wakeIssuer (fillDest s u dest (leBytes 8 w.toNat)) u
  | .host fn => endRootSpace s fn (leBytes 8 w.toNat)
  | .peer _ => s
  | .kill _ => s

/-- Whether an access translated by a node that a withdrawal swept, before its station's local cut, is not performed yet
(R117). -/
def sweptInFlight (s : State) (x : Withdrawal) : Bool :=
  s.accs.any fun e => decide (e.2.phase ≠ .returning) && e.2.nodes.any fun i => x.swept.contains i

/-- Whether a withdrawal may complete (R114, R117). -/
def mayComplete (s : State) (x : Withdrawal) : Bool :=
  x.left.isEmpty && (x.allCut s.time || x.holds) && x.acks.isEmpty && !x.waits.any (fun i => (tget i s.wds).isSome)
    && !sweptInFlight s x

/-- A space whose nodes are all gone is free (R110, R120). -/
def freeSpace (s : State) (space : Nat) : State :=
  if spaceBusy s space || s.wds.any (fun e => e.2.space == some space) then s else { s with spaces := tdel space s.spaces }

/-- Every deleted space with no node and no withdrawal left is free: one whose last node was swept by a withdrawal that others had begun,
too (R110, R120). -/
def freeDeleted (s : State) : State := (s.spaces.filter fun e => e.2.deleted).foldl (fun s e => freeSpace s e.1) s

/-- A filter entry that frees goes to a killed context's subtree that is held for want of one: its local cuts follow (R120). -/
def entryFreed (s : State) : State :=
  if 64 ≤ filterUsed s then s
  else match tfind (fun _ x => x.holds && !x.entry && !x.left.isEmpty && match x.dest with | .kill _ => true | _ => false) s.wds with
    | some (w, x) => putWd s w { x with entry := true, started := s.time }
    | none => s

/-- Whether the deletion of a space still waits for nodes of it that withdrawals of their ancestors have cut (R110). -/
def deletionWaits (s : State) (x : Withdrawal) : Bool :=
  match x.space with | some sp => spaceBusy s sp | none => false

/-- A withdrawal is over: its filter entry frees, a deleted space with no node left is free, and its status fills (R110, R117). -/
def endWithdrawal (s : State) (w : Nat) (x : Withdrawal) : State :=
  let s1 := entryFreed { s with wds := tdel w s.wds }
  fillStatus (freeDeleted s1) x.dest (statusWord .ok 0 0 x.count)

/-- WITHDRAWAL_COMPLETE: the status fills, and the filter entries are freed; the deletion of a space first goes on with its next
node, and ends when its last node is swept (R110, R117). -/
def execWithdrawalComplete (w : Nat) (s : State) : Out :=
  match tget w s.wds with
  | none => .next s
  | some x =>
    if !mayComplete s x then .next s
    else match x.dest with
      | .kill _ => .next (endWithdrawal s w x)
      | _ => match x.space.bind (spdelNext s w x) with
        | some (x1, s1) => .next (putWd s1 w x1)
        | none => if deletionWaits s x then .next s else .next (endWithdrawal s w x)

end Sys2Proof.Machine
end

