-- ==== Sys2Proof/Machine/Ladder.lean ====
section
/-! DEFINITION. The ladder: soft request, grace expiry, save, kill, restore (R76 to R78, R120, R184, R195, R205, R215, R229 to R234,
R239, R277 to R279). -/

namespace Sys2Proof.Machine

open Sys2Proof

/-! ### Ladder records and requests (R229, R230, R232, R277) -/

/-- A ladder record is written at its place in the ladder report area (R232). -/
def ladderRecord (s : State) (cid step : Nat) : State :=
  match s.ctx? cid with
  | none => s
  | some x => match x.ladder with
    | none => s
    | some l => rootWrite s (x.ladrep + w64 (32 * (step - 1)))
        (leBytes 8 (step + l.trigger * 2 ^ 8 + (if step = 4 then l.detail * 2 ^ 16 else 0) + cid * 2 ^ 32)
          ++ leBytes 8 (l.stoppedYield % 2 ^ 32 + l.stoppedBoundary % 2 ^ 32 * 2 ^ 32) ++ leBytes 8 s.time ++ leBytes 8 l.seq)

/-- Commands of host functions are over. -/
def endCommands (s : State) (fns : List Nat) : State := fns.foldl (fun s n => endCommand s n 0 0) s

/-- The agents of a context, by core and slot, lowest first. -/
def agentsOf (s : State) (cid : Nat) : List (Nat × Thread) :=
  ((s.threads.filter fun e => e.2.cid == cid).foldl
    (fun (acc : Table (Nat × Thread)) e => tput (e.2.core * 16 + e.2.slot) e acc) []).map Prod.snd

/-- The publications of a context leave the halo engine; the threads that wait for them issue again (R205). -/
def dropPubs (s : State) (cid : Nat) : State := { s with pubs := s.pubs.filter fun e => e.2.cid != cid }

/-- The grant of the array ends where its queue is empty, or its head may not go on: the pointer moves past the core (R186, R195). -/
def Tile.endGrant (stopped : MxCmd → Bool) (t : Tile) : Tile :=
  if t.units = 0 then t
  else match t.queue t.pointer with
    | c :: _ => if stopped c then { t with units := 0, pointer := (t.pointer + 1) % 8 } else t
    | [] => { t with units := 0, pointer := (t.pointer + 1) % 8 }

/-- Whether a command is an `mma` that a grant runs. -/
def MxCmd.running (s : State) (c : MxCmd) : Bool := mxReads s c && match c.op with | .mma _ _ _ _ _ => true | _ => false

/-- At a halt the commands of threads that are gone run to retirement, ahead of those of the context's agents, which stop and are saved;
a running `mma` of those stops at its next k-block boundary: one more k-block of it retires (R187, R195, R230). -/
def Tile.halting (s : State) (cid : Nat) (t : Tile) : Tile :=
  let stays (c : MxCmd) : Bool := c.cid == cid && (s.agent? c.uid).isSome
  let order (q : List MxCmd) : List MxCmd := q.filter (fun c => !stays c) ++ q.filter stays
  let runs := decide (t.units ≠ 0) && match t.queue t.pointer with | c :: _ => stays c && c.running s | [] => false
  if runs then { t with units := 1, queues := tmap (fun p q => if p = t.pointer then q.take 1 ++ order (q.drop 1) else order q) t.queues }
  else Tile.endGrant stays { t with queues := tmap (fun _ q => order q) t.queues }

/-- Whether the array still runs a k-block of a context's command. -/
def Tile.runs (cid : Nat) (t : Tile) : Bool := decide (t.units ≠ 0) && match t.queue t.pointer with | c :: _ => c.cid == cid | [] => false

/-- Issue of a context ends: every thread that has not stopped stops at its boundary, and so do its matrix commands; its
transfers park (R184, R195, R230). -/
def beginHalt (s : State) (cid : Nat) : State :=
  let n := (s.threads.filter fun e => e.2.cid == cid && !e.2.inHandler && !e.2.heldByHalt).length
  let s1 := { dropPubs s cid with
    threads := tmap (fun _ t => if t.cid = cid then { t with heldByHalt := true } else t) s.threads
    tiles := tmap (fun _ t => t.halting s cid) s.tiles
    xfers := tmap (fun _ x => if x.cid = cid then { x with parked := true } else x) s.xfers }
  s1.modCtx cid fun x => { x with
    ladder := x.ladder.map fun l => { l with halting := true, stoppedBoundary := l.stoppedBoundary + n } }

/-- A new ladder of a context: a thread that retires at `exit` in the cycle of the request counts as stopped there (R241, R277). -/
def Ladder.begin (x : Context) (trigger now : Nat) (answers : List Nat) : Ladder :=
  { trigger := trigger, start := now, halting := false, grace := x.grace, kill := x.kill, seq := x.seq + 1
    stoppedYield := if x.lastExits.1 = now then x.lastExits.2 else 0
    stoppedBoundary := 0, detail := 0, destroy := false, answers := answers }

/-- A trigger of the ladder: it starts with the soft request, or joins the ladder that runs. With a grace of 0 the request and
the expiry fall together, and the first record is that of step 2 (R229, R230, R277). -/
def softRequest (s : State) (cid trigger : Nat) (answers : List Nat) : State :=
  match s.ctx? cid with
  | none => s
  | some x => match x.st, x.ladder with
    | .running, some l => s.setCtx cid { x with ladder := some { l with answers := l.answers ++ answers } }
    | .running, none =>
      let s1 := s.setCtx cid { x with ladder := some (Ladder.begin x trigger s.time answers), seq := x.seq + 1 }
      if x.grace = 0 then ladderRecord (beginHalt s1 cid) cid 2 else ladderRecord s1 cid 1
    | _, _ => s

/-- Whether an agent counts as stopped (R230, R239). -/
def Thread.stopped (t : Thread) : Bool :=
  if t.inHandler then t.heldByHalt
  else t.heldByHalt || match t.status with | .blocked _ | .parked => true | _ => false

/-- ALL_STOPPED: every thread of a context stopped before its grace ended; the halt follows (R230). -/
def execAllStopped (cid : Nat) (s : State) : Out :=
  match s.ctx? cid with
  | none => .next s
  | some x => match x.st, x.ladder with
    | .running, some l =>
      if !l.halting && (agentsOf s cid).all (fun e => e.2.stopped) then .next (beginHalt s cid) else .next s
    | _, _ => .next s

/-- GRACE_EXPIRY (R230). -/
def execGraceExpiry (cid : Nat) (s : State) : Out :=
  match s.ctx? cid with
  | none => .next s
  | some x => match x.st, x.ladder with
    | .running, some l =>
      if !l.halting && decide (l.start + l.grace ≤ s.time) then .next (ladderRecord (beginHalt s cid) cid 2) else .next s
    | _, _ => .next s

/-! ### The kill (R120, R231) -/

/-- A tile without the commands, reads and slots of a context. -/
def Tile.without (s : State) (cid : Nat) (t : Tile) : Tile :=
  let mine (u : Nat) : Bool := match s.agent? u with | some a => a.cid == cid | none => false
  let cmds := (t.queues.map fun e => e.2.filter fun c => c.cid == cid).flatten
  let gone (k : Nat) (x : AccSlot) : Bool :=
    cmds.any (fun c => c.slot == k) || match x.owner with | some (u, _) => mine u | none => false
  let qs := (t.queues.map fun e => (e.1, e.2.filter fun c => c.cid != cid)).filter fun e => !e.2.isEmpty
  Tile.endGrant (fun _ => false) { t with
    slots := t.slots.filter fun e => !gone e.1 e.2
    queues := qs
    reads := t.reads.filter fun e => e.2.cid != cid
    waiters := t.waiters.filter fun w => !mine w.1 }

/-- A core is freed by its context: the inbox and the deliveries fall away (R28, R230, R231). -/
def freeCore (s : State) (c : Nat) : State := (s.setCore c { s.core c with ctx := none, inbox := [], faults := [] }).wakeAll .engine

/-- Whether an access is a request that waits for a word, or will (R149, R150): it takes no word once its context is killed. -/
def Access.takesWord (a : Access) : Bool :=
  match a.phase, a.kind with
  | .waiting _, _ => true
  | .flying, .lds | .flying, .ldf => true
  | _, _ => false

/-- Every thread, matrix command, transfer and wait of a context is dropped, its queues are fenced and its cores freed (R174, R205,
R212, R231). -/
def dropContext (s : State) (cid : Nat) : State :=
  let us := ((s.threads ++ s.saved).filter fun e => e.2.cid == cid).map Prod.fst
  let s1 := { dropPubs s cid with
    tiles := s.tiles.map fun e => (e.1, e.2.without s cid)
    xfers := s.xfers.filter fun e => e.2.cid != cid
    forks := s.forks.filter fun e => e.2.cid != cid
    accs := s.accs.filter fun e => !(e.2.cid == cid && e.2.takesWord)
    frames := s.frames.filter fun e => !us.contains e.1
    areas := s.areas.filter fun e => e.1 / 8192 != cid
    grids := s.grids.filter fun e => e.1 / 64 != cid
    tags := s.tags.filter fun e => !(e.2.cid == cid && e.2.left == 0)
    queues := tmap (fun _ q => if q.cid = cid then { q with fenced := true } else q) s.queues }
  let s2 := { us.foldl dropAgent s1 with saved := s.saved.filter fun e => e.2.cid != cid }
  let s3 := (((heldCores s2 cid).map tileOf).eraseDups).foldl collectSlots ((heldCores s2 cid).foldl freeCore s2)
  ((s3.modCtx cid fun x => { x with st := .dead, devq := [], ovq := [], pendingInt := false }).wakeAll .matrix).wakeAll .tag

/-- Where the completion records of a context's launches go is found before its space is deleted (R120, R231; log 59). -/
def findDone (s : State) (cid : Nat) (x : Context) : State :=
  { s with launches := tmap (fun _ (l : Launch) =>
      if l.cid = cid ∧ l.donerec ≠ 0 then { l with doneAt := match roomAt s x.space x.part 0 l.donerec rWrite with
        | .here key tenant => .here key tenant
        | .peer _ => .away
        | .fail c => .failed c
        | .hold => match findNode s x.space (l.donerec.toNat / 4096) with
          | some (_, n) => if n.dev = s.device then .here ((n.page + (l.donerec.toNat / 4096 - n.vpage)) * 4096 + l.donerec.toNat % 4096) n.tenant
            else .away
          | none => .failed .unmapped }
      else l) s.launches }

/-- One subtree of a killed context's space is cut, with a filter entry, or under a hold when none is free (R120). -/
def killCut (cid space : Nat) (s : State) (i : Nat) : State :=
  if marked s i then s else withdraw s cid (.kill cid) [i] [] (decide (64 ≤ filterUsed s)) (some space)

/-- The deletion of a killed context's space: the mark and every cut, in one step (R120). -/
def killSpace (s : State) (cid space : Nat) : State :=
  if space = 0 ∨ s.contexts.any (fun e => e.1 != cid && e.2.space == space && decide (e.2.st ≠ .dead)) then s
  else
    let s1 := markSpace s space
    let all := nodesOf s1 space
    if all.isEmpty then freeSpace s1 space
    else
      let w0 : Withdrawal :=
        { cid := cid, dest := .kill cid, ranges := [], left := [], swept := [], count := 0, uncut := [], acks := []
          waits := [], holds := true, entry := false, above := [], space := some space, started := s1.time }
      all.foldl (killCut cid space) { s1 with wds := tput s1.nextId w0 s1.wds, nextId := s1.nextId + 1 }

/-- Whether every cut or hold of a kill is in place (R120). -/
def killReady (s : State) (cid : Nat) : Bool :=
  s.wds.all fun e => e.2.dest != .kill cid || (((e.2.entry && e.2.allCut s.time) || e.2.holds) && e.2.acks.isEmpty)

/-- The end of a kill: the completion records, the ladder record of step 4, and the commands that waited for it (R231, R232). -/
def killFinish (s : State) (cid : Nat) (l : Ladder) : State :=
  let s1 := ladderRecord ((s.launches.filter fun e => e.2.cid == cid).foldl (fun s e => killLaunch s e.1 e.2) s) cid 4
  let s2 := endCommands (s1.modCtx cid fun x => { x with ladder := none }) l.answers
  if l.destroy then
    match s2.ctx? cid with
    | some x => retireTenant { s2 with contexts := tdel cid s2.contexts } x.tenant
    | none => s2
  else s2

/-- A kill goes on once every cut or hold is in place (R231). -/
def killCheck (s : State) (cid : Nat) : State :=
  match s.ctx? cid with
  | some x => match x.st, x.ladder with
    | .dead, some l => if killReady s cid then killFinish s cid l else s
    | _, _ => s
  | none => s

/-- The kill of a context, running or halted (R231). -/
def killContext (s : State) (cid detail : Nat) (destroy : Bool) (answers : List Nat) : State :=
  match s.ctx? cid with
  | none => endCommands s answers
  | some x =>
    if x.st = .dead then s
    else
      let l := x.ladder.getD (Ladder.begin x 4 s.time [])
      let l1 := { l with detail := detail, destroy := destroy, answers := l.answers ++ answers }
      let s1 := dropContext s cid
      let s2 := s1.modCtx cid fun y => { y with ladder := some l1, seq := l1.seq }
      killCheck (killSpace (findDone s2 cid x) cid x.space) cid

/-- KILL_EXPIRY: a context that has not halted by the end of its kill timer is killed (R230, R231). -/
def execKillExpiry (cid : Nat) (s : State) : Out :=
  match s.ctx? cid with
  | none => .next s
  | some x => match x.st, x.ladder with
    | .running, some l =>
      if l.start + l.grace + l.kill ≤ s.time then .next (killContext s cid 0 false []) else .next s
    | _, _ => .next s

/-! ### The save (R76, R77, R184, R195, R233) -/

/-- Whether the words of a parked transfer that were started have all landed, in mode 1 those of every block begun (R184). -/
def parkedClosed (x : Transfer) : Bool :=
  !(List.range (shCount x.shape + shScales x.shape)).any fun e => beginsWord x e && !x.landed.contains e && x.started e

/-- Whether a context is stopped at grace expiry: its issue has ended, its matrix commands stand at k-block boundaries, those of exited
threads retired, and its transfers are parked, their started words landed (R184, R195, R230, R330). -/
def saveStopped (s : State) (cid : Nat) : Bool :=
  (match s.ctx? cid with
    | some x => (match x.st, x.ladder with | .running, some l => l.halting | _, _ => false)
    | none => false)
    && s.tiles.all (fun e => !e.2.runs cid && e.2.queues.all fun q => q.2.all fun c => c.cid != cid || (s.agent? c.uid).isSome)
    && s.xfers.all (fun e => e.2.cid != cid || parkedClosed e.2)

/-- Whether the save of a context that is being halted may be written: it is stopped, no thread is Leaving, and no access is on its way to
a pool that is to be freed (R230; DEDUCED, log 34). -/
def saveReady (s : State) (cid : Nat) : Bool :=
  let cores := heldCores s cid
  saveStopped s cid
    && (agentsOf s cid).all (fun e => decide (e.2.status ≠ .leaving))
    && s.accs.all fun e => decide (e.2.phase ≠ .flying) || e.2.pieces.all fun p => match p.loc with
        | .here k => p.done || !isPoolKey k || !cores.contains (poolCore k)
        | _ => true

/-- An agent as it is saved (R77, R78, R239, R278, R387): Blocked in a `bar` it stays so, at the instruction after it; a sleep ends; a
Parked `exit` goes on later; every other wait begins anew, and so does the instruction of a thread that is held for its fault handler.
A fault run for a thread goes on as a handler record that no thread is held for any more. -/
def Thread.savedForm (t : Thread) : Thread :=
  let k := match t.kind with | .faultRun (.thread _) => Kind.faultRun .interrupt | k => k
  let t0 := { t with heldByHalt := false, pauseUntil := 0, kind := k }
  match t.status, t.prog with
  | .parked, .exitHeld l => { t0 with prog := .exiting l }
  | .parked, _ => t0
  | .blocked (.barrier _), .arrived _ next => { t0 with pc := next }
  | .blocked .sleep, .sleeping _ next => { t0 with pc := next, prog := .none, status := .ready }
  | _, .sent _ | _, .waited _ => { t0 with status := .ready }
  | _, _ => { t0 with prog := .none, status := .ready }

/-- A Blocked `tagpub` is issued again at restore; what its request answers goes nowhere (R215). -/
def reissueTag (s : State) (t : Thread) : State × Thread :=
  match t.prog with
  | .sent id => match tget id s.accs with
    | some a => (match a.kind with
      | .tagpub _ _ _ _ => ({ s with accs := tput id { a with dest := .none, kf := false } s.accs }, { t with prog := .none })
      | _ => (s, t))
    | none => (s, t)
  | _ => (s, t)

/-- The slots that an agent's handles name, or its queued commands (R193, R195). -/
def slotsOf (x : Tile) (u : Nat) (t : Thread) (cmds : List MxCmd) : List Nat :=
  (x.slots.filter fun e => t.a.toList.contains (some e.1) || cmds.any fun c => c.slot == e.1 && c.uid == u).map Prod.fst

/-- An agent is saved as a frame: its registers, its slots, its matrix commands and its refill entries leave the machine (R76, R77,
R195). -/
def saveAgent (s : State) (u : Nat) : State :=
  match tget u s.threads with
  | none => s
  | some t =>
    let x := s.tile (tileOf t.core)
    let p := t.core % 8
    let cmds := (x.queue p).filter fun c => c.uid == u
    let rest := (x.queue p).filter fun c => c.uid != u
    let ks := slotsOf x u t cmds
    let f : Frame := { images := x.slots.filter fun e => ks.contains e.1, cmds := cmds, refills := x.reads.filter fun e => e.2.uid == u }
    let x1 : Tile := Tile.endGrant (fun _ => false) { x with
      slots := x.slots.filter fun e => !ks.contains e.1
      queues := if rest.isEmpty then tdel p x.queues else tput p rest x.queues
      reads := x.reads.filter fun e => e.2.uid != u
      waiters := x.waiters.filter fun w => w.1 != u }
    let r := reissueTag (s.setTile (tileOf t.core) x1) t
    { r.1 with threads := tdel u r.1.threads
               saved := tput u r.2.savedForm r.1.saved
               frames := tput u f r.1.frames }

/-- What the save keeps of a core (R233). A fault interrupt that has not started there is the context's (R238). -/
def areaOf (s : State) (cid c : Nat) : CoreArea :=
  let x := s.core c
  { bytes := (s.mem.filter fun e => isPoolKey e.1 && poolCore e.1 == c).map fun e => (e.1 - poolBase c, e.2)
    words := (s.words.filter fun e => isPoolKey (e.1 * 8) && poolCore (e.1 * 8) == c).map fun e => (e.1 - poolBase c / 8, e.2)
    soft := (s.softWords.filter fun k => isPoolKey (k * 8) && poolCore (k * 8) == c).map fun k => k - poolBase c / 8
    pool := x.pool, inbox := x.inbox, hlfsr := x.hlfsr
    faults := x.faults.filter fun d => match d with | .message _ _ _ _ _ _ => true | _ => false
    waiters := s.accs.filter fun e => e.2.cid == cid && (match e.2.phase with | .waiting _ => true | _ => false)
      && match e.2.wordKey with | some k => isPoolKey (k * 8) && poolCore (k * 8) == c | none => false }

/-- A core of a halted context is saved and freed; the halt raises its handler slot's generation (R230). -/
def saveCore (cid : Nat) (s : State) (c : Nat) : State :=
  let a := areaOf s cid c
  freeCore (bumpGen { s with areas := tput (areaKey cid c) a s.areas
                             accs := s.accs.filter fun e => (tget e.1 a.waiters).isNone } c 8) c

/-! ### The bytes of the save extent (R76, R184, R195, R233) -/

/-- Fields of some bits each, lowest first. -/
def fieldsOf (w : Nat) (xs : List Nat) : Nat := xs.foldr (fun x acc => x % 2 ^ w + 2 ^ w * acc) 0

/-- The barrier-state word of an agent (R76, R278). -/
def barrierState (s : State) (u : Nat) (t : Thread) : Nat :=
  let arr (k : Nat) : Option Arrival := match t.launch with
    | none => none
    | some l => match tget l s.launches with
      | none => none
      | some x => match tget (barKey l k (cellIndex x.levels t.idx k)) s.bars with
        | some c => c.arrivals.find? fun a => a.uid == u
        | none => none
  let waits (k : Nat) : Bool := match t.prog with | .arrived j _ => j == k | _ => false
  ((List.range 8).map fun k => match arr k with
    | none => 0
    | some a => 2 ^ k + (match a.dest with | some d => d.val * 2 ^ (8 + 4 * k) + 2 ^ (40 + k) | none => 0)
        + (if waits k then 2 ^ (48 + k) else 0)).foldl (· + ·) 0

/-- What an agent's frame holds, by offset (R76). -/
def frameBytes (s : State) (u : Nat) (t : Thread) (f : Frame) : List (Nat × List Byte) :=
  let left := match t.prog with | .exiting l | .exitHeld l => l | _ => []
  let parked := decide (t.status = .parked)
  let gs := if parked then ((left.map BitVec.toNat) ++ List.replicate 4 0).take 4 ++ ((t.g.toList.drop 4).map fun r => r.val.toNat)
    else t.g.toList.map fun r => r.val.toNat
  [(0x000, (gs.map (leBytes 8)).flatten), (0x080, leBytes 8 t.pc.toNat), (0x088, leBytes 8 (codesOf (t.g.toList.map fun r => r.st.code))),
   (0x090, leBytes 8 (codesOf (t.v.toList.map fun r => r.st.code))), (0x098, leBytes 16 (fieldsOf 16 t.idx)),
   (0x0A8, leBytes 8 (lidOf s t + (if t.high then 2 ^ 32 else 0) + t.pool * 2 ^ 33 + (if t.inHandler then 2 ^ 35 else 0)
     + (if parked then 2 ^ 36 else 0))),
   (0x0B0, leBytes 8 (barrierState s u t)), (0x0B8, t.a.toList.map fun a => if a.isSome then 0x80 else 0),
   (0x0C0, leBytes 8 t.fflags.toNat ++ leBytes 8 t.frm.toNat ++ leBytes 8 t.lfsr.toNat ++ leBytes 8 t.mxweight.toNat
     ++ leBytes 8 t.stepwin.toNat ++ leBytes 8 t.tvec.toNat ++ leBytes 8 t.tcause.toNat ++ leBytes 8 t.taddr.toNat ++ leBytes 8 t.tresume.toNat),
   (0x108, leBytes 16 (fieldsOf 16 (t.q.toList.map BitVec.toNat))), (0x120, (t.h.toList.map fun h => leBytes 16 h.toNat).flatten),
   (0x160, (((f.refills.map fun (e : Nat × Mrd) => 2 ^ 63 + e.2.dest.val * 2 ^ 48 + e.2.handle * 2 ^ 40 + e.2.sel) ++ List.replicate 8 0).take 8).map
     (leBytes 8) |>.flatten)]
  ++ ((List.range (poolRegs t.pool)).map fun k => (0x200 + 64 * k, agentV s u t (Fin.ofNat 32 k)))
  ++ ((List.range 8).filterMap fun k => ((t.a.toList.getD k none).bind fun slot => tget slot f.images).map fun x =>
       (0x1000 + 0x4000 * k, (x.words.map fun w => leBytes 4 w.toNat).flatten))

/-- An operand of a matrix command record. -/
def MxOperand.record : MxOperand → List Byte
  | .pool base layout => leBytes 8 base.toNat ++ leBytes 8 layout.toNat
  | .run x _ _ => leBytes 16 x

/-- Whether an operand is a run of vector registers. -/
def MxOperand.isRun : MxOperand → Bool
  | .run _ _ _ => true
  | .pool _ _ => false

/-- A matrix command record (R195). -/
def commandRecord (c : MxCmd) : List Byte :=
  match c.op with
  | .mma ta _ m a b =>
    leBytes 8 (c.handle + (m - 1) * 2 ^ 3 + (if a.isRun then 2 ^ 7 else 0) + (if b.isRun then 2 ^ 8 else 0) + ta.code * 2 ^ 9)
      ++ leBytes 8 c.blocks ++ a.record ++ b.record
  | .mzero => leBytes 8 (c.handle + 2 ^ 16) ++ leBytes 8 c.blocks
  | .mwr sel src _ => leBytes 8 (c.handle + 2 * 2 ^ 16 + sel * 2 ^ 24 + src * 2 ^ 32) ++ leBytes 8 c.blocks
  | .mrel => leBytes 8 (c.handle + 3 * 2 ^ 16) ++ leBytes 8 c.blocks

/-- The first element of a transfer that is not started: it begins a destination word, or a block in mode 1 (R184). -/
def Transfer.nextElement (x : Transfer) : Nat :=
  if shMode x.shape = 1 then 32 * x.begun
  else ((List.range (shCount x.shape)).find? fun e => beginsWord x e && !x.landed.contains e).getD (shCount x.shape)

/-- A transfer record (R184). -/
def transferRecord (x : Transfer) : List Byte :=
  leBytes 8 x.dst.toNat ++ leBytes 8 x.src.toNat ++ leBytes 16 x.shape.toNat ++ leBytes 8 x.ctr.toNat
    ++ leBytes 8 (x.nextElement + x.frm.toNat * 2 ^ 36) ++ leBytes 8 x.seed.toNat

/-- A barrier record (R233): launch ID, level, operation; the cell's first linear index; arrivals and exited members; the value. -/
def barrierRecord (x : Launch) (key : Nat) (c : BarCell) : List Byte :=
  let level := barLevelOf key
  let first := barCellOf key * ((x.levels.take (level + 1)).foldl (fun n l => n * l.ext) 1)
  leBytes 8 (x.lid + level * 2 ^ 32 + c.op * 2 ^ 40) ++ leBytes 8 first
    ++ leBytes 8 (c.arrivals.length + c.exited % 2 ^ 32 * 2 ^ 32) ++ leBytes 8 c.acc.toNat

/-- The barrier records of a context: one per open phase. -/
def barrierRecords (s : State) (cid : Nat) : List (List Byte) :=
  s.bars.filterMap fun e => match tget (barLaunchOf e.1) s.launches with
    | some x => if x.cid = cid ∧ !e.2.arrivals.isEmpty then some (barrierRecord x e.1 e.2) else none
    | none => none

/-- The bytes of an inbox in a core's area: 64 entries of 128 bytes, whose layout is not given: free values (R233; log 40). -/
def inboxBytes (from_ : Nat) : List Byte := (List.range 8192).map fun i => BitVec.ofNat 8 (Config.openField (from_ + i))

/-- What a core's area holds, by offset (R233). -/
def areaBytes (a : CoreArea) (from_ : Nat) : List (Nat × List Byte) :=
  [(0, (List.range poolSize).map fun i => memByte a.bytes i),
   (0x60000, (List.range 12288).map fun i => BitVec.ofNat 8 (codesOf ((List.range 4).map fun j =>
     ((tget (4 * i + j) a.words).getD .empty).code))),
   (0x63000, inboxBytes from_)]

/-- The bytes that the save extent needs (R221, R233). -/
def saveNeed (frames cores transfers barriers : Nat) : Nat :=
  let t := 0x1000 + frames * 0x22000 + cores * 0x65000
  (t + transfers * 64 + 4095) / 4096 * 4096 + barriers * 32

/-- Everything that a save writes in the save extent, by offset; the word at 0 comes last (R233). `us` and `cs` are the frames' agents
and the cores, in order. -/
def extentBytes (s : State) (cid : Nat) (us cs : List Nat) : List (Nat × List Byte) :=
  let xs := (s.xfers.filter fun e => e.2.cid == cid).map Prod.snd
  let bs := barrierRecords s cid
  let tArea := 0x1000 + us.length * 0x22000 + cs.length * 0x65000
  let bArea := (tArea + xs.length * 64 + 4095) / 4096 * 4096
  let devq := match s.ctx? cid with | some x => x.devq.map fun e => e.addr.toNat | none => []
  let frame (i u : Nat) : List (Nat × List Byte) := match tget u s.saved, tget u s.frames with
    | some t, some f =>
      ((frameBytes s u t f ++ (f.cmds.zipIdx.map fun (e : MxCmd × Nat) => (0x21000 + 64 * e.2, commandRecord e.1))
        ++ [(0x21100, leBytes 8 (f.cmds.length + t.slot * 2 ^ 8 + t.core * 2 ^ 16))]).map fun (e : Nat × List Byte) => (0x1000 + 0x22000 * i + e.1, e.2))
    | _, _ => []
  let area (j c : Nat) : List (Nat × List Byte) := match tget (areaKey cid c) s.areas with
    | some a => (areaBytes a (s.draws + 8192 * j)).map fun e => (0x1000 + us.length * 0x22000 + j * 0x65000 + e.1, e.2)
    | none => []
  [(0x008, leBytes 8 (tArea / 4096 + bArea / 4096 * 2 ^ 32)), (0x010, leBytes 8 (xs.length + bs.length * 2 ^ 32)),
   (0x200, leBytes 512 ((cs.map fun c => 2 ^ c).foldl (· + ·) 0)),
   (0x800, (((devq ++ List.replicate 256 0).take 256).map (leBytes 8)).flatten)]
  ++ (us.zipIdx.map fun e => frame e.2 e.1).flatten ++ (cs.zipIdx.map fun e => area e.2 e.1).flatten
  ++ (xs.zipIdx.map fun e => (tArea + 64 * e.2, transferRecord e.1)) ++ (bs.zipIdx.map fun e => (bArea + 32 * e.2, e.1))
  ++ [(0, leBytes 8 (1 + us.length * 2 ^ 32))]

/-- The pages that a range of bytes meets. -/
def pagesOf (key n : Nat) : List Nat := (List.range ((key + n + 4095) / 4096 - key / 4096)).map (key / 4096 + ·)

/-- A write of firmware in the save extent of a context, page by page (R221, R233). -/
def physWrite (s : State) (cid base : Nat) (e : Nat × List Byte) : State :=
  let key := base + e.1
  (pagesOf key e.2.length).foldl (fun s pg =>
    let lo := max key (pg * 4096)
    let hi := min (key + e.2.length) (pg * 4096 + 4096)
    extentWrite s cid lo ((e.2.drop (lo - key)).take (hi - lo))) s

/-- The save of a context: frames, core areas, transfer and barrier records; the cores are freed, the context is halted, a fault
interrupt that has not started stays pending (R238), and the ladder record of step 3 is written (R230, R233). -/
def saveContext (s : State) (cid : Nat) (x : Context) (l : Ladder) : State :=
  let us := (agentsOf s cid).map Prod.fst
  let cs := heldCores s cid
  let s1 := us.foldl saveAgent s
  let s2 := cs.foldl (saveCore cid) s1
  let s3 := (extentBytes s2 cid us cs).foldl (fun s e => physWrite s cid x.savebase e) { s2 with draws := s2.draws + 8192 * cs.length }
  let s4 := s3.modCtx cid fun y => { y with
    st := .halted { trigger := l.trigger, cores := cs, frames := us, since := s.time }
    ladder := y.ladder.map fun l => { l with answers := [] } }
  endCommands (ladderRecord (strandInterrupt s4 cid (intQueued s cid)) cid 3) l.answers

/-- Whether the save of a context fits in its extent (R231, R330). -/
def saveFits (s : State) (cid : Nat) (x : Context) : Bool :=
  decide (saveNeed (agentsOf s cid).length (heldCores s cid).length (s.xfers.filter fun e => e.2.cid == cid).length
    (barrierRecords s cid).length ≤ x.savesize)

/-- The save is written, or, where it does not fit, the word at 0 says so and the context is killed with detail 1 (R231, R330). -/
def writeSave (s : State) (cid : Nat) : State :=
  match s.ctx? cid with
  | none => s
  | some x => match x.ladder with
    | none => s
    | some l =>
      if saveFits s cid x then saveContext s cid x l
      else killContext (physWrite s cid x.savebase (0, leBytes 8 2)) cid 1 false []

/-- SAVE_WRITTEN (R230, R233). -/
def execSaveWritten (cid : Nat) (s : State) : Out := if saveReady s cid then .next (writeSave s cid) else .next s

/-! ### The restore (R78, R234, R278, R279) -/

/-- The slots that a tile needs for the frames of a halted context, and has free (R78). -/
def slotsEnough (s : State) (us : List Nat) : Bool :=
  us.all fun u => match tget u s.saved with
    | none => true
    | some t =>
      let need := (us.map fun v => match tget v s.saved, tget v s.frames with
        | some w, some f => if tileOf w.core = tileOf t.core then f.images.length else 0
        | _, _ => 0).foldl (· + ·) 0
      decide (need ≤ 32 - (s.tile (tileOf t.core)).slots.length)

/-- Whether the copy engines have places for a context's parked transfers: an engine holds 64 (R178, R234). -/
def placesEnough (s : State) (cid : Nat) : Bool :=
  let mine := s.xfers.filter fun e => e.2.cid == cid
  mine.all fun e =>
    decide ((s.xfers.filter fun f => f.2.station == e.2.station && (f.2.cid == cid || !(f.2.parked && ctxHalted s f.2.cid))).length ≤ 64)

/-- Whether no other context of the sliced partition runs its slice (R259). -/
def sliceFree (s : State) (cid : Nat) : Bool :=
  match s.ctx? cid with
  | none => true
  | some x => match tget x.part s.parts, tget x.part s.runningSlice with
    | some p, some r => !p.sliced || !s.contexts.any fun e => e.1 != cid && e.2.part == x.part && e.2.born == r.1 && decide (e.2.st = .running)
    | _, _ => true

/-- Whether a halted context may be restored now: its cores are free of other contexts, they and the pools that they reach
are powered (R20), the tiles have slots, and the copy
engines places. -/
def restoreReady (s : State) (cid : Nat) (v : Saved) : Bool :=
  v.cores.all (fun c => coreFor s c cid && reachPowered s cid c) && slotsEnough s v.frames && placesEnough s cid && sliceFree s cid

/-- The seals of the pages of a context's save extent that a restore reads are filled (R130, R221); whether all of them can be read. -/
def extentFill (s : State) (x : Context) (v : Saved) : Bool × State :=
  (pagesOf x.savebase (0x1000 + v.frames.length * 0x22000 + v.cores.length * 0x65000)).foldl (fun r pg =>
    let f := sealFill r.2 pg
    (r.1 && f.1, f.2)) (true, s)

/-- A little-endian number in memory. -/
def readNum (s : State) (key n : Nat) : Nat := leNat (memBytes s.mem key n)

/-- The k-th of the state codes from a key on; 3 is reserved and is read as P (log 40). -/
def readCode (s : State) (key k : Nat) : Nat := (memByte s.mem (key + k / 4)).toNat / 4 ^ (k % 4) % 4

/-- The pool image of a core area in the save extent, at its place in the pool (R233, R234). -/
def restorePool (s : State) (c b : Nat) : State :=
  { s with mem := (List.range poolSize).foldl (fun m i => memPut m (poolBase c + i) (memByte s.mem (b + i))) s.mem
           words := (List.range (poolSize / 8)).foldl (fun t k => match readCode s (b + 0x60000) k with
             | 0 => t
             | 1 => tput (poolBase c / 8 + k) .full t
             | _ => tput (poolBase c / 8 + k) .poison t) s.words }

/-- A core area returns to its core: pool image and word states from the save extent, inbox, and the requests that waited there. -/
def restoreCore (cid base : Nat) (s : State) (e : Nat × Nat) : State :=
  let c := e.1
  match tget (areaKey cid c) s.areas with
  | none => s
  | some a =>
    let s1 := restorePool (clearPool (retakeCore s c cid) c) c (base + 0x65000 * e.2)
    let s2 := { s1 with
      softWords := s1.softWords ++ a.soft.map fun (k : Nat) => k + poolBase c / 8
      accs := a.waiters.foldl (fun t (e : Nat × Access) => tput e.1 e.2 t) s1.accs
      areas := tdel (areaKey cid c) s1.areas }
    s2.setCore c { s2.core c with pool := a.pool, inbox := a.inbox, faults := a.faults, hlfsr := a.hlfsr }

/-- The state of a register by its code. -/
def codeSt (n : Nat) : RegSt := match n with | 0 => .empty | 1 => .full | _ => .poison

/-- The registers of an agent as its record in the save extent has them (R76, R78); a Parked `exit` takes the nonzero addresses of
g0 to g3 (R331). -/
def recordThread (s : State) (b : Nat) (t : Thread) : Thread :=
  let n (off len : Nat) : Nat := readNum s (b + off) len
  let g (k : Fin 16) : GReg := { t.g.get k with val := w64 (n (8 * k.val) 8), st := codeSt (readCode s (b + 0x88) k.val) }
  let v (k : Fin 32) : VReg := { t.v.get k with st := codeSt (readCode s (b + 0x90) k.val) }
  let r := { t with
    pc := w64 (n 0x80 8), idx := (List.range 8).map fun k => n (0x98 + 2 * k) 2
    fflags := BitVec.ofNat 6 (n 0xC0 8), frm := BitVec.ofNat 3 (n 0xC8 8), lfsr := BitVec.ofNat 32 (n 0xD0 8)
    mxweight := BitVec.ofNat 4 (n 0xD8 8), stepwin := BitVec.ofNat 32 (n 0xE0 8), tvec := w64 (n 0xE8 8), tcause := w64 (n 0xF0 8)
    taddr := w64 (n 0xF8 8), tresume := w64 (n 0x100 8), slot := n 0x21101 1 % 16
    q := Vector.ofFn fun k => BitVec.ofNat 16 (n (0x108 + 2 * k.val) 2)
    h := Vector.ofFn fun k => BitVec.ofNat 128 (n (0x120 + 16 * k.val) 16) }
  match t.status, t.prog with
  | .parked, .exiting _ => { r with prog := .exiting (((List.range 4).map fun k => w64 (n (8 * k) 8)).filter (· != 0)) }
  | _, _ => { r with g := Vector.ofFn g, v := Vector.ofFn v }

/-- The vector registers of an agent as its record has them. -/
def recordVectors (s : State) (b : Nat) (t : Thread) : State :=
  if t.status = .parked then s
  else { s with mem := memPutBytes s.mem (vregKey t.core t.pool t.slot 0) (memBytes s.mem (b + 0x200) (64 * poolRegs t.pool)) }

/-- The image of a slot that a handle binds, as the record has it (R76, R78). -/
def recordImage (s : State) (b : Nat) (t : Thread) (e : Nat × AccSlot) : Nat × AccSlot :=
  match (List.range 8).find? fun k => t.a.toList.getD k none == some e.1 with
  | some k => (e.1, { e.2 with words := (List.range 4096).map fun i => BitVec.ofNat 32 (readNum s (b + 0x1000 + 0x4000 * k + 4 * i) 4) })
  | none => e

/-- A saved slot takes a fresh number: the tile, and the pairs of old and new numbers. -/
def bindImage (r : Tile × Table Nat) (e : Nat × AccSlot) : Tile × Table Nat :=
  match freeSlot r.1 with
  | some k => ({ r.1 with slots := tput k { e.2 with rows := 64 } r.1.slots }, tput e.1 k r.2)
  | none => r

/-- An operand of a matrix command as its record has it: of its record's kind (R195). -/
def recordOperand (s : State) (b : Nat) : MxOperand → MxOperand
  | .pool _ _ => .pool (w64 (readNum s b 8)) (w64 (readNum s (b + 8) 8))
  | .run _ n bs => .run (readNum s b 16 % 32) n bs

/-- A matrix command as its record in the save extent has it: what is not in the record, the second operand's type and the data of a run
or of a row among it, is kept (R195). -/
def recordCommand (s : State) (b : Nat) (c : MxCmd) : MxCmd :=
  let w := readNum s b 8
  { c with
    blocks := readNum s (b + 8) 8
    op := match c.op with
      | .mma ta tb _ x y => .mma ta tb (bitsOf w 3 4 + 1) (recordOperand s (b + 16) x) (recordOperand s (b + 32) y)
      | .mwr _ _ row => .mwr (bitsOf w 24 8) (bitsOf w 32 8) row
      | op => op }

/-- A refill entry as a frame has it (R76). -/
def recordRefill (s : State) (b : Nat) (m : Mrd) : Mrd :=
  let w := readNum s b 8
  { m with dest := Fin.ofNat 32 (bitsOf w 48 8), handle := bitsOf w 40 8, sel := bitsOf w 0 40 }

/-- The saved commands of a frame join their core's queue; a command that reaches the head takes its thread's weight (R186, R234). -/
def requeue (q cs : List MxCmd) (weight : Nat) : List MxCmd :=
  match q, cs with
  | [], c :: rest => { c with weight := weight } :: rest
  | _, _ => q ++ cs

/-- A frame is restored from its record: slots, registers, then its matrix records and its refill entries (R78, R234, R279). A thread
that is restored is placed: its slot's generation rises (R44). -/
def restoreFrame (s : State) (u : Nat) : State :=
  match tget u s.saved, tget u s.frames, recordBase s u with
  | some t0, some f, some b =>
    let t := recordThread s b t0
    let tile := tileOf t.core
    let r := (f.images.map (recordImage s b t)).foldl bindImage (s.tile tile, [])
    let new (k : Nat) : Nat := (tget k r.2).getD k
    let cmds := f.cmds.zipIdx.map fun e => recordCommand s (b + 0x21000 + 64 * e.2) e.1
    let refills := f.refills.zipIdx.map fun e => (e.1.1, recordRefill s (b + 0x160 + 8 * e.2) e.1.2)
    let x1 := cmds.foldl (fun (x : Tile) c => x.modSlot (new c.slot) fun y => { y with rows := 0 }) r.1
    let p := t.core % 8
    let x2 : Tile := { x1 with
      queues := if cmds.isEmpty then x1.queues
        else tput p (requeue (x1.queue p) (cmds.map fun c => { c with slot := new c.slot }) t.mxweight.toNat) x1.queues
      reads := refills.foldl (fun m (e : Nat × Mrd) => tput e.1 { e.2 with slot := new e.2.slot } m) x1.reads }
    let t1 := { t with a := t.a.map fun k => k.map new, since := s.time }
    let s0 := (recordVectors s b t).setTile tile x2
    let s1 := if t.inHandler then s0 else bumpGen s0 t.core t.slot
    serveReads { s1 with threads := tput u t1 s1.threads, saved := tdel u s1.saved, frames := tdel u s1.frames } tile
  | _, _, _ => s

/-- A result under keep-full that failed while its agent was saved: the agent traps there as it is restored (R77, R78, R148). -/
def restoreTrap (s : State) (u : Nat) : State :=
  match tget u s.threads with
  | none => s
  | some t => match t.prog with
    | .failing c det addr => takeTrap s u c det.toNat addr t.pc
    | _ => s

/-- The transfer that a record of the save extent gives back: it goes on at the element that the record names (R184). Who issued it, its
station and what it has reported are not in the record. -/
def recordTransfer (s : State) (b : Nat) (x : Transfer) : Transfer :=
  let w := readNum s (b + 0x28) 8
  let y := { x with
    dst := w64 (readNum s b 8), src := w64 (readNum s (b + 8) 8), shape := BitVec.ofNat 128 (readNum s (b + 0x10) 16)
    ctr := w64 (readNum s (b + 0x20) 8), frm := BitVec.ofNat 3 (bitsOf w 36 3), seed := BitVec.ofNat 32 (readNum s (b + 0x30) 4), parked := false }
  if x.nextElement = bitsOf w 0 36 then y
  else
    let begun (e : Nat) : Bool :=
      if shMode y.shape = 1 then (wordElems y e).all fun n => decide (32 * y.blockOf n + 32 ≤ bitsOf w 0 36) else decide (e < bitsOf w 0 36)
    { y with landed := (List.range (shCount y.shape + shScales y.shape)).filter fun e => beginsWord y e && begun e }

/-- The transfers of a restored context, each from its record; the word at 8 of the extent says where the records lie (R184, R233). -/
def restoreTransfers (s : State) (cid base : Nat) : State :=
  let b := base + 4096 * readNum s (base + 8) 4
  ((s.xfers.filter fun e => e.2.cid == cid).zipIdx).foldl (fun s e =>
    { s with xfers := tput e.1.1 (recordTransfer s (b + 64 * e.2) e.1.2) s.xfers }) s

/-- The open phases of a restored context's barriers, each with the operation, the exited members and the value of its record (R233); the
arrivals are those of its frames' barrier states. -/
def restoreBarriers (s : State) (cid base : Nat) : State :=
  let b := base + 4096 * readNum s (base + 12) 4
  ((s.bars.filter fun e => !e.2.arrivals.isEmpty && match tget (barLaunchOf e.1) s.launches with
    | some x => x.cid == cid
    | none => false).zipIdx).foldl (fun s e =>
    { s with bars := tput e.1.1 { e.1.2 with
        op := bitsOf (readNum s (b + 32 * e.2) 8) 40 8, exited := readNum s (b + 32 * e.2 + 20) 4, acc := w64 (readNum s (b + 32 * e.2 + 24) 8) } s.bars }) s

/-- Whether the save extent names a barrier wait without a pending arrival in some frame (R278). -/
def extentBad (s : State) (x : Context) (n : Nat) : Bool :=
  (List.range n).any fun i =>
    let w := leNat (memBytes s.mem (x.savebase + 0x1000 + 0x22000 * i + 0xB0) 8)
    (List.range 8).any fun k => w.testBit (48 + k) && !w.testBit k

/-- The pending fault interrupt of a restored context runs in its lowest core, before any thread issues there (R238). -/
def restoredInterrupt (s : State) (cid : Nat) (cs : List Nat) : State :=
  match s.ctx? cid, cs with
  | some x, c :: _ =>
    if x.pendingInt && x.fhentry != 0 then
      let s1 := s.setCtx cid { x with pendingInt := false }
      if (agentAt s1 c 8).isNone then startFaultRun s1 c cid x.fhentry .interrupt else queueFault s1 c .interrupt true
    else s
  | _, _ => s

/-- The restore of a halted context (R234); an extent that is inconsistent (R278), or that cannot be read because a seal failed (R130; log
40), kills it with detail 3. -/
def restoreContext (s : State) (cid : Nat) (x : Context) (v : Saved) : State :=
  let r := extentFill s x v
  if extentBad s x v.frames.length || !r.1 then killContext r.2 cid 3 false []
  else
    let s1 := v.cores.zipIdx.foldl (restoreCore cid (x.savebase + 0x1000 + 0x22000 * v.frames.length)) r.2
    let s2 := restoreBarriers (restoreTransfers s1 cid x.savebase) cid x.savebase
    let s3 := v.frames.foldl restoreTrap (v.frames.foldl restoreFrame s2)
    let s4 := { s3 with launches := tmap (fun _ (y : Launch) =>
      if y.cid = cid ∧ y.started.isSome then { y with pausedFor := y.pausedFor + (s.time - v.since) } else y) s3.launches }
    let s5 := ladderRecord (s4.modCtx cid fun y => { y with st := .running, lastRetire := s.time }) cid 5
    restoredInterrupt (endCommands (s5.modCtx cid fun y => { y with ladder := none })
      (match x.ladder with | some l => l.answers | none => [])) cid v.cores

/-- Restores a halted context with a property, if it can be restored now. -/
def tryRestore (s : State) (cid : Nat) (p : Saved → Bool) : State :=
  match s.ctx? cid with
  | none => s
  | some x => match x.st with
    | .halted v => if p v && restoreReady s cid v then restoreContext s cid x v else s
    | _ => s

end Sys2Proof.Machine
end

