-- ==== Sys2Proof/Machine/Cuts.lean ====
section
/-! DEFINITION. The events of a cut: the local cuts of the stations, the acknowledgements of peers and their time limit (R113, R117,
R119, R120). -/

namespace Sys2Proof.Machine

open Sys2Proof

/-- The kill that a withdrawal belongs to goes on, if its cuts are in place (R120). -/
def killGoesOn (s : State) (d : WdDest) : State :=
  match d with
  | .kill cid => killCheck s cid
  | _ => s

/-- LOCAL_CUT: a station installs the filter entry of a withdrawal (R113). -/
def execLocalCut (w st : Nat) (s : State) : Out :=
  match tget w s.wds with
  | none => .next s
  | some x =>
    if x.entry && x.uncut.contains st then
      let s1 := putWd s w { x with uncut := x.uncut.filter (· != st) }
      .next (killGoesOn (s1.wakeAll .accesses) x.dest)
    else .next s

/-- SWEEP: the Weir sweeps the next node of withdrawal w (R116, R118, R120). -/
def execSweep (w : Nat) (s : State) : Out :=
  match tget w s.wds with
  | none => .next s
  | some x => match x.left with
    | [] => .next s
    | i :: rest => if maySweep s x then .next (killGoesOn (sweepOne s w x i rest) x.dest) else .next s

/-- No acknowledgement of a peer is awaited any longer. -/
def dropAck (x : Withdrawal) (dev : Nat) : Withdrawal := { x with acks := x.acks.filter fun e => e.1 != dev }

/-- One acknowledgement of a peer has come: one cut message goes to the home of each remote child (R113). -/
def takeAck (x : Withdrawal) (dev : Nat) : Withdrawal := { x with acks := x.acks.eraseP fun e => e.1 == dev }

/-- CUT_ACK: the home of a remote child has swept its part of the subtree; the nodes that it swept, at most a device's node store
(R121), count among the nodes withdrawn (R107, R116, R117). How many they are is the peer's own knowledge: a free value (log 15). -/
def execCutAck (w dev : Nat) (s : State) : Out :=
  match tget w s.wds with
  | none => .next s
  | some x =>
    if anyPort s && x.acks.any fun e => e.1 == dev then
      let n := drawField s
      .next (killGoesOn (putWd n.2 w { takeAck x dev with count := x.count + n.1 % (2 ^ 24 + 1) }) x.dest)
    else .next s

/-- The PEER_LOST record of a withdrawal; R119 states no address and no item for it (log 15). -/
def cutLost (s : State) (x : Withdrawal) (dev : Nat) : State :=
  match x.dest with
  | .reg u _ _ =>
    let a := drawField s
    let i := drawField a.2
    let ep := match s.agent? u with | some t => epOf s t | none => 0
    report i.2 x.cid { addr := w64 a.1, cause := .peerLost, detail := 0, item := i.1 % 16, peer := some dev, ep := ep }
  | _ => s

/-- CUT_ACK_TIMEOUT: a peer that has not acknowledged within 2^16 cycles is lost (R119, R252, R262). -/
def execCutAckTimeout (w dev : Nat) (s : State) : Out :=
  match tget w s.wds with
  | none => .next s
  | some x =>
    if x.acks.any fun e => e.1 == dev && decide (e.2 + 2 ^ 16 ≤ s.time) then
      .next (killGoesOn (losePeer (cutLost (putWd s w (dropAck x dev)) x dev) dev) x.dest)
    else .next s

end Sys2Proof.Machine
end

