-- ==== Sys2Proof/Machine/Dispatcher.lean ====
section
/-! DEFINITION. The dispatcher: taking records from work queues and device queues, placing gangs, holding and dispatching consumer
blocks, completing launches (R12, R32 to R37, R40 to R42, R210 to R213, R217 to R226). -/

namespace Sys2Proof.Machine

open Sys2Proof

/-! ### Queues (R218, R219, R222) -/

/-- A queue is fenced, and the fence is reported to its host function (R218). -/
def fenceQueue (s : State) (q : Nat) (x : Queue) (c : Cause) : State :=
  hostNotice { s with queues := tput q { x with fenced := true } s.queues } x.cid c.code

/-- A record of the dispatcher (R243): item 9, no endpoint, no peer. -/
def dispatcherReport (s : State) (cid : Nat) (c : Cause) (addr : Word) : State :=
  report s cid { addr := addr, cause := c, detail := 0, item := 9, peer := none, ep := 0 }

/-- Launches of a queue that are outstanding (R219). -/
def outstanding (s : State) (q : Nat) : Nat := (s.launches.filter fun e => e.2.queue == some q).length

/-- Whether a work queue may be taken from (R219). -/
def queueOpenFor (s : State) (q : Nat) (x : Queue) : Bool :=
  x.opened && !x.fenced && x.tail != x.head && decide (outstanding s q < x.quota) && decide (s.launches.length < 1024)

/-- The stores and remote atomics that a successor waits for are performed (R12). -/
def successorReady (s : State) (e : Successor) : Bool :=
  !s.accs.any fun a => a.2.uid == e.uid && decide (a.1 < e.after) && a.2.kind.writes && decide (a.2.phase ≠ .returning)

/-- Whether the device queue of a context may be taken from (R219, R222). -/
def deviceOpenFor (s : State) (x : Context) : Bool :=
  decide (x.st ≠ .dead) && decide (s.launches.length < 1024) && match x.devq with | e :: _ => successorReady s e | [] => false

/-- The number of a context's device queue among a partition's queues: after the work queues. -/
def deviceQueueNo (cid : Nat) : Nat := 16384 + cid

/-- The partition of a context. -/
def partOf (s : State) (cid : Nat) : Nat := match s.ctx? cid with | some x => x.part | none => 0

/-- The queues of a partition that may be taken from, with their priorities (R219, R222). -/
def eligible (s : State) (part : Nat) : List (Nat × Nat) :=
  ((s.queues.filter fun e => partOf s e.2.cid == part && queueOpenFor s e.1 e.2).map fun e => (e.1, e.2.prio))
    ++ ((s.contexts.filter fun e => e.2.part == part && deviceOpenFor s e.2).map fun e =>
      (deviceQueueNo e.1, bitsOf e.2.ovcfg.toNat 8 3))

/-- Whether it is a queue's turn: no eligible queue has a higher priority, and in its priority it is the next after the one that was
taken from last (R219). -/
def isTurn (s : State) (part q prio : Nat) : Bool :=
  let es := eligible s part
  let same := (es.filter fun e => e.2 == prio).map Prod.fst
  let last := (tget (part * 8 + prio) s.lastQueue).getD 0
  let after := same.filter fun k => decide (last < k)
  es.all (fun e => decide (e.2 ≤ prio)) &&
    (if after.isEmpty then same.all fun k => decide (q ≤ k) else after.contains q && after.all fun k => decide (q ≤ k))

/-- It was a queue's turn. -/
def tookTurn (s : State) (part q prio : Nat) : State := { s with lastQueue := tput (part * 8 + prio) q s.lastQueue }

/-- A record that was read opens a launch, or is refused with LAUNCH_SHAPE: state 3 in its completion record, and an error-queue
record (R34, R219). None while the translation of the completion record is held (R118). -/
def openLaunch (s : State) (cid : Nat) (addr : Word) (bs : List Byte) (queue : Option Nat) (prio : Nat) : Option State :=
  let x := launchOf s cid addr bs queue prio
  if shapeGood s (partOf s cid) bs then some { s with launches := tput s.nextId x s.launches, nextId := s.nextId + 1 }
  else (writeDone (dispatcherReport s cid .launchShape addr) cid x.donerec x.lid 3 Cause.launchShape.code 0 0).map fun s1 =>
    launchOver s1 cid x.lid

/-- The head count of a queue is written, or its failure fences the queue (R219). None while its translation is held. -/
def writeHead (s : State) (q : Nat) (x : Queue) : Option State :=
  match spaceWrite s x.cid 0 x.headaddr (leBytes 8 x.head) with
  | .ok _ s1 => some s1
  | .fail _ s1 => some (dispatcherReport (fenceQueue s1 q x .queueRecord) x.cid .queueRecord x.headaddr)
  | .hold => none

/-- RECORD_TAKE: the dispatcher reads the next record of a queue, then writes the head count (R219). Under a hold it takes nothing
yet (R118, R120). -/
def execRecordTake (q : Nat) (s : State) : Out :=
  match tget q s.queues with
  | none => .next s
  | some x =>
    let part := partOf s x.cid
    if !queueOpenFor s q x || !isTurn s part q x.prio then .next s
    else
      let addr := x.qbase + w64 (256 * (x.head % 2 ^ x.lsz))
      let s0 := tookTurn s part q x.prio
      match spaceRead s0 x.cid 0 addr 256 with
      | .hold => .next s
      | .fail _ s1 => .next (dispatcherReport (fenceQueue s1 q x .queueRecord) x.cid .queueRecord addr)
      | .ok bs s1 =>
        let x1 := { x with head := (x.head + 1) % 2 ^ 32 }
        .next (((writeHead { s1 with queues := tput q x1 s1.queues } q x1).bind fun s3 =>
          openLaunch s3 x.cid addr bs (some q) x.prio).getD s)

/-- OVERFLOW_MOVE: the oldest entry of the overflow ring moves to the device queue (R222). An entry that can no longer be read stays in
its place without a report, on which the rules are silent (DESIGN CHOICE, log 77). -/
def execOverflowMove (cid : Nat) (s : State) : Out :=
  match s.ctx? cid with
  | none => .next s
  | some x => match x.ovq with
    | [] => .next s
    | e :: rest =>
      if x.devq.length < 256 ∧ x.st ≠ .dead then
        match spaceRead s cid 0 (ringAddr x x.ovhead) 8 with
        | .hold | .fail _ _ => .next s
        | .ok bs s1 => .next (s1.setCtx cid { x with
            devq := x.devq ++ [{ e with addr := w64 (leNat bs) }], ovq := rest, ovhead := x.ovhead + 1 })
      else .next s

/-- DEVICE_QUEUE_TAKE: the dispatcher takes a successor and reads its record; a read that fails is reported with LAUNCH_RECORD
(R12, R42, R222). -/
def execDeviceQueueTake (cid : Nat) (s : State) : Out :=
  match s.ctx? cid with
  | none => .next s
  | some x => match x.devq with
    | [] => .next s
    | e :: rest =>
      let prio := bitsOf x.ovcfg.toNat 8 3
      if !deviceOpenFor s x || !isTurn s x.part (deviceQueueNo cid) prio then .next s
      else
        let s0 := (tookTurn s x.part (deviceQueueNo cid) prio).setCtx cid { x with devq := rest }
        match spaceRead s0 cid 0 e.addr 256 with
        | .hold => .next s
        | .fail _ s1 => .next (dispatcherReport s1 cid .launchRecord e.addr)
        | .ok bs s1 => .next ((openLaunch s1 cid e.addr bs none prio).getD s)

/-! ### Placing gangs (R32, R33, R35, R36, R223 to R227) -/

/-- The first linear index of a gang. -/
def gangFirst (x : Launch) (g : Nat) : Nat := g * x.gangSize

/-- The unit of a kind that a core lies in. -/
def unitOf (bind core : Nat) : Nat :=
  match bind with
  | 1 => core
  | 2 => tileOf core
  | 3 => islandOf core
  | 4 => clusterOf core
  | 5 => dieOf core
  | _ => 0

/-- Whether two threads of a gang stand as their indices ask: one core for one core index and one tile for one tile index, all in one
island (R32). -/
def pairFits (x : Launch) (p q : Nat × Place) : Bool :=
  let t := bindIndex x.levels 2 p.1 == bindIndex x.levels 2 q.1
  let c := t && bindIndex x.levels 1 p.1 == bindIndex x.levels 1 q.1
  (t == (tileOf p.2.core == tileOf q.2.core)) && (c == (p.2.core == q.2.core)) && islandOf p.2.core == islandOf q.2.core
    && (p.1 == q.1 || p.2 != q.2)

/-- Whether two gangs of a launch with the same domain index stand apart as their wider indices ask: at the widest level where these
differ, in distinct units within one unit of the next wider kind (R32). -/
def gangsApart (x : Launch) (g core h other : Nat) : Bool :=
  let i (b n : Nat) : Nat := bindIndex x.levels b (gangFirst x n)
  if i 7 g ≠ i 7 h ∨ i 6 g ≠ i 6 h then true
  else match [5, 4, 3].find? fun b => i b g != i b h with
    | some b => unitOf b core != unitOf b other && unitOf (b + 1) core == unitOf (b + 1) other
    | none => true

/-- Whether a slot is fit for a thread of a launch (R28, R62, R223, R224, R227): the pools that it could reach there must be powered
(R20). -/
def placeFits (s : State) (part l g : Nat) (x : Launch) (p : Place) : Bool :=
  let i := islandOf p.core
  !isSteward p.core && (partIslands s part).contains i && reachPowered s x.cid p.core && coreFor s p.core x.cid && codeFits s p.core x.pool
    && decide (p.slot < 8) && (agentAt s p.core p.slot).isNone
    && match (s.island i).reserved with | some r => r == (l, g) | none => true

/-- The position of this device among the packages of a gang's device-bound levels (R32). -/
def gangIsHere (s : State) (part : Nat) (x : Launch) (g : Nat) : Bool :=
  (jobMembers s part).getD (bindIndex x.levels 6 (gangFirst x g)) s.device == s.device

/-- Whether a gang of a launch may be placed at these slots, one for each of its threads, in order of their linear index. -/
def gangFits (s : State) (l g : Nat) (x : Launch) (ps : List Place) : Bool :=
  let part := partOf s x.cid
  let at_ := ps.zipIdx.map fun e => (gangFirst x g + e.2, e.1)
  if gangIsHere s part x g then
    ps.length == x.gangSize && ps.all (placeFits s part l g x) && at_.all (fun p => at_.all fun q => pairFits x p q)
      && x.places.all fun e => match e.2, ps with
        | c :: _, p :: _ => gangsApart x g p.core e.1 c
        | _, _ => true
  else ps.isEmpty

/-- The gangs of a launch that are neither placed nor held, lowest first (R224). -/
def waitingGangs (x : Launch) : List Nat :=
  if x.settled = x.gangCount then [] else (List.range x.gangCount).filter fun g => x.gang g == .waiting

/-- Whether an open launch comes before another: higher priority, or the same and taken earlier (R224). -/
def launchBefore (l : Nat) (x : Launch) (m : Nat) (y : Launch) : Bool := decide (y.prio < x.prio) || (x.prio == y.prio && decide (l < m))

/-- Whether a context may have gangs placed by the slice schedule: in the sliced partition, only the one whose turn it is (R259). -/
def hasSlice (s : State) (cid : Nat) : Bool :=
  match s.ctx? cid with
  | none => false
  | some x => match tget x.part s.parts with
    | none => true
    | some p => !p.sliced || match tget x.part s.runningSlice with
      | some r => r.1 == x.born
      | none => false

/-- Whether an island has room for a gang: enough tiles of it have enough cores with enough fit slots, one tile for each tile index, one
core in it for each core index, one slot there for each thread (R32, R223), and it stands apart as the gang's indices ask. -/
def islandTakes (s : State) (part l g : Nat) (x : Launch) (i : Nat) : Bool :=
  let ext (b : Nat) : Nat := extents x.levels fun v => v.bind == b
  let slots (c : Nat) : Nat := ((List.range 8).filter fun k => placeFits s part l g x { core := c, slot := k }).length
  let cores (t : Nat) : Nat := ((List.range 8).filter fun k => decide (ext 0 ≤ slots (t * 8 + k))).length
  decide (ext 2 ≤ ((List.range 4).filter fun k => decide (ext 1 ≤ cores (i * 4 + k))).length)
    && x.places.all fun e => match e.2 with | c :: _ => gangsApart x g (i * 32) e.1 c | [] => true

/-- Whether a gang fits anywhere in its partition, or goes to another package (R223). -/
def fitsSomewhere (s : State) (l g : Nat) (x : Launch) : Bool :=
  let part := partOf s x.cid
  !gangIsHere s part x g || (partIslands s part).any (islandTakes s part l g x)

/-- Whether a launch that comes before has a gang that fits: it is considered first (R224). -/
def othersFirst (s : State) (l : Nat) (x : Launch) : Bool :=
  s.launches.any fun e => launchBefore e.1 e.2 l x && !underLadder s e.2.cid && !haltedCtx s e.2.cid && hasSlice s e.2.cid
    && (waitingGangs e.2).any fun g => fitsSomewhere s e.1 g e.2

/-- Whether it is the turn of a gang within its launch: it waits, and no lower gang that waits fits anywhere, since a gang that does not
fit never stops one that does (R224). -/
def gangsTurn (s : State) (l g : Nat) (x : Launch) : Bool :=
  (waitingGangs x).contains g && (waitingGangs x).all fun h => decide (g ≤ h) || !fitsSomewhere s l h x

/-- A thread as its launch starts it (R35). -/
def launchedThread (s : State) (l g : Nat) (x : Launch) (n : Nat) (p : Place) : Thread :=
  let idx := idxOf x n
  let t := { Thread.fresh p.core p.slot x.cid x.pool x.entry with
    launch := some l, gang := g, high := x.high, idx := idx, linear := n, fetchFrom := s.wclock }
  let t1 := (x.args.zipIdx).foldl (fun (t : Thread) e => t.setG (Fin.ofNat 16 e.2) e.1) t
  ((t1.setG 12 (w64 n)).setG 13 (w64 (fieldsOf 16 (idx.take 4)))).setG 14 (w64 (fieldsOf 16 (idx.drop 4)))

/-- The barrier cells of a gang, with their members (R53, R55). -/
def gangBars (l g : Nat) (x : Launch) : List (Nat × BarCell) :=
  ((x.levels.zipIdx.filter fun e => e.1.bar.isSome).map fun e =>
    let members := (x.levels.take (e.2 + 1)).foldl (fun n v => n * v.ext) 1
    (List.range (x.gangSize / members)).map fun i =>
      (barKey l e.2 (gangFirst x g / members + i),
        ({ phase := 0, op := 0, acc := 0, members := members, exited := 0, arrivals := [] } : BarCell))).flatten

/-- The reservations of a gang end. -/
def dropReserve (s : State) (l g : Nat) : State :=
  { s with islands := tmap (fun _ i => if i.reserved = some (l, g) then { i with reserved := none } else i) s.islands }

/-- A gang is placed: all its threads become resident in one step (R36). A gang for another package is sent there (R32). A
fault interrupt that waited for a core starts its run (R238). -/
def placeGang (s : State) (l g : Nat) (x : Launch) (ps : List Place) : State :=
  let s1 := ps.zipIdx.foldl (fun s e =>
    startThread { s with nextId := s.nextId + 1 } s.nextId (launchedThread s l g x (gangFirst x g + e.2) e.1)) s
  let x1 := { x with
    gangs := tput g .placed x.gangs, places := tput g (ps.map Place.core).eraseDups x.places
    started := some (x.started.getD s.time), alive := x.alive + ps.length, total := x.total + ps.length, away := x.away || ps.isEmpty }
  let s2 := dropReserve { s1 with launches := tput l x1 s1.launches
                                  bars := (gangBars l g x).foldl (fun b e => tput e.1 e.2 b) s1.bars } l g
  if (heldCores s x.cid).isEmpty then firstCore s2 x.cid else s2

/-- GANG_PLACE (R36, R223, R224, R226). -/
def execGangPlace (l gang : Nat) (ps : List Place) (s : State) : Out :=
  match tget l s.launches with
  | none => .next s
  | some x =>
    if gangsTurn s l gang x && !underLadder s x.cid && !haltedCtx s x.cid && hasSlice s x.cid && gangFits s l gang x ps && !othersFirst s l x then
      .next (placeGang s l gang x ps)
    else .next s

/-- GANG_RESERVE: a gang that has waited 2^22 cycles has islands of its partition reserved for it (R224). No rule says from when the wait
counts: from the cycle in which its block became ready, or else the launch was taken (DESIGN CHOICE, log 77). -/
def execGangReserve (l gang : Nat) (is : List Nat) (s : State) : Out :=
  match tget l s.launches with
  | none => .next s
  | some x =>
    if x.gang gang == .waiting && decide (gang < x.gangCount) && decide ((tget gang x.readyAt).getD x.taken + 2 ^ 22 ≤ s.time)
        && is.all (fun i => (partIslands s (partOf s x.cid)).contains i && (s.island i).reserved.isNone) then
      .next { s with islands := is.foldl (fun m i => tput i { s.island i with reserved := some (l, gang) } m) s.islands }
    else .next s

/-! ### Consumer blocks (R210 to R213) -/

/-- The blocks of a gang: for a gang of several, each of its blocks; for a block of several gangs, that block (R213). -/
def blocksOf (x : Launch) (g : Nat) : List Nat :=
  let below := (x.levels.take (x.blklvl + 1)).foldl (fun n v => n * v.ext) 1
  if below ≤ x.gangSize then (List.range (x.gangSize / below)).map (gangFirst x g / below + ·) else [gangFirst x g / below]

/-- The indices of a block at the two levels above `blklvl` (R210). -/
def blockIndices (x : Launch) (b : Nat) : Nat × Nat :=
  let is := indicesOf (x.levels.drop (x.blklvl + 1)) b
  (is.getD 0 0, is.getD 1 0)

/-- An input of a block as the dispatcher finds it: its verdict, since when, and the key of its entry in this device's table. -/
structure BlockInput where
  verdict : InputVerdict
  since : Nat
  key : Option Nat
  deriving DecidableEq, Repr

/-- What the table of another device says of an input of a block that is placed there: a free value (log 15). -/
def farVerdict (s : State) (cid lid n : Nat) : InputVerdict :=
  match Config.openField (s.draws + n) % 3 with
  | 0 => .byEntry
  | 1 => .stale
  | _ => if producerDone s cid lid then .byCompletion else .notYet

/-- The inputs of a block, in the table of the device where it is placed (R211). -/
def blockInputs (s : State) (x : Launch) (here : Bool) (b : Nat) : List BlockInput :=
  let tenant := match s.ctx? x.cid with | some c => c.tenant | none => 0
  x.inputs.zipIdx.map fun e =>
    let i := e.1
    let tile := inputTile i.word (blockIndices x b).1 (blockIndices x b).2
    let obj := bitsOf i.word 0 24
    if here then
      let v := inputVerdict s tenant x.cid obj tile (bitsOf i.word 56 16) i.lid
      { verdict := v, since := inputSince s tenant x.cid obj tile i.lid v, key := if v = .byEntry then some (tagKey tenant obj tile) else none }
    else { verdict := farVerdict s x.cid i.lid (b * 8 + e.2), since := 0, key := none }

/-- The gangs that a block's dispatch covers: those of the block, or the one that holds it. -/
def gangsOfBlock (x : Launch) (g : Nat) : List Nat :=
  let below := (x.levels.take (x.blklvl + 1)).foldl (fun n v => n * v.ext) 1
  if below ≤ x.gangSize then [g]
  else (List.range (below / x.gangSize)).map (gangFirst x g / below * (below / x.gangSize) + ·)

/-- A stale block: one STALE_TAG record (R213, R243). -/
def staleReport (x : Launch) (s : State) : State :=
  report s x.cid { addr := x.addr, cause := .staleTag, detail := 0, item := 8, peer := none, ep := 0 }

/-- The inputs of a held gang, block by block. -/
def gangInputs (s : State) (x : Launch) (g : Nat) : List (List BlockInput) :=
  (blocksOf x g).map (blockInputs s x (gangIsHere s (partOf s x.cid) x g))

/-- Whether a gang's blocks are no longer held: every input is ready, or one is stale (R211, R213). -/
def inputsOver (bs : List (List BlockInput)) : Bool :=
  bs.any (fun b => b.any fun v => v.verdict == .stale) || bs.all fun b => b.all fun v => v.verdict != .notYet

/-- When the last input of a gang became ready (R225). -/
def readySince (bs : List (List BlockInput)) : Nat := (bs.flatten.map BlockInput.since).foldl max 0

/-- Whether another held gang of the launch became ready before a given time: blocks are dispatched in that order (R225). -/
def readyBefore (s : State) (x : Launch) (since : Nat) : Bool :=
  (List.range x.gangCount).any fun g => x.gang g == .held && gangIsHere s (partOf s x.cid) x g && inputsOver (gangInputs s x g)
    && decide (max x.taken (readySince (gangInputs s x g)) < since)

/-- BLOCK_DISPATCH: a held gang goes on once every input of its blocks is ready, and each input that was ready by its entry is
consumed once per block; with a stale input no thread of it runs (R211 to R213). Gangs that became ready before come first (R225). -/
def execBlockDispatch (l gang : Nat) (s : State) : Out :=
  match tget l s.launches with
  | none => .next s
  | some x =>
    let bs := gangInputs s x gang
    let s0 := if gangIsHere s (partOf s x.cid) x gang then s
      else { s with draws := s.draws + 8 * ((blocksOf x gang).foldl max 0 + 1) }
    if x.gang gang != .held || decide (x.gangCount ≤ gang) || readyBefore s x (max x.taken (readySince bs)) then .next s
    else if !inputsOver bs then .next s0
    else
      let gs := gangsOfBlock x gang
      let stale := bs.filter fun b => b.any fun v => v.verdict == .stale
      if !stale.isEmpty then
        let s1 := stale.foldl (fun s _ => staleReport x s) s0
        let x1 := { x with gangs := gs.foldl (fun t g => tput g .dropped t) x.gangs
                           failed := min (x.failed + gs.length * x.gangSize) (2 ^ 32 - 1) }
        .next { s1 with launches := tput l x1 s1.launches }
      else
        let x1 := { x with gangs := gs.foldl (fun t g => tput g .waiting t) x.gangs
                           readyAt := gs.foldl (fun t g => tput g s.time t) x.readyAt }
        .next ((bs.flatten.filterMap BlockInput.key).foldl tagConsume { s0 with launches := tput l x1 s0.launches })

/-! ### Completion (R37) -/

/-- Whether everything that the completion record of a launch waits for is over (R37). -/
def launchIdle (s : State) (l : Nat) (x : Launch) : Bool :=
  x.settled == x.gangCount && x.alive == 0
    && s.accs.all (fun e => e.2.launch != some l || !e.2.kind.writes || decide (e.2.phase = .returning))
    && s.xfers.all (fun e => e.2.launch != some l)
    && s.msgs.all (fun e => e.2.launch != some l)
    && s.forks.all fun e => match e.2.join with | some j => j.launch != l | none => true

/-- What the threads of a launch on other packages add to its counts: free values (log 15). -/
def awayCounts (s : State) (x : Launch) : Nat × Nat × State :=
  if x.away then
    let a := drawField s
    let b := drawField a.2
    (a.1, b.1, b.2)
  else (0, 0, s)

/-- LAUNCH_COMPLETE: the completion record is written, and the launch is no longer open (R37); not while the record's translation is
held (R118). -/
def execLaunchComplete (l : Nat) (s : State) : Out :=
  match tget l s.launches with
  | none => .next s
  | some x =>
    if launchIdle s l x && decide ((match s.ctx? x.cid with | some c => c.st | none => .dead) ≠ .dead) then
      let r := awayCounts s x
      let failed := x.failed + r.1
      match writeDone r.2.2 x.cid x.donerec x.lid (if failed = 0 then 1 else 2) 0 failed (x.retired + r.2.1) with
      | none => .next s
      | some s1 => .next (launchOver (dropLaunch s1 l) x.cid x.lid)
    else .next s

end Sys2Proof.Machine
end

