-- ==== Sys2Proof/Machine/Digest.lean ====
section
/-! DEFINITION. SHA-384, which R253, R264 and R270 name: of FIPS 180-4, outside the spec (log 5). -/

namespace Sys2Proof.Machine

open Sys2Proof

/-! ### The constants of FIPS 180-4, from the roots that it takes them from -/

/-- The primes below 410: the numbers that no prime below 23 divides, and those primes. -/
def smallPrimes : List Nat := (List.range' 2 408).filter fun n => [2, 3, 5, 7, 11, 13, 17, 19].all fun p => n == p || n % p != 0

/-- The greatest number of the form `r` plus some of the lowest `b` powers of two whose power `k` is not above `n`. -/
def rootFrom (k n : Nat) : Nat → Nat → Nat
  | 0, r => r
  | b + 1, r => rootFrom k n b (if (r + 2 ^ b) ^ k ≤ n then r + 2 ^ b else r)

/-- The first 64 bits of the fraction of the root `k` of a prime below 410. -/
def rootFraction (k p : Nat) : BitVec 64 := BitVec.ofNat 64 (rootFrom k (p * 2 ^ (64 * k)) 69 0)

/-- The constants of the 80 rounds: the cube roots of the first 80 primes. -/
def roundKeys : List (BitVec 64) := smallPrimes.map (rootFraction 3)

/-- The first chaining value of SHA-384: the square roots of the primes nine to sixteen. -/
def firstChain : List (BitVec 64) := ((smallPrimes.drop 8).take 8).map (rootFraction 2)

/-! ### Bytes and blocks -/

/-- A big-endian number of bytes. -/
def beNat (bs : List Byte) : Nat := bs.foldl (fun n b => n * 256 + b.toNat) 0

/-- The bytes of a number, most significant first. -/
def beBytes (n w : Nat) : List Byte := (List.range n).map fun i => BitVec.ofNat 8 (w / 2 ^ (8 * (n - 1 - i)))

/-- A message with its padding: a bit 1, zeros, and its length in bits in 16 bytes. -/
def digestPad (m : List Byte) : List Byte :=
  m ++ [0x80] ++ List.replicate ((239 - m.length % 128) % 128) 0 ++ beBytes 16 (8 * m.length)

/-- The exclusive or of a word turned right by each of some distances. -/
def turns (ds : List Nat) (x : BitVec 64) : BitVec 64 := ds.foldl (fun y d => y ^^^ x.rotateRight d) 0

/-- The word of number 16 and on of a message schedule, from the sixteen before it, the oldest first. -/
def scheduleWord (w : List (BitVec 64)) : BitVec 64 :=
  let lo := w.getD 1 0
  let hi := w.getD 14 0
  w.getD 0 0 + (turns [1, 8] lo ^^^ lo >>> 7) + w.getD 9 0 + (turns [19, 61] hi ^^^ hi >>> 6)

/-! ### Rounds, over the last four words of two sequences, the newest first -/

/-- The words that one round adds to the two sequences; FIPS 180-4 calls the sequences a to d and e to h. -/
def digestRound (left right : List (BitVec 64)) (word key : BitVec 64) : List (BitVec 64) × List (BitVec 64) :=
  let l := left.getD 0 0
  let r := right.getD 0 0
  let pick := right.getD 2 0 ^^^ (r &&& (right.getD 1 0 ^^^ right.getD 2 0))
  let most := (l &&& (left.getD 1 0 ||| left.getD 2 0)) ||| (left.getD 1 0 &&& left.getD 2 0)
  let mixed := right.getD 3 0 + turns [14, 18, 41] r + pick + key + word
  ((mixed + turns [28, 34, 39] l + most) :: left.take 3, (left.getD 3 0 + mixed) :: right.take 3)

/-- The rounds with the keys still left; the sixteen schedule words from the round's own on stand in `w`. -/
def digestRounds : List (BitVec 64) → List (BitVec 64) → List (BitVec 64) → List (BitVec 64) → List (BitVec 64)
  | [], _, left, right => left ++ right
  | key :: keys, w, left, right =>
    let next := digestRound left right (w.headD 0) key
    digestRounds keys (w.drop 1 ++ [scheduleWord w]) next.1 next.2

/-- One block of 128 bytes: what its rounds leave, added to the chaining value word by word. -/
def digestBlock (chain : List (BitVec 64)) (block : List Byte) : List (BitVec 64) :=
  let w := (List.range 16).map fun i => BitVec.ofNat 64 (beNat ((block.drop (8 * i)).take 8))
  List.zipWith (· + ·) chain (digestRounds roundKeys w (chain.take 4) (chain.drop 4))

/-- A number of blocks of a padded message, one after another. -/
def digestBlocks : Nat → List (BitVec 64) → List Byte → List (BitVec 64)
  | 0, chain, _ => chain
  | n + 1, chain, bs => digestBlocks n (digestBlock chain (bs.take 128)) (bs.drop 128)

/-- SHA-384 of a message: 48 bytes. -/
def sha384 (m : List Byte) : List Byte :=
  let p := digestPad m
  ((digestBlocks (p.length / 128) firstChain p).take 6).flatMap fun w => beBytes 8 w.toNat

end Sys2Proof.Machine
end

