-- ==== Sys2Proof/Machine/Host.lean ====
section
/-! DEFINITION. The registers and commands of the host functions (R217, R218, R221, R244, R254 to R256, R258, R261 to R264, R267 to
R269, R428 to R430). -/

namespace Sys2Proof.Machine

open Sys2Proof

/-! ### Running a command (R254, R255, R256) -/

/-- The statuses of a command (R254). -/
inductive CmdStatus where
  | ok | badCmd | noRight | noResource | badState | badOperand
  deriving DecidableEq, Repr

/-- The code of a status. -/
def CmdStatus.code : CmdStatus → Nat
  | .ok => 0 | .badCmd => 1 | .noRight => 2 | .noResource => 3 | .badState => 4 | .badOperand => 5

/-- A command of a function is over at once; COMMAND_END clears `busy`. -/
def ends (s : State) (n : Nat) (st : CmdStatus) (result : Nat) : State := endCommand s n st.code result

/-- Bytes of a function's window. -/
def winBytes (s : State) (n off len : Nat) : List Byte := (((s.fn n).window.toList).drop off).take len
/-- A number in a function's window. -/
def winNum (s : State) (n off len : Nat) : Nat := leNat (winBytes s n off len)
/-- The 8-byte word at an offset of a function's window. -/
def winWord (s : State) (n off : Nat) : Word := w64 (winNum s n off 8)

/-- Whether a command may run in a boot state (R256, R271; log 19). -/
def bootAllows (s : State) (code : Nat) : Bool :=
  s.boot == 1 || code == 0x0E || code == 0x0F || (code == 0x22 && s.boot == 2)

/-- A write of `cmdgo` (R254, R255): while a command runs it is discarded; else `busy` is set, and the command runs, or ends at once. -/
def command (s : State) (n code : Nat) (cid : BitVec 16) (k : State → State) : Out :=
  let f := s.fn n
  if f.cmd.isSome then .next (s.setFn n { f with lost := true })
  else
    let s1 := s.setFn n { f with cmd := some { code := BitVec.ofNat 8 code, cid := cid, done := false, status := 0, result := 0 } }
    .next (if bootAllows s code then k s1 else ends s1 n .badState 0)

/-- A command that only the PF may issue (R256). -/
def pfOnly (n : Nat) (k : State → State) (s : State) : State := if n = 0 then k s else ends s n .noRight 0

/-- A command on a context: it belongs to the function's partition, or the PF may act on it (R255). The steward context belongs to
none (R71). -/
def onContext (n : Nat) (cid : BitVec 16) (pfAny : Bool) (k : Context → State → State) (s : State) : State :=
  match s.ctx? cid.toNat with
  | some x => if cid.toNat ≠ 0xFFFF ∧ (x.part = (s.fn n).part ∨ (pfAny = true ∧ n = 0)) then k x s else ends s n .noRight 0
  | none => ends s n .noRight 0

/-- A command for the partition of the function, if one is defined (log 19). -/
def onPartition (n : Nat) (k : Partition → State → State) (s : State) : State :=
  match tget (s.fn n).part s.parts with
  | some p => k p s
  | none => ends s n .badState 0

/-- DMA reads of host memory. -/
def dmaRead (s : State) (addr n : Nat) : List Byte := memBytes s.hostMem addr n
/-- DMA writes of host memory. -/
def dmaWrite (s : State) (addr : Nat) (bs : List Byte) : State := { s with hostMem := memPutBytes s.hostMem addr bs }

/-- A list of bytes cut or filled to a length. -/
def fixLen (n : Nat) (bs : List Byte) : List Byte := (bs ++ List.replicate n 0).take n

/-! ### Contexts (R221, R237, R256, R428) -/

/-- The checks of R428 on the operands of CTX_CREATE. -/
def createBad (s : State) (n : Nat) : Bool :=
  winNum s n 0x08 8 % 4096 != 0 || winNum s n 0x48 8 % 4096 != 0 || winNum s n 0x30 8 % 256 != 0 || winNum s n 0x40 8 % 2 != 0
    || decide (bitsOf (winNum s n 0x10 8) 0 5 < 9) || decide (24 < bitsOf (winNum s n 0x10 8) 0 5)
    || decide (bitsOf (winNum s n 0x50 8) 0 5 < 7) || decide (20 < bitsOf (winNum s n 0x50 8) 0 5)
    || decide (winNum s n 0x1C 4 < 2 ^ 16)
    || bitsOf (winNum s n 0x10 8) 5 3 != 0 || bitsOf (winNum s n 0x10 8) 11 53 != 0 || bitsOf (winNum s n 0x50 8) 5 59 != 0
    || winNum s n 0x2C 4 != 0 || winNum s n 0x38 8 != 0 || winNum s n 0x58 8 != 0
    || (winNum s n 0 8 != 0 && match tget (winNum s n 0 8) s.spaces with | some x => x.deleted | none => true)

/-- The bytes of the save extent of a context of a partition (R221). -/
def extentSize (s : State) (part : Nat) : Nat :=
  let i := (partIslands s part).length
  let c := 32 * i
  (0x1000 + c * (9 * 0x22000 + 0x65000) + i * 64 * 64 + c * 9 * 8 * 32 + 4095) / 4096 * 4096

/-- Whether a page range lies in the channel groups of a partition, sealable, outside every other extent, and in no node but the root
nodes of space 0 (R221, R122, R257, R258). -/
def extentFree (s : State) (p : Partition) (first n : Nat) : Bool :=
  (pageRange first n).all (fun pg => p.groups.contains (ownerStation (pg * 4096)) && decide (pg % 786432 < stationSeals))
    && (s.contexts.all fun e => e.1 == 0xFFFF || !overlaps first n (e.2.savebase / 4096) (e.2.savesize / 4096))
    && s.nodes.all fun e => (e.2.space == 0 && e.2.depth == 0) || e.2.dev != s.device || !overlaps first n e.2.page e.2.pages

/-- The pages at which an extent can begin, if it fits anywhere: at the start of a group, or right after an extent or a node. -/
def extentStarts (s : State) (p : Partition) : List Nat :=
  p.groups.map (· * 786432) ++ (s.contexts.map fun e => (e.2.savebase + e.2.savesize) / 4096) ++ s.nodes.map fun e => e.2.page + e.2.pages

/-- Where firmware allocates an extent: where the feed says, if that is free, or else anywhere that is (R428). -/
def findExtent (s : State) (p : Partition) (f : Feed) (n : Nat) : Option Nat :=
  if f.ok && extentFree s p f.n n then some f.n else (extentStarts s p).find? fun first => extentFree s p first n

/-- The context that CTX_CREATE makes (R221, R237). -/
def newContext (s : State) (n : Nat) (p : Partition) (space base size : Nat) : Context :=
  { Context.fresh n (s.fn n).part p.tenant space with
    ovbase := winWord s n 0x08, ovcfg := winWord s n 0x10, grace := winNum s n 0x18 4, kill := winNum s n 0x1C 4
    wdog := winNum s n 0x20 8, hang := winNum s n 0x28 4, ladrep := winWord s n 0x30, fhentry := winWord s n 0x40
    eqbase := winWord s n 0x48, eqcfg := winWord s n 0x50, savebase := base, savesize := size, lastRetire := s.time, born := s.nextId }

/-- An unused context ID; R256 leaves the choice open (log 15). -/
def newCid (s : State) : Option Nat × State :=
  let d := drawField s
  (pickUnused (fun i => (tget i s.contexts).isSome) (d.1 % 0xFFFF) 0xFFFF, d.2)

/-- The space of a new context: a new one, or the one named. -/
def spaceFor (s : State) (n tenant : Nat) : Option (Nat × State) :=
  if winNum s n 0 8 = 0 then newSpace s tenant else some (winNum s n 0 8, s)

/-- CTX_CREATE (R256, R428). `f.n` is a page at which firmware may place the save extent. A tenant whose keys are spent can be given no
further page, and so no extent (R136; DEDUCED, log 19). Where operand 0 asks for a new space and no space ID is left, no rule names a
status: NO_RESOURCE, as where no context ID is left (DESIGN CHOICE, log 19). -/
def createContext (n : Nat) (f : Feed) (p : Partition) (s : State) : State :=
  let size := extentSize s (s.fn n).part
  let pages := size / 4096
  if createBad s n then ends s n .badOperand 0
  else if winNum s n 0 8 ≠ 0 ∧ (match tget (winNum s n 0 8) s.spaces with | some x => x.tenant | none => 0) ≠ p.tenant then
    ends s n .noRight 0
  else if keysSpent s p.tenant pages then ends s n .noResource 0
  else match findExtent s p f pages, newCid s with
  | none, _ => ends s n .noResource 0
  | _, (none, _) => ends s n .noResource 0
  | some first, (some cid, s1) => match spaceFor s1 n p.tenant with
    | none => ends s n .noResource 0
    | some (sp, s2) =>
      let x := newContext s2 n p sp (first * 4096) size
      let s3 := (pageRange first pages).foldl (scrubPage p.tenant) ({ s2 with nextId := s2.nextId + 1 }.setCtx cid x)
      let s4 := s3.setFn n ((s3.fn n).put 0 (leBytes 8 sp))
      ends s4 n .ok cid

/-- CTX_CREATE. -/
def execCtxCreate (fn : Nat) (cid : BitVec 16) (f : Feed) (s : State) : Out :=
  command s fn 0x01 cid (onPartition fn (createContext fn f))

/-- The ID of a dead context is freed (R256, R136). -/
def freeContext (s : State) (cid : Nat) (x : Context) : State := retireTenant { s with contexts := tdel cid s.contexts } x.tenant

/-- CTX_DESTROY: a kill, if the context has not ended, then its ID is freed (R256). -/
def execCtxDestroy (fn : Nat) (cid : BitVec 16) (s : State) : Out :=
  command s fn 0x02 cid <| onContext fn cid true fun x s =>
    match x.st, x.ladder with
    | .dead, none => ends (freeContext s cid.toNat x) fn .ok 0
    | .dead, some l => s.setCtx cid.toNat { x with ladder := some { l with destroy := true, answers := l.answers ++ [fn] } }
    | _, _ => killContext s cid.toNat 2 true [fn]

/-- HALT: ladder trigger 3; it ends when the context is halted or killed (R229, R256). -/
def execHalt (fn : Nat) (cid : BitVec 16) (s : State) : Out :=
  command s fn 0x05 cid <| onContext fn cid true fun x s =>
    match x.st, x.ladder with
    | .running, _ => softRequest s cid.toNat 3 [fn]
    | .dead, some l => s.setCtx cid.toNat { x with ladder := some { l with answers := l.answers ++ [fn] } }
    | _, _ => ends s fn .ok 0

/-- KILL: ladder trigger 4, straight to the kill step (R229, R256). -/
def execKill (fn : Nat) (cid : BitVec 16) (s : State) : Out :=
  command s fn 0x06 cid <| onContext fn cid true fun x s =>
    match x.st, x.ladder with
    | .dead, some l => s.setCtx cid.toNat { x with ladder := some { l with answers := l.answers ++ [fn] } }
    | .dead, none => ends s fn .ok 0
    | _, _ => killContext s cid.toNat 2 false [fn]

/-- RESUME: a context halted on trigger 1, 2 or 3 is to be restored; it ends with the restore (R256). -/
def execResume (fn : Nat) (cid : BitVec 16) (s : State) : Out :=
  command s fn 0x07 cid <| onContext fn cid true fun x s =>
    match x.st, x.ladder with
    | .halted v, some l =>
      if v.trigger = 0 then ends s fn .badState 0
      else s.setCtx cid.toNat { x with ladder := some { l with answers := l.answers ++ [fn] } }
    | _, _ => ends s fn .badState 0

/-- Whether a partition is time-sliced. -/
def slicedPart (s : State) (part : Nat) : Bool := match tget part s.parts with | some p => p.sliced | none => false

/-- RESTORE: a context that RESUME asked for is restored (R234); in the sliced partition it waits for its turn (R259). -/
def execRestore (cid : Nat) (_ps : List Place) (s : State) : Out :=
  match s.ctx? cid with
  | none => .next s
  | some x => match x.ladder with
    | some l => if l.answers.isEmpty || slicedPart s x.part then .next s else .next (tryRestore s cid fun v => v.trigger != 0)
    | none => .next s

/-- TIMERS (R221, R256). -/
def execTimers (fn : Nat) (cid : BitVec 16) (s : State) : Out :=
  command s fn 0x08 cid <| onContext fn cid true fun x s =>
    if winNum s fn 4 4 < 2 ^ 16 then ends s fn .badOperand 0
    else ends (s.setCtx cid.toNat { x with
      grace := winNum s fn 0 4, kill := winNum s fn 4 4, wdog := winNum s fn 8 8, hang := winNum s fn 0x10 4 }) fn .ok 0

/-- ERRQ_ACK (R244, R256). -/
def execErrqAck (fn : Nat) (cid : BitVec 16) (s : State) : Out :=
  command s fn 0x10 cid <| onContext fn cid false fun x s =>
    let v := winNum s fn 0 8
    if 2 ^ (x.eqcfg.toNat % 32) < (x.eqtail + 2 ^ 64 - v) % 2 ^ 64 then ends s fn .badOperand 0
    else ends (s.setCtx cid.toNat { x with errqhead := w64 v }) fn .ok (x.eqtail % 2 ^ 32)

/-! ### Work queues (R217, R218) -/

/-- The checks of R217 on a queue's descriptor. -/
def descriptorBad (s : State) (n : Nat) (cid : BitVec 16) : Bool :=
  let cfg := winNum s n 0x10 8
  decide (bitsOf cfg 0 5 < 4) || decide (16 < bitsOf cfg 0 5) || bitsOf cfg 16 8 == 0 || bitsOf cfg 32 16 != cid.toNat
    || winNum s n 0x08 8 % 4096 != 0 || winNum s n 0x18 8 % 8 != 0
    || bitsOf cfg 5 3 != 0 || bitsOf cfg 11 5 != 0 || bitsOf cfg 24 8 != 0 || bitsOf cfg 48 16 != 0

/-- A value in the tail register of a queue that is open and not fenced: it is the queue's tail, or fences it with QUEUE_OVERRUN
(R218). -/
def tailCheck (s : State) (q new : Nat) : State :=
  match tget q s.queues with
  | none => s
  | some x =>
    if !x.opened || x.fenced then s
    else
      let ahead := (new + 2 ^ 32 - x.head) % 2 ^ 32
      let behind := (x.tail + 2 ^ 32 - new) % 2 ^ 32
      if 2 ^ x.lsz < ahead ∨ (1 ≤ behind ∧ behind ≤ 2 ^ 31) then fenceQueue s q x .queueOverrun
      else { s with queues := tput q { x with tail := new } s.queues }

/-- The tail register of a function's queue (R218). -/
def tailReg (s : State) (n j : Nat) : Nat := ((tget j (s.fn n).tails).getD 0).toNat % 2 ^ 32

/-- A queue with a descriptor. -/
def describedQueue (s : State) (n : Nat) (cid : BitVec 16) (head tail : Nat) : Queue :=
  let cfg := winNum s n 0x10 8
  { cid := cid.toNat, qbase := winWord s n 0x08, lsz := bitsOf cfg 0 5, prio := bitsOf cfg 8 3, quota := bitsOf cfg 16 8
    headaddr := winWord s n 0x18, head := head, tail := tail, opened := true, fenced := false }

/-- The opening or reopening of queue j of a range (R218). -/
def openQueue (n : Nat) (cid : BitVec 16) (p : Partition) (s : State) : State :=
  let j := winNum s n 0 8
  let q := p.qfirst + j
  if p.qcount ≤ j ∨ descriptorBad s n cid = true then ends s n .badOperand 0
  else match tget q s.queues with
  | some x =>
    ends (tailCheck { s with queues := tput q (describedQueue s n cid x.head x.tail) s.queues } q (tailReg s n j)) n .ok 0
  | none =>
    let f := s.fn n
    ends ({ s with queues := tput q (describedQueue s n cid 0 0) s.queues }.setFn n { f with tails := tput j 0 f.tails }) n .ok 0

/-- QUEUE_OPEN (R217, R218). -/
def execQueueOpen (fn : Nat) (cid : BitVec 16) (s : State) : Out :=
  command s fn 0x03 cid <| onContext fn cid false fun _ => onPartition fn (openQueue fn cid)

/-- The fencing of queue j by its function. -/
def closeQueue (n : Nat) (p : Partition) (s : State) : State :=
  let j := winNum s n 0 8
  if p.qcount ≤ j then ends s n .badOperand 0
  else
    let s1 : State := match tget (p.qfirst + j) s.queues with
      | some x => { s with queues := tput (p.qfirst + j) { x with fenced := true } s.queues }
      | none => s
    ends s1 n .ok 0

/-- QUEUE_CLOSE (R256). -/
def execQueueClose (fn : Nat) (cid : BitVec 16) (s : State) : Out :=
  command s fn 0x04 cid <| onContext fn cid false fun _ => onPartition fn (closeQueue fn)

/-- TAIL_WRITE: the register holds the value, which is a doorbell of an open queue (R218). -/
def execTailWrite (fn j : Nat) (w : Word) (s : State) : Out :=
  match tget (s.fn fn).part s.parts with
  | none => .next s
  | some p =>
    if p.qcount ≤ j then .next s
    else
      let f := s.fn fn
      .next (tailCheck (s.setFn fn { f with tails := tput j (w64 (w.toNat % 2 ^ 32)) f.tails }) (p.qfirst + j) (w.toNat % 2 ^ 32))

/-! ### The other registers (R6, R254, R255) -/

/-- The codes of R256. -/
def knownCodes : List Nat := [1, 2, 3, 4, 5, 6, 7, 8, 9, 10, 11, 12, 13, 14, 15, 16, 17, 0x20, 0x21, 0x22, 0x23]

/-- BAD_CMD: any other code (R256). ROOT_SPACE with a selector that names no instruction is BAD_OPERAND (DEDUCED, log 19). -/
def execBadCmd (fn : Nat) (code : BitVec 8) (cid : BitVec 16) (s : State) : Out :=
  if code = 0x23 ∧ winNum s fn 0 8 % 8 = 7 then command s fn 0x23 cid (pfOnly fn fun s => ends s fn .badOperand 0)
  else if knownCodes.contains code.toNat then .next s
  else if (s.fn fn).cmd.isSome then .next (s.setFn fn { s.fn fn with lost := true })
  else .next (ends (s.setFn fn { s.fn fn with cmd := some { code := code, cid := cid, done := false, status := 0, result := 0 } }) fn .badCmd 0)

/-- CMDGO_WHILE_BUSY: a write of `cmdgo` while a command runs is discarded and sets `lost` (R254). -/
def execCmdgoWhileBusy (fn : Nat) (s : State) : Out :=
  if (s.fn fn).cmd.isSome then .next (s.setFn fn { s.fn fn with lost := true }) else .next s

/-- COMMAND_END: `status` and `result` are written, `busy` clears, and MSI-X vector 0 is signalled (R255). -/
def execCommandEnd (fn : Nat) (s : State) : Out :=
  match (s.fn fn).cmd with
  | some c => if c.done then
      .next (s.setFn fn { s.fn fn with
        cmd := none, status := BitVec.ofNat 8 c.status, result := BitVec.ofNat 32 c.result, msix0 := (s.fn fn).msix0 + 1 })
    else .next s
  | none => .next s

/-- CMDST_LOST_CLEAR: writing 1 to `lost` clears it (R254). -/
def execCmdstLostClear (fn : Nat) (w : Word) (s : State) : Out :=
  if w.getLsbD 16 then .next (s.setFn fn { s.fn fn with lost := false }) else .next s

/-- What `fltq` holds: the oldest notice, or 0 when there is none (R254, R255). -/
def fltqWord (f : HostFn) : Word :=
  match f.notices with
  | [] => 0
  | x :: _ => w64 (x.1 % 2 ^ 16 + x.2 % 2 ^ 16 * 2 ^ 16 + 2 ^ 32 + if f.ovf then 2 ^ 33 else 0)

/-- What `cmdst` holds (R254). -/
def cmdstWord (f : HostFn) : Word :=
  w64 ((if f.cmd.isSome then 1 else 0) + f.status.toNat * 2 ^ 8 + (if f.lost then 2 ^ 16 else 0) + f.result.toNat * 2 ^ 32)

/-- What an 8-byte read of a function's BAR 0 returns (R6, R7, R218, R254): a write-only field and a reserved one read as zero. The
partition of a function that is bound to none is not stated (log 19). -/
def barRead (s : State) (n off : Nat) : Word :=
  let f := s.fn n
  if off = 0 then w64 (n % 64 + (if f.part = noPart then Config.openField s.draws else f.part) % 64 * 2 ^ 8)
  else if off = 8 then w64 (s.boot.toNat + s.why.toNat * 2 ^ 8)
  else if off = 0x18 then cmdstWord f
  else if off = 0x20 then fltqWord f
  else if 0x100 ≤ off ∧ off + 8 ≤ 0x200 then winWord s n (off - 0x100)
  else if 0x10000 ≤ off ∧ off < 0x40000 ∧ off % 8 = 0 then w64 (tailReg s n ((off - 0x10000) / 8))
  else 0

/-- FLTQ_READ: a read returns the oldest notice and pops it, and clears `ovf` (R255). -/
def execFltqRead (fn : Nat) (s : State) : Out :=
  .next (s.setFn fn { s.fn fn with fltq := barRead s fn 0x20, notices := (s.fn fn).notices.drop 1, ovf := false })

/-- REGISTER_WRITE: a write of `window` is kept; read-only and reserved places ignore it (R6, R254). -/
def execRegisterWrite (fn off : Nat) (w : Word) (s : State) : Out :=
  if 0x100 ≤ off ∧ off + 8 ≤ 0x200 then .next (s.setFn fn ((s.fn fn).put (off - 0x100) (leBytes 8 w.toNat))) else .next s

/-! ### Keys and jobs (R135, R261 to R264) -/

/-- KEYROLL: a roll of the partition's tenant; it ends with the roll's record, or with a status other than STARTED (R135, R256). -/
def execKeyroll (fn : Nat) (cid : BitVec 16) (s : State) : Out :=
  command s fn 0x09 cid <| onPartition fn fun p s =>
    let st := rollStart s p.tenant
    if st = .started then beginRoll s p.tenant (.host fn) else ends s fn .ok st.code

/-- The identity of a package: this device's own, the digest of its public key, or what its join handshake sent (R253). -/
def identityOf (s : State) (d : Nat) : List Byte := if d = s.device then sha384 (fixLen 97 Config.publicKey) else fixLen 48 (s.peer d).ident

/-- The job of a partition, if it is open. -/
def openJob (s : State) (part : Nat) : Option Job :=
  match tget part s.jobs with
  | some j => if j.closed then none else some j
  | none => none

/-- JOB_OPEN on a list of packages (R261). -/
def openJobWith (n : Nat) (s : State) : State :=
  let part := (s.fn n).part
  let count := winNum s n 0x10 8
  let ds := (List.range count).map fun i => leNat (dmaRead s (winNum s n 0x18 8 + 2 * i) 2)
  if s.threads.any (fun e => partOf s e.2.cid == part && !e.2.inHandler) || (openJob s part).isSome then ends s n .badState 0
  else if count = 0 ∨ 320 < count then ends s n .badOperand 0
  else if !ds.contains s.device || ds.eraseDups.length != count then ends s n .badOperand 0
  else if ds.any fun d => (s.peer d).st != .live then ends s n .noResource 0
  else
    let j : Job := { id := winBytes s n 0 16, members := ds, idents := ds.map (identityOf s), openedAt := s.time, exchanged := []
                     lost := [], closed := false }
    ends { s with jobs := tput part j s.jobs } n .ok 0

/-- JOB_OPEN (R261). -/
def execJobOpen (fn : Nat) (cid : BitVec 16) (s : State) : Out :=
  command s fn 0x0A cid <| onPartition fn fun _ => openJobWith fn

/-- JOB_CLOSE: the composition record is frozen (R261); with no open job, BAD_STATE (log 19). -/
def execJobClose (fn : Nat) (cid : BitVec 16) (s : State) : Out :=
  command s fn 0x0B cid <| onPartition fn fun _ s =>
    match openJob s (s.fn fn).part with
    | some j => ends { s with jobs := tput (s.fn fn).part { j with closed := true } s.jobs } fn .ok 0
    | none => ends s fn .badState 0

/-- The composition record of a job (R264). -/
def compositionOf (s : State) (j : Job) : List Byte :=
  leBytes 8 (j.members.length + (if j.closed then 2 ^ 16 else 0) + (if j.lost.isEmpty then 0 else 2 ^ 17)) ++ fixLen 16 j.id
    ++ leBytes 8 j.openedAt ++ List.replicate 32 0
    ++ ((j.members.zip j.idents).map fun e =>
      leBytes 8 (e.1 % 2 ^ 9 + (if (tget e.1 j.exchanged).isSome then 2 ^ 9 else 0) + (if e.1 = s.device then 2 ^ 10 else 0)
        + (if j.lost.contains e.1 then 2 ^ 11 else 0)) ++ fixLen 48 e.2 ++ leBytes 8 ((tget e.1 j.exchanged).getD 0)).flatten

/-- COMPOSITION (R264, R256); with no job, BAD_STATE (log 19). -/
def execComposition (fn : Nat) (cid : BitVec 16) (s : State) : Out :=
  command s fn 0x0D cid <| onPartition fn fun _ s =>
    match tget (s.fn fn).part s.jobs with
    | some j => ends (dmaWrite s (winNum s fn 0 8) (compositionOf s j)) fn .ok (compositionOf s j).length
    | none => ends s fn .badState 0

/-! ### Evidence (R267 to R270) -/

/-- The four measurements. -/
def measurements (s : State) : List Byte := ((List.range 4).map fun i => fixLen 48 (s.measures.getD i [])).flatten

/-- A body of 512 bytes with its signature (R268). -/
def signed (body : List Byte) : List Byte := fixLen 512 body ++ fixLen 96 (Config.sign (sha384 (fixLen 512 body)))

/-- Whether a report of a context is final (R269). -/
def reportFinal (s : State) (x : Context) : Bool :=
  match x.st with
  | .dead => true
  | .halted _ => (match tget x.part s.jobs with | some j => j.closed | none => false)
  | .running => false

/-- The body of a report (R268, R269). -/
def reportBody (s : State) (fn cid : Nat) (x : Context) : List Byte :=
  let job := tget x.part s.jobs
  leBytes 8 (1 + 2 ^ 16 + (if reportFinal s x then 2 ^ 24 else 0)) ++ identityOf s s.device
    ++ leBytes 8 (cid + x.tenant % 2 ^ 12 * 2 ^ 16 + x.part % 2 ^ 6 * 2 ^ 32 + s.device % 2 ^ 9 * 2 ^ 40)
    ++ (match openJob s x.part with | some j => fixLen 16 j.id | none => List.replicate 16 0) ++ winBytes s fn 0 32 ++ measurements s
    ++ (x.counters.toList.map fun c => leBytes 8 c.toNat).flatten ++ leBytes 8 x.ocsat.toNat
    ++ (match job with | some j => fixLen 48 (sha384 (compositionOf s j)) | none => List.replicate 48 0)
    ++ leBytes 8 (match job with | some j => j.members.length + j.exchanged.length * 2 ^ 16 | none => 0) ++ leBytes 8 s.time

/-- REPORT (R268, R269); after a final one the context's counters no longer change. -/
def execReport (fn : Nat) (cid : BitVec 16) (s : State) : Out :=
  command s fn 0x0C cid <| onContext fn cid false fun x s =>
    let s1 := if reportFinal s x then s.setCtx cid.toNat { x with final := true } else s
    ends (dmaWrite s1 (winNum s fn 0x20 8) (signed (reportBody s fn cid.toNat x))) fn .ok 0

/-- The body of a quote: its context, job, counter and composition fields are zero (R270). -/
def quoteBody (s : State) (fn : Nat) : List Byte :=
  leBytes 8 (1 + 2 * 2 ^ 16) ++ identityOf s s.device ++ leBytes 8 ((s.fn fn).part % 2 ^ 6 * 2 ^ 32 + s.device % 2 ^ 9 * 2 ^ 40)
    ++ List.replicate 16 0 ++ winBytes s fn 0 32 ++ measurements s ++ List.replicate 168 0 ++ leBytes 8 s.time

/-- QUOTE (R270). -/
def execQuote (fn : Nat) (cid : BitVec 16) (s : State) : Out :=
  command s fn 0x0E cid fun s => ends (dmaWrite s (winNum s fn 0x20 8) (signed (quoteBody s fn))) fn .ok 0

/-- CERT (R267). -/
def execCert (fn : Nat) (cid : BitVec 16) (s : State) : Out :=
  command s fn 0x0F cid fun s => ends (dmaWrite s (winNum s fn 0 8) Config.certChain) fn .ok Config.certChain.length

/-! ### MEM_COPY (R256, R429) -/

/-- Where a word of a context's space lies for MEM_COPY. -/
inductive CopyPlace where
  | here (node phys : Nat)
  | peer (dev : Nat)
  | nowhere
  deriving DecidableEq, Repr

/-- Where a word of a context's space lies for MEM_COPY: rights are not checked. A withdrawn or uncovered page, a held one and one of a
peer that cannot be reached, with no live port left too (R251), fail. -/
def copyPlace (s : State) (x : Context) (va : Word) : CopyPlace :=
  match classify va with
  | .translated => match translate s x.space 0 va 0 with
    | .ok i dev phys =>
      if dev = s.device then .here i phys
      else if (peerCheck s x.part dev).isNone && anyPort s then .peer dev else .nowhere
    | _ => .nowhere
  | _ => .nowhere

/-- Whether a word of a copy must wait: it lies at a peer, and no live port may send (R250). -/
def copyWaits (s : State) (x : Context) (va : Word) : Bool :=
  match copyPlace s x va with
  | .peer _ => !portFor s true
  | _ => false

/-- Whether a copy must wait before it begins, as one of its words must before the first that fails. -/
def copyHeld (s : State) (n : Nat) (x : Context) : Bool :=
  let place (k : Nat) : Word := winWord s n 0x08 + w64 (8 * k)
  ((List.range (winNum s n 0x18 8 / 8)).takeWhile fun k => copyPlace s x (place k) != .nowhere).any fun k => copyWaits s x (place k)

/-- One word from host memory into a context's space, or none where it fails. -/
def wordIn (x : Context) (va : Word) (bs : List Byte) (s : State) : Option State × State :=
  match copyPlace s x va with
  | .nowhere => (none, s)
  | .peer dev => (some (markPeer s x.part dev), s)
  | .here i phys => match demandWrite s phys (nodeOwner s i) with
    | (none, s1) => (some (engineWrite s1 phys bs), s1)
    | (some _, s1) => (none, s1)

/-- One word of a context's space into host memory, or none where it fails. -/
def wordOut (x : Context) (va : Word) (addr : Nat) (s : State) : Option State × State :=
  match copyPlace s x va with
  | .nowhere => (none, s)
  | .peer dev => let r := peerBytes (markPeer s x.part dev) 8; (some (dmaWrite r.2 addr r.1), s)
  | .here i phys => match demandRead s phys (nodeOwner s i) with
    | (none, s1) => if touchesPoison s1 phys 8 then (none, s1) else (some (dmaWrite s1 addr (memBytes s1.mem phys 8)), s1)
    | (some _, s1) => (none, s1)

/-- Words one after another, until one fails: the state, and the offset of the first byte not moved. -/
def copyWords (step : Nat → State → Option State × State) : List Nat → State → State × Option Nat
  | [], s => (s, none)
  | k :: ks, s => match step k s with
    | (some s1, _) => copyWords step ks s1
    | (none, s1) => (s1, some (8 * k))

/-- The checks of MEM_COPY on its operands. -/
def copyBad (s : State) (n : Nat) : Bool :=
  bitsOf (winNum s n 0 8) 1 63 != 0 || winNum s n 0x08 8 % 8 != 0 || winNum s n 0x18 8 % 8 != 0 || winNum s n 0x18 8 == 0
    || decide (2 ^ 24 < winNum s n 0x18 8)

/-- Whether a copy waits before it begins (R250). -/
def copyPauses (s : State) (n : Nat) (cid : BitVec 16) : Bool :=
  match s.ctx? cid.toNat with
  | some x => !copyBad s n && copyHeld s n x
  | none => false

/-- A copy of words, which a failure of host memory may end at the byte that the feed names (R429). -/
def copyRun (n : Nat) (f : Feed) (step : Nat → State → Option State × State) (s : State) : State :=
  if copyBad s n then ends s n .badOperand 0
  else
    let all := winNum s n 0x18 8 / 8
    let whole := f.ok || decide (all ≤ f.n / 8)
    let r := copyWords step (List.range (if whole then all else f.n / 8)) s
    match r.2, whole with
    | some off, _ => ends r.1 n .badOperand off
    | none, true => ends r.1 n .ok 0
    | none, false => ends r.1 n .badOperand (f.n / 8 * 8)

/-- MEM_COPY from the host to the device. -/
def execMemCopyToDevice (fn : Nat) (cid : BitVec 16) (f : Feed) (s : State) : Out :=
  if winNum s fn 0 8 % 2 = 1 ∨ copyPauses s fn cid = true then .next s
  else command s fn 0x11 cid <| onContext fn cid false fun x s =>
    copyRun fn f (fun k s => wordIn x (winWord s fn 0x08 + w64 (8 * k)) (dmaRead s (winNum s fn 0x10 8 + 8 * k) 8) s) s

/-- MEM_COPY from the device to the host. -/
def execMemCopyToHost (fn : Nat) (cid : BitVec 16) (f : Feed) (s : State) : Out :=
  if winNum s fn 0 8 % 2 = 0 ∨ copyPauses s fn cid = true then .next s
  else command s fn 0x11 cid <| onContext fn cid false fun x s =>
    copyRun fn f (fun k s => wordOut x (winWord s fn 0x08 + w64 (8 * k)) (winNum s fn 0x10 8 + 8 * k) s) s

/-! ### Partitions and peers (R252, R258) -/

/-- A partition and its bound function, from a descriptor of 56 bytes (R258). -/
def partitionOf (raw : List Byte) : Partition × Nat :=
  let bits (off : Nat) : List Nat := (List.range 128).filter fun i => (leNat ((raw.drop off).take 16)).testBit i
  let w := leNat ((raw.drop 0x20).take 8)
  let v := leNat ((raw.drop 0x28).take 8)
  ({ tenant := bitsOf v 0 12, sliced := bitsOf w 50 1 == 1, islands := bits 0, groups := bits 0x10, share := bitsOf w 41 9
     slice := bitsOf v 32 32, qfirst := bitsOf w 0 15, qcount := bitsOf w 16 15, raw := raw, }, bitsOf w 32 6)

/-- Whether two lists share a member. -/
def meets (a b : List Nat) : Bool := a.any b.contains

/-- The function that a partition's descriptor binds. -/
def boundFn (p : Partition) : Nat := (partitionOf p.raw).2

/-- Whether a reserved bit of a descriptor is set. -/
def partReserved (raw : List Byte) : Bool :=
  let w := leNat ((raw.drop 0x20).take 8)
  let v := leNat ((raw.drop 0x28).take 8)
  bitsOf w 51 13 != 0 || bitsOf w 38 3 != 0 || bitsOf w 31 1 != 0 || bitsOf w 15 1 != 0 || bitsOf v 12 20 != 0
    || bitsOf (leNat ((raw.drop 0x30).take 8)) 6 58 != 0

/-- The refusals of PART_DEFINE with BAD_OPERAND (R258, R256); the PF is bound to partition 0 and to no other (R254). -/
def partBad (s : State) (num : Nat) (p : Partition) (vf : Nat) : Bool :=
  let others := (s.parts.filter fun e => e.1 != num).map Prod.snd
  partReserved p.raw || p.qcount == 0 || decide (16384 < p.qcount) || decide (16384 < p.qfirst + p.qcount) || decide (256 < p.share)
    || p.slice == 0
    || others.any (fun o => meets o.islands p.islands || meets o.groups p.groups || overlaps o.qfirst o.qcount p.qfirst p.qcount
        || boundFn o == vf || o.tenant == p.tenant)
    || decide (256 < (others.map fun o => o.share).foldl (· + ·) p.share)
    || (num == 0) != (vf == 0) || (num == 0 && p.tenant != 0)
    || (p.sliced && !p.islands.isEmpty) || (p.sliced && others.any fun o => o.sliced)

/-- Whether a context of the sliced partition is resident. -/
def slicedResident (s : State) : Bool :=
  s.contexts.any fun e => (match tget e.2.part s.parts with | some p => p.sliced | none => false) && !(heldCores s e.1).isEmpty

/-- The refusals of PART_DEFINE with BAD_STATE (R258). -/
def partBusy (s : State) (num : Nat) (p : Partition) : Bool :=
  s.contexts.any (fun e => e.1 != 0xFFFF && e.2.part == num)
    || (slicedResident s && p.islands.any fun i => !s.parts.any fun e => e.2.islands.contains i)

/-- One measurement is extended by a digest (R270). -/
def extendMeasure (ms : List (List Byte)) (i : Nat) (d : List Byte) : List (List Byte) :=
  (List.range 4).map fun k => if k = i then sha384 (ms.getD k (List.replicate 48 0) ++ d) else ms.getD k (List.replicate 48 0)

/-- PART_DEFINE (R258, R270). -/
def definePartition (n : Nat) (s : State) : State :=
  let raw := winBytes s n 0 56
  let num := bitsOf (leNat ((raw.drop 0x30).take 8)) 0 6
  let r := partitionOf raw
  if partBad s num r.1 r.2 then ends s n .badOperand 0
  else if partBusy s num r.1 then ends s n .badState 0
  else
    let s1 := { s with parts := tput num r.1 s.parts, measures := extendMeasure s.measures 3 (sha384 raw) }
    let s2 : State := match tget num s.parts with
      | some old => if boundFn old = r.2 then s1 else s1.setFn (boundFn old) { s1.fn (boundFn old) with part := noPart }
      | none => s1
    ends (s2.setFn r.2 { s2.fn r.2 with part := num }) n .ok 0

/-- PART_DEFINE. -/
def execPartDefine (fn : Nat) (cid : BitVec 16) (s : State) : Out := command s fn 0x20 cid (pfOnly fn (definePartition fn))

/-- The code of a peer's state in PEER_READ. -/
def PeerSt.code : PeerSt → Nat
  | .absent => 0 | .live => 1 | .disabled => 2 | .lost => 3

/-- PEER_READ (R252). -/
def execPeerRead (fn : Nat) (cid : BitVec 16) (s : State) : Out :=
  command s fn 0x21 cid <| pfOnly fn fun s =>
    ends (dmaWrite s (winNum s fn 0 8) ((List.range 512).map fun d => BitVec.ofNat 8 (s.peer d).st.code)) fn .ok 0

/-! ### ROOT_SPACE (R256, R257, R430) -/

/-- The tenant-0 caller of ROOT_SPACE, numbered above every agent. -/
def hostUid : Nat := 2 ^ 70

/-- An operand register of ROOT_SPACE. -/
def rootOperand (s : State) (n i : Nat) : Word := winWord s n (8 + 8 * i)

/-- A precise trap of the instruction that ROOT_SPACE runs (R430). -/
def rootTrap (s : State) (n : Nat) (c : Cause) : State := ends (s.setFn n ((s.fn n).put 0 (leBytes 8 0))) n .badOperand c.code

/-- A status of the instruction that ROOT_SPACE runs. -/
def rootStatus (s : State) (n : Nat) (w : Word) : State := endRootSpace s n (leBytes 8 w.toNat)

/-- ROOT_SPACE with one of its instructions: the row that the window's selector names (R256). -/
def rootSpace (n k : Nat) (cid : BitVec 16) (run : State → State) (s : State) : Out :=
  if winNum s n 0 8 % 8 ≠ k then .next s
  else command s n 0x23 cid <| pfOnly n fun s => if bitsOf (winNum s n 0 8) 3 61 ≠ 0 then ends s n .badOperand 0 else run s

/-- A status that a register or the window waits for, with the node whose earlier translations come first (R108). -/
def rootLater (s : State) (n : Nat) (w : Word) (node : Option Nat) : State :=
  match node with
  | none => rootStatus s n w
  | some _ => { s with
      pending := tput s.nextId { uid := hostUid, dest := .host n, bytes := leBytes 8 w.toNat, bad := none, kf := false, node := node, slot := none } s.pending
      nextId := s.nextId + 1 }

/-- `map` and `grant` in space 0 (R105, R106). -/
def rootDerive (grant : Bool) (n : Nat) (s : State) : State :=
  match quadOf grant (rootOperand s n 0) (rootOperand s n 1) (rootOperand s n 2) (rootOperand s n 3) 0 with
  | .error (c, _) => rootTrap s n c
  | .ok q => match derive s 0 0 grant q with
    | .status w s1 node => rootLater s1 n w node
    | .remote node =>
      sendAccess s { uid := hostUid, ep := 0, launch := none, cid := 0xFFFF, core := stewardCore 0
                     kind := .derive grant node q.src q.pages q.rights q.space q.dst
                     pieces := [{ mkPiece 0 0 [] with loc := .peer q.dev 0 }], dest := .host n, kf := false, acq := false, rel := false
                     va := 0, phase := .flying, nodes := [], told := false, first := some s.time, refused := false, nacked := false
                     failed := none }

/-- ROOT_SPACE `map`. -/
def execRootSpaceMap (fn : Nat) (cid : BitVec 16) (s : State) : Out := rootSpace fn 0 cid (rootDerive false fn) s
/-- ROOT_SPACE `grant`. -/
def execRootSpaceGrant (fn : Nat) (cid : BitVec 16) (s : State) : Out := rootSpace fn 1 cid (rootDerive true fn) s

/-- `unmap` and `unmap.self` in space 0 (R113). -/
def rootUnmap (self : Bool) (n : Nat) (s : State) : State :=
  match pairOf (rootOperand s n 0) (rootOperand s n 1) 0 with
  | .error (c, _) => rootTrap s n c
  | .ok (first, pages) => match unmapCheck s 0 self first pages with
    | .status w => rootStatus s n w
    | .roots is more => withdraw s 0xFFFF (.host n) is more false none

/-- ROOT_SPACE `unmap`. -/
def execRootSpaceUnmap (fn : Nat) (cid : BitVec 16) (s : State) : Out := rootSpace fn 2 cid (rootUnmap false fn) s
/-- ROOT_SPACE `unmap.self`. -/
def execRootSpaceUnmapSelf (fn : Nat) (cid : BitVec 16) (s : State) : Out := rootSpace fn 3 cid (rootUnmap true fn) s

/-- ROOT_SPACE `spnew` (R109). -/
def execRootSpaceSpnew (fn : Nat) (cid : BitVec 16) (s : State) : Out :=
  rootSpace fn 4 cid (fun s => match newSpace s 0 with
    | some (i, s1) => rootStatus s1 fn (statusWord .ok 0 0 i)
    | none => rootStatus s fn (statusWord .noSpace 0 0 0)) s

/-- ROOT_SPACE `spdel` (R110, R388). -/
def execRootSpaceSpdel (fn : Nat) (cid : BitVec 16) (s : State) : Out :=
  rootSpace fn 5 cid (fun s =>
    let n := (rootOperand s fn 0).toNat
    if bitsOf n 20 44 ≠ 0 then rootTrap s fn .illegal
    else match spdelRefusal s 0 n with
    | some c => rootStatus s fn (statusWord c 0 0 0)
    | none => beginSpdel s 0xFFFF (.host fn) n) s

/-- ROOT_SPACE `mprobe` (R112). -/
def execRootSpaceMprobe (fn : Nat) (cid : BitVec 16) (s : State) : Out :=
  rootSpace fn 6 cid (fun s => rootStatus s fn (probeWord s 0 (rootOperand s fn 0))) s

end Sys2Proof.Machine
end

