-- ==== Sys2Proof/Machine/Events.lean ====
section
/-! DEFINITION. Events of the device: ladder triggers and slices (R229, R259), lost peers (R164), islands (R18 to R20), memory channels
(R23), soft errors (R133, R246), retirement of cores (R15, R247, R248, R363), the fabric (R250 to R253), boot and reset (R257, R270,
R271). -/

namespace Sys2Proof.Machine

open Sys2Proof

/-! ### Ladder triggers and slices (R229, R259) -/

/-- WDOG_EXPIRY: a launch has run for its context's `wdog` cycles, the time of halts left out (R229). -/
def execWdogExpiry (l : Nat) (s : State) : Out :=
  match tget l s.launches with
  | none => .next s
  | some x => match x.started, s.ctx? x.cid with
    | some t, some c =>
      if c.wdog ≠ 0 ∧ c.st = .running ∧ t + x.pausedFor + c.wdog ≤ s.time then .next (softRequest s x.cid 1 []) else .next s
    | _, _ => .next s

/-- HANG_EXPIRY: no thread of a context has retired an instruction for `hang` cycles while threads are resident (R229). -/
def execHangExpiry (cid : Nat) (s : State) : Out :=
  match s.ctx? cid with
  | none => .next s
  | some x =>
    if x.hang ≠ 0 ∧ threadsResident s cid = true ∧ x.lastRetire + x.hang ≤ s.time then .next (softRequest s cid 2 [])
    else .next s

/-- Whether a halted context waits for its next slice: it was halted at the end of one, or RESUME asked for it (R256, R259). -/
def waitsSlice (x : Context) (v : Saved) : Bool := v.trigger == 0 || match x.ladder with | some l => !l.answers.isEmpty | none => false

/-- Whether a context has work: it waits for its next slice, or it has an open launch or a record to take (R259). -/
def hasWork (s : State) (cid : Nat) (x : Context) : Bool :=
  (match x.st with | .halted v => waitsSlice x v | .running => true | .dead => false)
    && (decide (x.st ≠ .running) || s.launches.any (fun e => e.2.cid == cid) || !x.devq.isEmpty
      || s.queues.any fun e => e.2.cid == cid && e.2.opened && !e.2.fenced && e.2.tail != e.2.head)

/-- The contexts of a partition that have work, by their order of creation. -/
def workers (s : State) (part : Nat) : Table Nat :=
  (s.contexts.filter fun e => e.2.part == part && hasWork s e.1 e.2).foldl (fun (acc : Table Nat) e => tput e.2.born e.1 acc) []

/-- The context whose turn it is in a sliced partition. -/
def sliceHolder (s : State) (part : Nat) : Option (Nat × Context) :=
  match tget part s.runningSlice with
  | none => none
  | some r => tfind (fun _ x => x.part == part && x.born == r.1) s.contexts

/-- SLICE_END: the running context has used its slice, and another context has work (R259). -/
def execSliceEnd (p : Nat) (s : State) : Out :=
  match tget p s.parts, tget p s.runningSlice, sliceHolder s p with
  | some d, some r, some (cid, x) =>
    if d.sliced && decide (x.st = .running) && decide (r.2 + d.slice * 1024 ≤ s.time) && (workers s p).any (fun e => e.2 != cid) then
      .next (softRequest s cid 0 [])
    else .next s
  | _, _, _ => .next s

/-- The next context of a sliced partition in order of creation. -/
def nextWorker (s : State) (p : Nat) : Option (Nat × Nat) :=
  let ws := workers s p
  let last := match tget p s.runningSlice with | some r => r.1 | none => 0
  match ws.filter fun e => decide (last < e.1) with
  | e :: _ => some e
  | [] => ws.head?

/-- Whether the running context of a sliced partition has given up its slice: it has halted or ended. -/
def sliceOver (s : State) (p : Nat) : Bool :=
  match sliceHolder s p with
  | some (_, x) => decide (x.st ≠ .running)
  | none => true

/-- A context of a sliced partition begins its slice. -/
def beginSlice (s : State) (p born : Nat) : State := { s with runningSlice := tput p (born, s.time) s.runningSlice }

/-- NEXT_SLICE_RESTORE: once the running context has halted, the next one is restored, or begins (R259). -/
def execNextSliceRestore (p : Nat) (_ps : List Place) (s : State) : Out :=
  match tget p s.parts, nextWorker s p with
  | some d, some (born, cid) =>
    if d.sliced && sliceOver s p then
      let s1 := tryRestore s cid fun v => match s.ctx? cid with | some x => waitsSlice x v | none => false
      match s1.ctx? cid with
      | some x => if x.st = .running then .next (beginSlice s1 p born) else .next s1
      | none => .next s1
    else .next s
  | _, _ => .next s

/-! ### Lost peers (R164) -/

/-- Whether a sent access has had no answer of any kind for 2^16 cycles. -/
def silentAccess (s : State) (dev : Nat) (a : Access) : Bool :=
  decide (a.phase = .flying) && !a.nacked && a.peer == some dev && match a.first with
    | some f => decide (f + 2 ^ 16 ≤ s.time)
    | none => false

/-- Whether a message has had no answer for 2^16 cycles. -/
def silentMessage (s : State) (dev : Nat) (m : Message) : Bool :=
  m.dev == dev && decide (dev ≠ s.device) && mayArrive s m && !m.nacked && match m.first with
    | some f => decide (f + 2 ^ 16 ≤ s.time)
    | none => false

/-- A sent access without an answer: PEER_LOST; a derivation's status is not stated, and is a free value (log 15); a `tagpub` has its
own status (R207). -/
def loseAccess (s : State) (e : Nat × Access) : State :=
  match e.2.kind with
  | .tagpub _ _ _ _ => s
  | .derive _ _ _ _ _ _ _ =>
    let d := drawField s
    settleAcc (putAcc d.2 e.1 { e.2 with pieces := e.2.pieces.map fun (p : Piece) => { p with done := true, bytes := leBytes 8 d.1 } }) e.1 e.2.uid
  | _ => failAtPeer s e.1 e.2 .peerLost

/-- PEER_LOST: a peer has been silent for 2^16 cycles (R164, R252). -/
def execPeerLost (dev : Nat) (s : State) : Out :=
  if s.accs.any (fun e => silentAccess s dev e.2) || s.msgs.any (fun e => silentMessage s dev e.2) then
    let s1 := (s.accs.filter fun e => silentAccess s dev e.2).foldl loseAccess s
    let s2 := (s.msgs.filter fun e => silentMessage s dev e.2).foldl (fun s e => bounce s e.1 e.2 .peerLost (some dev)) s1
    .next (losePeer s2 dev)
  else .next s

/-! ### Islands (R18 to R20) -/

/-- The cores of an island. -/
def islandCores (i : Nat) : List Nat := (List.range 32).map (i * 32 + ·)
/-- Replaces an island. -/
def State.setIsland (s : State) (i : Nat) (x : Island) : State := { s with islands := tput i x s.islands }

/-- OPERATING_POINT_CHANGE: no result differs (R18, R19). -/
def execOperatingPointChange (isl : Nat) (pt : OpPoint) (s : State) : Out :=
  if (s.island isl).gated then .next s else .next (s.setIsland isl { s.island isl with point := pt })

/-- Whether an address names a pool of some cores through the cluster window of a core. -/
def windowInto (cs : List Nat) (core : Nat) (va : Word) : Bool :=
  match classify va with
  | .window c _ => cs.contains (clusterOf core * 256 + c)
  | _ => false

/-- Whether an operand of an `mma` lies in the pool of one of some cores (R189). -/
def operandsInto (cs : List Nat) (core : Nat) (op : MxOp) : Bool :=
  let hit (x : MxOperand) : Bool := match x with | .pool base _ => windowInto cs core base | .run _ _ _ => false
  match op with
  | .mma _ _ _ a b => hit a || hit b
  | _ => false

/-- Whether firmware may gate an island: no context holds its cores, no thread reaches its pools through the cluster window, no
accumulator slot is in use, no thread is Leaving for it, and nothing is on its way to its cores (R20, R249; log 64). -/
def mayGate (s : State) (isl : Nat) : Bool :=
  let cs := islandCores isl
  cs.all (fun c => (s.core c).ctx.isNone && (s.core c).inbox.isEmpty)
    && s.threads.all (fun e => !reachesIsland s e.2.cid e.2.core isl)
    && s.threads.all (fun e => match e.2.prog with | .moving d _ _ => !cs.contains d | _ => true)
    && (List.range 4).all (fun t => (s.tile (isl * 4 + t)).slots.isEmpty)
    && s.accs.all (fun e => decide (e.2.phase = .returning) || e.2.pieces.all fun p => match p.loc with
        | .here k => p.done || !isPoolKey k || !cs.contains (poolCore k)
        | .untranslated => !windowInto cs e.2.core p.va
        | .peer _ _ => true)
    && s.xfers.all (fun e => !windowInto cs e.2.core e.2.ctr
        && (List.range (shCount e.2.shape)).all (fun n => !windowInto cs e.2.core (srcAddr e.2 n))
        && (List.range (shCount e.2.shape + shScales e.2.shape)).all fun n => !windowInto cs e.2.core (dstAddr e.2 n))
    && s.tiles.all (fun e => e.2.queues.all fun q => q.2.all fun c => !operandsInto cs (e.1 * 8 + q.1) c.op)
    && s.pubs.all (fun e => match tget (gridKey e.2.cid e.2.g) s.grids with
        | some b => (List.range b.count).all fun p => !windowInto cs (b.ownerCore p) (w64 (b.ibase p)) && !windowInto cs (b.ownerCore p) (w64 (b.gbase p))
        | none => true)
    && s.msgs.all fun e => e.2.dev != s.device || !cs.contains (bitsOf e.2.dest.toNat 11 12)

/-- What is left of a gated core: it keeps no state, so its generations and its `lfsr` are as after reset (R18; DESIGN CHOICE, log 64). That
its number is absent is firmware's (R15). -/
def gatedCore (x : Core) : Core := { Core.blank with absent := x.absent }

/-- The pools of an island hold zero data in state E, its tiles' slots are free, and its cores are as after reset (R18, R20). -/
def clearIsland (s : State) (isl : Nat) : State :=
  let s1 := (islandCores isl).foldl (fun s c => (clearPool s c).setCore c (gatedCore (s.core c))) s
  { s1 with tiles := s1.tiles.filter fun e => e.1 / 4 != isl }

/-- ISLAND_GATE (R20). -/
def execIslandGate (isl : Nat) (s : State) : Out :=
  if mayGate s isl && !(s.island isl).gated then .next ((clearIsland s isl).setIsland isl { s.island isl with gated := true }) else .next s

/-- ISLAND_POWER_UP (R20). -/
def execIslandPowerUp (isl : Nat) (s : State) : Out :=
  if (s.island isl).gated then
    .next (((clearIsland s isl).setIsland isl { s.island isl with gated := false }).wakeAll .engine)
  else .next s

/-! ### Memory channels (R23) and soft errors (R133, R246) -/

/-- The spares that a channel's stack has left: 2 for its 128 channels. -/
def sparesLeft (s : State) (ch : Nat) : Nat :=
  2 - ((s.channels.filter fun e => e.1 / 128 == ch / 128).map fun e => e.2.spares).foldl (· + ·) 0

/-- Replaces a channel. -/
def State.setChannel (s : State) (ch : Nat) (c : Channel) : State := { s with channels := tput ch c s.channels }

/-- CHANNEL_SPARE: a degrading channel moves to a spare; no address, content or state changes (R23). -/
def execChannelSpare (ch : Nat) (s : State) : Out :=
  if 0 < sparesLeft s ch ∧ (s.channel ch).withdrawn = false then
    .next (s.setChannel ch { s.channel ch with spares := (s.channel ch).spares + 1 })
  else .next s

/-- A word takes an uncorrectable soft error: it is P, and its record is due at the first demand access (R246). -/
def softWord (s : State) (k : Nat) : State :=
  let s1 := poisonWord s k
  { s1 with softWords := if s1.softWords.contains k then s1.softWords else s1.softWords ++ [k] }

/-- What waits at the words of a channel that is withdrawn meets P. -/
def failWaiters (s : State) (ch : Nat) : State :=
  s.mapAccs fun _ a => match a.phase, a.wordKey with
    | .waiting _, some k => if !isPoolKey (k * 8) && channelOf (k * 8) == ch then a.failedWith .poison 0 else a
    | _, _ => a

/-- CHANNEL_FAILURE: the words that could not be recovered become P; the spare takes the channel's number, or with none left the channel
is withdrawn from service (R23). -/
def execChannelFailure (ch : Nat) (ws : List Nat) (s : State) : Out :=
  if (s.channel ch).withdrawn then .next s
  else if 0 < sparesLeft s ch then
    let s1 := (ws.filter fun k => !isPoolKey (k * 8) && channelOf (k * 8) == ch).foldl softWord s
    .next (s1.setChannel ch { s1.channel ch with spares := (s1.channel ch).spares + 1 })
  else .next ((failWaiters s ch).setChannel ch { s.channel ch with withdrawn := true })

/-- The record of a soft error in a register (R246). -/
def registerRecord (s : State) (t : Thread) (detail : Nat) : State :=
  report s t.cid { addr := w64 (epOf s t).toNat, cause := .softError, detail := detail, item := 7, peer := none, ep := epOf s t }

/-- A device error to the host (R103, R246). -/
def deviceError (s : State) (c : Cause) : State := { s with devErrors := s.devErrors ++ [c.code] }

/-- What an uncorrectable soft error does (R133, R246). What `taddr` of a register's reader holds is not stated (log 15). -/
def softStrike (s : State) (x : SoftTarget) : State :=
  match x with
  | .greg u g => match tget u s.threads with
    | none => s
    | some t =>
      let d := drawField s
      registerRecord (d.2.setThread u (t.poisonG g (w64 d.1) 2)) t g.val
  | .vreg u v => match tget u s.threads with
    | none => s
    | some t =>
      let d := drawField s
      registerRecord (d.2.setThread u (t.poisonV v (w64 d.1) 2)) t (0x10 + v.val)
  | .word k => softWord s k
  | .accSlot tile slot => s.setTile tile ((s.tile tile).modSlot slot fun y => { y with soft := true, softTold := false })
  | .seal pg => deviceError (s.setSeal pg { s.seal pg with failed := true, cached := false, dirty := false }) .softError
  | .stored pg => s.setSeal pg { s.seal pg with broken := true }
  | .tag tenant obj tile => tagsChanged s (tdel (tagKey tenant obj tile) s.tags)
  | .other => deviceError s .softError

/-- SOFT_ERROR (R246). -/
def execSoftError (x : SoftTarget) (s : State) : Out := .next (softStrike s x)

/-! ### Retirement of cores (R15, R247, R248, R363) -/

/-- Whether an agent belongs to a gang that holds a core, or runs there. -/
def heldWith (s : State) (c : Nat) (t : Thread) : Bool :=
  t.core == c || match t.launch with
    | some l => (match tget l s.launches with | some x => ((tget t.gang x.places).getD []).contains c | none => false)
    | none => false

/-- A thread of a failed core is lost: a record, and one failed item (R248). No address is stated (log 15). -/
def loseThread (s : State) (e : Nat × Thread) : State :=
  let d := drawField s
  let s1 := report d.2 e.2.cid
    { addr := w64 d.1, cause := .itemLost, detail := 0, item := 7, peer := none, ep := epOf s e.2 }
  match e.2.kind with
  | .thread => retireThread s1 e.1 e.2 true
  | .message m => dropAgent (failItem s1 m.launch) e.1
  | .faultRun _ => dropAgent s1 e.1

/-- A message in the inbox of a failed core is reported to its sender's context (R248). -/
def loseMessage (s : State) (m : Message) : State :=
  failItem (report s m.cid { addr := w64 m.dest.toNat, cause := .itemLost, detail := 0, item := 3, peer := none, ep := m.sender }) m.launch

/-- An access that waits at a failed core, or was sent to its pool and not performed there (R248). -/
def loseAtCore (c : Nat) (s : State) (e : Nat × Access) : State :=
  let hit := e.2.pieces.find? fun p => !p.done && match p.loc with
    | .here k => isPoolKey k && poolCore k == c
    | .untranslated => windowInto [c] e.2.core p.va
    | .peer _ _ => false
  match e.2.phase, hit with
  | .waiting _, some _ => wakeIssuer (putAcc s e.1 (e.2.failedWith .poison 3)) e.2.uid
  | .flying, some p =>
    let s1 := tellFailure s e.1 e.2 .poison p.va 3 none
    let a1 : Access := { e.2 with told := true, pieces := e.2.pieces.map (fun (q : Piece) => { q with done := true }) }
    if e.2.kind.returns && e.2.dest != .none then
      wakeIssuer (putAcc s1 e.1 { a1 with phase := .returning, failed := some (Cause.poison.code, 3) }) e.2.uid
    else wakeIssuer (delAcc s1 e.1) e.2.uid
  | _, _ => s

/-- A thread that is Leaving for a failed core stays, and its `migrate` traps (R363). -/
def refuseMove (c : Nat) (s : State) (e : Nat × Thread) : State :=
  match e.2.status, e.2.prog with
  | .leaving, .moving d _ va =>
    if d = c then takeTrap (s.setThread e.1 { e.2 with status := .ready, prog := .none }) e.1 .coreAbsent 0 va e.2.pc else s
  | _, _ => s

/-- The pool of a replaced core: zero data in state P (R248). -/
def poisonPool (s : State) (c : Nat) : State :=
  let s1 := clearPool s c
  { s1 with words := (List.range (poolSize / 8)).foldl (fun w k => tput (poolBase c / 8 + k) .poison w) s1.words }

/-- FAILED_RETIREMENT (R15, R238, R248, R363). -/
def execFailedRetirement (c : Nat) (s : State) : Out :=
  if isSteward c || (s.core c).absent then .next s
  else
    let i := islandOf c
    let s1 := (s.threads.filter fun e => e.2.core == c).foldl loseThread s
    let s2 := (s1.core c).inbox.foldl loseMessage s1
    let s3 := s2.accs.foldl (loseAtCore c) s2
    let s4 := s3.threads.foldl (refuseMove c) s3
    let spare := !(s4.island i).spareUsed
    let s5 := poisonPool s4 c
    let kept := (s5.core c).faults.filter fun d => match d with | .thread _ => false | _ => true
    let s6 := s5.setCore c { s5.core c with
      inbox := [], faults := if spare then kept else [], hlfsr := 1, absent := !spare, ctx := if spare then (s5.core c).ctx else none }
    let s7 := match (s5.core c).ctx with
      | some cid => if spare then s6 else strandInterrupt s6 cid (kept.contains .interrupt)
      | none => s6
    .next (s7.setIsland i { s7.island i with spareUsed := true })

/-- PLANNED_RETIREMENT: the gangs that hold a core go on under new endpoints, and the island's spare has taken the core's number, its pool,
word states and inbox (R15, R247). With the spare in use the core's number becomes absent, and what ran there is lost as in a failed
retirement (R15, R248; DEDUCED, log 65). -/
def execPlannedRetirement (c : Nat) (_ps : List Place) (s : State) : Out :=
  let i := islandOf c
  if isSteward c || (s.core c).absent then .next s
  else if (s.island i).spareUsed then execFailedRetirement c s
  else
    let moved := s.threads.filter fun e => !e.2.inHandler && decide (e.2.core ≠ c) && heldWith s c e.2
    let here := s.threads.filter fun e => !e.2.inHandler && decide (e.2.core = c)
    let s1 := bumpGen (here.foldl (fun s e => bumpGen s c e.2.slot) s) c 8
    let s2 := moved.foldl (fun s e => bumpGen s e.2.core e.2.slot) s1
    .next (s2.setIsland i { s2.island i with spareUsed := true })

/-! ### The fabric (R250 to R253) -/

/-- A port of this device (R250). -/
def State.port (s : State) (p : Nat) : Port := (tget p s.ports).getD Port.blank
/-- Replaces a port. -/
def State.setPort (s : State) (p : Nat) (x : Port) : State := { s with ports := tput p x s.ports }

/-- FLIT_REPLAY: a flit that fails its CRC is sent again, from the first bad flit on (R250). -/
def execFlitReplay (port : Nat) (s : State) : Out :=
  if port < 72 ∧ (s.port port).live = true then .next (s.setPort port { s.port port with replays := (s.port port).replays + 1 }) else .next s

/-- HEARTBEAT: an idle lane sends a flit every 2,000 cycles; a good flit ends a row of replays (R250). -/
def execHeartbeat (port : Nat) (s : State) : Out :=
  if port < 72 ∧ (s.port port).live = true ∧ (s.port port).lastFlit + 2000 ≤ s.time then
    .next (s.setPort port { s.port port with lastFlit := s.time, replays := 0, seq := (s.port port).seq + 1 })
  else .next s

/-- PORT_LOST: 16 replays of one flit failed in a row, or nothing came for 8,000 cycles (R251). What waited for a port looks again. -/
def execPortLost (port : Nat) (s : State) : Out :=
  if port < 72 ∧ (s.port port).live = true ∧ (16 ≤ (s.port port).replays ∨ (s.port port).lastFlit + 8000 ≤ s.time) then
    .next (holdsOver (s.setPort port { s.port port with live := false }))
  else .next s

/-- The level state that a receiver sets at a fill in eighths of its buffer: 0 OPEN, 1 SLOW, 2 STOP (R250). -/
def levelAt (old fill : Nat) : Nat :=
  if 7 ≤ fill then 2
  else if old = 2 then (if fill < 6 then 1 else 2)
  else if fill < 4 then 0
  else if 4 < fill then 1
  else old

/-- LEVEL_STATE_CHANGE: what waited for a port that may send looks again (R250). -/
def execLevelStateChange (port : Nat) (fill : Fin 9) (s : State) : Out :=
  if port < 72 ∧ (s.port port).live = true then
    .next (holdsOver (s.setPort port { s.port port with level := levelAt (s.port port).level fill.val }))
  else .next s

/-- Nodes whose parent lives on another device are discarded when this device rejoins (R119, R253). What was derived from them here
stays, without a parent (DESIGN CHOICE, log 69). -/
def dropForeign (s : State) : State := { s with nodes := s.nodes.filter fun e => e.2.parentDev.isNone }

/-- JOIN_HANDSHAKE: a peer whose certificate and quote check becomes LIVE, with its identity and its M0 to M3 (the feed's
parts); else DISABLED (R253). `f.n` is 1 when it is this device that rejoins the domain. With no live port nothing of a handshake comes
in (R24, R251). -/
def execJoinHandshake (dev : Nat) (f : Feed) (s : State) : Out :=
  if dev = s.device ∨ 512 ≤ dev ∨ anyPort s = false then .next s
  else
    let s1 := if f.n = 1 then dropForeign s else s
    let x : Peer := if f.ok then { st := .live, ident := f.bytes, measures := f.parts.take 4 } else { st := .disabled, ident := [], measures := [] }
    .next { s1 with peers := tput dev x s1.peers }

/-! ### Boot and reset (R257, R270, R271) -/

/-- The nodes that firmware carves for the root space: one for each station (R101, R257). -/
def rootNodes (s : State) : State :=
  (List.range 128).foldl (fun s g => { s with
    nodes := tput s.nextId { space := 0, vpage := 2 ^ 36 + g * 786432, pages := stationSeals, dev := s.device, page := g * 786432
                             rights := 31, parent := none, parentDev := none, depth := 0, tenant := 0, withdrawn := false } s.nodes
    nextId := s.nextId + 1 }) s

/-- The steward context (R71). -/
def stewardContext : Context := Context.fresh 0 noPart 0 0

/-- The firmware starts: a thread of the steward context on the steward core of die 0, whose first instruction no rule names: a free value
(R71, R270; log 15). -/
def startFirmware (s : State) : State :=
  let c := stewardCore 0
  let u := s.nextId
  let t := Thread.fresh c 0 0xFFFF 0 (w64 (2 * Config.openField s.draws))
  { s with threads := tput u { t with since := s.time } s.threads, nextId := u + 1, draws := s.draws + 1
           cores := tput c { s.core c with ctx := some 0xFFFF, tenant := 0 } s.cores }

/-- The boot sequence with a first-stage image (R270): `parts` is the device configuration, then the later stages. -/
def bootRun (s : State) (image : List Byte) (parts : List (List Byte)) : State :=
  let ms := extendMeasure (List.replicate 4 (List.replicate 48 0)) 0 (sha384 image)
  if Config.imageVerifies image then
    let ms1 := (parts.drop 1).foldl (fun m st => extendMeasure m 1 (sha384 st)) ms
    let ms2 := extendMeasure ms1 2 (sha384 (parts.headD []))
    startFirmware { rootNodes { s with measures := ms2, contexts := tput 0xFFFF stewardContext s.contexts } with boot := 1, why := 0 }
  else { s with measures := ms, boot := 2, why := 2 }

/-- DEVICE_RESET (R270): everything is as after reset but what lies outside the device, and the boot sequence runs; with no image it ends
in recovery. -/
def execDeviceReset (f : Feed) (s : State) : Out :=
  let s0 := { State.reset with device := s.device, hostMem := s.hostMem, agenda := s.agenda, draws := s.draws, nextId := s.nextId
                               measures := List.replicate 4 (List.replicate 48 0) }
  .next (if f.ok then bootRun s0 f.bytes f.parts else { s0 with boot := 2, why := 1 })

/-- The largest image that FW_LOAD takes (R271). -/
def maxImage : Nat := 64 * 2 ^ 20

/-- The boot with a host image (R271); the status of a load that fails is not stated (log 15), nor whether an image above 64 MiB clears
M0 to M3 before it is turned away: they stay as they were (DESIGN CHOICE, log 78). -/
def loadFirmware (n : Nat) (f : Feed) (s : State) : State :=
  let addr := winNum s n 0 8
  let len := winNum s n 8 8
  let d := drawField s
  if maxImage < len then endCommand { d.2 with why := 3 } n (d.1 % 256) 0
  else
    let s1 := bootRun s (dmaRead s addr len) f.parts
    if s1.boot = 1 then ends s1 n .ok 0
    else endCommand (drawField s1).2 n ((drawField s1).1 % 256) 0

/-- FW_LOAD: only in recovery (R256, R271). -/
def execFwLoad (fn : Nat) (cid : BitVec 16) (f : Feed) (s : State) : Out :=
  command s fn 0x22 cid <| pfOnly fn fun s => if s.boot = 2 then loadFirmware fn f s else ends s fn .badState 0

end Sys2Proof.Machine
end

