-- ==== Sys2Proof/Machine/Halo.lean ====
section
/-! DEFINITION. The halo engine: `gdecl`, `hpub`, `hdone`, `ldh`, the writing of ghost pieces and its timeouts (R196 to R205, R214,
R274, R343 to R347, R355). -/

namespace Sys2Proof.Machine

open Sys2Proof

/-! ### `gdecl` (R196 to R198) -/

/-- Reads 8-byte words from translated memory for the halo engine, in address order: the words, or the first failure (R198,
R343). None while a translation is held. -/
def gridRead (s : State) (t : Thread) (va : Word) : Nat → Except (Option (Cause × Word)) (List Word × State)
  | 0 => .ok ([], s)
  | n + 1 => match engineRead s t.cid t.core (epOf s t) va 8 with
    | (.ok x, s1) => match gridRead s1 t (va + 8) n with
      | .ok (ws, s2) => .ok (w64 x :: ws, s2)
      | .error e => .error e
    | (.hold, _) => .error none
    | (.fail c, _) => .error (some (c, va))
    | (.poison, _) => .error (some (.poison, va))
    | (.seal _, _) => .error (some (.integrity, va))

/-- Cuts a list of words into records of eight. -/
def records : Nat → List Word → List (List Word)
  | 0, _ => []
  | n + 1, ws => ws.take 8 :: records n (ws.drop 8)

/-- A header word with a reserved field that is not 0, or a field with a reserved code (R196, R198). -/
def headerBad (b : Binding) (k : Nat) : Bool :=
  match k with
  | 0 => bitsOf (b.hdr 0) 28 4 != 0 || bitsOf (b.hdr 0) 22 2 != 0 || bitsOf (b.hdr 0) 13 3 != 0 || bitsOf (b.hdr 0) 2 2 != 0
      || b.rad == 0 || decide (8 < b.rad) || b.width == 0 || decide (8 < b.width)
      || decide (b.dims = 4) || (EType.ofCode b.typeCode).isNone
  | 1 => bitsOf (b.hdr 1) 48 16 != 0
  | 2 => bitsOf (b.hdr 2) 24 40 != 0
  | 3 => bitsOf (b.hdr 3) 24 40 != 0 || (List.range 6).any fun j => decide (3 < b.bound j)
  | 11 => bitsOf (b.hdr 11) 32 32 != 0
  | 12 | 13 | 14 | 15 => b.hdr k != 0
  | _ => false

/-- Whether a type is none that a grid holds (R198). -/
def noGridType (code : Nat) : Bool :=
  match EType.ofCode code with
  | some t => t == .e2m1 || t == .i4 || t == .x8
  | none => true

/-- The conditions of R198 on the header, in the order of its table, with their details. -/
def headerFault (b : Binding) : Option Nat :=
  match (List.range 16).find? (headerBad b) with
  | some k => some k
  | none =>
    let past := (List.range 3).filter fun k => decide (b.dims ≤ k)
    let used := (List.range 3).filter fun k => decide (k < b.dims)
    if noGridType b.typeCode then some 0
    else if past.any (fun k => b.ext k != 1) then some 1
    else if past.any (fun k => b.pcount k != 1) then some 2
    else if past.any (fun k => b.bound (2 * k) != 0 || b.bound (2 * k + 1) != 0) then some 3
    else if b.ptab % 64 ≠ 0 then some 0x0A
    else if 4096 < b.count then some 2
    else if (List.range 3).any (fun k => b.ext k % b.pcount k != 0) then some 2
    else if used.any (fun k => decide (b.n k < b.width)) then some 0
    else if b.width < b.depth * b.rad then some 0
    else if used.any (fun k => (b.bound (2 * k) == 0) != (b.bound (2 * k + 1) == 0)) then some 3
    else none

/-- The conditions of R198 on the partition records. -/
def tableFault (b : Binding) : Option Nat :=
  let owner (p : Nat) : Nat := b.prec p 0 / 2 ^ 11 % 2 ^ 21
  if (List.range b.count).any (fun p => b.prec p 0 / 2 ^ 32 != 0 || (List.range 4).any fun k => b.prec p (4 + k) != 0) then some 0xFF
  else if ((List.range b.count).map owner).eraseDups.length ≠ b.count then some 0xFF
  else if (List.range b.count).any (fun p => b.ibase p % b.size != 0 || b.gbase p % b.size != 0 || b.rowPitch p % b.size != 0
      || b.planePitch p % b.size != 0 || b.gbase p % 64 != 0) then some 0xFF
  else none

/-- A binding is dropped: the agents of the context that are Blocked in `hpub` or `ldh` on the handle trap there, and its
publications end (R198, R344). -/
def dropBinding (s : State) (cid g : Nat) : State :=
  let hit := s.threads.filter fun e => e.2.cid == cid && e.2.waitsFor fun w => w == Wait.ghost g || w == Wait.publish g
  let s1 := { s with grids := tdel (gridKey cid g) s.grids, pubs := s.pubs.filter fun e => !(e.2.cid == cid && e.2.g == g) }
  hit.foldl (fun s e => takeTrap s e.1 .gridHandle 0 e.2.pc e.2.pc) s1

/-- The declaration that a ghost write reaches: the binding of the same tenant and `gridid` in the context that holds the
owner's core (R198). -/
def receiverOf (s : State) (tenant : Nat) (b : Binding) (q : Nat) : Option (Nat × Binding) :=
  tfind (fun k x => x.gridid == b.gridid && (match s.ctx? (k / 64) with | some c => c.tenant == tenant | none => false)
    && ((s.core (b.ownerCore q)).ctx == some (k / 64) || (tget (areaKey (k / 64) (b.ownerCore q)) s.areas).isSome)) s.grids

/-- Whether the halo engine has begun the next piece of a publication: its buffer fills for the step (R204). -/
def pieceBegun (s : State) (x : Publication) (b : Binding) : Bool :=
  let tenant := match s.ctx? x.cid with | some c => c.tenant | none => 0
  match x.left with
  | (q, f) :: _ => (match receiverOf s tenant b q with
    | some (_, rb) => (rb.buf q f (rb.bufOf x.step)).st == .filling x.step
    | none => false)
  | [] => false

/-- Whether ghost writes of a handle are under way: they are completed before its binding is dropped (R198). -/
def writesUnderWay (s : State) (cid g : Nat) : Bool :=
  match tget (gridKey cid g) s.grids with
  | some b => s.pubs.any fun e => e.2.cid == cid && e.2.g == g && pieceBegun s e.2 b
  | none => false

/-- `gdecl` (R198, R274, R343, R344). -/
def execGdecl (y : Sync) (g : Fin 64) (a : GNum) (s : State) : Out :=
  issue s y [.g a] [] [] fun u t =>
    let va := t.gval a
    let i : Instr := .gdecl y g a
    if va.toNat % 64 ≠ 0 then trapAt s u t .misaligned 0 va
    else if accessesBefore s u s.nextId then blockOn s u t .accesses
    else if writesUnderWay s t.cid g.val then blockOn s u t .accesses
    else if va = 0 then finish (dropBinding s t.cid g.val) i u t
    else match gridRead s t va 16 with
    | .error none => blockOn s u t .accesses
    | .error (some (c, f)) => trapAt s u t c 0 f
    | .ok (hs, s1) =>
      let b : Binding := { header := hs, parts := [], last := [], marks := [], bufs := [] }
      match headerFault b with
      | some det => trapHere s1 u t .gridDesc det
      | none => match gridRead s1 t (w64 b.ptab) (8 * b.count) with
        | .error none => blockOn s1 u t .accesses
        | .error (some (c, f)) => trapAt s1 u t c 0 f
        | .ok (ws, s2) =>
          let b1 := { b with parts := records b.count ws }
          match tableFault b1 with
          | some det => trapHere s2 u t .gridDesc det
          | none =>
            let s3 := dropBinding s2 t.cid g.val
            finish { s3 with grids := tput (gridKey t.cid g.val) b1 s3.grids } i u t

/-! ### What `hpub`, `hdone` and `ldh` check first -/

/-- The step that is reserved. -/
def noStep : Nat := 0xFFFFFFFF

/-- The checks before R201 on the step, the handle and the own partition: ILLEGAL, GRID_HANDLE, HALO_OWNER. -/
def gridCheck (s : State) (t : Thread) (g step : Nat) : Except Cause (Binding × Nat) :=
  if noStep ≤ step then .error .illegal
  else match tget (gridKey t.cid g) s.grids with
  | none => .error .gridHandle
  | some b => match b.ownPart s.device t.core with
    | none => .error .haloOwner
    | some p => .ok (b, p)

/-! ### The cells of a piece (R200) -/

/-- Where one dimension of a ghost cell's global coordinate leads: an interior coordinate, or a constant face. `x` is the
interior-relative coordinate, above w by an offset so that it is a natural number. -/
inductive Mapped where
  | inner (x : Nat)
  | const (face : Nat)
  deriving DecidableEq, Repr

/-- The mapping of a dimension (R200): partition coordinate i, interior-relative coordinate x. -/
def mapDim (b : Binding) (k i : Nat) (x : Int) : Mapped :=
  let e : Int := b.ext k
  let g : Int := (i * b.n k : Nat) + x
  if 0 ≤ g ∧ g < e then .inner g.toNat
  else
    let face := if g < 0 then 2 * k else 2 * k + 1
    match b.bound face with
    | 0 => .inner (g % e).toNat
    | 1 => .inner (if g < 0 then (-g - 1).toNat else (2 * e - g - 1).toNat)
    | 2 => .const face
    | _ => .inner (if g < 0 then 0 else (e - 1).toNat)

/-- The interior-relative coordinate of a piece's local coordinate (R199). -/
def pieceCoord (b : Binding) (f k u : Nat) : Int :=
  match pieceDigit f k with
  | 0 => (u : Int) - b.width
  | 1 => u
  | _ => (u : Int) + b.n k

/-- What a ghost cell takes its value from: an interior cell of a partition, or a constant face; the first constant face in the
order of R196 decides (R200). -/
inductive GhostSrc where
  | cell (p x y z : Nat)
  | const (face : Nat)
  deriving DecidableEq, Repr

/-- The source of the cell (ux, uy, uz) of piece f of partition q. -/
def ghostSrc (b : Binding) (q f ux uy uz : Nat) : GhostSrc :=
  let m (k u : Nat) : Mapped := mapDim b k (b.pcoord q k) (pieceCoord b f k u)
  match m 0 ux, m 1 uy, m 2 uz with
  | .const j, _, _ => .const j
  | _, .const j, _ => .const j
  | _, _, .const j => .const j
  | .inner x, .inner y, .inner z =>
    .cell (x / b.n 0 + b.pcount 0 * (y / b.n 1 + b.pcount 1 * (z / b.n 2))) (x % b.n 0) (y % b.n 1) (z % b.n 2)

/-- The contributor of a piece: all its cells lead to one partition, since no partition is narrower than w; a piece of
constants has its own partition (R200). -/
def contributor (b : Binding) (q f : Nat) : Nat :=
  match ghostSrc b q f 0 0 0 with
  | .cell p _ _ _ => p
  | .const _ => q

/-- The pieces that a partition contributes to, in increasing (q, f) (R201). -/
def piecesOf (b : Binding) (p : Nat) : List (Nat × Nat) :=
  ((List.range b.count).map fun q => (b.pieces.map fun f => (q, f)).filter fun e => contributor b e.1 e.2 == p).flatten

/-- The cells of a piece, with their place in a buffer: x varies fastest. -/
def pieceCells (b : Binding) (f : Nat) : List (Nat × Nat × Nat) :=
  ((List.range (b.m f 2)).map fun z => ((List.range (b.m f 1)).map fun y => (List.range (b.m f 0)).map fun x => (x, y, z)).flatten).flatten

/-! ### `hpub` (R201) -/

/-- The pieces of a publication that its partition has not filled yet for the step (R201: after a halt or a timeout it goes on
with the rest). -/
def piecesLeft (b : Binding) (p step : Nat) : List (Nat × Nat) :=
  (piecesOf b p).filter fun e => !b.marks.any fun m => m.part == p && m.step == step && m.q == e.1 && m.f == e.2

/-- A publication is complete: last(p) is its step (R201). -/
def pubDone (b : Binding) (p step : Nat) : Binding :=
  { b with last := tput p step b.last, marks := b.marks.filter fun m => !(m.part == p) }

/-- `hpub` (R201, R347): Blocked until the halo engine has written every piece of the own partition. -/
def execHpub (y : Sync) (g : Fin 64) (r : GNum) (s : State) : Out :=
  notInHandler s <| issue s y [.g r] [] [] fun u t =>
    let step := (t.gval r).toNat
    let i : Instr := .hpub y g r
    match gridCheck s t g.val step with
    | .error c => trapHere s u t c 0
    | .ok (b, p) =>
      if step % b.depth ≠ 0 ∨ (match tget p b.last with | some l => decide (step ≤ l) | none => false) = true then finish s i u t
      else match t.prog with
      | .publishing id =>
        if (tget id s.pubs).isSome then blockAt s u t (.publish g.val) (.publishing id) else finish s i u t
      | _ =>
        if s.pubs.any fun e => e.2.cid == t.cid && e.2.g == g.val && e.2.part == p then blockOn s u t (.publish g.val)
        else if (piecesLeft b p step).isEmpty then
          finish { s with grids := tput (gridKey t.cid g.val) (pubDone b p step) s.grids } i u t
        else
          let x : Publication :=
            { uid := u, cid := t.cid, ep := epOf s t, launch := t.launch, g := g.val, part := p, step := step
              left := piecesLeft b p step, after := s.nextId, waiting := none, first := none, nacked := false, told := [] }
          blockAt { s with pubs := tput s.nextId x s.pubs, nextId := s.nextId + 1 } u t (.publish g.val) (.publishing s.nextId)

/-! ### Writing a piece -/

/-- A failure of publication id, reported once per word (R115, R201); `k` tells the words of its interior and of the ghost area
apart. -/
def pubFault (s : State) (id : Nat) (va : Word) (c : Cause) (k : Nat) : State :=
  match tget id s.pubs with
  | none => s
  | some x =>
    let w := va.toNat / 8 + k * 2 ^ 64
    if x.told.contains w then s
    else
      let s1 := failItem (reportAccess s x.cid { addr := va, cause := c, detail := 0, item := 6, peer := none, ep := x.ep }) x.launch
      { s1 with pubs := tput id { x with told := x.told ++ [w] } s1.pubs }

/-- The value of a ghost element, or that its word is to be poisoned (R200, R201). None while a source is held. -/
def ghostValue (s : State) (id : Nat) (x : Publication) (b : Binding) (q f : Nat) (u : Nat × Nat × Nat) (c : Nat) :
    Option (Option Nat × State) :=
  match ghostSrc b q f u.1 u.2.1 u.2.2 with
  | .const j => some (some (b.const j % 2 ^ (8 * b.size)), s)
  | .cell p cx cy cz =>
    let va := b.cellAddr p cx cy cz c
    match engineRead s x.cid (b.ownerCore p) x.ep va b.size with
    | (.ok v, s1) => some (some v, s1)
    | (.hold, _) => none
    | (.fail e, s1) => some (none, pubFault s1 id va e 0)
    | (.seal _, s1) => some (none, pubFault s1 id va .integrity 0)
    | (.poison, s1) => some (none, pubFault s1 id va .poison 0)

/-- What the engine writes for a ghost element. -/
structure GhostElem where
  va : Word
  val : Option Nat
  deriving DecidableEq, Repr

/-- The virtual pages whose every byte some elements of a piece cover: an engine write of the whole seal (R129). -/
def wholePages (size : Nat) (es : List GhostElem) : List Nat :=
  ((es.map fun e => e.va.toNat / 4096).eraseDups).filter fun pg => (es.filter fun e => e.va.toNat / 4096 == pg).length * size == 4096

/-- A write of a ghost element into the receiving context's ghost area, through its owner's space; a failure is reported and leaves the
word (R115, R199). A seal that the piece covers whole needs no fill (R129). -/
def ghostWrite (id rcv core size : Nat) (whole : List Nat) (s : State) (e : GhostElem) : State :=
  match resolve s rcv core e.va rWrite with
  | .ok (.here key) node =>
    match (if !isPoolKey key && whole.contains (e.va.toNat / 4096) then seizeSeal s (key / 4096) (nodeTenant s node)
      else demandWrite s key (nodeTenant s node)) with
    | (none, s1) => match e.val with
      | some n =>
        let k8 := key / 8
        engineWrite s1 (k8 * 8) (patchBytes (memBytes s1.mem (k8 * 8) 8) ((leBytes size n).zipIdx.map fun b => (key % 8 + b.2, b.1)))
      | none => poisonWord (if isPoolKey key then s1 else dirtyPage s1 (key / 4096)) (key / 8)
    | (some c, s1) => pubFault s1 id e.va c 1
  | .ok _ _ => s
  | .hold => s
  | .fail c => pubFault s id e.va c 1

/-- A seal that a piece covers whole takes the new plaintext, which clears `failed` (R129, R132). -/
def ghostSeal (rcv core : Nat) (s : State) (pg : Nat) : State :=
  match resolve s rcv core (w64 (pg * 4096)) rWrite with
  | .ok (.here key) node =>
    if isPoolKey key || (seizeSeal s (key / 4096) (nodeTenant s node)).1.isSome then s else installWhole s (key / 4096) true
  | _ => s

/-- The elements of a piece: its cells with each component. -/
def pieceElems (b : Binding) (f : Nat) : List ((Nat × Nat × Nat) × Nat) :=
  ((pieceCells b f).map fun u => (List.range b.comps).map fun c => (u, c)).flatten

/-- What the elements of a piece take, in order. With differing declarations the contents are free values (R198, log 8). None
while a source or the destination is held. -/
def pieceValues (s : State) (id : Nat) (x : Publication) (b rb : Binding) (rcv q f buf : Nat) (same : Bool) :
    List ((Nat × Nat × Nat) × Nat) → Option (List GhostElem × State)
  | [] => some ([], s)
  | (u, c) :: es =>
    let va := rb.ghostAddr q f buf u.1 u.2.1 u.2.2 c
    let got := if same then ghostValue s id x b q f u c
      else some (some (leNat ((List.range rb.size).map fun i => Config.freeGhost (s.draws + i))), { s with draws := s.draws + rb.size })
    match got with
    | none => none
    | some (v, s1) =>
      if (match resolve s1 rcv (rb.ownerCore q) va rWrite with | .hold => true | _ => false) then none
      else match pieceValues s1 id x b rb rcv q f buf same es with
        | none => none
        | some (vs, s2) => some ({ va := va, val := v } :: vs, s2)

/-- A piece is written: its readable elements, and then the words of the others become P (R201). -/
def writePiece (s : State) (id : Nat) (x : Publication) (b rb : Binding) (rcv q f buf : Nat) (same : Bool) : Option State :=
  match pieceValues s id x b rb rcv q f buf same (pieceElems rb f) with
  | none => none
  | some (vs, s1) =>
    let whole := wholePages rb.size vs
    let s2 := (vs.filter fun e => e.val.isSome).foldl (ghostWrite id rcv (rb.ownerCore q) rb.size whole) s1
    let s3 := (vs.filter fun e => e.val.isNone).foldl (ghostWrite id rcv (rb.ownerCore q) rb.size whole) s2
    some (whole.foldl (ghostSeal rcv (rb.ownerCore q)) s3)

/-- The ghost tag of a stamp, in the table of q's owner's device (R214); only this device's table is modelled. The context that counts as
its last publisher (R212) is the receiving one (DESIGN CHOICE, log 77). -/
def ghostTag (s : State) (rcv : Nat) (b : Binding) (q f k : Nat) : State :=
  if b.tagobj = 0 then s
  else
    let tenant := match s.ctx? rcv with | some c => c.tenant | none => 0
    (tagPublish s tenant rcv b.tagobj (q * 32 + f) ((k / b.depth + 1) % 65536) b.tagcons).2

/-- A piece of a publication is over: written, dropped, or lost (R198, R201, R204). The publication that has no piece left is
complete, and its thread goes on. -/
def pieceOver (s : State) (id : Nat) (q f : Nat) : State :=
  match tget id s.pubs with
  | none => s
  | some x =>
    let left := x.left.filter fun e => e != (q, f)
    match tget (gridKey x.cid x.g) s.grids with
    | none => s
    | some b =>
      let b1 := { b with marks := b.marks ++ [{ part := x.part, step := x.step, q := q, f := f }] }
      if left.isEmpty then
        { s with pubs := tdel id s.pubs, grids := tput (gridKey x.cid x.g) (pubDone b1 x.part x.step) s.grids }.wake fun _ t =>
          t.cid == x.cid && t.waitsFor (· == Wait.publish x.g)
      else { s with pubs := tput id { x with left := left, waiting := none, first := none, nacked := false } s.pubs
                    grids := tput (gridKey x.cid x.g) b1 s.grids }

/-- Whether the accesses that come before a publication's reads are still on their way (R152, R171). -/
def pubEarly (s : State) (x : Publication) : Bool := accessesBefore s x.uid x.after

/-- The cells of a piece for another device are read: a cell that cannot be read is reported once (R201). None while one is held. -/
def readPiece (s : State) (id : Nat) (x : Publication) (b : Binding) (q f : Nat) : Option State :=
  (pieceElems b f).foldl (fun r e => r.bind fun s => (ghostValue s id x b q f e.1 e.2).map Prod.snd) (some s)

/-- A piece for an owner on a device that is unpopulated, disabled or outside the job is not sent: one record, and the piece counts as
written (R115, R198, R245). -/
def farRefused (s : State) (id : Nat) (x : Publication) (b : Binding) (q f : Nat) (c : Cause) : State :=
  pieceOver (failItem (report s x.cid
    { addr := b.ghostAddr q f (b.bufOf x.step) 0 0 0 0, cause := c, detail := 0, item := 6, peer := some (b.ownerDev q), ep := x.ep }) x.launch) id q f

/-- The next piece of a publication belongs to an owner on another device: the cells are read and sent there. The halo engine there takes
the piece or drops it, or its buffer does not admit the step yet, or it refuses a grid that the receiver has not declared; with no live
port no answer comes. Which of these is a free value (R198, R201, R204, R251; log 15). -/
def farPiece (s : State) (id : Nat) (x : Publication) (b : Binding) (q f : Nat) : State :=
  match peerCheck s (match s.ctx? x.cid with | some c => c.part | none => 0) (b.ownerDev q) with
  | some c => farRefused s id x b q f c
  | none => match readPiece s id x b q f with
  | none => s
  | some s1 =>
    let y := { x with told := match tget id s1.pubs with | some z => z.told | none => x.told }
    let d := drawField s1
    if !portFor s1 true then s1
    else if !anyPort s1 then { s1 with pubs := tput id { y with first := some (x.first.getD s.time) } s1.pubs }
    else
      let s2 := markExchanged (flitIn d.2) x.cid (b.ownerDev q)
      match d.1 % 3 with
      | 0 => pieceOver s2 id q f
      | 1 => { s2 with pubs := tput id { y with waiting := some (x.waiting.getD s.time) } s2.pubs }
      | _ => { s2 with pubs := tput id { y with first := some (x.first.getD s.time), nacked := true } s2.pubs }

/-- Whether a core is a context's: it holds the core, or is halted with the core's area saved. -/
def coreOf (s : State) (cid c : Nat) : Bool := (s.core c).ctx == some cid || (tget (areaKey cid c) s.areas).isSome

/-- Whether a piece of a publication exists in the receiver's declaration, on this device and for a core of the receiver: with differing
declarations it need not, and then nothing lands (R198). -/
def pieceThere (s : State) (rcv : Nat) (rb : Binding) (q f : Nat) : Bool :=
  decide (q < rb.count) && rb.pieces.contains f && rb.ownerDev q == s.device && coreOf s rcv (rb.ownerCore q)

/-- Whether a buffer lies in the pool of an owner core whose context is halted: the pool is in the save extent, and the engine waits for
the restore (R205; DEDUCED, log 22). -/
def bufferAway (s : State) (rcv : Nat) (rb : Binding) (q f buf : Nat) : Bool :=
  (s.core (rb.ownerCore q)).ctx != some rcv && ownPool (rb.ownerCore q) (rb.ghostAddr q f buf 0 0 0 0)

/-- HALO_PIECE_WRITE (R201, R204, R214): the next piece of publication x is written into its buffer and stamped, is dropped, or
waits for the buffer; a receiver that has not declared the grid refuses it (R198). -/
def execHaloPieceWrite (id q f : Nat) (s : State) : Out :=
  match tget id s.pubs with
  | none => .next s
  | some x =>
    if x.left.head? ≠ some (q, f) ∨ pubEarly s x = true then .next s
    else match tget (gridKey x.cid x.g) s.grids with
    | none => .next s
    | some b =>
      if b.ownerDev q ≠ s.device then .next (farPiece s id x b q f)
      else
        let tenant := match s.ctx? x.cid with | some c => c.tenant | none => 0
        match receiverOf s tenant b q with
        | none => .next { s with pubs := tput id { x with first := some (x.first.getD s.time), nacked := true } s.pubs }
        | some (k, rb) =>
          let same := rb.header == b.header && rb.parts == b.parts
          let buf := rb.bufOf x.step
          if !pieceThere s (k / 64) rb q f then .next (pieceOver s id q f)
          else if bufferAway s (k / 64) rb q f buf then .next s
          else match (rb.buf q f buf).st.admits x.step with
          | .wait => .next { s with pubs := tput id { x with waiting := some (x.waiting.getD s.time) } s.pubs }
          | .drop => .next (pieceOver s id q f)
          | .go =>
            let fill := { s with grids := tput k (rb.setBuf q f buf ((rb.buf q f buf).fillingFor x.step)) s.grids
                                 pubs := tput id { x with waiting := none } s.pubs }
            match writePiece fill id x b rb (k / 64) q f buf same with
            | none => .next fill
            | some s1 =>
              let stamp := if same then (x.step, s1) else ((drawField s1).1 % noStep, (drawField s1).2)
              match tget k stamp.2.grids with
              | none => .next s1
              | some rb1 =>
                let s2 := { stamp.2 with grids := tput k (rb1.setBuf q f buf ((rb1.buf q f buf).done x.step stamp.1)) stamp.2.grids }
                let s3 := ghostTag s2 (k / 64) rb q f stamp.1
                .next ((pieceOver s3 id q f).wake fun _ t => (t.cid == k / 64 && t.waitsFor (· == Wait.ghost (k % 64)))
                  || (t.cid == x.cid && t.waitsFor (· == Wait.accesses)))

/-- HPUB_TIMEOUT: a wait of an agent's `hpub` has lasted `stepwin` cycles: it traps, and what was written stands; the next `hpub`
of the partition is served (R201). -/
def execHpubTimeout (u : Nat) (s : State) : Out :=
  match tget u s.threads with
  | none => .next s
  | some t => match t.prog with
    | .publishing id => match tget id s.pubs with
      | some x => match x.waiting with
        | some w =>
          if t.stepwin ≠ 0 ∧ w + t.stepwin.toNat ≤ s.time then
            .next (takeTrap (({ s with pubs := tdel id s.pubs } : State).wake fun v r =>
              v != u && r.cid == x.cid && r.waitsFor (· == Wait.publish x.g)) u .haloTimeout 1 t.pc t.pc)
          else .next s
        | none => .next s
      | none => .next s
    | _ => .next s

/-- GHOST_WRITE_TIMEOUT: a ghost write to a grid that its receiver has not declared is reported 2^16 cycles after its first
attempt and counts as written (R198); with no answer of any kind the cause is PEER_LOST (R164). -/
def execGhostWriteTimeout (id q f : Nat) (s : State) : Out :=
  match tget id s.pubs with
  | none => .next s
  | some x => match x.first with
    | none => .next s
    | some w =>
      if x.left.head? = some (q, f) ∧ w + 2 ^ 16 ≤ s.time then
        match tget (gridKey x.cid x.g) s.grids with
        | none => .next s
        | some b =>
          let va := b.ghostAddr q f (b.bufOf x.step) 0 0 0 0
          let c : Cause := if x.nacked then .remoteTimeout else .peerLost
          let peer := if b.ownerDev q = s.device then none else some (b.ownerDev q)
          let s1 := failItem (report s x.cid { addr := va, cause := c, detail := 0, item := 6, peer := peer, ep := x.ep }) x.launch
          .next (pieceOver (if c = .peerLost ∧ b.ownerDev q ≠ s.device then losePeer s1 (b.ownerDev q) else s1) id q f)
      else .next s

/-! ### `hdone` and `ldh` -/

/-- `hdone` (R203, R346): never waits; its release follows the thread's earlier accesses. -/
def execHdone (y : Sync) (g : Fin 64) (r : GNum) (s : State) : Out :=
  issue s y [.g r] [] [] fun u t =>
    match gridCheck s t g.val (t.gval r).toNat with
    | .error c => trapHere s u t c 0
    | .ok (_, p) =>
      if accessesBefore s u s.nextId then
        let a := { newAccess s u t (.hdone g.val p (t.gval r).toNat) [{ mkPiece 0 0 [] with loc := .here 0 }] .none 0 y with rel := true }
        finish (sendAccess s a) (.hdone y g r) u t
      else finish (hdoneApply s t.cid g.val p (t.gval r).toNat) (.hdone y g r) u t

/-- A signed 16-bit coordinate. -/
def coord (w k : Nat) : Int :=
  let x := bitsOf w (16 * k) 16
  if x < 2 ^ 15 then (x : Int) else (x : Int) - 2 ^ 16

/-- The digit of a coordinate's piece in a dimension, if it lies within w of the interior. -/
def digitOf (b : Binding) (k : Nat) (x : Int) : Option Nat :=
  if x < 0 then (if -(b.width : Int) ≤ x then some 0 else none)
  else if x < b.n k then some 1
  else if x < b.n k + b.width then some 2 else none

/-- The piece and the local coordinates that interior-relative coordinates name, or none for HALO_RANGE (R199, R202). -/
def ghostPlace (b : Binding) (w : Nat) : Option (Nat × Nat × Nat × Nat) :=
  let ds := (List.range 3).map fun k => if k < b.dims then digitOf b k (coord w k) else if coord w k = 0 then some 1 else none
  match ds with
  | [some dx, some dy, some dz] =>
    let f := dx + 3 * dy + 9 * dz
    let local' (k d : Nat) : Nat :=
      (match d with | 0 => coord w k + b.width | 1 => coord w k | _ => coord w k - b.n k).toNat
    if f = 13 then none else some (f, local' 0 dx, local' 1 dy, local' 2 dz)
  | _ => none

/-- `extend` of R202: i8, i16 and i32 are sign-extended. -/
def ldhSigned (t : EType) : Bool := t == .i8 || t == .i16 || t == .i32

/-- `ldh` (R202, R355): the stamp test first, then a load of the ghost element. -/
def execLdh (y : Sync) (g : Fin 64) (ty : EType) (d c r : GNum) (s : State) : Out :=
  notInHandler s <| issue s y [.g c] [.g r] [.g d] fun u t =>
    let step := (t.gval r).toNat
    let w := (t.gval c).toNat
    match t.prog with
    | .sent id => resumeResult s (.ldh y g ty d c r) u t id
    | _ =>
    match gridCheck s t g.val step with
    | .error e => trapHere s u t e 0
    | .ok (b, p) =>
      if ty.code ≠ b.typeCode ∨ bitsOf w 56 8 ≠ 0 then trapHere s u t .illegal 0
      else match ghostPlace b w with
      | none => trapHere s u t .haloRange 0
      | some (f, ux, uy, uz) =>
        if b.comps ≤ bitsOf w 48 8 then trapHere s u t .haloRange 0
        else match (b.buf p f (b.bufOf step)).st.verdict (b.base step) with
        | .stale det => trapHere s u t .haloStale det
        | .stall =>
          let since := match t.prog with | .since n => n | _ => s.time
          blockAt s u t (.ghost g.val) (.since since)
        | .proceed =>
          let va := b.ghostAddr p f (b.bufOf step) ux uy uz (bitsOf w 48 8)
          loadAccess s (.ldh y g ty d c r) y u { t with prog := .none } (.g d (ldhSigned ty)) va
            (scalarPieces va 0 (List.replicate b.size 0))

/-- LDH_TIMEOUT: an agent's `ldh` has stalled for `stepwin` cycles (R202). -/
def execLdhTimeout (u : Nat) (s : State) : Out :=
  match tget u s.threads with
  | none => .next s
  | some t => match t.status, t.prog with
    | .blocked (.ghost _), .since w =>
      if t.stepwin ≠ 0 ∧ w + t.stepwin.toNat ≤ s.time then .next (takeTrap s u .haloTimeout 0 t.pc t.pc) else .next s
    | _, _ => .next s

end Sys2Proof.Machine
end

