-- ==== Sys2Proof/Machine/Scalar.lean ====
section
/-! DEFINITION. The scalar instructions of page 0 that compute on registers (R303). -/

namespace Sys2Proof.Machine

open Sys2Proof

/-- `nop`: no effect (R375). -/
def execNop (y : Sync) (st : State) : Out := withCur st fun u t => finish st (.nop y) u t

/-- `yield`: a pre-emption point (R426). Under a soft request of the ladder the agent stops here, saved with the PC that
follows (R230). In a handler it is HANDLER_BLOCK (R47). -/
def execYield (y : Sync) (st : State) : Out :=
  notInHandler st (withCur st fun u t =>
    match st.ctx? t.cid with
    | some x => if x.ladder.isSome then
        blockOn (stoppedAt (retireTo st u t (nextPc (.yield y) t)) t.cid) u
          { t with pc := nextPc (.yield y) t, prog := .none, since := st.time + 1, heldByHalt := true } .stopped
      else finish st (.yield y) u t
    | none => finish st (.yield y) u t)

/-- `pause`: the core does not choose the thread in the next 32 cycles (R375). -/
def execPause (y : Sync) (st : State) : Out :=
  withCur st fun u t => finish st (.pause y) u { t with pauseUntil := st.time + 33 }

/-- `align`: a fetch hint without architected effect (R312). -/
def execAlign (y : Sync) (st : State) : Out := withCur st fun u t => finish st (.align y) u t

/-- `li`: the immediate, sign-extended (R357). -/
def execLi (y : Sync) (d : GNum) (i : Imm) (st : State) : Out :=
  issue st y [] [] [.g d] fun u t => finishG st (.li y d i) u t d (immSigned i true)

/-- `lih`: bits [63:32] become the immediate (R358). -/
def execLih (y : Sync) (d : GNum) (i : Imm) (st : State) : Out :=
  issue st y [.g d] [] [.g d] fun u t =>
    finishG st (.lih y d i) u t d (immUnsigned i <<< 32 ||| t.gval d &&& 0xFFFFFFFF)

/-- `lea`: the PC plus a byte displacement (R356). -/
def execLea (y : Sync) (d : GNum) (i : Imm) (st : State) : Out :=
  issue st y [] [] [.g d] fun u t => finishG st (.lea y d i) u t d (t.pc + immSigned i true)

/-- `mov` (R367). -/
def execMov (y : Sync) (d s : GNum) (st : State) : Out := aluOne (.mov y d s) y d s id st

/-- `add gD, gS` (R311). -/
def execAdd (y : Sync) (d s : GNum) (st : State) : Out := aluTwo (.add y d s) y d s (fun a b => a + b) st

/-- `add gD, gS, gT` (R311). -/
def execAddReg3 (y : Sync) (d s t : GNum) (st : State) : Out := aluThree (.addReg3 y d s t) y d s t (fun a b => a + b) st

/-- `add gD, e` (R311). -/
def execAddImm (y : Sync) (d : GNum) (i : Imm) (st : State) : Out :=
  aluImm (.addImm y d i) y d (immSigned i true) (fun a b => a + b) st

/-- `sub gD, gS` (R394). -/
def execSub (y : Sync) (d s : GNum) (st : State) : Out := aluTwo (.sub y d s) y d s (fun a b => a - b) st

/-- `sub gD, gS, gT` (R394). -/
def execSubReg3 (y : Sync) (d s t : GNum) (st : State) : Out := aluThree (.subReg3 y d s t) y d s t (fun a b => a - b) st

/-- `sub gD, e` (R394). -/
def execSubImm (y : Sync) (d : GNum) (i : Imm) (st : State) : Out :=
  aluImm (.subImm y d i) y d (immSigned i true) (fun a b => a - b) st

/-- `mul gD, gS` (R371). -/
def execMul (y : Sync) (d s : GNum) (st : State) : Out := aluTwo (.mul y d s) y d s (mulForm 0) st

/-- `mul`, `mulh` with three operands (R371). -/
def execMulReg3 (y : Sync) (v : Fin 3) (d s t : GNum) (st : State) : Out :=
  aluThree (.mulReg3 y v d s t) y d s t (mulForm v) st

/-- `mulh.i64` (R371). -/
def execMulhI64 (y : Sync) (d s : GNum) (st : State) : Out := aluTwo (.mulhI64 y d s) y d s mulhS st

/-- `mulh.n64` (R371). -/
def execMulhN64 (y : Sync) (d s : GNum) (st : State) : Out := aluTwo (.mulhN64 y d s) y d s mulhU st

/-- `div.i64` (R332). -/
def execDivI64 (y : Sync) (d s : GNum) (st : State) : Out := aluTwo (.divI64 y d s) y d s divS st

/-- `div.n64` (R332). -/
def execDivN64 (y : Sync) (d s : GNum) (st : State) : Out := aluTwo (.divN64 y d s) y d s divU st

/-- `rem.i64` (R380). -/
def execRemI64 (y : Sync) (d s : GNum) (st : State) : Out := aluTwo (.remI64 y d s) y d s remS st

/-- `rem.n64` (R380). -/
def execRemN64 (y : Sync) (d s : GNum) (st : State) : Out := aluTwo (.remN64 y d s) y d s remU st

/-- Division with three operands (R332). -/
def execDivRemReg3 (y : Sync) (v : Fin 4) (d s t : GNum) (st : State) : Out :=
  aluThree (.divRemReg3 y v d s t) y d s t (divRem v) st

/-- `and gD, gS` (R316). -/
def execAnd (y : Sync) (d s : GNum) (st : State) : Out := aluTwo (.and y d s) y d s (logicForm 0) st

/-- `andn gD, gS` (R316). -/
def execAndn (y : Sync) (d s : GNum) (st : State) : Out := aluTwo (.andn y d s) y d s (logicForm 1) st

/-- `or gD, gS` (R376). -/
def execOr (y : Sync) (d s : GNum) (st : State) : Out := aluTwo (.or y d s) y d s (logicForm 2) st

/-- `xor gD, gS` (R423). -/
def execXor (y : Sync) (d s : GNum) (st : State) : Out := aluTwo (.xor y d s) y d s (logicForm 3) st

/-- Logic with three operands (R316). -/
def execLogicReg3 (y : Sync) (v : Fin 4) (d s t : GNum) (st : State) : Out :=
  aluThree (.logicReg3 y v d s t) y d s t (logicForm v) st

/-- Logic with an immediate (R316). -/
def execLogicImm (y : Sync) (v : Fin 4) (d : GNum) (i : Imm) (st : State) : Out :=
  aluImm (.logicImm y v d i) y d (immSigned i true) (logicForm v) st

/-- Shifts by a register (R381, R382). -/
def execShiftReg (y : Sync) (v : Fin 4) (d s : GNum) (st : State) : Out :=
  aluTwo (.shiftReg y v d s) y d s (shiftForm v) st

/-- Shifts with three operands (R381, R382). -/
def execShiftReg3 (y : Sync) (v : Fin 4) (d s t : GNum) (st : State) : Out :=
  aluThree (.shiftReg3 y v d s t) y d s t (shiftForm v) st

/-- Shifts by an immediate (R381, R382). -/
def execShiftImm (y : Sync) (v : Fin 4) (d : GNum) (i : Imm) (st : State) : Out :=
  aluImm (.shiftImm y v d i) y d (immUnsigned i) (shiftForm v) st

/-- `clz` (R326). -/
def execClz (y : Sync) (d s : GNum) (st : State) : Out := aluOne (.clz y d s) y d s clzWord st

/-- `ctz` (R326). -/
def execCtz (y : Sync) (d s : GNum) (st : State) : Out := aluOne (.ctz y d s) y d s ctzWord st

/-- `popc` (R378). -/
def execPopc (y : Sync) (d s : GNum) (st : State) : Out := aluOne (.popc y d s) y d s popcWord st

/-- `min`, `max` (R361). -/
def execMinMax (y : Sync) (v : Fin 4) (d s : GNum) (st : State) : Out :=
  aluTwo (.minMax y v d s) y d s (minMaxForm v) st

/-- `min`, `max` with three operands (R361). -/
def execMinMaxReg3 (y : Sync) (v : Fin 4) (d s t : GNum) (st : State) : Out :=
  aluThree (.minMaxReg3 y v d s t) y d s t (minMaxForm v) st

/-- `sext` (R386). -/
def execSext (y : Sync) (v : Fin 3) (d s : GNum) (st : State) : Out := aluOne (.sext y v d s) y d s (sextForm v) st

/-- `zext` (R427). -/
def execZext (y : Sync) (v : Fin 3) (d s : GNum) (st : State) : Out := aluOne (.zext y v d s) y d s (zextForm v) st

/-- `cmp.cc gD, gA, gB` (R327). -/
def execCmp (y : Sync) (c : Fin 6) (d a b : GNum) (st : State) : Out :=
  aluThree (.cmp y c d a b) y d a b (fun x z => if cmpCond c x z then 1 else 0) st

/-- `sel`: all three registers are read, whichever value is chosen (R383). -/
def execSel (y : Sync) (d s t : GNum) (st : State) : Out :=
  issue st y [.g d, .g s] [.g t] [.g d] fun u a =>
    finishG st (.sel y d s t) u a d (if a.gval d ≠ 0 then a.gval s else a.gval t)

end Sys2Proof.Machine
end

