-- ==== Sys2Proof/Machine/System.lean ====
section
/-! DEFINITION. The instructions of page 6: system registers (R70 to R75, R396, R397), `tret` (R403), `sleep` (R387), `ctrr` (R328), `errq`
(R334), `flags` (R338), and those of the steward: `keyroll` (R135), `ctxsv` and `ctxld` (R329 to R331). -/

namespace Sys2Proof.Machine

open Sys2Proof

/-! ### System registers -/

/-- The context and tenant of an agent as `ctxid` gives them (R73). -/
def ctxWord (s : State) (t : Thread) : Word :=
  w64 (t.cid % 2 ^ 16 + (match s.ctx? t.cid with | some x => x.tenant | none => 0) % 2 ^ 12 * 2 ^ 16)

/-- The selected counter of an agent's context (R74, R266). -/
def counterWord (s : State) (t : Thread) : Word :=
  match s.ctx? t.cid with
  | some x => if h : t.ocsel.toNat < 13 then x.counters.get ⟨t.ocsel.toNat, h⟩ else 0
  | none => 0

/-- What `sysr` reads, or none for a selector that names no register (R70, R396). -/
def sysRead (s : State) (t : Thread) (n : Nat) : Option Word :=
  match n with
  | 0x00 => some (t.fflags.setWidth 64)
  | 0x01 => some (t.frm.setWidth 64)
  | 0x02 => some (t.lfsr.setWidth 64)
  | 0x03 => some (t.mxweight.setWidth 64)
  | 0x04 => some (t.stepwin.setWidth 64)
  | 0x08 => some (w64 t.pool)
  | 0x09 => some (w64 (epOf s t).toNat)
  | 0x0A => some (ctxWord s t)
  | 0x10 => some t.tvec
  | 0x11 => some t.tcause
  | 0x12 => some t.taddr
  | 0x13 => some t.tresume
  | 0x18 => some (match s.ctx? t.cid with | some x => x.errqhead | none => 0)
  | 0x20 => some (t.ocsel.setWidth 64)
  | 0x21 => some (counterWord s t)
  | 0x22 => some (match s.ctx? t.cid with | some x => x.ocsat.setWidth 64 | none => 0)
  | _ => none

/-- `sysr` (R396). -/
def execSysr (y : Sync) (n : Fin 256) (d : GNum) (s : State) : Out :=
  issue s y [] [] [.g d] fun u t =>
    match sysRead s t n.val with
    | some w => finishG s (.sysr y n d) u t d w
    | none => trapHere s u t .illegal 0

/-- Whether a register is written at handler and steward level only (R70). -/
def sysHandlerWrite (n : Nat) : Bool := n == 0x11 || n == 0x12 || n == 0x13 || n == 0x18

/-- The agent with a system register written, or none where a value check fails or the register is not written at any level
(R72, R73, R397). -/
def sysWrite (t : Thread) (n : Nat) (w : Word) : Option Thread :=
  let x := w.toNat
  match n with
  | 0x00 => if x < 2 ^ 6 then some { t with fflags := BitVec.ofNat 6 x } else none
  | 0x01 => if x ≤ 4 then some { t with frm := BitVec.ofNat 3 x } else none
  | 0x02 => if x < 2 ^ 32 then some { t with lfsr := if x = 0 then 1 else BitVec.ofNat 32 x } else none
  | 0x03 => if x < 2 ^ 4 ∧ x ≠ 0 then some { t with mxweight := BitVec.ofNat 4 x } else none
  | 0x04 => if x < 2 ^ 32 then some { t with stepwin := BitVec.ofNat 32 x } else none
  | 0x10 => some { t with tvec := w64 (x / 2 * 2) }
  | 0x11 => if bitsOf x 32 32 = 0 ∧ bitsOf x 24 7 = 0 then some { t with tcause := w } else none
  | 0x12 => some { t with taddr := w }
  | 0x13 => some { t with tresume := w }
  | 0x18 => some t
  | 0x20 => if x < 2 ^ 4 then some { t with ocsel := BitVec.ofNat 4 x } else none
  | _ => none

/-- The write of `errqhead`, which is the context's (R244). -/
def setErrqhead (s : State) (cid : Nat) (w : Word) : State := s.modCtx cid fun x => { x with errqhead := w }

/-- `sysw` (R397): PRIVILEGE before every other check on its register. -/
def execSysw (y : Sync) (n : Fin 256) (r : GNum) (s : State) : Out :=
  withCur s fun u t =>
    if sysHandlerWrite n.val && t.level == .thread then trapHere s u t .privilege 0
    else issue s y [.g r] [] [] fun u t =>
      match sysWrite t n.val (t.gval r) with
      | none => trapHere s u t .illegal 0
      | some t1 => finish (if n.val = 0x18 then setErrqhead s t.cid (t.gval r) else s) (.sysw y n r) u t1

/-- `tret` (R403): the PC becomes `tresume`. -/
def execTret (_y : Sync) (s : State) : Out :=
  withCur s fun u t => if t.level = .handler then trapHere s u t .illegal 0 else .next (retireTo s u t t.tresume)

/-- `flags` (R338): reads and clears `fflags`. -/
def execFlags (y : Sync) (d r : GNum) (s : State) : Out :=
  issue s y [.g r] [] [.g d] fun u t =>
    let m := (t.gval r).toNat
    if 2 ^ 6 ≤ m then trapHere s u t .illegal 0
    else finishG s (.flags y d r) u { t with fflags := t.fflags &&& ~~~BitVec.ofNat 6 m } d (t.fflags.setWidth 64)

/-! ### Time -/

/-- `ctrr` (R328). -/
def execCtrr (y : Sync) (d : GNum) (s : State) : Out := issue s y [] [] [.g d] fun u t => finishG s (.ctrr y d) u t d (w64 s.time)

/-- `sleep` (R387). -/
def execSleep (y : Sync) (r : GNum) (s : State) : Out :=
  notInHandler s <| issue s y [.g r] [] [] fun u t =>
    let i : Instr := .sleep y r
    if t.gval r = 0 then finish s i u t
    else blockAt s u t .sleep (.sleeping (s.time + (t.gval r).toNat) (nextPc i t))

/-- SLEEP_WAKE: a sleep is over once device time has come; its instruction retires (R387). -/
def execSleepWake (u : Nat) (s : State) : Out :=
  match tget u s.threads with
  | none => .next s
  | some t => match t.status, t.prog with
    | .blocked .sleep, .sleeping till next =>
      if till ≤ s.time ∧ t.heldByHalt = false then
        .next ((s.setThread u { t with pc := next, prog := .none, status := .ready, since := s.time }).modCtx t.cid
          fun x => { x with lastRetire := s.time })
      else .next s
    | _, _ => .next s

/-! ### `errq` (R334) -/

/-- Whether a store, an atomic without result or a `send` of an agent is neither performed nor reported; a record that waits for a held
translation is not written yet. -/
def errqPending (s : State) (u : Nat) : Bool :=
  lateRecord s u || s.accs.any (fun e => e.2.uid == u && e.2.kind.writes && e.2.dest == .none && decide (e.2.phase ≠ .returning))
    || s.msgs.any fun e => e.2.uid == u

/-- `errq` (R334): the queue's `tail`, once the agent's own work is performed or reported. -/
def execErrq (y : Sync) (d : GNum) (s : State) : Out :=
  issue s y [] [] [.g d] fun u t =>
    if errqPending s u then blockOn s u t .accesses
    else finishG s (.errq y d) u t d (w64 (match s.ctx? t.cid with | some x => x.eqtail | none => 0))

/-! ### The steward (R71) -/

/-- A steward instruction: PRIVILEGE at every other level. -/
def asSteward (s : State) (k : Out) : Out :=
  withCur s fun u t => if t.level = .steward then k else trapHere s u t .privilege 0

/-- `keyroll` (R135). -/
def execKeyrollInstruction (y : Sync) (d r : GNum) (s : State) : Out :=
  asSteward s <| issue s y [.g r, .g (gAfter r 1)] [] [.g d] fun u t =>
    let n := (t.gval r).toNat
    let addr := t.gval (gAfter r 1)
    if 2 ^ 12 ≤ n then trapHere s u t .illegal 0
    else if addr.toNat % 32 ≠ 0 then trapAt s u t .misaligned 0 addr
    else
      let st := rollStart s n
      finishG (if st = .started then beginRoll s n (.steward addr) else s) (.keyrollInstruction y d r) u t d (w64 st.code)

/-- The context that `ctxsv` and `ctxld` name, if the operand is good and the context exists (R329). -/
def namedContext (s : State) (w : Word) : Option (Nat × Context) :=
  if 2 ^ 16 ≤ w.toNat then none else (s.ctx? w.toNat).map fun x => (w.toNat, x)

/-- `ctxsv` (R329, R330): the save of a context that is stopped; what is still on its way to its cores is waited for (log 34). -/
def execCtxsv (y : Sync) (r : GNum) (s : State) : Out :=
  asSteward s <| issue s y [.g r] [] [] fun u t =>
    match namedContext s (t.gval r) with
    | none => trapHere s u t .illegal 0
    | some (cid, _) =>
      if !saveStopped s cid then trapHere s u t .illegal 0
      else if saveReady s cid then finish (writeSave s cid) (.ctxsv y r) u t
      else pollOn s u t 0 none

/-- `ctxld` (R329, R331): the restore of a context from an extent that is complete; it waits for the held cores. -/
def execCtxld (y : Sync) (r : GNum) (s : State) : Out :=
  asSteward s <| issue s y [.g r] [] [] fun u t =>
    match namedContext s (t.gval r) with
    | none => trapHere s u t .illegal 0
    | some (cid, x) => match x.st with
      | .halted v =>
        if (memByte s.mem x.savebase).toNat ≠ 1 then trapHere s u t .illegal 0
        else if restoreReady s cid v then finish (restoreContext s cid x v) (.ctxld y r) u t
        else blockOn s u t .engine
      | _ => trapHere s u t .illegal 0

end Sys2Proof.Machine
end

