-- ==== Sys2Proof/Machine/Dispatch.lean ====
section
/-! DEFINITION. The dispatch of every instruction, host command and device event to its meaning. -/

namespace Sys2Proof.Machine

open Sys2Proof

/-- What an instruction, a host command or a device event does: one arm per row of the opcode table. -/
def exec (i : Instr) (s : State) : Host.Outcome State Fault Refusal :=
  match i with
  | .nop y => Sys2Proof.Machine.execNop y s
  | .yield y => Sys2Proof.Machine.execYield y s
  | .pause y => Sys2Proof.Machine.execPause y s
  | .align y => Sys2Proof.Machine.execAlign y s
  | .li y d im => Sys2Proof.Machine.execLi y d im s
  | .lih y d im => Sys2Proof.Machine.execLih y d im s
  | .lea y d im => Sys2Proof.Machine.execLea y d im s
  | .mov y d rs => Sys2Proof.Machine.execMov y d rs s
  | .add y d rs => Sys2Proof.Machine.execAdd y d rs s
  | .addReg3 y d rs t => Sys2Proof.Machine.execAddReg3 y d rs t s
  | .addImm y d im => Sys2Proof.Machine.execAddImm y d im s
  | .sub y d rs => Sys2Proof.Machine.execSub y d rs s
  | .subReg3 y d rs t => Sys2Proof.Machine.execSubReg3 y d rs t s
  | .subImm y d im => Sys2Proof.Machine.execSubImm y d im s
  | .mul y d rs => Sys2Proof.Machine.execMul y d rs s
  | .mulReg3 y v d rs t => Sys2Proof.Machine.execMulReg3 y v d rs t s
  | .mulhI64 y d rs => Sys2Proof.Machine.execMulhI64 y d rs s
  | .mulhN64 y d rs => Sys2Proof.Machine.execMulhN64 y d rs s
  | .divI64 y d rs => Sys2Proof.Machine.execDivI64 y d rs s
  | .divN64 y d rs => Sys2Proof.Machine.execDivN64 y d rs s
  | .remI64 y d rs => Sys2Proof.Machine.execRemI64 y d rs s
  | .remN64 y d rs => Sys2Proof.Machine.execRemN64 y d rs s
  | .divRemReg3 y v d rs t => Sys2Proof.Machine.execDivRemReg3 y v d rs t s
  | .and y d rs => Sys2Proof.Machine.execAnd y d rs s
  | .andn y d rs => Sys2Proof.Machine.execAndn y d rs s
  | .or y d rs => Sys2Proof.Machine.execOr y d rs s
  | .xor y d rs => Sys2Proof.Machine.execXor y d rs s
  | .logicReg3 y v d rs t => Sys2Proof.Machine.execLogicReg3 y v d rs t s
  | .logicImm y v d im => Sys2Proof.Machine.execLogicImm y v d im s
  | .shiftReg y v d rs => Sys2Proof.Machine.execShiftReg y v d rs s
  | .shiftReg3 y v d rs t => Sys2Proof.Machine.execShiftReg3 y v d rs t s
  | .shiftImm y v d im => Sys2Proof.Machine.execShiftImm y v d im s
  | .clz y d rs => Sys2Proof.Machine.execClz y d rs s
  | .ctz y d rs => Sys2Proof.Machine.execCtz y d rs s
  | .popc y d rs => Sys2Proof.Machine.execPopc y d rs s
  | .minMax y v d rs => Sys2Proof.Machine.execMinMax y v d rs s
  | .minMaxReg3 y v d rs t => Sys2Proof.Machine.execMinMaxReg3 y v d rs t s
  | .sext y v d rs => Sys2Proof.Machine.execSext y v d rs s
  | .zext y v d rs => Sys2Proof.Machine.execZext y v d rs s
  | .cmp y c d a b => Sys2Proof.Machine.execCmp y c d a b s
  | .sel y d rs t => Sys2Proof.Machine.execSel y d rs t s
  | .bCond y c a b im => Sys2Proof.Machine.execBCond y c a b im s
  | .bCondUnsigned y c a b im => Sys2Proof.Machine.execBCondUnsigned y c a b im s
  | .bz y a im => Sys2Proof.Machine.execBz y a im s
  | .loop y c im => Sys2Proof.Machine.execLoop y c im s
  | .j y im => Sys2Proof.Machine.execJ y im s
  | .call y l im => Sys2Proof.Machine.execCall y l im s
  | .jr y a => Sys2Proof.Machine.execJr y a s
  | .ret y a => Sys2Proof.Machine.execRet y a s
  | .exit y => Sys2Proof.Machine.execExit y s
  | .exit1 y a => Sys2Proof.Machine.execExit1 y a s
  | .exit2 y a b => Sys2Proof.Machine.execExit2 y a b s
  | .exit3 y a b c => Sys2Proof.Machine.execExit3 y a b c s
  | .exit4 y a b c e => Sys2Proof.Machine.execExit4 y a b c e s
  | .svc y im => Sys2Proof.Machine.execSvc y im s
  | .ld y z d b im => Sys2Proof.Machine.execLd y z d b im s
  | .ldZext y z d b im => Sys2Proof.Machine.execLdZext y z d b im s
  | .st y z v b im => Sys2Proof.Machine.execSt y z v b im s
  | .ldx y z k d b x => Sys2Proof.Machine.execLdx y z k d b x s
  | .ldxZext y z k d b x => Sys2Proof.Machine.execLdxZext y z k d b x s
  | .stx y z k v b x => Sys2Proof.Machine.execStx y z k v b x s
  | .lds y d b im => Sys2Proof.Machine.execLds y d b im s
  | .ldf y d b im => Sys2Proof.Machine.execLdf y d b im s
  | .ftag y d b im => Sys2Proof.Machine.execFtag y d b im s
  | .stf y v b im => Sys2Proof.Machine.execStf y v b im s
  | .ste y b im => Sys2Proof.Machine.execSte y b im s
  | .pf y b im => Sys2Proof.Machine.execPf y b im s
  | .fenceAcq y => Sys2Proof.Machine.execFenceAcq y s
  | .fenceRel y => Sys2Proof.Machine.execFenceRel y s
  | .fenceAr y => Sys2Proof.Machine.execFenceAr y s
  | .fenceSc y => Sys2Proof.Machine.execFenceSc y s
  | .ifence y => Sys2Proof.Machine.execIfence y s
  | .amo y w u o a v => Sys2Proof.Machine.execAmo y w u o a v s
  | .amoResult y w u o d a v => Sys2Proof.Machine.execAmoResult y w u o d a v s
  | .cas y d a n => Sys2Proof.Machine.execCas y d a n s
  | .casI32 y d a n => Sys2Proof.Machine.execCasI32 y d a n s
  | .casp y d a n => Sys2Proof.Machine.execCasp y d a n s
  | .vadd y k t d a b => Sys2Proof.Machine.execVadd y k t d a b s
  | .vsub y k t d a b => Sys2Proof.Machine.execVsub y k t d a b s
  | .vmul y k t d a b => Sys2Proof.Machine.execVmul y k t d a b s
  | .vfma y k t d a b => Sys2Proof.Machine.execVfma y k t d a b s
  | .vdiv y k t d a b => Sys2Proof.Machine.execVdiv y k t d a b s
  | .vsqrt y k t d rs => Sys2Proof.Machine.execVsqrt y k t d rs s
  | .vrcp y k t d rs => Sys2Proof.Machine.execVrcp y k t d rs s
  | .vrsq y k t d rs => Sys2Proof.Machine.execVrsq y k t d rs s
  | .vexp2 y k t d rs => Sys2Proof.Machine.execVexp2 y k t d rs s
  | .vlog2 y k t d rs => Sys2Proof.Machine.execVlog2 y k t d rs s
  | .vmin y k t d a b => Sys2Proof.Machine.execVmin y k t d a b s
  | .vmax y k t d a b => Sys2Proof.Machine.execVmax y k t d a b s
  | .vabs y k t d rs => Sys2Proof.Machine.execVabs y k t d rs s
  | .vneg y k t d rs => Sys2Proof.Machine.execVneg y k t d rs s
  | .vand y k t d a b => Sys2Proof.Machine.execVand y k t d a b s
  | .vor y k t d a b => Sys2Proof.Machine.execVor y k t d a b s
  | .vxor y k t d a b => Sys2Proof.Machine.execVxor y k t d a b s
  | .vshl y k t d a b => Sys2Proof.Machine.execVshl y k t d a b s
  | .vshr y k t d a b => Sys2Proof.Machine.execVshr y k t d a b s
  | .vcmp y k t c d a b => Sys2Proof.Machine.execVcmp y k t c d a b s
  | .vsel y q t d a b => Sys2Proof.Machine.execVsel y q t d a b s
  | .vred y k t o d rs => Sys2Proof.Machine.execVred y k t o d rs s
  | .vdot y k t d a b => Sys2Proof.Machine.execVdot y k t d a b s
  | .vclass y k t d rs => Sys2Proof.Machine.execVclass y k t d rs s
  | .vld y d b im => Sys2Proof.Machine.execVld y d b im s
  | .vldTyped y k t d b im => Sys2Proof.Machine.execVldTyped y k t d b im s
  | .vst y rs b im => Sys2Proof.Machine.execVst y rs b im s
  | .vstTyped y k t rs b im => Sys2Proof.Machine.execVstTyped y k t rs b im s
  | .vgat y k t d b x => Sys2Proof.Machine.execVgat y k t d b x s
  | .vsct y k t rs b x => Sys2Proof.Machine.execVsct y k t rs b x s
  | .vcvt y k dt st p d rs => Sys2Proof.Machine.execVcvt y k dt st p d rs s
  | .vquant y dt w p d rs c => Sys2Proof.Machine.execVquant y dt w p d rs c s
  | .vquantGiven y dt w p d rs c => Sys2Proof.Machine.execVquantGiven y dt w p d rs c s
  | .vdeq y st w p d rs c => Sys2Proof.Machine.execVdeq y st w p d rs c s
  | .vperm y k t d a x => Sys2Proof.Machine.execVperm y k t d a x s
  | .vbcast y k t d rs => Sys2Proof.Machine.execVbcast y k t d rs s
  | .vins y t e d rs => Sys2Proof.Machine.execVins y t e d rs s
  | .vext y t e d rs => Sys2Proof.Machine.execVext y t e d rs s
  | .qop y o d a b => Sys2Proof.Machine.execQop y o d a b s
  | .vmovqToG y d rs => Sys2Proof.Machine.execVmovqToG y d rs s
  | .vmovqToQ y d rs => Sys2Proof.Machine.execVmovqToQ y d rs s
  | .mma y h m t ka kb a b => Sys2Proof.Machine.execMma y h m t ka kb a b s
  | .mzero y h => Sys2Proof.Machine.execMzero y h s
  | .mrd y h d im => Sys2Proof.Machine.execMrd y h d im s
  | .mwr y h rs im => Sys2Proof.Machine.execMwr y h rs im s
  | .mrel y h => Sys2Proof.Machine.execMrel y h s
  | .mwm y h d => Sys2Proof.Machine.execMwm y h d s
  | .xshape1D y t d e => Sys2Proof.Machine.execXshape1D y t d e s
  | .xshape y d rs t => Sys2Proof.Machine.execXshape y d rs t s
  | .xfer y n d rs c => Sys2Proof.Machine.execXfer y n d rs c s
  | .arrive y c im => Sys2Proof.Machine.execArrive y c im s
  | .arriveReg y c n => Sys2Proof.Machine.execArriveReg y c n s
  | .xwait y c => Sys2Proof.Machine.execXwait y c s
  | .gdecl y g a => Sys2Proof.Machine.execGdecl y g a s
  | .hpub y g rs => Sys2Proof.Machine.execHpub y g rs s
  | .hdone y g rs => Sys2Proof.Machine.execHdone y g rs s
  | .ldh y g t d c rs => Sys2Proof.Machine.execLdh y g t d c rs s
  | .tagpub y d k g => Sys2Proof.Machine.execTagpub y d k g s
  | .tagpubDrop y d k => Sys2Proof.Machine.execTagpubDrop y d k s
  | .tagwait y k g => Sys2Proof.Machine.execTagwait y k g s
  | .tagwaitC y k g => Sys2Proof.Machine.execTagwaitC y k g s
  | .tagq y d k => Sys2Proof.Machine.execTagq y d k s
  | .fork y n d e im rs => Sys2Proof.Machine.execFork y n d e im rs s
  | .send y n e h rs => Sys2Proof.Machine.execSend y n e h rs s
  | .hret y => Sys2Proof.Machine.execHret y s
  | .migrate y a => Sys2Proof.Machine.execMigrate y a s
  | .endp y d a => Sys2Proof.Machine.execEndp y d a s
  | .bar y l => Sys2Proof.Machine.execBar y l s
  | .barOp y o l d v => Sys2Proof.Machine.execBarOp y o l d v s
  | .barA y l => Sys2Proof.Machine.execBarA y l s
  | .barAOp y o l d v => Sys2Proof.Machine.execBarAOp y o l d v s
  | .barw y l => Sys2Proof.Machine.execBarw y l s
  | .map y d rs => Sys2Proof.Machine.execMap y d rs s
  | .grant y d rs => Sys2Proof.Machine.execGrant y d rs s
  | .unmap y d rs => Sys2Proof.Machine.execUnmap y d rs s
  | .unmapSelf y d rs => Sys2Proof.Machine.execUnmapSelf y d rs s
  | .mprobe y d a => Sys2Proof.Machine.execMprobe y d a s
  | .spnew y d => Sys2Proof.Machine.execSpnew y d s
  | .spdel y d rs => Sys2Proof.Machine.execSpdel y d rs s
  | .sysr y n d => Sys2Proof.Machine.execSysr y n d s
  | .sysw y n rs => Sys2Proof.Machine.execSysw y n rs s
  | .tret y => Sys2Proof.Machine.execTret y s
  | .brk y => Sys2Proof.Machine.execBrk y s
  | .sleep y rs => Sys2Proof.Machine.execSleep y rs s
  | .ctrr y d => Sys2Proof.Machine.execCtrr y d s
  | .errq y d => Sys2Proof.Machine.execErrq y d s
  | .flags y d rs => Sys2Proof.Machine.execFlags y d rs s
  | .keyrollInstruction y d rs => Sys2Proof.Machine.execKeyrollInstruction y d rs s
  | .ctxsv y rs => Sys2Proof.Machine.execCtxsv y rs s
  | .ctxld y rs => Sys2Proof.Machine.execCtxld y rs s
  | .ctxCreate fn cid f => Sys2Proof.Machine.execCtxCreate fn cid f s
  | .ctxDestroy fn cid => Sys2Proof.Machine.execCtxDestroy fn cid s
  | .queueOpen fn cid => Sys2Proof.Machine.execQueueOpen fn cid s
  | .queueClose fn cid => Sys2Proof.Machine.execQueueClose fn cid s
  | .halt fn cid => Sys2Proof.Machine.execHalt fn cid s
  | .kill fn cid => Sys2Proof.Machine.execKill fn cid s
  | .resume fn cid => Sys2Proof.Machine.execResume fn cid s
  | .timers fn cid => Sys2Proof.Machine.execTimers fn cid s
  | .keyroll fn cid => Sys2Proof.Machine.execKeyroll fn cid s
  | .jobOpen fn cid => Sys2Proof.Machine.execJobOpen fn cid s
  | .jobClose fn cid => Sys2Proof.Machine.execJobClose fn cid s
  | .report fn cid => Sys2Proof.Machine.execReport fn cid s
  | .composition fn cid => Sys2Proof.Machine.execComposition fn cid s
  | .quote fn cid => Sys2Proof.Machine.execQuote fn cid s
  | .cert fn cid => Sys2Proof.Machine.execCert fn cid s
  | .errqAck fn cid => Sys2Proof.Machine.execErrqAck fn cid s
  | .memCopyToDevice fn cid f => Sys2Proof.Machine.execMemCopyToDevice fn cid f s
  | .memCopyToHost fn cid f => Sys2Proof.Machine.execMemCopyToHost fn cid f s
  | .partDefine fn cid => Sys2Proof.Machine.execPartDefine fn cid s
  | .peerRead fn cid => Sys2Proof.Machine.execPeerRead fn cid s
  | .fwLoad fn cid f => Sys2Proof.Machine.execFwLoad fn cid f s
  | .rootSpaceMap fn cid => Sys2Proof.Machine.execRootSpaceMap fn cid s
  | .rootSpaceGrant fn cid => Sys2Proof.Machine.execRootSpaceGrant fn cid s
  | .rootSpaceUnmap fn cid => Sys2Proof.Machine.execRootSpaceUnmap fn cid s
  | .rootSpaceUnmapSelf fn cid => Sys2Proof.Machine.execRootSpaceUnmapSelf fn cid s
  | .rootSpaceSpnew fn cid => Sys2Proof.Machine.execRootSpaceSpnew fn cid s
  | .rootSpaceSpdel fn cid => Sys2Proof.Machine.execRootSpaceSpdel fn cid s
  | .rootSpaceMprobe fn cid => Sys2Proof.Machine.execRootSpaceMprobe fn cid s
  | .badCmd fn code cid => Sys2Proof.Machine.execBadCmd fn code cid s
  | .cmdgoWhileBusy fn => Sys2Proof.Machine.execCmdgoWhileBusy fn s
  | .commandEnd fn => Sys2Proof.Machine.execCommandEnd fn s
  | .cmdstLostClear fn w => Sys2Proof.Machine.execCmdstLostClear fn w s
  | .fltqRead fn => Sys2Proof.Machine.execFltqRead fn s
  | .tailWrite fn j w => Sys2Proof.Machine.execTailWrite fn j w s
  | .registerWrite fn off w => Sys2Proof.Machine.execRegisterWrite fn off w s
  | .recordTake q => Sys2Proof.Machine.execRecordTake q s
  | .exitResume u => Sys2Proof.Machine.execExitResume u s
  | .overflowMove cid => Sys2Proof.Machine.execOverflowMove cid s
  | .deviceQueueTake cid => Sys2Proof.Machine.execDeviceQueueTake cid s
  | .gangPlace l gang ps => Sys2Proof.Machine.execGangPlace l gang ps s
  | .gangReserve l gang is => Sys2Proof.Machine.execGangReserve l gang is s
  | .blockDispatch l gang => Sys2Proof.Machine.execBlockDispatch l gang s
  | .launchComplete l => Sys2Proof.Machine.execLaunchComplete l s
  | .forkComplete id => Sys2Proof.Machine.execForkComplete id s
  | .messageArrival id => Sys2Proof.Machine.execMessageArrival id s
  | .inboxNackRetry id => Sys2Proof.Machine.execInboxNackRetry id s
  | .inboxTimeout id => Sys2Proof.Machine.execInboxTimeout id s
  | .handlerStart c => Sys2Proof.Machine.execHandlerStart c s
  | .migrationAccept u slot => Sys2Proof.Machine.execMigrationAccept u slot s
  | .registerFill id => Sys2Proof.Machine.execRegisterFill id s
  | .accessAtOwner id g => Sys2Proof.Machine.execAccessAtOwner id g s
  | .remoteAck id f => Sys2Proof.Machine.execRemoteAck id f s
  | .remoteTimeout id => Sys2Proof.Machine.execRemoteTimeout id s
  | .peerLost dev => Sys2Proof.Machine.execPeerLost dev s
  | .faultRunStart c => Sys2Proof.Machine.execFaultRunStart c s
  | .faultInterrupt cid => Sys2Proof.Machine.execFaultInterrupt cid s
  | .sliceEnd p => Sys2Proof.Machine.execSliceEnd p s
  | .wdogExpiry l => Sys2Proof.Machine.execWdogExpiry l s
  | .hangExpiry cid => Sys2Proof.Machine.execHangExpiry cid s
  | .allStopped cid => Sys2Proof.Machine.execAllStopped cid s
  | .graceExpiry cid => Sys2Proof.Machine.execGraceExpiry cid s
  | .saveWritten cid => Sys2Proof.Machine.execSaveWritten cid s
  | .killExpiry cid => Sys2Proof.Machine.execKillExpiry cid s
  | .restore cid ps => Sys2Proof.Machine.execRestore cid ps s
  | .nextSliceRestore p ps => Sys2Proof.Machine.execNextSliceRestore p ps s
  | .localCut w st => Sys2Proof.Machine.execLocalCut w st s
  | .remoteCut dev ns => Sys2Proof.Machine.execRemoteCut dev ns s
  | .sweep w => Sys2Proof.Machine.execSweep w s
  | .cutAck w dev => Sys2Proof.Machine.execCutAck w dev s
  | .cutAckTimeout w dev => Sys2Proof.Machine.execCutAckTimeout w dev s
  | .withdrawalComplete w => Sys2Proof.Machine.execWithdrawalComplete w s
  | .sealWriteback pg => Sys2Proof.Machine.execSealWriteback pg s
  | .rollComplete t => Sys2Proof.Machine.execRollComplete t s
  | .xferWordLand x e => Sys2Proof.Machine.execXferWordLand x e s
  | .arbiterGrant tile => Sys2Proof.Machine.execArbiterGrant tile s
  | .kBlockRetire tile p => Sys2Proof.Machine.execKBlockRetire tile p s
  | .matrixCommandRetire tile p => Sys2Proof.Machine.execMatrixCommandRetire tile p s
  | .rowWriteOut tile slot => Sys2Proof.Machine.execRowWriteOut tile slot s
  | .accExhausted u => Sys2Proof.Machine.execAccExhausted u s
  | .haloPieceWrite x q f => Sys2Proof.Machine.execHaloPieceWrite x q f s
  | .hpubTimeout u => Sys2Proof.Machine.execHpubTimeout u s
  | .ldhTimeout u => Sys2Proof.Machine.execLdhTimeout u s
  | .ghostWriteTimeout x q f => Sys2Proof.Machine.execGhostWriteTimeout x q f s
  | .tagLost u => Sys2Proof.Machine.execTagLost u s
  | .operatingPointChange isl pt => Sys2Proof.Machine.execOperatingPointChange isl pt s
  | .islandGate isl => Sys2Proof.Machine.execIslandGate isl s
  | .islandPowerUp isl => Sys2Proof.Machine.execIslandPowerUp isl s
  | .channelSpare ch => Sys2Proof.Machine.execChannelSpare ch s
  | .channelFailure ch ws => Sys2Proof.Machine.execChannelFailure ch ws s
  | .softError x => Sys2Proof.Machine.execSoftError x s
  | .plannedRetirement c ps => Sys2Proof.Machine.execPlannedRetirement c ps s
  | .failedRetirement c => Sys2Proof.Machine.execFailedRetirement c s
  | .flitReplay port => Sys2Proof.Machine.execFlitReplay port s
  | .heartbeat port => Sys2Proof.Machine.execHeartbeat port s
  | .portLost port => Sys2Proof.Machine.execPortLost port s
  | .joinHandshake dev f => Sys2Proof.Machine.execJoinHandshake dev f s
  | .deviceReset f => Sys2Proof.Machine.execDeviceReset f s
  | .sleepWake u => Sys2Proof.Machine.execSleepWake u s
  | .ownAccordFill pg => Sys2Proof.Machine.execOwnAccordFill pg s
  | .nackRetry id => Sys2Proof.Machine.execNackRetry id s
  | .levelStateChange port fill => Sys2Proof.Machine.execLevelStateChange port fill s

end Sys2Proof.Machine
end

