-- ==== Sys2Proof/Machine/Step.lean ====
section
/-! DEFINITION. One step of the machine, and the placing of an instruction where the next step fetches it. -/

namespace Sys2Proof.Machine

open Sys2Proof

/-- An issue of an agent: its instruction is fetched, decoded and executed, or its trap is taken. -/
def issueAgent (s : State) (u : Nat) (t : Thread) : Host.Outcome State Fault Refusal :=
  match fetchInstr s u t with
  | .run i s1 => exec i s1
  | .trapped s1 => .next s1

/-- What follows every step: the waits that are over at their owners end (R182). -/
def waitsEnded (r : Host.Outcome State Fault Refusal) : Host.Outcome State Fault Refusal :=
  match r with
  | .next s => .next (endWaits s)
  | r => r

/-- What an agent's issue comes to: an agent that lacked an operand has taken no port (R228). -/
def portsAfter (before : State) (u : Nat) (r : Host.Outcome State Fault Refusal) : Host.Outcome State Fault Refusal :=
  match r with
  | .next s => .next (unchosen before s u)
  | r => r

/-- One step but for the waits that end after it (log 1): the next turn of the agenda, a device event or an issue of one core; with no turn left, the oldest
ready agent of the device issues, or a device cycle passes. -/
def turn (s : State) : Host.Outcome State Fault Refusal :=
  match s.agenda with
  | .event dt i :: rest =>
    let s1 := { s with agenda := rest, time := s.time + dt }
    if isInstruction i then .next s1 else exec i s1
  | .core dt c :: rest =>
    let s1 := { s with agenda := rest, time := s.time + dt }
    match coreChoice s1 c with
    | some (u, t, s2) => portsAfter s1 u (issueAgent s2 u t)
    | none => .next s1
  | [] =>
    match deviceChoice s with
    | some (u, t, s1) => portsAfter s u (issueAgent s1 u t)
    | none => .next { s with time := s.time + 1 }

/-- One step (log 1). -/
def step (s : State) : Host.Outcome State Fault Refusal := waitsEnded (turn s)

/-- `s` with the instruction whose bits are `w`, as the opcode table numbers them, where `step` fetches next (log 7). -/
def State.withFetchWord (s : State) (nbits w : Nat) : State := placeWords s (tableWords (nbits / 16) w)

end Sys2Proof.Machine
end

