-- ==== Sys2Proof/Laws/State.lean ====
section
/-! SUPPORT. What each update of the state leaves and what it sets, field by field, each true by unfolding. -/

namespace Sys2Proof.Machine

open Sys2Proof

/-! `State.setCore` -/

@[simp] theorem State.setCore_threads (s : State) (c : Nat) (x : Core) : (s.setCore c x).threads = s.threads := rfl
@[simp] theorem State.setCore_saved (s : State) (c : Nat) (x : Core) : (s.setCore c x).saved = s.saved := rfl
@[simp] theorem State.setCore_frames (s : State) (c : Nat) (x : Core) : (s.setCore c x).frames = s.frames := rfl
@[simp] theorem State.setCore_areas (s : State) (c : Nat) (x : Core) : (s.setCore c x).areas = s.areas := rfl
@[simp] theorem State.setCore_cores (s : State) (c : Nat) (x : Core) : (s.setCore c x).cores = tput c x s.cores := rfl
@[simp] theorem State.setCore_islands (s : State) (c : Nat) (x : Core) : (s.setCore c x).islands = s.islands := rfl
@[simp] theorem State.setCore_channels (s : State) (c : Nat) (x : Core) : (s.setCore c x).channels = s.channels := rfl
@[simp] theorem State.setCore_mem (s : State) (c : Nat) (x : Core) : (s.setCore c x).mem = s.mem := rfl
@[simp] theorem State.setCore_words (s : State) (c : Nat) (x : Core) : (s.setCore c x).words = s.words := rfl
@[simp] theorem State.setCore_softWords (s : State) (c : Nat) (x : Core) : (s.setCore c x).softWords = s.softWords := rfl
@[simp] theorem State.setCore_hist (s : State) (c : Nat) (x : Core) : (s.setCore c x).hist = s.hist := rfl
@[simp] theorem State.setCore_seals (s : State) (c : Nat) (x : Core) : (s.setCore c x).seals = s.seals := rfl
@[simp] theorem State.setCore_owner (s : State) (c : Nat) (x : Core) : (s.setCore c x).owner = s.owner := rfl
@[simp] theorem State.setCore_tenants (s : State) (c : Nat) (x : Core) : (s.setCore c x).tenants = s.tenants := rfl
@[simp] theorem State.setCore_l2 (s : State) (c : Nat) (x : Core) : (s.setCore c x).l2 = s.l2 := rfl
@[simp] theorem State.setCore_l3 (s : State) (c : Nat) (x : Core) : (s.setCore c x).l3 = s.l3 := rfl
@[simp] theorem State.setCore_sram (s : State) (c : Nat) (x : Core) : (s.setCore c x).sram = s.sram := rfl
@[simp] theorem State.setCore_l2base (s : State) (c : Nat) (x : Core) : (s.setCore c x).l2base = s.l2base := rfl
@[simp] theorem State.setCore_l3base (s : State) (c : Nat) (x : Core) : (s.setCore c x).l3base = s.l3base := rfl
@[simp] theorem State.setCore_sramBase (s : State) (c : Nat) (x : Core) : (s.setCore c x).sramBase = s.sramBase := rfl
@[simp] theorem State.setCore_devErrors (s : State) (c : Nat) (x : Core) : (s.setCore c x).devErrors = s.devErrors := rfl
@[simp] theorem State.setCore_accs (s : State) (c : Nat) (x : Core) : (s.setCore c x).accs = s.accs := rfl
@[simp] theorem State.setCore_pending (s : State) (c : Nat) (x : Core) : (s.setCore c x).pending = s.pending := rfl
@[simp] theorem State.setCore_msgs (s : State) (c : Nat) (x : Core) : (s.setCore c x).msgs = s.msgs := rfl
@[simp] theorem State.setCore_forks (s : State) (c : Nat) (x : Core) : (s.setCore c x).forks = s.forks := rfl
@[simp] theorem State.setCore_nodes (s : State) (c : Nat) (x : Core) : (s.setCore c x).nodes = s.nodes := rfl
@[simp] theorem State.setCore_remotes (s : State) (c : Nat) (x : Core) : (s.setCore c x).remotes = s.remotes := rfl
@[simp] theorem State.setCore_spaces (s : State) (c : Nat) (x : Core) : (s.setCore c x).spaces = s.spaces := rfl
@[simp] theorem State.setCore_wds (s : State) (c : Nat) (x : Core) : (s.setCore c x).wds = s.wds := rfl
@[simp] theorem State.setCore_late (s : State) (c : Nat) (x : Core) : (s.setCore c x).late = s.late := rfl
@[simp] theorem State.setCore_tiles (s : State) (c : Nat) (x : Core) : (s.setCore c x).tiles = s.tiles := rfl
@[simp] theorem State.setCore_xfers (s : State) (c : Nat) (x : Core) : (s.setCore c x).xfers = s.xfers := rfl
@[simp] theorem State.setCore_grids (s : State) (c : Nat) (x : Core) : (s.setCore c x).grids = s.grids := rfl
@[simp] theorem State.setCore_pubs (s : State) (c : Nat) (x : Core) : (s.setCore c x).pubs = s.pubs := rfl
@[simp] theorem State.setCore_tags (s : State) (c : Nat) (x : Core) : (s.setCore c x).tags = s.tags := rfl
@[simp] theorem State.setCore_launches (s : State) (c : Nat) (x : Core) : (s.setCore c x).launches = s.launches := rfl
@[simp] theorem State.setCore_bars (s : State) (c : Nat) (x : Core) : (s.setCore c x).bars = s.bars := rfl
@[simp] theorem State.setCore_contexts (s : State) (c : Nat) (x : Core) : (s.setCore c x).contexts = s.contexts := rfl
@[simp] theorem State.setCore_queues (s : State) (c : Nat) (x : Core) : (s.setCore c x).queues = s.queues := rfl
@[simp] theorem State.setCore_lastQueue (s : State) (c : Nat) (x : Core) : (s.setCore c x).lastQueue = s.lastQueue := rfl
@[simp] theorem State.setCore_runningSlice (s : State) (c : Nat) (x : Core) : (s.setCore c x).runningSlice = s.runningSlice := rfl
@[simp] theorem State.setCore_fns (s : State) (c : Nat) (x : Core) : (s.setCore c x).fns = s.fns := rfl
@[simp] theorem State.setCore_hostMem (s : State) (c : Nat) (x : Core) : (s.setCore c x).hostMem = s.hostMem := rfl
@[simp] theorem State.setCore_parts (s : State) (c : Nat) (x : Core) : (s.setCore c x).parts = s.parts := rfl
@[simp] theorem State.setCore_jobs (s : State) (c : Nat) (x : Core) : (s.setCore c x).jobs = s.jobs := rfl
@[simp] theorem State.setCore_peers (s : State) (c : Nat) (x : Core) : (s.setCore c x).peers = s.peers := rfl
@[simp] theorem State.setCore_ports (s : State) (c : Nat) (x : Core) : (s.setCore c x).ports = s.ports := rfl
@[simp] theorem State.setCore_device (s : State) (c : Nat) (x : Core) : (s.setCore c x).device = s.device := rfl
@[simp] theorem State.setCore_time (s : State) (c : Nat) (x : Core) : (s.setCore c x).time = s.time := rfl
@[simp] theorem State.setCore_boot (s : State) (c : Nat) (x : Core) : (s.setCore c x).boot = s.boot := rfl
@[simp] theorem State.setCore_why (s : State) (c : Nat) (x : Core) : (s.setCore c x).why = s.why := rfl
@[simp] theorem State.setCore_measures (s : State) (c : Nat) (x : Core) : (s.setCore c x).measures = s.measures := rfl
@[simp] theorem State.setCore_cur (s : State) (c : Nat) (x : Core) : (s.setCore c x).cur = s.cur := rfl
@[simp] theorem State.setCore_agenda (s : State) (c : Nat) (x : Core) : (s.setCore c x).agenda = s.agenda := rfl
@[simp] theorem State.setCore_nextId (s : State) (c : Nat) (x : Core) : (s.setCore c x).nextId = s.nextId := rfl
@[simp] theorem State.setCore_wclock (s : State) (c : Nat) (x : Core) : (s.setCore c x).wclock = s.wclock := rfl
@[simp] theorem State.setCore_draws (s : State) (c : Nat) (x : Core) : (s.setCore c x).draws = s.draws := rfl

/-! `State.setTenant` -/

@[simp] theorem State.setTenant_threads (s : State) (t : Nat) (x : Tenant) : (s.setTenant t x).threads = s.threads := rfl
@[simp] theorem State.setTenant_saved (s : State) (t : Nat) (x : Tenant) : (s.setTenant t x).saved = s.saved := rfl
@[simp] theorem State.setTenant_frames (s : State) (t : Nat) (x : Tenant) : (s.setTenant t x).frames = s.frames := rfl
@[simp] theorem State.setTenant_areas (s : State) (t : Nat) (x : Tenant) : (s.setTenant t x).areas = s.areas := rfl
@[simp] theorem State.setTenant_cores (s : State) (t : Nat) (x : Tenant) : (s.setTenant t x).cores = s.cores := rfl
@[simp] theorem State.setTenant_islands (s : State) (t : Nat) (x : Tenant) : (s.setTenant t x).islands = s.islands := rfl
@[simp] theorem State.setTenant_channels (s : State) (t : Nat) (x : Tenant) : (s.setTenant t x).channels = s.channels := rfl
@[simp] theorem State.setTenant_mem (s : State) (t : Nat) (x : Tenant) : (s.setTenant t x).mem = s.mem := rfl
@[simp] theorem State.setTenant_words (s : State) (t : Nat) (x : Tenant) : (s.setTenant t x).words = s.words := rfl
@[simp] theorem State.setTenant_softWords (s : State) (t : Nat) (x : Tenant) : (s.setTenant t x).softWords = s.softWords := rfl
@[simp] theorem State.setTenant_hist (s : State) (t : Nat) (x : Tenant) : (s.setTenant t x).hist = s.hist := rfl
@[simp] theorem State.setTenant_seals (s : State) (t : Nat) (x : Tenant) : (s.setTenant t x).seals = s.seals := rfl
@[simp] theorem State.setTenant_owner (s : State) (t : Nat) (x : Tenant) : (s.setTenant t x).owner = s.owner := rfl
@[simp] theorem State.setTenant_tenants (s : State) (t : Nat) (x : Tenant) : (s.setTenant t x).tenants = tput t x s.tenants := rfl
@[simp] theorem State.setTenant_l2 (s : State) (t : Nat) (x : Tenant) : (s.setTenant t x).l2 = s.l2 := rfl
@[simp] theorem State.setTenant_l3 (s : State) (t : Nat) (x : Tenant) : (s.setTenant t x).l3 = s.l3 := rfl
@[simp] theorem State.setTenant_sram (s : State) (t : Nat) (x : Tenant) : (s.setTenant t x).sram = s.sram := rfl
@[simp] theorem State.setTenant_l2base (s : State) (t : Nat) (x : Tenant) : (s.setTenant t x).l2base = s.l2base := rfl
@[simp] theorem State.setTenant_l3base (s : State) (t : Nat) (x : Tenant) : (s.setTenant t x).l3base = s.l3base := rfl
@[simp] theorem State.setTenant_sramBase (s : State) (t : Nat) (x : Tenant) : (s.setTenant t x).sramBase = s.sramBase := rfl
@[simp] theorem State.setTenant_devErrors (s : State) (t : Nat) (x : Tenant) : (s.setTenant t x).devErrors = s.devErrors := rfl
@[simp] theorem State.setTenant_accs (s : State) (t : Nat) (x : Tenant) : (s.setTenant t x).accs = s.accs := rfl
@[simp] theorem State.setTenant_pending (s : State) (t : Nat) (x : Tenant) : (s.setTenant t x).pending = s.pending := rfl
@[simp] theorem State.setTenant_msgs (s : State) (t : Nat) (x : Tenant) : (s.setTenant t x).msgs = s.msgs := rfl
@[simp] theorem State.setTenant_forks (s : State) (t : Nat) (x : Tenant) : (s.setTenant t x).forks = s.forks := rfl
@[simp] theorem State.setTenant_nodes (s : State) (t : Nat) (x : Tenant) : (s.setTenant t x).nodes = s.nodes := rfl
@[simp] theorem State.setTenant_remotes (s : State) (t : Nat) (x : Tenant) : (s.setTenant t x).remotes = s.remotes := rfl
@[simp] theorem State.setTenant_spaces (s : State) (t : Nat) (x : Tenant) : (s.setTenant t x).spaces = s.spaces := rfl
@[simp] theorem State.setTenant_wds (s : State) (t : Nat) (x : Tenant) : (s.setTenant t x).wds = s.wds := rfl
@[simp] theorem State.setTenant_late (s : State) (t : Nat) (x : Tenant) : (s.setTenant t x).late = s.late := rfl
@[simp] theorem State.setTenant_tiles (s : State) (t : Nat) (x : Tenant) : (s.setTenant t x).tiles = s.tiles := rfl
@[simp] theorem State.setTenant_xfers (s : State) (t : Nat) (x : Tenant) : (s.setTenant t x).xfers = s.xfers := rfl
@[simp] theorem State.setTenant_grids (s : State) (t : Nat) (x : Tenant) : (s.setTenant t x).grids = s.grids := rfl
@[simp] theorem State.setTenant_pubs (s : State) (t : Nat) (x : Tenant) : (s.setTenant t x).pubs = s.pubs := rfl
@[simp] theorem State.setTenant_tags (s : State) (t : Nat) (x : Tenant) : (s.setTenant t x).tags = s.tags := rfl
@[simp] theorem State.setTenant_launches (s : State) (t : Nat) (x : Tenant) : (s.setTenant t x).launches = s.launches := rfl
@[simp] theorem State.setTenant_bars (s : State) (t : Nat) (x : Tenant) : (s.setTenant t x).bars = s.bars := rfl
@[simp] theorem State.setTenant_contexts (s : State) (t : Nat) (x : Tenant) : (s.setTenant t x).contexts = s.contexts := rfl
@[simp] theorem State.setTenant_queues (s : State) (t : Nat) (x : Tenant) : (s.setTenant t x).queues = s.queues := rfl
@[simp] theorem State.setTenant_lastQueue (s : State) (t : Nat) (x : Tenant) : (s.setTenant t x).lastQueue = s.lastQueue := rfl
@[simp] theorem State.setTenant_runningSlice (s : State) (t : Nat) (x : Tenant) : (s.setTenant t x).runningSlice = s.runningSlice := rfl
@[simp] theorem State.setTenant_fns (s : State) (t : Nat) (x : Tenant) : (s.setTenant t x).fns = s.fns := rfl
@[simp] theorem State.setTenant_hostMem (s : State) (t : Nat) (x : Tenant) : (s.setTenant t x).hostMem = s.hostMem := rfl
@[simp] theorem State.setTenant_parts (s : State) (t : Nat) (x : Tenant) : (s.setTenant t x).parts = s.parts := rfl
@[simp] theorem State.setTenant_jobs (s : State) (t : Nat) (x : Tenant) : (s.setTenant t x).jobs = s.jobs := rfl
@[simp] theorem State.setTenant_peers (s : State) (t : Nat) (x : Tenant) : (s.setTenant t x).peers = s.peers := rfl
@[simp] theorem State.setTenant_ports (s : State) (t : Nat) (x : Tenant) : (s.setTenant t x).ports = s.ports := rfl
@[simp] theorem State.setTenant_device (s : State) (t : Nat) (x : Tenant) : (s.setTenant t x).device = s.device := rfl
@[simp] theorem State.setTenant_time (s : State) (t : Nat) (x : Tenant) : (s.setTenant t x).time = s.time := rfl
@[simp] theorem State.setTenant_boot (s : State) (t : Nat) (x : Tenant) : (s.setTenant t x).boot = s.boot := rfl
@[simp] theorem State.setTenant_why (s : State) (t : Nat) (x : Tenant) : (s.setTenant t x).why = s.why := rfl
@[simp] theorem State.setTenant_measures (s : State) (t : Nat) (x : Tenant) : (s.setTenant t x).measures = s.measures := rfl
@[simp] theorem State.setTenant_cur (s : State) (t : Nat) (x : Tenant) : (s.setTenant t x).cur = s.cur := rfl
@[simp] theorem State.setTenant_agenda (s : State) (t : Nat) (x : Tenant) : (s.setTenant t x).agenda = s.agenda := rfl
@[simp] theorem State.setTenant_nextId (s : State) (t : Nat) (x : Tenant) : (s.setTenant t x).nextId = s.nextId := rfl
@[simp] theorem State.setTenant_wclock (s : State) (t : Nat) (x : Tenant) : (s.setTenant t x).wclock = s.wclock := rfl
@[simp] theorem State.setTenant_draws (s : State) (t : Nat) (x : Tenant) : (s.setTenant t x).draws = s.draws := rfl

/-! `State.setSeal` -/

@[simp] theorem State.setSeal_threads (s : State) (pg : Nat) (x : Seal) : (s.setSeal pg x).threads = s.threads := rfl
@[simp] theorem State.setSeal_saved (s : State) (pg : Nat) (x : Seal) : (s.setSeal pg x).saved = s.saved := rfl
@[simp] theorem State.setSeal_frames (s : State) (pg : Nat) (x : Seal) : (s.setSeal pg x).frames = s.frames := rfl
@[simp] theorem State.setSeal_areas (s : State) (pg : Nat) (x : Seal) : (s.setSeal pg x).areas = s.areas := rfl
@[simp] theorem State.setSeal_cores (s : State) (pg : Nat) (x : Seal) : (s.setSeal pg x).cores = s.cores := rfl
@[simp] theorem State.setSeal_islands (s : State) (pg : Nat) (x : Seal) : (s.setSeal pg x).islands = s.islands := rfl
@[simp] theorem State.setSeal_channels (s : State) (pg : Nat) (x : Seal) : (s.setSeal pg x).channels = s.channels := rfl
@[simp] theorem State.setSeal_mem (s : State) (pg : Nat) (x : Seal) : (s.setSeal pg x).mem = s.mem := rfl
@[simp] theorem State.setSeal_words (s : State) (pg : Nat) (x : Seal) : (s.setSeal pg x).words = s.words := rfl
@[simp] theorem State.setSeal_softWords (s : State) (pg : Nat) (x : Seal) : (s.setSeal pg x).softWords = s.softWords := rfl
@[simp] theorem State.setSeal_hist (s : State) (pg : Nat) (x : Seal) : (s.setSeal pg x).hist = s.hist := rfl
@[simp] theorem State.setSeal_seals (s : State) (pg : Nat) (x : Seal) : (s.setSeal pg x).seals = tput pg x s.seals := rfl
@[simp] theorem State.setSeal_owner (s : State) (pg : Nat) (x : Seal) : (s.setSeal pg x).owner = s.owner := rfl
@[simp] theorem State.setSeal_tenants (s : State) (pg : Nat) (x : Seal) : (s.setSeal pg x).tenants = s.tenants := rfl
@[simp] theorem State.setSeal_l2 (s : State) (pg : Nat) (x : Seal) : (s.setSeal pg x).l2 = s.l2 := rfl
@[simp] theorem State.setSeal_l3 (s : State) (pg : Nat) (x : Seal) : (s.setSeal pg x).l3 = s.l3 := rfl
@[simp] theorem State.setSeal_sram (s : State) (pg : Nat) (x : Seal) : (s.setSeal pg x).sram = s.sram := rfl
@[simp] theorem State.setSeal_l2base (s : State) (pg : Nat) (x : Seal) : (s.setSeal pg x).l2base = s.l2base := rfl
@[simp] theorem State.setSeal_l3base (s : State) (pg : Nat) (x : Seal) : (s.setSeal pg x).l3base = s.l3base := rfl
@[simp] theorem State.setSeal_sramBase (s : State) (pg : Nat) (x : Seal) : (s.setSeal pg x).sramBase = s.sramBase := rfl
@[simp] theorem State.setSeal_devErrors (s : State) (pg : Nat) (x : Seal) : (s.setSeal pg x).devErrors = s.devErrors := rfl
@[simp] theorem State.setSeal_accs (s : State) (pg : Nat) (x : Seal) : (s.setSeal pg x).accs = s.accs := rfl
@[simp] theorem State.setSeal_pending (s : State) (pg : Nat) (x : Seal) : (s.setSeal pg x).pending = s.pending := rfl
@[simp] theorem State.setSeal_msgs (s : State) (pg : Nat) (x : Seal) : (s.setSeal pg x).msgs = s.msgs := rfl
@[simp] theorem State.setSeal_forks (s : State) (pg : Nat) (x : Seal) : (s.setSeal pg x).forks = s.forks := rfl
@[simp] theorem State.setSeal_nodes (s : State) (pg : Nat) (x : Seal) : (s.setSeal pg x).nodes = s.nodes := rfl
@[simp] theorem State.setSeal_remotes (s : State) (pg : Nat) (x : Seal) : (s.setSeal pg x).remotes = s.remotes := rfl
@[simp] theorem State.setSeal_spaces (s : State) (pg : Nat) (x : Seal) : (s.setSeal pg x).spaces = s.spaces := rfl
@[simp] theorem State.setSeal_wds (s : State) (pg : Nat) (x : Seal) : (s.setSeal pg x).wds = s.wds := rfl
@[simp] theorem State.setSeal_late (s : State) (pg : Nat) (x : Seal) : (s.setSeal pg x).late = s.late := rfl
@[simp] theorem State.setSeal_tiles (s : State) (pg : Nat) (x : Seal) : (s.setSeal pg x).tiles = s.tiles := rfl
@[simp] theorem State.setSeal_xfers (s : State) (pg : Nat) (x : Seal) : (s.setSeal pg x).xfers = s.xfers := rfl
@[simp] theorem State.setSeal_grids (s : State) (pg : Nat) (x : Seal) : (s.setSeal pg x).grids = s.grids := rfl
@[simp] theorem State.setSeal_pubs (s : State) (pg : Nat) (x : Seal) : (s.setSeal pg x).pubs = s.pubs := rfl
@[simp] theorem State.setSeal_tags (s : State) (pg : Nat) (x : Seal) : (s.setSeal pg x).tags = s.tags := rfl
@[simp] theorem State.setSeal_launches (s : State) (pg : Nat) (x : Seal) : (s.setSeal pg x).launches = s.launches := rfl
@[simp] theorem State.setSeal_bars (s : State) (pg : Nat) (x : Seal) : (s.setSeal pg x).bars = s.bars := rfl
@[simp] theorem State.setSeal_contexts (s : State) (pg : Nat) (x : Seal) : (s.setSeal pg x).contexts = s.contexts := rfl
@[simp] theorem State.setSeal_queues (s : State) (pg : Nat) (x : Seal) : (s.setSeal pg x).queues = s.queues := rfl
@[simp] theorem State.setSeal_lastQueue (s : State) (pg : Nat) (x : Seal) : (s.setSeal pg x).lastQueue = s.lastQueue := rfl
@[simp] theorem State.setSeal_runningSlice (s : State) (pg : Nat) (x : Seal) : (s.setSeal pg x).runningSlice = s.runningSlice := rfl
@[simp] theorem State.setSeal_fns (s : State) (pg : Nat) (x : Seal) : (s.setSeal pg x).fns = s.fns := rfl
@[simp] theorem State.setSeal_hostMem (s : State) (pg : Nat) (x : Seal) : (s.setSeal pg x).hostMem = s.hostMem := rfl
@[simp] theorem State.setSeal_parts (s : State) (pg : Nat) (x : Seal) : (s.setSeal pg x).parts = s.parts := rfl
@[simp] theorem State.setSeal_jobs (s : State) (pg : Nat) (x : Seal) : (s.setSeal pg x).jobs = s.jobs := rfl
@[simp] theorem State.setSeal_peers (s : State) (pg : Nat) (x : Seal) : (s.setSeal pg x).peers = s.peers := rfl
@[simp] theorem State.setSeal_ports (s : State) (pg : Nat) (x : Seal) : (s.setSeal pg x).ports = s.ports := rfl
@[simp] theorem State.setSeal_device (s : State) (pg : Nat) (x : Seal) : (s.setSeal pg x).device = s.device := rfl
@[simp] theorem State.setSeal_time (s : State) (pg : Nat) (x : Seal) : (s.setSeal pg x).time = s.time := rfl
@[simp] theorem State.setSeal_boot (s : State) (pg : Nat) (x : Seal) : (s.setSeal pg x).boot = s.boot := rfl
@[simp] theorem State.setSeal_why (s : State) (pg : Nat) (x : Seal) : (s.setSeal pg x).why = s.why := rfl
@[simp] theorem State.setSeal_measures (s : State) (pg : Nat) (x : Seal) : (s.setSeal pg x).measures = s.measures := rfl
@[simp] theorem State.setSeal_cur (s : State) (pg : Nat) (x : Seal) : (s.setSeal pg x).cur = s.cur := rfl
@[simp] theorem State.setSeal_agenda (s : State) (pg : Nat) (x : Seal) : (s.setSeal pg x).agenda = s.agenda := rfl
@[simp] theorem State.setSeal_nextId (s : State) (pg : Nat) (x : Seal) : (s.setSeal pg x).nextId = s.nextId := rfl
@[simp] theorem State.setSeal_wclock (s : State) (pg : Nat) (x : Seal) : (s.setSeal pg x).wclock = s.wclock := rfl
@[simp] theorem State.setSeal_draws (s : State) (pg : Nat) (x : Seal) : (s.setSeal pg x).draws = s.draws := rfl

/-! `State.setFn` -/

@[simp] theorem State.setFn_threads (s : State) (n : Nat) (f : HostFn) : (s.setFn n f).threads = s.threads := rfl
@[simp] theorem State.setFn_saved (s : State) (n : Nat) (f : HostFn) : (s.setFn n f).saved = s.saved := rfl
@[simp] theorem State.setFn_frames (s : State) (n : Nat) (f : HostFn) : (s.setFn n f).frames = s.frames := rfl
@[simp] theorem State.setFn_areas (s : State) (n : Nat) (f : HostFn) : (s.setFn n f).areas = s.areas := rfl
@[simp] theorem State.setFn_cores (s : State) (n : Nat) (f : HostFn) : (s.setFn n f).cores = s.cores := rfl
@[simp] theorem State.setFn_islands (s : State) (n : Nat) (f : HostFn) : (s.setFn n f).islands = s.islands := rfl
@[simp] theorem State.setFn_channels (s : State) (n : Nat) (f : HostFn) : (s.setFn n f).channels = s.channels := rfl
@[simp] theorem State.setFn_mem (s : State) (n : Nat) (f : HostFn) : (s.setFn n f).mem = s.mem := rfl
@[simp] theorem State.setFn_words (s : State) (n : Nat) (f : HostFn) : (s.setFn n f).words = s.words := rfl
@[simp] theorem State.setFn_softWords (s : State) (n : Nat) (f : HostFn) : (s.setFn n f).softWords = s.softWords := rfl
@[simp] theorem State.setFn_hist (s : State) (n : Nat) (f : HostFn) : (s.setFn n f).hist = s.hist := rfl
@[simp] theorem State.setFn_seals (s : State) (n : Nat) (f : HostFn) : (s.setFn n f).seals = s.seals := rfl
@[simp] theorem State.setFn_owner (s : State) (n : Nat) (f : HostFn) : (s.setFn n f).owner = s.owner := rfl
@[simp] theorem State.setFn_tenants (s : State) (n : Nat) (f : HostFn) : (s.setFn n f).tenants = s.tenants := rfl
@[simp] theorem State.setFn_l2 (s : State) (n : Nat) (f : HostFn) : (s.setFn n f).l2 = s.l2 := rfl
@[simp] theorem State.setFn_l3 (s : State) (n : Nat) (f : HostFn) : (s.setFn n f).l3 = s.l3 := rfl
@[simp] theorem State.setFn_sram (s : State) (n : Nat) (f : HostFn) : (s.setFn n f).sram = s.sram := rfl
@[simp] theorem State.setFn_l2base (s : State) (n : Nat) (f : HostFn) : (s.setFn n f).l2base = s.l2base := rfl
@[simp] theorem State.setFn_l3base (s : State) (n : Nat) (f : HostFn) : (s.setFn n f).l3base = s.l3base := rfl
@[simp] theorem State.setFn_sramBase (s : State) (n : Nat) (f : HostFn) : (s.setFn n f).sramBase = s.sramBase := rfl
@[simp] theorem State.setFn_devErrors (s : State) (n : Nat) (f : HostFn) : (s.setFn n f).devErrors = s.devErrors := rfl
@[simp] theorem State.setFn_accs (s : State) (n : Nat) (f : HostFn) : (s.setFn n f).accs = s.accs := rfl
@[simp] theorem State.setFn_pending (s : State) (n : Nat) (f : HostFn) : (s.setFn n f).pending = s.pending := rfl
@[simp] theorem State.setFn_msgs (s : State) (n : Nat) (f : HostFn) : (s.setFn n f).msgs = s.msgs := rfl
@[simp] theorem State.setFn_forks (s : State) (n : Nat) (f : HostFn) : (s.setFn n f).forks = s.forks := rfl
@[simp] theorem State.setFn_nodes (s : State) (n : Nat) (f : HostFn) : (s.setFn n f).nodes = s.nodes := rfl
@[simp] theorem State.setFn_remotes (s : State) (n : Nat) (f : HostFn) : (s.setFn n f).remotes = s.remotes := rfl
@[simp] theorem State.setFn_spaces (s : State) (n : Nat) (f : HostFn) : (s.setFn n f).spaces = s.spaces := rfl
@[simp] theorem State.setFn_wds (s : State) (n : Nat) (f : HostFn) : (s.setFn n f).wds = s.wds := rfl
@[simp] theorem State.setFn_late (s : State) (n : Nat) (f : HostFn) : (s.setFn n f).late = s.late := rfl
@[simp] theorem State.setFn_tiles (s : State) (n : Nat) (f : HostFn) : (s.setFn n f).tiles = s.tiles := rfl
@[simp] theorem State.setFn_xfers (s : State) (n : Nat) (f : HostFn) : (s.setFn n f).xfers = s.xfers := rfl
@[simp] theorem State.setFn_grids (s : State) (n : Nat) (f : HostFn) : (s.setFn n f).grids = s.grids := rfl
@[simp] theorem State.setFn_pubs (s : State) (n : Nat) (f : HostFn) : (s.setFn n f).pubs = s.pubs := rfl
@[simp] theorem State.setFn_tags (s : State) (n : Nat) (f : HostFn) : (s.setFn n f).tags = s.tags := rfl
@[simp] theorem State.setFn_launches (s : State) (n : Nat) (f : HostFn) : (s.setFn n f).launches = s.launches := rfl
@[simp] theorem State.setFn_bars (s : State) (n : Nat) (f : HostFn) : (s.setFn n f).bars = s.bars := rfl
@[simp] theorem State.setFn_contexts (s : State) (n : Nat) (f : HostFn) : (s.setFn n f).contexts = s.contexts := rfl
@[simp] theorem State.setFn_queues (s : State) (n : Nat) (f : HostFn) : (s.setFn n f).queues = s.queues := rfl
@[simp] theorem State.setFn_lastQueue (s : State) (n : Nat) (f : HostFn) : (s.setFn n f).lastQueue = s.lastQueue := rfl
@[simp] theorem State.setFn_runningSlice (s : State) (n : Nat) (f : HostFn) : (s.setFn n f).runningSlice = s.runningSlice := rfl
@[simp] theorem State.setFn_fns (s : State) (n : Nat) (f : HostFn) : (s.setFn n f).fns = tput n f s.fns := rfl
@[simp] theorem State.setFn_hostMem (s : State) (n : Nat) (f : HostFn) : (s.setFn n f).hostMem = s.hostMem := rfl
@[simp] theorem State.setFn_parts (s : State) (n : Nat) (f : HostFn) : (s.setFn n f).parts = s.parts := rfl
@[simp] theorem State.setFn_jobs (s : State) (n : Nat) (f : HostFn) : (s.setFn n f).jobs = s.jobs := rfl
@[simp] theorem State.setFn_peers (s : State) (n : Nat) (f : HostFn) : (s.setFn n f).peers = s.peers := rfl
@[simp] theorem State.setFn_ports (s : State) (n : Nat) (f : HostFn) : (s.setFn n f).ports = s.ports := rfl
@[simp] theorem State.setFn_device (s : State) (n : Nat) (f : HostFn) : (s.setFn n f).device = s.device := rfl
@[simp] theorem State.setFn_time (s : State) (n : Nat) (f : HostFn) : (s.setFn n f).time = s.time := rfl
@[simp] theorem State.setFn_boot (s : State) (n : Nat) (f : HostFn) : (s.setFn n f).boot = s.boot := rfl
@[simp] theorem State.setFn_why (s : State) (n : Nat) (f : HostFn) : (s.setFn n f).why = s.why := rfl
@[simp] theorem State.setFn_measures (s : State) (n : Nat) (f : HostFn) : (s.setFn n f).measures = s.measures := rfl
@[simp] theorem State.setFn_cur (s : State) (n : Nat) (f : HostFn) : (s.setFn n f).cur = s.cur := rfl
@[simp] theorem State.setFn_agenda (s : State) (n : Nat) (f : HostFn) : (s.setFn n f).agenda = s.agenda := rfl
@[simp] theorem State.setFn_nextId (s : State) (n : Nat) (f : HostFn) : (s.setFn n f).nextId = s.nextId := rfl
@[simp] theorem State.setFn_wclock (s : State) (n : Nat) (f : HostFn) : (s.setFn n f).wclock = s.wclock := rfl
@[simp] theorem State.setFn_draws (s : State) (n : Nat) (f : HostFn) : (s.setFn n f).draws = s.draws := rfl

/-! `State.setCtx` -/

@[simp] theorem State.setCtx_threads (s : State) (c : Nat) (x : Context) : (s.setCtx c x).threads = s.threads := rfl
@[simp] theorem State.setCtx_saved (s : State) (c : Nat) (x : Context) : (s.setCtx c x).saved = s.saved := rfl
@[simp] theorem State.setCtx_frames (s : State) (c : Nat) (x : Context) : (s.setCtx c x).frames = s.frames := rfl
@[simp] theorem State.setCtx_areas (s : State) (c : Nat) (x : Context) : (s.setCtx c x).areas = s.areas := rfl
@[simp] theorem State.setCtx_cores (s : State) (c : Nat) (x : Context) : (s.setCtx c x).cores = s.cores := rfl
@[simp] theorem State.setCtx_islands (s : State) (c : Nat) (x : Context) : (s.setCtx c x).islands = s.islands := rfl
@[simp] theorem State.setCtx_channels (s : State) (c : Nat) (x : Context) : (s.setCtx c x).channels = s.channels := rfl
@[simp] theorem State.setCtx_mem (s : State) (c : Nat) (x : Context) : (s.setCtx c x).mem = s.mem := rfl
@[simp] theorem State.setCtx_words (s : State) (c : Nat) (x : Context) : (s.setCtx c x).words = s.words := rfl
@[simp] theorem State.setCtx_softWords (s : State) (c : Nat) (x : Context) : (s.setCtx c x).softWords = s.softWords := rfl
@[simp] theorem State.setCtx_hist (s : State) (c : Nat) (x : Context) : (s.setCtx c x).hist = s.hist := rfl
@[simp] theorem State.setCtx_seals (s : State) (c : Nat) (x : Context) : (s.setCtx c x).seals = s.seals := rfl
@[simp] theorem State.setCtx_owner (s : State) (c : Nat) (x : Context) : (s.setCtx c x).owner = s.owner := rfl
@[simp] theorem State.setCtx_tenants (s : State) (c : Nat) (x : Context) : (s.setCtx c x).tenants = s.tenants := rfl
@[simp] theorem State.setCtx_l2 (s : State) (c : Nat) (x : Context) : (s.setCtx c x).l2 = s.l2 := rfl
@[simp] theorem State.setCtx_l3 (s : State) (c : Nat) (x : Context) : (s.setCtx c x).l3 = s.l3 := rfl
@[simp] theorem State.setCtx_sram (s : State) (c : Nat) (x : Context) : (s.setCtx c x).sram = s.sram := rfl
@[simp] theorem State.setCtx_l2base (s : State) (c : Nat) (x : Context) : (s.setCtx c x).l2base = s.l2base := rfl
@[simp] theorem State.setCtx_l3base (s : State) (c : Nat) (x : Context) : (s.setCtx c x).l3base = s.l3base := rfl
@[simp] theorem State.setCtx_sramBase (s : State) (c : Nat) (x : Context) : (s.setCtx c x).sramBase = s.sramBase := rfl
@[simp] theorem State.setCtx_devErrors (s : State) (c : Nat) (x : Context) : (s.setCtx c x).devErrors = s.devErrors := rfl
@[simp] theorem State.setCtx_accs (s : State) (c : Nat) (x : Context) : (s.setCtx c x).accs = s.accs := rfl
@[simp] theorem State.setCtx_pending (s : State) (c : Nat) (x : Context) : (s.setCtx c x).pending = s.pending := rfl
@[simp] theorem State.setCtx_msgs (s : State) (c : Nat) (x : Context) : (s.setCtx c x).msgs = s.msgs := rfl
@[simp] theorem State.setCtx_forks (s : State) (c : Nat) (x : Context) : (s.setCtx c x).forks = s.forks := rfl
@[simp] theorem State.setCtx_nodes (s : State) (c : Nat) (x : Context) : (s.setCtx c x).nodes = s.nodes := rfl
@[simp] theorem State.setCtx_remotes (s : State) (c : Nat) (x : Context) : (s.setCtx c x).remotes = s.remotes := rfl
@[simp] theorem State.setCtx_spaces (s : State) (c : Nat) (x : Context) : (s.setCtx c x).spaces = s.spaces := rfl
@[simp] theorem State.setCtx_wds (s : State) (c : Nat) (x : Context) : (s.setCtx c x).wds = s.wds := rfl
@[simp] theorem State.setCtx_late (s : State) (c : Nat) (x : Context) : (s.setCtx c x).late = s.late := rfl
@[simp] theorem State.setCtx_tiles (s : State) (c : Nat) (x : Context) : (s.setCtx c x).tiles = s.tiles := rfl
@[simp] theorem State.setCtx_xfers (s : State) (c : Nat) (x : Context) : (s.setCtx c x).xfers = s.xfers := rfl
@[simp] theorem State.setCtx_grids (s : State) (c : Nat) (x : Context) : (s.setCtx c x).grids = s.grids := rfl
@[simp] theorem State.setCtx_pubs (s : State) (c : Nat) (x : Context) : (s.setCtx c x).pubs = s.pubs := rfl
@[simp] theorem State.setCtx_tags (s : State) (c : Nat) (x : Context) : (s.setCtx c x).tags = s.tags := rfl
@[simp] theorem State.setCtx_launches (s : State) (c : Nat) (x : Context) : (s.setCtx c x).launches = s.launches := rfl
@[simp] theorem State.setCtx_bars (s : State) (c : Nat) (x : Context) : (s.setCtx c x).bars = s.bars := rfl
@[simp] theorem State.setCtx_contexts (s : State) (c : Nat) (x : Context) : (s.setCtx c x).contexts = tput c x s.contexts := rfl
@[simp] theorem State.setCtx_queues (s : State) (c : Nat) (x : Context) : (s.setCtx c x).queues = s.queues := rfl
@[simp] theorem State.setCtx_lastQueue (s : State) (c : Nat) (x : Context) : (s.setCtx c x).lastQueue = s.lastQueue := rfl
@[simp] theorem State.setCtx_runningSlice (s : State) (c : Nat) (x : Context) : (s.setCtx c x).runningSlice = s.runningSlice := rfl
@[simp] theorem State.setCtx_fns (s : State) (c : Nat) (x : Context) : (s.setCtx c x).fns = s.fns := rfl
@[simp] theorem State.setCtx_hostMem (s : State) (c : Nat) (x : Context) : (s.setCtx c x).hostMem = s.hostMem := rfl
@[simp] theorem State.setCtx_parts (s : State) (c : Nat) (x : Context) : (s.setCtx c x).parts = s.parts := rfl
@[simp] theorem State.setCtx_jobs (s : State) (c : Nat) (x : Context) : (s.setCtx c x).jobs = s.jobs := rfl
@[simp] theorem State.setCtx_peers (s : State) (c : Nat) (x : Context) : (s.setCtx c x).peers = s.peers := rfl
@[simp] theorem State.setCtx_ports (s : State) (c : Nat) (x : Context) : (s.setCtx c x).ports = s.ports := rfl
@[simp] theorem State.setCtx_device (s : State) (c : Nat) (x : Context) : (s.setCtx c x).device = s.device := rfl
@[simp] theorem State.setCtx_time (s : State) (c : Nat) (x : Context) : (s.setCtx c x).time = s.time := rfl
@[simp] theorem State.setCtx_boot (s : State) (c : Nat) (x : Context) : (s.setCtx c x).boot = s.boot := rfl
@[simp] theorem State.setCtx_why (s : State) (c : Nat) (x : Context) : (s.setCtx c x).why = s.why := rfl
@[simp] theorem State.setCtx_measures (s : State) (c : Nat) (x : Context) : (s.setCtx c x).measures = s.measures := rfl
@[simp] theorem State.setCtx_cur (s : State) (c : Nat) (x : Context) : (s.setCtx c x).cur = s.cur := rfl
@[simp] theorem State.setCtx_agenda (s : State) (c : Nat) (x : Context) : (s.setCtx c x).agenda = s.agenda := rfl
@[simp] theorem State.setCtx_nextId (s : State) (c : Nat) (x : Context) : (s.setCtx c x).nextId = s.nextId := rfl
@[simp] theorem State.setCtx_wclock (s : State) (c : Nat) (x : Context) : (s.setCtx c x).wclock = s.wclock := rfl
@[simp] theorem State.setCtx_draws (s : State) (c : Nat) (x : Context) : (s.setCtx c x).draws = s.draws := rfl

/-! `State.setThread` -/

@[simp] theorem State.setThread_threads (s : State) (u : Nat) (t : Thread) : (s.setThread u t).threads = tput u t s.threads := rfl
@[simp] theorem State.setThread_saved (s : State) (u : Nat) (t : Thread) : (s.setThread u t).saved = s.saved := rfl
@[simp] theorem State.setThread_frames (s : State) (u : Nat) (t : Thread) : (s.setThread u t).frames = s.frames := rfl
@[simp] theorem State.setThread_areas (s : State) (u : Nat) (t : Thread) : (s.setThread u t).areas = s.areas := rfl
@[simp] theorem State.setThread_cores (s : State) (u : Nat) (t : Thread) : (s.setThread u t).cores = s.cores := rfl
@[simp] theorem State.setThread_islands (s : State) (u : Nat) (t : Thread) : (s.setThread u t).islands = s.islands := rfl
@[simp] theorem State.setThread_channels (s : State) (u : Nat) (t : Thread) : (s.setThread u t).channels = s.channels := rfl
@[simp] theorem State.setThread_mem (s : State) (u : Nat) (t : Thread) : (s.setThread u t).mem = s.mem := rfl
@[simp] theorem State.setThread_words (s : State) (u : Nat) (t : Thread) : (s.setThread u t).words = s.words := rfl
@[simp] theorem State.setThread_softWords (s : State) (u : Nat) (t : Thread) : (s.setThread u t).softWords = s.softWords := rfl
@[simp] theorem State.setThread_hist (s : State) (u : Nat) (t : Thread) : (s.setThread u t).hist = s.hist := rfl
@[simp] theorem State.setThread_seals (s : State) (u : Nat) (t : Thread) : (s.setThread u t).seals = s.seals := rfl
@[simp] theorem State.setThread_owner (s : State) (u : Nat) (t : Thread) : (s.setThread u t).owner = s.owner := rfl
@[simp] theorem State.setThread_tenants (s : State) (u : Nat) (t : Thread) : (s.setThread u t).tenants = s.tenants := rfl
@[simp] theorem State.setThread_l2 (s : State) (u : Nat) (t : Thread) : (s.setThread u t).l2 = s.l2 := rfl
@[simp] theorem State.setThread_l3 (s : State) (u : Nat) (t : Thread) : (s.setThread u t).l3 = s.l3 := rfl
@[simp] theorem State.setThread_sram (s : State) (u : Nat) (t : Thread) : (s.setThread u t).sram = s.sram := rfl
@[simp] theorem State.setThread_l2base (s : State) (u : Nat) (t : Thread) : (s.setThread u t).l2base = s.l2base := rfl
@[simp] theorem State.setThread_l3base (s : State) (u : Nat) (t : Thread) : (s.setThread u t).l3base = s.l3base := rfl
@[simp] theorem State.setThread_sramBase (s : State) (u : Nat) (t : Thread) : (s.setThread u t).sramBase = s.sramBase := rfl
@[simp] theorem State.setThread_devErrors (s : State) (u : Nat) (t : Thread) : (s.setThread u t).devErrors = s.devErrors := rfl
@[simp] theorem State.setThread_accs (s : State) (u : Nat) (t : Thread) : (s.setThread u t).accs = s.accs := rfl
@[simp] theorem State.setThread_pending (s : State) (u : Nat) (t : Thread) : (s.setThread u t).pending = s.pending := rfl
@[simp] theorem State.setThread_msgs (s : State) (u : Nat) (t : Thread) : (s.setThread u t).msgs = s.msgs := rfl
@[simp] theorem State.setThread_forks (s : State) (u : Nat) (t : Thread) : (s.setThread u t).forks = s.forks := rfl
@[simp] theorem State.setThread_nodes (s : State) (u : Nat) (t : Thread) : (s.setThread u t).nodes = s.nodes := rfl
@[simp] theorem State.setThread_remotes (s : State) (u : Nat) (t : Thread) : (s.setThread u t).remotes = s.remotes := rfl
@[simp] theorem State.setThread_spaces (s : State) (u : Nat) (t : Thread) : (s.setThread u t).spaces = s.spaces := rfl
@[simp] theorem State.setThread_wds (s : State) (u : Nat) (t : Thread) : (s.setThread u t).wds = s.wds := rfl
@[simp] theorem State.setThread_late (s : State) (u : Nat) (t : Thread) : (s.setThread u t).late = s.late := rfl
@[simp] theorem State.setThread_tiles (s : State) (u : Nat) (t : Thread) : (s.setThread u t).tiles = s.tiles := rfl
@[simp] theorem State.setThread_xfers (s : State) (u : Nat) (t : Thread) : (s.setThread u t).xfers = s.xfers := rfl
@[simp] theorem State.setThread_grids (s : State) (u : Nat) (t : Thread) : (s.setThread u t).grids = s.grids := rfl
@[simp] theorem State.setThread_pubs (s : State) (u : Nat) (t : Thread) : (s.setThread u t).pubs = s.pubs := rfl
@[simp] theorem State.setThread_tags (s : State) (u : Nat) (t : Thread) : (s.setThread u t).tags = s.tags := rfl
@[simp] theorem State.setThread_launches (s : State) (u : Nat) (t : Thread) : (s.setThread u t).launches = s.launches := rfl
@[simp] theorem State.setThread_bars (s : State) (u : Nat) (t : Thread) : (s.setThread u t).bars = s.bars := rfl
@[simp] theorem State.setThread_contexts (s : State) (u : Nat) (t : Thread) : (s.setThread u t).contexts = s.contexts := rfl
@[simp] theorem State.setThread_queues (s : State) (u : Nat) (t : Thread) : (s.setThread u t).queues = s.queues := rfl
@[simp] theorem State.setThread_lastQueue (s : State) (u : Nat) (t : Thread) : (s.setThread u t).lastQueue = s.lastQueue := rfl
@[simp] theorem State.setThread_runningSlice (s : State) (u : Nat) (t : Thread) : (s.setThread u t).runningSlice = s.runningSlice := rfl
@[simp] theorem State.setThread_fns (s : State) (u : Nat) (t : Thread) : (s.setThread u t).fns = s.fns := rfl
@[simp] theorem State.setThread_hostMem (s : State) (u : Nat) (t : Thread) : (s.setThread u t).hostMem = s.hostMem := rfl
@[simp] theorem State.setThread_parts (s : State) (u : Nat) (t : Thread) : (s.setThread u t).parts = s.parts := rfl
@[simp] theorem State.setThread_jobs (s : State) (u : Nat) (t : Thread) : (s.setThread u t).jobs = s.jobs := rfl
@[simp] theorem State.setThread_peers (s : State) (u : Nat) (t : Thread) : (s.setThread u t).peers = s.peers := rfl
@[simp] theorem State.setThread_ports (s : State) (u : Nat) (t : Thread) : (s.setThread u t).ports = s.ports := rfl
@[simp] theorem State.setThread_device (s : State) (u : Nat) (t : Thread) : (s.setThread u t).device = s.device := rfl
@[simp] theorem State.setThread_time (s : State) (u : Nat) (t : Thread) : (s.setThread u t).time = s.time := rfl
@[simp] theorem State.setThread_boot (s : State) (u : Nat) (t : Thread) : (s.setThread u t).boot = s.boot := rfl
@[simp] theorem State.setThread_why (s : State) (u : Nat) (t : Thread) : (s.setThread u t).why = s.why := rfl
@[simp] theorem State.setThread_measures (s : State) (u : Nat) (t : Thread) : (s.setThread u t).measures = s.measures := rfl
@[simp] theorem State.setThread_cur (s : State) (u : Nat) (t : Thread) : (s.setThread u t).cur = s.cur := rfl
@[simp] theorem State.setThread_agenda (s : State) (u : Nat) (t : Thread) : (s.setThread u t).agenda = s.agenda := rfl
@[simp] theorem State.setThread_nextId (s : State) (u : Nat) (t : Thread) : (s.setThread u t).nextId = s.nextId := rfl
@[simp] theorem State.setThread_wclock (s : State) (u : Nat) (t : Thread) : (s.setThread u t).wclock = s.wclock := rfl
@[simp] theorem State.setThread_draws (s : State) (u : Nat) (t : Thread) : (s.setThread u t).draws = s.draws := rfl

/-! `State.setTile` -/

@[simp] theorem State.setTile_threads (s : State) (i : Nat) (t : Tile) : (s.setTile i t).threads = s.threads := rfl
@[simp] theorem State.setTile_saved (s : State) (i : Nat) (t : Tile) : (s.setTile i t).saved = s.saved := rfl
@[simp] theorem State.setTile_frames (s : State) (i : Nat) (t : Tile) : (s.setTile i t).frames = s.frames := rfl
@[simp] theorem State.setTile_areas (s : State) (i : Nat) (t : Tile) : (s.setTile i t).areas = s.areas := rfl
@[simp] theorem State.setTile_cores (s : State) (i : Nat) (t : Tile) : (s.setTile i t).cores = s.cores := rfl
@[simp] theorem State.setTile_islands (s : State) (i : Nat) (t : Tile) : (s.setTile i t).islands = s.islands := rfl
@[simp] theorem State.setTile_channels (s : State) (i : Nat) (t : Tile) : (s.setTile i t).channels = s.channels := rfl
@[simp] theorem State.setTile_mem (s : State) (i : Nat) (t : Tile) : (s.setTile i t).mem = s.mem := rfl
@[simp] theorem State.setTile_words (s : State) (i : Nat) (t : Tile) : (s.setTile i t).words = s.words := rfl
@[simp] theorem State.setTile_softWords (s : State) (i : Nat) (t : Tile) : (s.setTile i t).softWords = s.softWords := rfl
@[simp] theorem State.setTile_hist (s : State) (i : Nat) (t : Tile) : (s.setTile i t).hist = s.hist := rfl
@[simp] theorem State.setTile_seals (s : State) (i : Nat) (t : Tile) : (s.setTile i t).seals = s.seals := rfl
@[simp] theorem State.setTile_owner (s : State) (i : Nat) (t : Tile) : (s.setTile i t).owner = s.owner := rfl
@[simp] theorem State.setTile_tenants (s : State) (i : Nat) (t : Tile) : (s.setTile i t).tenants = s.tenants := rfl
@[simp] theorem State.setTile_l2 (s : State) (i : Nat) (t : Tile) : (s.setTile i t).l2 = s.l2 := rfl
@[simp] theorem State.setTile_l3 (s : State) (i : Nat) (t : Tile) : (s.setTile i t).l3 = s.l3 := rfl
@[simp] theorem State.setTile_sram (s : State) (i : Nat) (t : Tile) : (s.setTile i t).sram = s.sram := rfl
@[simp] theorem State.setTile_l2base (s : State) (i : Nat) (t : Tile) : (s.setTile i t).l2base = s.l2base := rfl
@[simp] theorem State.setTile_l3base (s : State) (i : Nat) (t : Tile) : (s.setTile i t).l3base = s.l3base := rfl
@[simp] theorem State.setTile_sramBase (s : State) (i : Nat) (t : Tile) : (s.setTile i t).sramBase = s.sramBase := rfl
@[simp] theorem State.setTile_devErrors (s : State) (i : Nat) (t : Tile) : (s.setTile i t).devErrors = s.devErrors := rfl
@[simp] theorem State.setTile_accs (s : State) (i : Nat) (t : Tile) : (s.setTile i t).accs = s.accs := rfl
@[simp] theorem State.setTile_pending (s : State) (i : Nat) (t : Tile) : (s.setTile i t).pending = s.pending := rfl
@[simp] theorem State.setTile_msgs (s : State) (i : Nat) (t : Tile) : (s.setTile i t).msgs = s.msgs := rfl
@[simp] theorem State.setTile_forks (s : State) (i : Nat) (t : Tile) : (s.setTile i t).forks = s.forks := rfl
@[simp] theorem State.setTile_nodes (s : State) (i : Nat) (t : Tile) : (s.setTile i t).nodes = s.nodes := rfl
@[simp] theorem State.setTile_remotes (s : State) (i : Nat) (t : Tile) : (s.setTile i t).remotes = s.remotes := rfl
@[simp] theorem State.setTile_spaces (s : State) (i : Nat) (t : Tile) : (s.setTile i t).spaces = s.spaces := rfl
@[simp] theorem State.setTile_wds (s : State) (i : Nat) (t : Tile) : (s.setTile i t).wds = s.wds := rfl
@[simp] theorem State.setTile_late (s : State) (i : Nat) (t : Tile) : (s.setTile i t).late = s.late := rfl
@[simp] theorem State.setTile_tiles (s : State) (i : Nat) (t : Tile) : (s.setTile i t).tiles = tput i t s.tiles := rfl
@[simp] theorem State.setTile_xfers (s : State) (i : Nat) (t : Tile) : (s.setTile i t).xfers = s.xfers := rfl
@[simp] theorem State.setTile_grids (s : State) (i : Nat) (t : Tile) : (s.setTile i t).grids = s.grids := rfl
@[simp] theorem State.setTile_pubs (s : State) (i : Nat) (t : Tile) : (s.setTile i t).pubs = s.pubs := rfl
@[simp] theorem State.setTile_tags (s : State) (i : Nat) (t : Tile) : (s.setTile i t).tags = s.tags := rfl
@[simp] theorem State.setTile_launches (s : State) (i : Nat) (t : Tile) : (s.setTile i t).launches = s.launches := rfl
@[simp] theorem State.setTile_bars (s : State) (i : Nat) (t : Tile) : (s.setTile i t).bars = s.bars := rfl
@[simp] theorem State.setTile_contexts (s : State) (i : Nat) (t : Tile) : (s.setTile i t).contexts = s.contexts := rfl
@[simp] theorem State.setTile_queues (s : State) (i : Nat) (t : Tile) : (s.setTile i t).queues = s.queues := rfl
@[simp] theorem State.setTile_lastQueue (s : State) (i : Nat) (t : Tile) : (s.setTile i t).lastQueue = s.lastQueue := rfl
@[simp] theorem State.setTile_runningSlice (s : State) (i : Nat) (t : Tile) : (s.setTile i t).runningSlice = s.runningSlice := rfl
@[simp] theorem State.setTile_fns (s : State) (i : Nat) (t : Tile) : (s.setTile i t).fns = s.fns := rfl
@[simp] theorem State.setTile_hostMem (s : State) (i : Nat) (t : Tile) : (s.setTile i t).hostMem = s.hostMem := rfl
@[simp] theorem State.setTile_parts (s : State) (i : Nat) (t : Tile) : (s.setTile i t).parts = s.parts := rfl
@[simp] theorem State.setTile_jobs (s : State) (i : Nat) (t : Tile) : (s.setTile i t).jobs = s.jobs := rfl
@[simp] theorem State.setTile_peers (s : State) (i : Nat) (t : Tile) : (s.setTile i t).peers = s.peers := rfl
@[simp] theorem State.setTile_ports (s : State) (i : Nat) (t : Tile) : (s.setTile i t).ports = s.ports := rfl
@[simp] theorem State.setTile_device (s : State) (i : Nat) (t : Tile) : (s.setTile i t).device = s.device := rfl
@[simp] theorem State.setTile_time (s : State) (i : Nat) (t : Tile) : (s.setTile i t).time = s.time := rfl
@[simp] theorem State.setTile_boot (s : State) (i : Nat) (t : Tile) : (s.setTile i t).boot = s.boot := rfl
@[simp] theorem State.setTile_why (s : State) (i : Nat) (t : Tile) : (s.setTile i t).why = s.why := rfl
@[simp] theorem State.setTile_measures (s : State) (i : Nat) (t : Tile) : (s.setTile i t).measures = s.measures := rfl
@[simp] theorem State.setTile_cur (s : State) (i : Nat) (t : Tile) : (s.setTile i t).cur = s.cur := rfl
@[simp] theorem State.setTile_agenda (s : State) (i : Nat) (t : Tile) : (s.setTile i t).agenda = s.agenda := rfl
@[simp] theorem State.setTile_nextId (s : State) (i : Nat) (t : Tile) : (s.setTile i t).nextId = s.nextId := rfl
@[simp] theorem State.setTile_wclock (s : State) (i : Nat) (t : Tile) : (s.setTile i t).wclock = s.wclock := rfl
@[simp] theorem State.setTile_draws (s : State) (i : Nat) (t : Tile) : (s.setTile i t).draws = s.draws := rfl

/-! `State.setIsland` -/

@[simp] theorem State.setIsland_threads (s : State) (i : Nat) (x : Island) : (s.setIsland i x).threads = s.threads := rfl
@[simp] theorem State.setIsland_saved (s : State) (i : Nat) (x : Island) : (s.setIsland i x).saved = s.saved := rfl
@[simp] theorem State.setIsland_frames (s : State) (i : Nat) (x : Island) : (s.setIsland i x).frames = s.frames := rfl
@[simp] theorem State.setIsland_areas (s : State) (i : Nat) (x : Island) : (s.setIsland i x).areas = s.areas := rfl
@[simp] theorem State.setIsland_cores (s : State) (i : Nat) (x : Island) : (s.setIsland i x).cores = s.cores := rfl
@[simp] theorem State.setIsland_islands (s : State) (i : Nat) (x : Island) : (s.setIsland i x).islands = tput i x s.islands := rfl
@[simp] theorem State.setIsland_channels (s : State) (i : Nat) (x : Island) : (s.setIsland i x).channels = s.channels := rfl
@[simp] theorem State.setIsland_mem (s : State) (i : Nat) (x : Island) : (s.setIsland i x).mem = s.mem := rfl
@[simp] theorem State.setIsland_words (s : State) (i : Nat) (x : Island) : (s.setIsland i x).words = s.words := rfl
@[simp] theorem State.setIsland_softWords (s : State) (i : Nat) (x : Island) : (s.setIsland i x).softWords = s.softWords := rfl
@[simp] theorem State.setIsland_hist (s : State) (i : Nat) (x : Island) : (s.setIsland i x).hist = s.hist := rfl
@[simp] theorem State.setIsland_seals (s : State) (i : Nat) (x : Island) : (s.setIsland i x).seals = s.seals := rfl
@[simp] theorem State.setIsland_owner (s : State) (i : Nat) (x : Island) : (s.setIsland i x).owner = s.owner := rfl
@[simp] theorem State.setIsland_tenants (s : State) (i : Nat) (x : Island) : (s.setIsland i x).tenants = s.tenants := rfl
@[simp] theorem State.setIsland_l2 (s : State) (i : Nat) (x : Island) : (s.setIsland i x).l2 = s.l2 := rfl
@[simp] theorem State.setIsland_l3 (s : State) (i : Nat) (x : Island) : (s.setIsland i x).l3 = s.l3 := rfl
@[simp] theorem State.setIsland_sram (s : State) (i : Nat) (x : Island) : (s.setIsland i x).sram = s.sram := rfl
@[simp] theorem State.setIsland_l2base (s : State) (i : Nat) (x : Island) : (s.setIsland i x).l2base = s.l2base := rfl
@[simp] theorem State.setIsland_l3base (s : State) (i : Nat) (x : Island) : (s.setIsland i x).l3base = s.l3base := rfl
@[simp] theorem State.setIsland_sramBase (s : State) (i : Nat) (x : Island) : (s.setIsland i x).sramBase = s.sramBase := rfl
@[simp] theorem State.setIsland_devErrors (s : State) (i : Nat) (x : Island) : (s.setIsland i x).devErrors = s.devErrors := rfl
@[simp] theorem State.setIsland_accs (s : State) (i : Nat) (x : Island) : (s.setIsland i x).accs = s.accs := rfl
@[simp] theorem State.setIsland_pending (s : State) (i : Nat) (x : Island) : (s.setIsland i x).pending = s.pending := rfl
@[simp] theorem State.setIsland_msgs (s : State) (i : Nat) (x : Island) : (s.setIsland i x).msgs = s.msgs := rfl
@[simp] theorem State.setIsland_forks (s : State) (i : Nat) (x : Island) : (s.setIsland i x).forks = s.forks := rfl
@[simp] theorem State.setIsland_nodes (s : State) (i : Nat) (x : Island) : (s.setIsland i x).nodes = s.nodes := rfl
@[simp] theorem State.setIsland_remotes (s : State) (i : Nat) (x : Island) : (s.setIsland i x).remotes = s.remotes := rfl
@[simp] theorem State.setIsland_spaces (s : State) (i : Nat) (x : Island) : (s.setIsland i x).spaces = s.spaces := rfl
@[simp] theorem State.setIsland_wds (s : State) (i : Nat) (x : Island) : (s.setIsland i x).wds = s.wds := rfl
@[simp] theorem State.setIsland_late (s : State) (i : Nat) (x : Island) : (s.setIsland i x).late = s.late := rfl
@[simp] theorem State.setIsland_tiles (s : State) (i : Nat) (x : Island) : (s.setIsland i x).tiles = s.tiles := rfl
@[simp] theorem State.setIsland_xfers (s : State) (i : Nat) (x : Island) : (s.setIsland i x).xfers = s.xfers := rfl
@[simp] theorem State.setIsland_grids (s : State) (i : Nat) (x : Island) : (s.setIsland i x).grids = s.grids := rfl
@[simp] theorem State.setIsland_pubs (s : State) (i : Nat) (x : Island) : (s.setIsland i x).pubs = s.pubs := rfl
@[simp] theorem State.setIsland_tags (s : State) (i : Nat) (x : Island) : (s.setIsland i x).tags = s.tags := rfl
@[simp] theorem State.setIsland_launches (s : State) (i : Nat) (x : Island) : (s.setIsland i x).launches = s.launches := rfl
@[simp] theorem State.setIsland_bars (s : State) (i : Nat) (x : Island) : (s.setIsland i x).bars = s.bars := rfl
@[simp] theorem State.setIsland_contexts (s : State) (i : Nat) (x : Island) : (s.setIsland i x).contexts = s.contexts := rfl
@[simp] theorem State.setIsland_queues (s : State) (i : Nat) (x : Island) : (s.setIsland i x).queues = s.queues := rfl
@[simp] theorem State.setIsland_lastQueue (s : State) (i : Nat) (x : Island) : (s.setIsland i x).lastQueue = s.lastQueue := rfl
@[simp] theorem State.setIsland_runningSlice (s : State) (i : Nat) (x : Island) : (s.setIsland i x).runningSlice = s.runningSlice := rfl
@[simp] theorem State.setIsland_fns (s : State) (i : Nat) (x : Island) : (s.setIsland i x).fns = s.fns := rfl
@[simp] theorem State.setIsland_hostMem (s : State) (i : Nat) (x : Island) : (s.setIsland i x).hostMem = s.hostMem := rfl
@[simp] theorem State.setIsland_parts (s : State) (i : Nat) (x : Island) : (s.setIsland i x).parts = s.parts := rfl
@[simp] theorem State.setIsland_jobs (s : State) (i : Nat) (x : Island) : (s.setIsland i x).jobs = s.jobs := rfl
@[simp] theorem State.setIsland_peers (s : State) (i : Nat) (x : Island) : (s.setIsland i x).peers = s.peers := rfl
@[simp] theorem State.setIsland_ports (s : State) (i : Nat) (x : Island) : (s.setIsland i x).ports = s.ports := rfl
@[simp] theorem State.setIsland_device (s : State) (i : Nat) (x : Island) : (s.setIsland i x).device = s.device := rfl
@[simp] theorem State.setIsland_time (s : State) (i : Nat) (x : Island) : (s.setIsland i x).time = s.time := rfl
@[simp] theorem State.setIsland_boot (s : State) (i : Nat) (x : Island) : (s.setIsland i x).boot = s.boot := rfl
@[simp] theorem State.setIsland_why (s : State) (i : Nat) (x : Island) : (s.setIsland i x).why = s.why := rfl
@[simp] theorem State.setIsland_measures (s : State) (i : Nat) (x : Island) : (s.setIsland i x).measures = s.measures := rfl
@[simp] theorem State.setIsland_cur (s : State) (i : Nat) (x : Island) : (s.setIsland i x).cur = s.cur := rfl
@[simp] theorem State.setIsland_agenda (s : State) (i : Nat) (x : Island) : (s.setIsland i x).agenda = s.agenda := rfl
@[simp] theorem State.setIsland_nextId (s : State) (i : Nat) (x : Island) : (s.setIsland i x).nextId = s.nextId := rfl
@[simp] theorem State.setIsland_wclock (s : State) (i : Nat) (x : Island) : (s.setIsland i x).wclock = s.wclock := rfl
@[simp] theorem State.setIsland_draws (s : State) (i : Nat) (x : Island) : (s.setIsland i x).draws = s.draws := rfl

/-! `State.setPort` -/

@[simp] theorem State.setPort_threads (s : State) (p : Nat) (x : Port) : (s.setPort p x).threads = s.threads := rfl
@[simp] theorem State.setPort_saved (s : State) (p : Nat) (x : Port) : (s.setPort p x).saved = s.saved := rfl
@[simp] theorem State.setPort_frames (s : State) (p : Nat) (x : Port) : (s.setPort p x).frames = s.frames := rfl
@[simp] theorem State.setPort_areas (s : State) (p : Nat) (x : Port) : (s.setPort p x).areas = s.areas := rfl
@[simp] theorem State.setPort_cores (s : State) (p : Nat) (x : Port) : (s.setPort p x).cores = s.cores := rfl
@[simp] theorem State.setPort_islands (s : State) (p : Nat) (x : Port) : (s.setPort p x).islands = s.islands := rfl
@[simp] theorem State.setPort_channels (s : State) (p : Nat) (x : Port) : (s.setPort p x).channels = s.channels := rfl
@[simp] theorem State.setPort_mem (s : State) (p : Nat) (x : Port) : (s.setPort p x).mem = s.mem := rfl
@[simp] theorem State.setPort_words (s : State) (p : Nat) (x : Port) : (s.setPort p x).words = s.words := rfl
@[simp] theorem State.setPort_softWords (s : State) (p : Nat) (x : Port) : (s.setPort p x).softWords = s.softWords := rfl
@[simp] theorem State.setPort_hist (s : State) (p : Nat) (x : Port) : (s.setPort p x).hist = s.hist := rfl
@[simp] theorem State.setPort_seals (s : State) (p : Nat) (x : Port) : (s.setPort p x).seals = s.seals := rfl
@[simp] theorem State.setPort_owner (s : State) (p : Nat) (x : Port) : (s.setPort p x).owner = s.owner := rfl
@[simp] theorem State.setPort_tenants (s : State) (p : Nat) (x : Port) : (s.setPort p x).tenants = s.tenants := rfl
@[simp] theorem State.setPort_l2 (s : State) (p : Nat) (x : Port) : (s.setPort p x).l2 = s.l2 := rfl
@[simp] theorem State.setPort_l3 (s : State) (p : Nat) (x : Port) : (s.setPort p x).l3 = s.l3 := rfl
@[simp] theorem State.setPort_sram (s : State) (p : Nat) (x : Port) : (s.setPort p x).sram = s.sram := rfl
@[simp] theorem State.setPort_l2base (s : State) (p : Nat) (x : Port) : (s.setPort p x).l2base = s.l2base := rfl
@[simp] theorem State.setPort_l3base (s : State) (p : Nat) (x : Port) : (s.setPort p x).l3base = s.l3base := rfl
@[simp] theorem State.setPort_sramBase (s : State) (p : Nat) (x : Port) : (s.setPort p x).sramBase = s.sramBase := rfl
@[simp] theorem State.setPort_devErrors (s : State) (p : Nat) (x : Port) : (s.setPort p x).devErrors = s.devErrors := rfl
@[simp] theorem State.setPort_accs (s : State) (p : Nat) (x : Port) : (s.setPort p x).accs = s.accs := rfl
@[simp] theorem State.setPort_pending (s : State) (p : Nat) (x : Port) : (s.setPort p x).pending = s.pending := rfl
@[simp] theorem State.setPort_msgs (s : State) (p : Nat) (x : Port) : (s.setPort p x).msgs = s.msgs := rfl
@[simp] theorem State.setPort_forks (s : State) (p : Nat) (x : Port) : (s.setPort p x).forks = s.forks := rfl
@[simp] theorem State.setPort_nodes (s : State) (p : Nat) (x : Port) : (s.setPort p x).nodes = s.nodes := rfl
@[simp] theorem State.setPort_remotes (s : State) (p : Nat) (x : Port) : (s.setPort p x).remotes = s.remotes := rfl
@[simp] theorem State.setPort_spaces (s : State) (p : Nat) (x : Port) : (s.setPort p x).spaces = s.spaces := rfl
@[simp] theorem State.setPort_wds (s : State) (p : Nat) (x : Port) : (s.setPort p x).wds = s.wds := rfl
@[simp] theorem State.setPort_late (s : State) (p : Nat) (x : Port) : (s.setPort p x).late = s.late := rfl
@[simp] theorem State.setPort_tiles (s : State) (p : Nat) (x : Port) : (s.setPort p x).tiles = s.tiles := rfl
@[simp] theorem State.setPort_xfers (s : State) (p : Nat) (x : Port) : (s.setPort p x).xfers = s.xfers := rfl
@[simp] theorem State.setPort_grids (s : State) (p : Nat) (x : Port) : (s.setPort p x).grids = s.grids := rfl
@[simp] theorem State.setPort_pubs (s : State) (p : Nat) (x : Port) : (s.setPort p x).pubs = s.pubs := rfl
@[simp] theorem State.setPort_tags (s : State) (p : Nat) (x : Port) : (s.setPort p x).tags = s.tags := rfl
@[simp] theorem State.setPort_launches (s : State) (p : Nat) (x : Port) : (s.setPort p x).launches = s.launches := rfl
@[simp] theorem State.setPort_bars (s : State) (p : Nat) (x : Port) : (s.setPort p x).bars = s.bars := rfl
@[simp] theorem State.setPort_contexts (s : State) (p : Nat) (x : Port) : (s.setPort p x).contexts = s.contexts := rfl
@[simp] theorem State.setPort_queues (s : State) (p : Nat) (x : Port) : (s.setPort p x).queues = s.queues := rfl
@[simp] theorem State.setPort_lastQueue (s : State) (p : Nat) (x : Port) : (s.setPort p x).lastQueue = s.lastQueue := rfl
@[simp] theorem State.setPort_runningSlice (s : State) (p : Nat) (x : Port) : (s.setPort p x).runningSlice = s.runningSlice := rfl
@[simp] theorem State.setPort_fns (s : State) (p : Nat) (x : Port) : (s.setPort p x).fns = s.fns := rfl
@[simp] theorem State.setPort_hostMem (s : State) (p : Nat) (x : Port) : (s.setPort p x).hostMem = s.hostMem := rfl
@[simp] theorem State.setPort_parts (s : State) (p : Nat) (x : Port) : (s.setPort p x).parts = s.parts := rfl
@[simp] theorem State.setPort_jobs (s : State) (p : Nat) (x : Port) : (s.setPort p x).jobs = s.jobs := rfl
@[simp] theorem State.setPort_peers (s : State) (p : Nat) (x : Port) : (s.setPort p x).peers = s.peers := rfl
@[simp] theorem State.setPort_ports (s : State) (p : Nat) (x : Port) : (s.setPort p x).ports = tput p x s.ports := rfl
@[simp] theorem State.setPort_device (s : State) (p : Nat) (x : Port) : (s.setPort p x).device = s.device := rfl
@[simp] theorem State.setPort_time (s : State) (p : Nat) (x : Port) : (s.setPort p x).time = s.time := rfl
@[simp] theorem State.setPort_boot (s : State) (p : Nat) (x : Port) : (s.setPort p x).boot = s.boot := rfl
@[simp] theorem State.setPort_why (s : State) (p : Nat) (x : Port) : (s.setPort p x).why = s.why := rfl
@[simp] theorem State.setPort_measures (s : State) (p : Nat) (x : Port) : (s.setPort p x).measures = s.measures := rfl
@[simp] theorem State.setPort_cur (s : State) (p : Nat) (x : Port) : (s.setPort p x).cur = s.cur := rfl
@[simp] theorem State.setPort_agenda (s : State) (p : Nat) (x : Port) : (s.setPort p x).agenda = s.agenda := rfl
@[simp] theorem State.setPort_nextId (s : State) (p : Nat) (x : Port) : (s.setPort p x).nextId = s.nextId := rfl
@[simp] theorem State.setPort_wclock (s : State) (p : Nat) (x : Port) : (s.setPort p x).wclock = s.wclock := rfl
@[simp] theorem State.setPort_draws (s : State) (p : Nat) (x : Port) : (s.setPort p x).draws = s.draws := rfl

/-! `State.setChannel` -/

@[simp] theorem State.setChannel_threads (s : State) (c : Nat) (x : Channel) : (s.setChannel c x).threads = s.threads := rfl
@[simp] theorem State.setChannel_saved (s : State) (c : Nat) (x : Channel) : (s.setChannel c x).saved = s.saved := rfl
@[simp] theorem State.setChannel_frames (s : State) (c : Nat) (x : Channel) : (s.setChannel c x).frames = s.frames := rfl
@[simp] theorem State.setChannel_areas (s : State) (c : Nat) (x : Channel) : (s.setChannel c x).areas = s.areas := rfl
@[simp] theorem State.setChannel_cores (s : State) (c : Nat) (x : Channel) : (s.setChannel c x).cores = s.cores := rfl
@[simp] theorem State.setChannel_islands (s : State) (c : Nat) (x : Channel) : (s.setChannel c x).islands = s.islands := rfl
@[simp] theorem State.setChannel_channels (s : State) (c : Nat) (x : Channel) : (s.setChannel c x).channels = tput c x s.channels := rfl
@[simp] theorem State.setChannel_mem (s : State) (c : Nat) (x : Channel) : (s.setChannel c x).mem = s.mem := rfl
@[simp] theorem State.setChannel_words (s : State) (c : Nat) (x : Channel) : (s.setChannel c x).words = s.words := rfl
@[simp] theorem State.setChannel_softWords (s : State) (c : Nat) (x : Channel) : (s.setChannel c x).softWords = s.softWords := rfl
@[simp] theorem State.setChannel_hist (s : State) (c : Nat) (x : Channel) : (s.setChannel c x).hist = s.hist := rfl
@[simp] theorem State.setChannel_seals (s : State) (c : Nat) (x : Channel) : (s.setChannel c x).seals = s.seals := rfl
@[simp] theorem State.setChannel_owner (s : State) (c : Nat) (x : Channel) : (s.setChannel c x).owner = s.owner := rfl
@[simp] theorem State.setChannel_tenants (s : State) (c : Nat) (x : Channel) : (s.setChannel c x).tenants = s.tenants := rfl
@[simp] theorem State.setChannel_l2 (s : State) (c : Nat) (x : Channel) : (s.setChannel c x).l2 = s.l2 := rfl
@[simp] theorem State.setChannel_l3 (s : State) (c : Nat) (x : Channel) : (s.setChannel c x).l3 = s.l3 := rfl
@[simp] theorem State.setChannel_sram (s : State) (c : Nat) (x : Channel) : (s.setChannel c x).sram = s.sram := rfl
@[simp] theorem State.setChannel_l2base (s : State) (c : Nat) (x : Channel) : (s.setChannel c x).l2base = s.l2base := rfl
@[simp] theorem State.setChannel_l3base (s : State) (c : Nat) (x : Channel) : (s.setChannel c x).l3base = s.l3base := rfl
@[simp] theorem State.setChannel_sramBase (s : State) (c : Nat) (x : Channel) : (s.setChannel c x).sramBase = s.sramBase := rfl
@[simp] theorem State.setChannel_devErrors (s : State) (c : Nat) (x : Channel) : (s.setChannel c x).devErrors = s.devErrors := rfl
@[simp] theorem State.setChannel_accs (s : State) (c : Nat) (x : Channel) : (s.setChannel c x).accs = s.accs := rfl
@[simp] theorem State.setChannel_pending (s : State) (c : Nat) (x : Channel) : (s.setChannel c x).pending = s.pending := rfl
@[simp] theorem State.setChannel_msgs (s : State) (c : Nat) (x : Channel) : (s.setChannel c x).msgs = s.msgs := rfl
@[simp] theorem State.setChannel_forks (s : State) (c : Nat) (x : Channel) : (s.setChannel c x).forks = s.forks := rfl
@[simp] theorem State.setChannel_nodes (s : State) (c : Nat) (x : Channel) : (s.setChannel c x).nodes = s.nodes := rfl
@[simp] theorem State.setChannel_remotes (s : State) (c : Nat) (x : Channel) : (s.setChannel c x).remotes = s.remotes := rfl
@[simp] theorem State.setChannel_spaces (s : State) (c : Nat) (x : Channel) : (s.setChannel c x).spaces = s.spaces := rfl
@[simp] theorem State.setChannel_wds (s : State) (c : Nat) (x : Channel) : (s.setChannel c x).wds = s.wds := rfl
@[simp] theorem State.setChannel_late (s : State) (c : Nat) (x : Channel) : (s.setChannel c x).late = s.late := rfl
@[simp] theorem State.setChannel_tiles (s : State) (c : Nat) (x : Channel) : (s.setChannel c x).tiles = s.tiles := rfl
@[simp] theorem State.setChannel_xfers (s : State) (c : Nat) (x : Channel) : (s.setChannel c x).xfers = s.xfers := rfl
@[simp] theorem State.setChannel_grids (s : State) (c : Nat) (x : Channel) : (s.setChannel c x).grids = s.grids := rfl
@[simp] theorem State.setChannel_pubs (s : State) (c : Nat) (x : Channel) : (s.setChannel c x).pubs = s.pubs := rfl
@[simp] theorem State.setChannel_tags (s : State) (c : Nat) (x : Channel) : (s.setChannel c x).tags = s.tags := rfl
@[simp] theorem State.setChannel_launches (s : State) (c : Nat) (x : Channel) : (s.setChannel c x).launches = s.launches := rfl
@[simp] theorem State.setChannel_bars (s : State) (c : Nat) (x : Channel) : (s.setChannel c x).bars = s.bars := rfl
@[simp] theorem State.setChannel_contexts (s : State) (c : Nat) (x : Channel) : (s.setChannel c x).contexts = s.contexts := rfl
@[simp] theorem State.setChannel_queues (s : State) (c : Nat) (x : Channel) : (s.setChannel c x).queues = s.queues := rfl
@[simp] theorem State.setChannel_lastQueue (s : State) (c : Nat) (x : Channel) : (s.setChannel c x).lastQueue = s.lastQueue := rfl
@[simp] theorem State.setChannel_runningSlice (s : State) (c : Nat) (x : Channel) : (s.setChannel c x).runningSlice = s.runningSlice := rfl
@[simp] theorem State.setChannel_fns (s : State) (c : Nat) (x : Channel) : (s.setChannel c x).fns = s.fns := rfl
@[simp] theorem State.setChannel_hostMem (s : State) (c : Nat) (x : Channel) : (s.setChannel c x).hostMem = s.hostMem := rfl
@[simp] theorem State.setChannel_parts (s : State) (c : Nat) (x : Channel) : (s.setChannel c x).parts = s.parts := rfl
@[simp] theorem State.setChannel_jobs (s : State) (c : Nat) (x : Channel) : (s.setChannel c x).jobs = s.jobs := rfl
@[simp] theorem State.setChannel_peers (s : State) (c : Nat) (x : Channel) : (s.setChannel c x).peers = s.peers := rfl
@[simp] theorem State.setChannel_ports (s : State) (c : Nat) (x : Channel) : (s.setChannel c x).ports = s.ports := rfl
@[simp] theorem State.setChannel_device (s : State) (c : Nat) (x : Channel) : (s.setChannel c x).device = s.device := rfl
@[simp] theorem State.setChannel_time (s : State) (c : Nat) (x : Channel) : (s.setChannel c x).time = s.time := rfl
@[simp] theorem State.setChannel_boot (s : State) (c : Nat) (x : Channel) : (s.setChannel c x).boot = s.boot := rfl
@[simp] theorem State.setChannel_why (s : State) (c : Nat) (x : Channel) : (s.setChannel c x).why = s.why := rfl
@[simp] theorem State.setChannel_measures (s : State) (c : Nat) (x : Channel) : (s.setChannel c x).measures = s.measures := rfl
@[simp] theorem State.setChannel_cur (s : State) (c : Nat) (x : Channel) : (s.setChannel c x).cur = s.cur := rfl
@[simp] theorem State.setChannel_agenda (s : State) (c : Nat) (x : Channel) : (s.setChannel c x).agenda = s.agenda := rfl
@[simp] theorem State.setChannel_nextId (s : State) (c : Nat) (x : Channel) : (s.setChannel c x).nextId = s.nextId := rfl
@[simp] theorem State.setChannel_wclock (s : State) (c : Nat) (x : Channel) : (s.setChannel c x).wclock = s.wclock := rfl
@[simp] theorem State.setChannel_draws (s : State) (c : Nat) (x : Channel) : (s.setChannel c x).draws = s.draws := rfl

/-! `State.mapAccs` -/

@[simp] theorem State.mapAccs_threads (s : State) (f : Nat → Access → Access) : (s.mapAccs f).threads = s.threads := rfl
@[simp] theorem State.mapAccs_saved (s : State) (f : Nat → Access → Access) : (s.mapAccs f).saved = s.saved := rfl
@[simp] theorem State.mapAccs_frames (s : State) (f : Nat → Access → Access) : (s.mapAccs f).frames = s.frames := rfl
@[simp] theorem State.mapAccs_areas (s : State) (f : Nat → Access → Access) : (s.mapAccs f).areas = s.areas := rfl
@[simp] theorem State.mapAccs_cores (s : State) (f : Nat → Access → Access) : (s.mapAccs f).cores = s.cores := rfl
@[simp] theorem State.mapAccs_islands (s : State) (f : Nat → Access → Access) : (s.mapAccs f).islands = s.islands := rfl
@[simp] theorem State.mapAccs_channels (s : State) (f : Nat → Access → Access) : (s.mapAccs f).channels = s.channels := rfl
@[simp] theorem State.mapAccs_mem (s : State) (f : Nat → Access → Access) : (s.mapAccs f).mem = s.mem := rfl
@[simp] theorem State.mapAccs_words (s : State) (f : Nat → Access → Access) : (s.mapAccs f).words = s.words := rfl
@[simp] theorem State.mapAccs_softWords (s : State) (f : Nat → Access → Access) : (s.mapAccs f).softWords = s.softWords := rfl
@[simp] theorem State.mapAccs_hist (s : State) (f : Nat → Access → Access) : (s.mapAccs f).hist = s.hist := rfl
@[simp] theorem State.mapAccs_seals (s : State) (f : Nat → Access → Access) : (s.mapAccs f).seals = s.seals := rfl
@[simp] theorem State.mapAccs_owner (s : State) (f : Nat → Access → Access) : (s.mapAccs f).owner = s.owner := rfl
@[simp] theorem State.mapAccs_tenants (s : State) (f : Nat → Access → Access) : (s.mapAccs f).tenants = s.tenants := rfl
@[simp] theorem State.mapAccs_l2 (s : State) (f : Nat → Access → Access) : (s.mapAccs f).l2 = s.l2 := rfl
@[simp] theorem State.mapAccs_l3 (s : State) (f : Nat → Access → Access) : (s.mapAccs f).l3 = s.l3 := rfl
@[simp] theorem State.mapAccs_sram (s : State) (f : Nat → Access → Access) : (s.mapAccs f).sram = s.sram := rfl
@[simp] theorem State.mapAccs_l2base (s : State) (f : Nat → Access → Access) : (s.mapAccs f).l2base = s.l2base := rfl
@[simp] theorem State.mapAccs_l3base (s : State) (f : Nat → Access → Access) : (s.mapAccs f).l3base = s.l3base := rfl
@[simp] theorem State.mapAccs_sramBase (s : State) (f : Nat → Access → Access) : (s.mapAccs f).sramBase = s.sramBase := rfl
@[simp] theorem State.mapAccs_devErrors (s : State) (f : Nat → Access → Access) : (s.mapAccs f).devErrors = s.devErrors := rfl
@[simp] theorem State.mapAccs_accs (s : State) (f : Nat → Access → Access) : (s.mapAccs f).accs = tmap f s.accs := rfl
@[simp] theorem State.mapAccs_pending (s : State) (f : Nat → Access → Access) : (s.mapAccs f).pending = s.pending := rfl
@[simp] theorem State.mapAccs_msgs (s : State) (f : Nat → Access → Access) : (s.mapAccs f).msgs = s.msgs := rfl
@[simp] theorem State.mapAccs_forks (s : State) (f : Nat → Access → Access) : (s.mapAccs f).forks = s.forks := rfl
@[simp] theorem State.mapAccs_nodes (s : State) (f : Nat → Access → Access) : (s.mapAccs f).nodes = s.nodes := rfl
@[simp] theorem State.mapAccs_remotes (s : State) (f : Nat → Access → Access) : (s.mapAccs f).remotes = s.remotes := rfl
@[simp] theorem State.mapAccs_spaces (s : State) (f : Nat → Access → Access) : (s.mapAccs f).spaces = s.spaces := rfl
@[simp] theorem State.mapAccs_wds (s : State) (f : Nat → Access → Access) : (s.mapAccs f).wds = s.wds := rfl
@[simp] theorem State.mapAccs_late (s : State) (f : Nat → Access → Access) : (s.mapAccs f).late = s.late := rfl
@[simp] theorem State.mapAccs_tiles (s : State) (f : Nat → Access → Access) : (s.mapAccs f).tiles = s.tiles := rfl
@[simp] theorem State.mapAccs_xfers (s : State) (f : Nat → Access → Access) : (s.mapAccs f).xfers = s.xfers := rfl
@[simp] theorem State.mapAccs_grids (s : State) (f : Nat → Access → Access) : (s.mapAccs f).grids = s.grids := rfl
@[simp] theorem State.mapAccs_pubs (s : State) (f : Nat → Access → Access) : (s.mapAccs f).pubs = s.pubs := rfl
@[simp] theorem State.mapAccs_tags (s : State) (f : Nat → Access → Access) : (s.mapAccs f).tags = s.tags := rfl
@[simp] theorem State.mapAccs_launches (s : State) (f : Nat → Access → Access) : (s.mapAccs f).launches = s.launches := rfl
@[simp] theorem State.mapAccs_bars (s : State) (f : Nat → Access → Access) : (s.mapAccs f).bars = s.bars := rfl
@[simp] theorem State.mapAccs_contexts (s : State) (f : Nat → Access → Access) : (s.mapAccs f).contexts = s.contexts := rfl
@[simp] theorem State.mapAccs_queues (s : State) (f : Nat → Access → Access) : (s.mapAccs f).queues = s.queues := rfl
@[simp] theorem State.mapAccs_lastQueue (s : State) (f : Nat → Access → Access) : (s.mapAccs f).lastQueue = s.lastQueue := rfl
@[simp] theorem State.mapAccs_runningSlice (s : State) (f : Nat → Access → Access) : (s.mapAccs f).runningSlice = s.runningSlice := rfl
@[simp] theorem State.mapAccs_fns (s : State) (f : Nat → Access → Access) : (s.mapAccs f).fns = s.fns := rfl
@[simp] theorem State.mapAccs_hostMem (s : State) (f : Nat → Access → Access) : (s.mapAccs f).hostMem = s.hostMem := rfl
@[simp] theorem State.mapAccs_parts (s : State) (f : Nat → Access → Access) : (s.mapAccs f).parts = s.parts := rfl
@[simp] theorem State.mapAccs_jobs (s : State) (f : Nat → Access → Access) : (s.mapAccs f).jobs = s.jobs := rfl
@[simp] theorem State.mapAccs_peers (s : State) (f : Nat → Access → Access) : (s.mapAccs f).peers = s.peers := rfl
@[simp] theorem State.mapAccs_ports (s : State) (f : Nat → Access → Access) : (s.mapAccs f).ports = s.ports := rfl
@[simp] theorem State.mapAccs_device (s : State) (f : Nat → Access → Access) : (s.mapAccs f).device = s.device := rfl
@[simp] theorem State.mapAccs_time (s : State) (f : Nat → Access → Access) : (s.mapAccs f).time = s.time := rfl
@[simp] theorem State.mapAccs_boot (s : State) (f : Nat → Access → Access) : (s.mapAccs f).boot = s.boot := rfl
@[simp] theorem State.mapAccs_why (s : State) (f : Nat → Access → Access) : (s.mapAccs f).why = s.why := rfl
@[simp] theorem State.mapAccs_measures (s : State) (f : Nat → Access → Access) : (s.mapAccs f).measures = s.measures := rfl
@[simp] theorem State.mapAccs_cur (s : State) (f : Nat → Access → Access) : (s.mapAccs f).cur = s.cur := rfl
@[simp] theorem State.mapAccs_agenda (s : State) (f : Nat → Access → Access) : (s.mapAccs f).agenda = s.agenda := rfl
@[simp] theorem State.mapAccs_nextId (s : State) (f : Nat → Access → Access) : (s.mapAccs f).nextId = s.nextId := rfl
@[simp] theorem State.mapAccs_wclock (s : State) (f : Nat → Access → Access) : (s.mapAccs f).wclock = s.wclock := rfl
@[simp] theorem State.mapAccs_draws (s : State) (f : Nat → Access → Access) : (s.mapAccs f).draws = s.draws := rfl

/-! `putAcc` -/

@[simp] theorem putAcc_threads (s : State) (i : Nat) (a : Access) : (putAcc s i a).threads = s.threads := rfl
@[simp] theorem putAcc_saved (s : State) (i : Nat) (a : Access) : (putAcc s i a).saved = s.saved := rfl
@[simp] theorem putAcc_frames (s : State) (i : Nat) (a : Access) : (putAcc s i a).frames = s.frames := rfl
@[simp] theorem putAcc_areas (s : State) (i : Nat) (a : Access) : (putAcc s i a).areas = s.areas := rfl
@[simp] theorem putAcc_cores (s : State) (i : Nat) (a : Access) : (putAcc s i a).cores = s.cores := rfl
@[simp] theorem putAcc_islands (s : State) (i : Nat) (a : Access) : (putAcc s i a).islands = s.islands := rfl
@[simp] theorem putAcc_channels (s : State) (i : Nat) (a : Access) : (putAcc s i a).channels = s.channels := rfl
@[simp] theorem putAcc_mem (s : State) (i : Nat) (a : Access) : (putAcc s i a).mem = s.mem := rfl
@[simp] theorem putAcc_words (s : State) (i : Nat) (a : Access) : (putAcc s i a).words = s.words := rfl
@[simp] theorem putAcc_softWords (s : State) (i : Nat) (a : Access) : (putAcc s i a).softWords = s.softWords := rfl
@[simp] theorem putAcc_hist (s : State) (i : Nat) (a : Access) : (putAcc s i a).hist = s.hist := rfl
@[simp] theorem putAcc_seals (s : State) (i : Nat) (a : Access) : (putAcc s i a).seals = s.seals := rfl
@[simp] theorem putAcc_owner (s : State) (i : Nat) (a : Access) : (putAcc s i a).owner = s.owner := rfl
@[simp] theorem putAcc_tenants (s : State) (i : Nat) (a : Access) : (putAcc s i a).tenants = s.tenants := rfl
@[simp] theorem putAcc_l2 (s : State) (i : Nat) (a : Access) : (putAcc s i a).l2 = s.l2 := rfl
@[simp] theorem putAcc_l3 (s : State) (i : Nat) (a : Access) : (putAcc s i a).l3 = s.l3 := rfl
@[simp] theorem putAcc_sram (s : State) (i : Nat) (a : Access) : (putAcc s i a).sram = s.sram := rfl
@[simp] theorem putAcc_l2base (s : State) (i : Nat) (a : Access) : (putAcc s i a).l2base = s.l2base := rfl
@[simp] theorem putAcc_l3base (s : State) (i : Nat) (a : Access) : (putAcc s i a).l3base = s.l3base := rfl
@[simp] theorem putAcc_sramBase (s : State) (i : Nat) (a : Access) : (putAcc s i a).sramBase = s.sramBase := rfl
@[simp] theorem putAcc_devErrors (s : State) (i : Nat) (a : Access) : (putAcc s i a).devErrors = s.devErrors := rfl
@[simp] theorem putAcc_accs (s : State) (i : Nat) (a : Access) : (putAcc s i a).accs = tput i a s.accs := rfl
@[simp] theorem putAcc_pending (s : State) (i : Nat) (a : Access) : (putAcc s i a).pending = s.pending := rfl
@[simp] theorem putAcc_msgs (s : State) (i : Nat) (a : Access) : (putAcc s i a).msgs = s.msgs := rfl
@[simp] theorem putAcc_forks (s : State) (i : Nat) (a : Access) : (putAcc s i a).forks = s.forks := rfl
@[simp] theorem putAcc_nodes (s : State) (i : Nat) (a : Access) : (putAcc s i a).nodes = s.nodes := rfl
@[simp] theorem putAcc_remotes (s : State) (i : Nat) (a : Access) : (putAcc s i a).remotes = s.remotes := rfl
@[simp] theorem putAcc_spaces (s : State) (i : Nat) (a : Access) : (putAcc s i a).spaces = s.spaces := rfl
@[simp] theorem putAcc_wds (s : State) (i : Nat) (a : Access) : (putAcc s i a).wds = s.wds := rfl
@[simp] theorem putAcc_late (s : State) (i : Nat) (a : Access) : (putAcc s i a).late = s.late := rfl
@[simp] theorem putAcc_tiles (s : State) (i : Nat) (a : Access) : (putAcc s i a).tiles = s.tiles := rfl
@[simp] theorem putAcc_xfers (s : State) (i : Nat) (a : Access) : (putAcc s i a).xfers = s.xfers := rfl
@[simp] theorem putAcc_grids (s : State) (i : Nat) (a : Access) : (putAcc s i a).grids = s.grids := rfl
@[simp] theorem putAcc_pubs (s : State) (i : Nat) (a : Access) : (putAcc s i a).pubs = s.pubs := rfl
@[simp] theorem putAcc_tags (s : State) (i : Nat) (a : Access) : (putAcc s i a).tags = s.tags := rfl
@[simp] theorem putAcc_launches (s : State) (i : Nat) (a : Access) : (putAcc s i a).launches = s.launches := rfl
@[simp] theorem putAcc_bars (s : State) (i : Nat) (a : Access) : (putAcc s i a).bars = s.bars := rfl
@[simp] theorem putAcc_contexts (s : State) (i : Nat) (a : Access) : (putAcc s i a).contexts = s.contexts := rfl
@[simp] theorem putAcc_queues (s : State) (i : Nat) (a : Access) : (putAcc s i a).queues = s.queues := rfl
@[simp] theorem putAcc_lastQueue (s : State) (i : Nat) (a : Access) : (putAcc s i a).lastQueue = s.lastQueue := rfl
@[simp] theorem putAcc_runningSlice (s : State) (i : Nat) (a : Access) : (putAcc s i a).runningSlice = s.runningSlice := rfl
@[simp] theorem putAcc_fns (s : State) (i : Nat) (a : Access) : (putAcc s i a).fns = s.fns := rfl
@[simp] theorem putAcc_hostMem (s : State) (i : Nat) (a : Access) : (putAcc s i a).hostMem = s.hostMem := rfl
@[simp] theorem putAcc_parts (s : State) (i : Nat) (a : Access) : (putAcc s i a).parts = s.parts := rfl
@[simp] theorem putAcc_jobs (s : State) (i : Nat) (a : Access) : (putAcc s i a).jobs = s.jobs := rfl
@[simp] theorem putAcc_peers (s : State) (i : Nat) (a : Access) : (putAcc s i a).peers = s.peers := rfl
@[simp] theorem putAcc_ports (s : State) (i : Nat) (a : Access) : (putAcc s i a).ports = s.ports := rfl
@[simp] theorem putAcc_device (s : State) (i : Nat) (a : Access) : (putAcc s i a).device = s.device := rfl
@[simp] theorem putAcc_time (s : State) (i : Nat) (a : Access) : (putAcc s i a).time = s.time := rfl
@[simp] theorem putAcc_boot (s : State) (i : Nat) (a : Access) : (putAcc s i a).boot = s.boot := rfl
@[simp] theorem putAcc_why (s : State) (i : Nat) (a : Access) : (putAcc s i a).why = s.why := rfl
@[simp] theorem putAcc_measures (s : State) (i : Nat) (a : Access) : (putAcc s i a).measures = s.measures := rfl
@[simp] theorem putAcc_cur (s : State) (i : Nat) (a : Access) : (putAcc s i a).cur = s.cur := rfl
@[simp] theorem putAcc_agenda (s : State) (i : Nat) (a : Access) : (putAcc s i a).agenda = s.agenda := rfl
@[simp] theorem putAcc_nextId (s : State) (i : Nat) (a : Access) : (putAcc s i a).nextId = s.nextId := rfl
@[simp] theorem putAcc_wclock (s : State) (i : Nat) (a : Access) : (putAcc s i a).wclock = s.wclock := rfl
@[simp] theorem putAcc_draws (s : State) (i : Nat) (a : Access) : (putAcc s i a).draws = s.draws := rfl

/-! `delAcc` -/

@[simp] theorem delAcc_threads (s : State) (i : Nat) : (delAcc s i).threads = s.threads := rfl
@[simp] theorem delAcc_saved (s : State) (i : Nat) : (delAcc s i).saved = s.saved := rfl
@[simp] theorem delAcc_frames (s : State) (i : Nat) : (delAcc s i).frames = s.frames := rfl
@[simp] theorem delAcc_areas (s : State) (i : Nat) : (delAcc s i).areas = s.areas := rfl
@[simp] theorem delAcc_cores (s : State) (i : Nat) : (delAcc s i).cores = s.cores := rfl
@[simp] theorem delAcc_islands (s : State) (i : Nat) : (delAcc s i).islands = s.islands := rfl
@[simp] theorem delAcc_channels (s : State) (i : Nat) : (delAcc s i).channels = s.channels := rfl
@[simp] theorem delAcc_mem (s : State) (i : Nat) : (delAcc s i).mem = s.mem := rfl
@[simp] theorem delAcc_words (s : State) (i : Nat) : (delAcc s i).words = s.words := rfl
@[simp] theorem delAcc_softWords (s : State) (i : Nat) : (delAcc s i).softWords = s.softWords := rfl
@[simp] theorem delAcc_hist (s : State) (i : Nat) : (delAcc s i).hist = s.hist := rfl
@[simp] theorem delAcc_seals (s : State) (i : Nat) : (delAcc s i).seals = s.seals := rfl
@[simp] theorem delAcc_owner (s : State) (i : Nat) : (delAcc s i).owner = s.owner := rfl
@[simp] theorem delAcc_tenants (s : State) (i : Nat) : (delAcc s i).tenants = s.tenants := rfl
@[simp] theorem delAcc_l2 (s : State) (i : Nat) : (delAcc s i).l2 = s.l2 := rfl
@[simp] theorem delAcc_l3 (s : State) (i : Nat) : (delAcc s i).l3 = s.l3 := rfl
@[simp] theorem delAcc_sram (s : State) (i : Nat) : (delAcc s i).sram = s.sram := rfl
@[simp] theorem delAcc_l2base (s : State) (i : Nat) : (delAcc s i).l2base = s.l2base := rfl
@[simp] theorem delAcc_l3base (s : State) (i : Nat) : (delAcc s i).l3base = s.l3base := rfl
@[simp] theorem delAcc_sramBase (s : State) (i : Nat) : (delAcc s i).sramBase = s.sramBase := rfl
@[simp] theorem delAcc_devErrors (s : State) (i : Nat) : (delAcc s i).devErrors = s.devErrors := rfl
@[simp] theorem delAcc_accs (s : State) (i : Nat) : (delAcc s i).accs = tdel i s.accs := rfl
@[simp] theorem delAcc_pending (s : State) (i : Nat) : (delAcc s i).pending = s.pending := rfl
@[simp] theorem delAcc_msgs (s : State) (i : Nat) : (delAcc s i).msgs = s.msgs := rfl
@[simp] theorem delAcc_forks (s : State) (i : Nat) : (delAcc s i).forks = s.forks := rfl
@[simp] theorem delAcc_nodes (s : State) (i : Nat) : (delAcc s i).nodes = s.nodes := rfl
@[simp] theorem delAcc_remotes (s : State) (i : Nat) : (delAcc s i).remotes = s.remotes := rfl
@[simp] theorem delAcc_spaces (s : State) (i : Nat) : (delAcc s i).spaces = s.spaces := rfl
@[simp] theorem delAcc_wds (s : State) (i : Nat) : (delAcc s i).wds = s.wds := rfl
@[simp] theorem delAcc_late (s : State) (i : Nat) : (delAcc s i).late = s.late := rfl
@[simp] theorem delAcc_tiles (s : State) (i : Nat) : (delAcc s i).tiles = s.tiles := rfl
@[simp] theorem delAcc_xfers (s : State) (i : Nat) : (delAcc s i).xfers = s.xfers := rfl
@[simp] theorem delAcc_grids (s : State) (i : Nat) : (delAcc s i).grids = s.grids := rfl
@[simp] theorem delAcc_pubs (s : State) (i : Nat) : (delAcc s i).pubs = s.pubs := rfl
@[simp] theorem delAcc_tags (s : State) (i : Nat) : (delAcc s i).tags = s.tags := rfl
@[simp] theorem delAcc_launches (s : State) (i : Nat) : (delAcc s i).launches = s.launches := rfl
@[simp] theorem delAcc_bars (s : State) (i : Nat) : (delAcc s i).bars = s.bars := rfl
@[simp] theorem delAcc_contexts (s : State) (i : Nat) : (delAcc s i).contexts = s.contexts := rfl
@[simp] theorem delAcc_queues (s : State) (i : Nat) : (delAcc s i).queues = s.queues := rfl
@[simp] theorem delAcc_lastQueue (s : State) (i : Nat) : (delAcc s i).lastQueue = s.lastQueue := rfl
@[simp] theorem delAcc_runningSlice (s : State) (i : Nat) : (delAcc s i).runningSlice = s.runningSlice := rfl
@[simp] theorem delAcc_fns (s : State) (i : Nat) : (delAcc s i).fns = s.fns := rfl
@[simp] theorem delAcc_hostMem (s : State) (i : Nat) : (delAcc s i).hostMem = s.hostMem := rfl
@[simp] theorem delAcc_parts (s : State) (i : Nat) : (delAcc s i).parts = s.parts := rfl
@[simp] theorem delAcc_jobs (s : State) (i : Nat) : (delAcc s i).jobs = s.jobs := rfl
@[simp] theorem delAcc_peers (s : State) (i : Nat) : (delAcc s i).peers = s.peers := rfl
@[simp] theorem delAcc_ports (s : State) (i : Nat) : (delAcc s i).ports = s.ports := rfl
@[simp] theorem delAcc_device (s : State) (i : Nat) : (delAcc s i).device = s.device := rfl
@[simp] theorem delAcc_time (s : State) (i : Nat) : (delAcc s i).time = s.time := rfl
@[simp] theorem delAcc_boot (s : State) (i : Nat) : (delAcc s i).boot = s.boot := rfl
@[simp] theorem delAcc_why (s : State) (i : Nat) : (delAcc s i).why = s.why := rfl
@[simp] theorem delAcc_measures (s : State) (i : Nat) : (delAcc s i).measures = s.measures := rfl
@[simp] theorem delAcc_cur (s : State) (i : Nat) : (delAcc s i).cur = s.cur := rfl
@[simp] theorem delAcc_agenda (s : State) (i : Nat) : (delAcc s i).agenda = s.agenda := rfl
@[simp] theorem delAcc_nextId (s : State) (i : Nat) : (delAcc s i).nextId = s.nextId := rfl
@[simp] theorem delAcc_wclock (s : State) (i : Nat) : (delAcc s i).wclock = s.wclock := rfl
@[simp] theorem delAcc_draws (s : State) (i : Nat) : (delAcc s i).draws = s.draws := rfl

/-! `putWd` -/

@[simp] theorem putWd_threads (s : State) (i : Nat) (w : Withdrawal) : (putWd s i w).threads = s.threads := rfl
@[simp] theorem putWd_saved (s : State) (i : Nat) (w : Withdrawal) : (putWd s i w).saved = s.saved := rfl
@[simp] theorem putWd_frames (s : State) (i : Nat) (w : Withdrawal) : (putWd s i w).frames = s.frames := rfl
@[simp] theorem putWd_areas (s : State) (i : Nat) (w : Withdrawal) : (putWd s i w).areas = s.areas := rfl
@[simp] theorem putWd_cores (s : State) (i : Nat) (w : Withdrawal) : (putWd s i w).cores = s.cores := rfl
@[simp] theorem putWd_islands (s : State) (i : Nat) (w : Withdrawal) : (putWd s i w).islands = s.islands := rfl
@[simp] theorem putWd_channels (s : State) (i : Nat) (w : Withdrawal) : (putWd s i w).channels = s.channels := rfl
@[simp] theorem putWd_mem (s : State) (i : Nat) (w : Withdrawal) : (putWd s i w).mem = s.mem := rfl
@[simp] theorem putWd_words (s : State) (i : Nat) (w : Withdrawal) : (putWd s i w).words = s.words := rfl
@[simp] theorem putWd_softWords (s : State) (i : Nat) (w : Withdrawal) : (putWd s i w).softWords = s.softWords := rfl
@[simp] theorem putWd_hist (s : State) (i : Nat) (w : Withdrawal) : (putWd s i w).hist = s.hist := rfl
@[simp] theorem putWd_seals (s : State) (i : Nat) (w : Withdrawal) : (putWd s i w).seals = s.seals := rfl
@[simp] theorem putWd_owner (s : State) (i : Nat) (w : Withdrawal) : (putWd s i w).owner = s.owner := rfl
@[simp] theorem putWd_tenants (s : State) (i : Nat) (w : Withdrawal) : (putWd s i w).tenants = s.tenants := rfl
@[simp] theorem putWd_l2 (s : State) (i : Nat) (w : Withdrawal) : (putWd s i w).l2 = s.l2 := rfl
@[simp] theorem putWd_l3 (s : State) (i : Nat) (w : Withdrawal) : (putWd s i w).l3 = s.l3 := rfl
@[simp] theorem putWd_sram (s : State) (i : Nat) (w : Withdrawal) : (putWd s i w).sram = s.sram := rfl
@[simp] theorem putWd_l2base (s : State) (i : Nat) (w : Withdrawal) : (putWd s i w).l2base = s.l2base := rfl
@[simp] theorem putWd_l3base (s : State) (i : Nat) (w : Withdrawal) : (putWd s i w).l3base = s.l3base := rfl
@[simp] theorem putWd_sramBase (s : State) (i : Nat) (w : Withdrawal) : (putWd s i w).sramBase = s.sramBase := rfl
@[simp] theorem putWd_devErrors (s : State) (i : Nat) (w : Withdrawal) : (putWd s i w).devErrors = s.devErrors := rfl
@[simp] theorem putWd_accs (s : State) (i : Nat) (w : Withdrawal) : (putWd s i w).accs = s.accs := rfl
@[simp] theorem putWd_pending (s : State) (i : Nat) (w : Withdrawal) : (putWd s i w).pending = s.pending := rfl
@[simp] theorem putWd_msgs (s : State) (i : Nat) (w : Withdrawal) : (putWd s i w).msgs = s.msgs := rfl
@[simp] theorem putWd_forks (s : State) (i : Nat) (w : Withdrawal) : (putWd s i w).forks = s.forks := rfl
@[simp] theorem putWd_nodes (s : State) (i : Nat) (w : Withdrawal) : (putWd s i w).nodes = s.nodes := rfl
@[simp] theorem putWd_remotes (s : State) (i : Nat) (w : Withdrawal) : (putWd s i w).remotes = s.remotes := rfl
@[simp] theorem putWd_spaces (s : State) (i : Nat) (w : Withdrawal) : (putWd s i w).spaces = s.spaces := rfl
@[simp] theorem putWd_wds (s : State) (i : Nat) (w : Withdrawal) : (putWd s i w).wds = tput i w s.wds := rfl
@[simp] theorem putWd_late (s : State) (i : Nat) (w : Withdrawal) : (putWd s i w).late = s.late := rfl
@[simp] theorem putWd_tiles (s : State) (i : Nat) (w : Withdrawal) : (putWd s i w).tiles = s.tiles := rfl
@[simp] theorem putWd_xfers (s : State) (i : Nat) (w : Withdrawal) : (putWd s i w).xfers = s.xfers := rfl
@[simp] theorem putWd_grids (s : State) (i : Nat) (w : Withdrawal) : (putWd s i w).grids = s.grids := rfl
@[simp] theorem putWd_pubs (s : State) (i : Nat) (w : Withdrawal) : (putWd s i w).pubs = s.pubs := rfl
@[simp] theorem putWd_tags (s : State) (i : Nat) (w : Withdrawal) : (putWd s i w).tags = s.tags := rfl
@[simp] theorem putWd_launches (s : State) (i : Nat) (w : Withdrawal) : (putWd s i w).launches = s.launches := rfl
@[simp] theorem putWd_bars (s : State) (i : Nat) (w : Withdrawal) : (putWd s i w).bars = s.bars := rfl
@[simp] theorem putWd_contexts (s : State) (i : Nat) (w : Withdrawal) : (putWd s i w).contexts = s.contexts := rfl
@[simp] theorem putWd_queues (s : State) (i : Nat) (w : Withdrawal) : (putWd s i w).queues = s.queues := rfl
@[simp] theorem putWd_lastQueue (s : State) (i : Nat) (w : Withdrawal) : (putWd s i w).lastQueue = s.lastQueue := rfl
@[simp] theorem putWd_runningSlice (s : State) (i : Nat) (w : Withdrawal) : (putWd s i w).runningSlice = s.runningSlice := rfl
@[simp] theorem putWd_fns (s : State) (i : Nat) (w : Withdrawal) : (putWd s i w).fns = s.fns := rfl
@[simp] theorem putWd_hostMem (s : State) (i : Nat) (w : Withdrawal) : (putWd s i w).hostMem = s.hostMem := rfl
@[simp] theorem putWd_parts (s : State) (i : Nat) (w : Withdrawal) : (putWd s i w).parts = s.parts := rfl
@[simp] theorem putWd_jobs (s : State) (i : Nat) (w : Withdrawal) : (putWd s i w).jobs = s.jobs := rfl
@[simp] theorem putWd_peers (s : State) (i : Nat) (w : Withdrawal) : (putWd s i w).peers = s.peers := rfl
@[simp] theorem putWd_ports (s : State) (i : Nat) (w : Withdrawal) : (putWd s i w).ports = s.ports := rfl
@[simp] theorem putWd_device (s : State) (i : Nat) (w : Withdrawal) : (putWd s i w).device = s.device := rfl
@[simp] theorem putWd_time (s : State) (i : Nat) (w : Withdrawal) : (putWd s i w).time = s.time := rfl
@[simp] theorem putWd_boot (s : State) (i : Nat) (w : Withdrawal) : (putWd s i w).boot = s.boot := rfl
@[simp] theorem putWd_why (s : State) (i : Nat) (w : Withdrawal) : (putWd s i w).why = s.why := rfl
@[simp] theorem putWd_measures (s : State) (i : Nat) (w : Withdrawal) : (putWd s i w).measures = s.measures := rfl
@[simp] theorem putWd_cur (s : State) (i : Nat) (w : Withdrawal) : (putWd s i w).cur = s.cur := rfl
@[simp] theorem putWd_agenda (s : State) (i : Nat) (w : Withdrawal) : (putWd s i w).agenda = s.agenda := rfl
@[simp] theorem putWd_nextId (s : State) (i : Nat) (w : Withdrawal) : (putWd s i w).nextId = s.nextId := rfl
@[simp] theorem putWd_wclock (s : State) (i : Nat) (w : Withdrawal) : (putWd s i w).wclock = s.wclock := rfl
@[simp] theorem putWd_draws (s : State) (i : Nat) (w : Withdrawal) : (putWd s i w).draws = s.draws := rfl

/-! `sendAccess` -/

@[simp] theorem sendAccess_threads (s : State) (a : Access) : (sendAccess s a).threads = s.threads := rfl
@[simp] theorem sendAccess_saved (s : State) (a : Access) : (sendAccess s a).saved = s.saved := rfl
@[simp] theorem sendAccess_frames (s : State) (a : Access) : (sendAccess s a).frames = s.frames := rfl
@[simp] theorem sendAccess_areas (s : State) (a : Access) : (sendAccess s a).areas = s.areas := rfl
@[simp] theorem sendAccess_cores (s : State) (a : Access) : (sendAccess s a).cores = s.cores := rfl
@[simp] theorem sendAccess_islands (s : State) (a : Access) : (sendAccess s a).islands = s.islands := rfl
@[simp] theorem sendAccess_channels (s : State) (a : Access) : (sendAccess s a).channels = s.channels := rfl
@[simp] theorem sendAccess_mem (s : State) (a : Access) : (sendAccess s a).mem = s.mem := rfl
@[simp] theorem sendAccess_words (s : State) (a : Access) : (sendAccess s a).words = s.words := rfl
@[simp] theorem sendAccess_softWords (s : State) (a : Access) : (sendAccess s a).softWords = s.softWords := rfl
@[simp] theorem sendAccess_hist (s : State) (a : Access) : (sendAccess s a).hist = s.hist := rfl
@[simp] theorem sendAccess_seals (s : State) (a : Access) : (sendAccess s a).seals = s.seals := rfl
@[simp] theorem sendAccess_owner (s : State) (a : Access) : (sendAccess s a).owner = s.owner := rfl
@[simp] theorem sendAccess_tenants (s : State) (a : Access) : (sendAccess s a).tenants = s.tenants := rfl
@[simp] theorem sendAccess_l2 (s : State) (a : Access) : (sendAccess s a).l2 = s.l2 := rfl
@[simp] theorem sendAccess_l3 (s : State) (a : Access) : (sendAccess s a).l3 = s.l3 := rfl
@[simp] theorem sendAccess_sram (s : State) (a : Access) : (sendAccess s a).sram = s.sram := rfl
@[simp] theorem sendAccess_l2base (s : State) (a : Access) : (sendAccess s a).l2base = s.l2base := rfl
@[simp] theorem sendAccess_l3base (s : State) (a : Access) : (sendAccess s a).l3base = s.l3base := rfl
@[simp] theorem sendAccess_sramBase (s : State) (a : Access) : (sendAccess s a).sramBase = s.sramBase := rfl
@[simp] theorem sendAccess_devErrors (s : State) (a : Access) : (sendAccess s a).devErrors = s.devErrors := rfl
@[simp] theorem sendAccess_accs (s : State) (a : Access) : (sendAccess s a).accs = tput s.nextId (sentNow s s.nextId a) s.accs := rfl
@[simp] theorem sendAccess_pending (s : State) (a : Access) : (sendAccess s a).pending = s.pending := rfl
@[simp] theorem sendAccess_msgs (s : State) (a : Access) : (sendAccess s a).msgs = s.msgs := rfl
@[simp] theorem sendAccess_forks (s : State) (a : Access) : (sendAccess s a).forks = s.forks := rfl
@[simp] theorem sendAccess_nodes (s : State) (a : Access) : (sendAccess s a).nodes = s.nodes := rfl
@[simp] theorem sendAccess_remotes (s : State) (a : Access) : (sendAccess s a).remotes = s.remotes := rfl
@[simp] theorem sendAccess_spaces (s : State) (a : Access) : (sendAccess s a).spaces = s.spaces := rfl
@[simp] theorem sendAccess_wds (s : State) (a : Access) : (sendAccess s a).wds = s.wds := rfl
@[simp] theorem sendAccess_late (s : State) (a : Access) : (sendAccess s a).late = s.late := rfl
@[simp] theorem sendAccess_tiles (s : State) (a : Access) : (sendAccess s a).tiles = s.tiles := rfl
@[simp] theorem sendAccess_xfers (s : State) (a : Access) : (sendAccess s a).xfers = s.xfers := rfl
@[simp] theorem sendAccess_grids (s : State) (a : Access) : (sendAccess s a).grids = s.grids := rfl
@[simp] theorem sendAccess_pubs (s : State) (a : Access) : (sendAccess s a).pubs = s.pubs := rfl
@[simp] theorem sendAccess_tags (s : State) (a : Access) : (sendAccess s a).tags = s.tags := rfl
@[simp] theorem sendAccess_launches (s : State) (a : Access) : (sendAccess s a).launches = s.launches := rfl
@[simp] theorem sendAccess_bars (s : State) (a : Access) : (sendAccess s a).bars = s.bars := rfl
@[simp] theorem sendAccess_contexts (s : State) (a : Access) : (sendAccess s a).contexts = s.contexts := rfl
@[simp] theorem sendAccess_queues (s : State) (a : Access) : (sendAccess s a).queues = s.queues := rfl
@[simp] theorem sendAccess_lastQueue (s : State) (a : Access) : (sendAccess s a).lastQueue = s.lastQueue := rfl
@[simp] theorem sendAccess_runningSlice (s : State) (a : Access) : (sendAccess s a).runningSlice = s.runningSlice := rfl
@[simp] theorem sendAccess_fns (s : State) (a : Access) : (sendAccess s a).fns = s.fns := rfl
@[simp] theorem sendAccess_hostMem (s : State) (a : Access) : (sendAccess s a).hostMem = s.hostMem := rfl
@[simp] theorem sendAccess_parts (s : State) (a : Access) : (sendAccess s a).parts = s.parts := rfl
@[simp] theorem sendAccess_jobs (s : State) (a : Access) : (sendAccess s a).jobs = s.jobs := rfl
@[simp] theorem sendAccess_peers (s : State) (a : Access) : (sendAccess s a).peers = s.peers := rfl
@[simp] theorem sendAccess_ports (s : State) (a : Access) : (sendAccess s a).ports = s.ports := rfl
@[simp] theorem sendAccess_device (s : State) (a : Access) : (sendAccess s a).device = s.device := rfl
@[simp] theorem sendAccess_time (s : State) (a : Access) : (sendAccess s a).time = s.time := rfl
@[simp] theorem sendAccess_boot (s : State) (a : Access) : (sendAccess s a).boot = s.boot := rfl
@[simp] theorem sendAccess_why (s : State) (a : Access) : (sendAccess s a).why = s.why := rfl
@[simp] theorem sendAccess_measures (s : State) (a : Access) : (sendAccess s a).measures = s.measures := rfl
@[simp] theorem sendAccess_cur (s : State) (a : Access) : (sendAccess s a).cur = s.cur := rfl
@[simp] theorem sendAccess_agenda (s : State) (a : Access) : (sendAccess s a).agenda = s.agenda := rfl
@[simp] theorem sendAccess_nextId (s : State) (a : Access) : (sendAccess s a).nextId = s.nextId + 1 := rfl
@[simp] theorem sendAccess_wclock (s : State) (a : Access) : (sendAccess s a).wclock = s.wclock := rfl
@[simp] theorem sendAccess_draws (s : State) (a : Access) : (sendAccess s a).draws = s.draws := rfl

/-! `seat` -/

@[simp] theorem seat_threads (s : State) (u : Nat) (t : Thread) : (seat s u t).threads = tput u t s.threads := rfl
@[simp] theorem seat_saved (s : State) (u : Nat) (t : Thread) : (seat s u t).saved = s.saved := rfl
@[simp] theorem seat_frames (s : State) (u : Nat) (t : Thread) : (seat s u t).frames = s.frames := rfl
@[simp] theorem seat_areas (s : State) (u : Nat) (t : Thread) : (seat s u t).areas = s.areas := rfl
@[simp] theorem seat_cores (s : State) (u : Nat) (t : Thread) : (seat s u t).cores = s.cores := rfl
@[simp] theorem seat_islands (s : State) (u : Nat) (t : Thread) : (seat s u t).islands = s.islands := rfl
@[simp] theorem seat_channels (s : State) (u : Nat) (t : Thread) : (seat s u t).channels = s.channels := rfl
@[simp] theorem seat_mem (s : State) (u : Nat) (t : Thread) : (seat s u t).mem = s.mem := rfl
@[simp] theorem seat_words (s : State) (u : Nat) (t : Thread) : (seat s u t).words = s.words := rfl
@[simp] theorem seat_softWords (s : State) (u : Nat) (t : Thread) : (seat s u t).softWords = s.softWords := rfl
@[simp] theorem seat_hist (s : State) (u : Nat) (t : Thread) : (seat s u t).hist = s.hist := rfl
@[simp] theorem seat_seals (s : State) (u : Nat) (t : Thread) : (seat s u t).seals = s.seals := rfl
@[simp] theorem seat_owner (s : State) (u : Nat) (t : Thread) : (seat s u t).owner = s.owner := rfl
@[simp] theorem seat_tenants (s : State) (u : Nat) (t : Thread) : (seat s u t).tenants = s.tenants := rfl
@[simp] theorem seat_l2 (s : State) (u : Nat) (t : Thread) : (seat s u t).l2 = s.l2 := rfl
@[simp] theorem seat_l3 (s : State) (u : Nat) (t : Thread) : (seat s u t).l3 = s.l3 := rfl
@[simp] theorem seat_sram (s : State) (u : Nat) (t : Thread) : (seat s u t).sram = s.sram := rfl
@[simp] theorem seat_l2base (s : State) (u : Nat) (t : Thread) : (seat s u t).l2base = s.l2base := rfl
@[simp] theorem seat_l3base (s : State) (u : Nat) (t : Thread) : (seat s u t).l3base = s.l3base := rfl
@[simp] theorem seat_sramBase (s : State) (u : Nat) (t : Thread) : (seat s u t).sramBase = s.sramBase := rfl
@[simp] theorem seat_devErrors (s : State) (u : Nat) (t : Thread) : (seat s u t).devErrors = s.devErrors := rfl
@[simp] theorem seat_accs (s : State) (u : Nat) (t : Thread) : (seat s u t).accs = s.accs := rfl
@[simp] theorem seat_pending (s : State) (u : Nat) (t : Thread) : (seat s u t).pending = s.pending := rfl
@[simp] theorem seat_msgs (s : State) (u : Nat) (t : Thread) : (seat s u t).msgs = s.msgs := rfl
@[simp] theorem seat_forks (s : State) (u : Nat) (t : Thread) : (seat s u t).forks = s.forks := rfl
@[simp] theorem seat_nodes (s : State) (u : Nat) (t : Thread) : (seat s u t).nodes = s.nodes := rfl
@[simp] theorem seat_remotes (s : State) (u : Nat) (t : Thread) : (seat s u t).remotes = s.remotes := rfl
@[simp] theorem seat_spaces (s : State) (u : Nat) (t : Thread) : (seat s u t).spaces = s.spaces := rfl
@[simp] theorem seat_wds (s : State) (u : Nat) (t : Thread) : (seat s u t).wds = s.wds := rfl
@[simp] theorem seat_late (s : State) (u : Nat) (t : Thread) : (seat s u t).late = s.late := rfl
@[simp] theorem seat_tiles (s : State) (u : Nat) (t : Thread) : (seat s u t).tiles = s.tiles := rfl
@[simp] theorem seat_xfers (s : State) (u : Nat) (t : Thread) : (seat s u t).xfers = s.xfers := rfl
@[simp] theorem seat_grids (s : State) (u : Nat) (t : Thread) : (seat s u t).grids = s.grids := rfl
@[simp] theorem seat_pubs (s : State) (u : Nat) (t : Thread) : (seat s u t).pubs = s.pubs := rfl
@[simp] theorem seat_tags (s : State) (u : Nat) (t : Thread) : (seat s u t).tags = s.tags := rfl
@[simp] theorem seat_launches (s : State) (u : Nat) (t : Thread) : (seat s u t).launches = s.launches := rfl
@[simp] theorem seat_bars (s : State) (u : Nat) (t : Thread) : (seat s u t).bars = s.bars := rfl
@[simp] theorem seat_contexts (s : State) (u : Nat) (t : Thread) : (seat s u t).contexts = s.contexts := rfl
@[simp] theorem seat_queues (s : State) (u : Nat) (t : Thread) : (seat s u t).queues = s.queues := rfl
@[simp] theorem seat_lastQueue (s : State) (u : Nat) (t : Thread) : (seat s u t).lastQueue = s.lastQueue := rfl
@[simp] theorem seat_runningSlice (s : State) (u : Nat) (t : Thread) : (seat s u t).runningSlice = s.runningSlice := rfl
@[simp] theorem seat_fns (s : State) (u : Nat) (t : Thread) : (seat s u t).fns = s.fns := rfl
@[simp] theorem seat_hostMem (s : State) (u : Nat) (t : Thread) : (seat s u t).hostMem = s.hostMem := rfl
@[simp] theorem seat_parts (s : State) (u : Nat) (t : Thread) : (seat s u t).parts = s.parts := rfl
@[simp] theorem seat_jobs (s : State) (u : Nat) (t : Thread) : (seat s u t).jobs = s.jobs := rfl
@[simp] theorem seat_peers (s : State) (u : Nat) (t : Thread) : (seat s u t).peers = s.peers := rfl
@[simp] theorem seat_ports (s : State) (u : Nat) (t : Thread) : (seat s u t).ports = s.ports := rfl
@[simp] theorem seat_device (s : State) (u : Nat) (t : Thread) : (seat s u t).device = s.device := rfl
@[simp] theorem seat_time (s : State) (u : Nat) (t : Thread) : (seat s u t).time = s.time := rfl
@[simp] theorem seat_boot (s : State) (u : Nat) (t : Thread) : (seat s u t).boot = s.boot := rfl
@[simp] theorem seat_why (s : State) (u : Nat) (t : Thread) : (seat s u t).why = s.why := rfl
@[simp] theorem seat_measures (s : State) (u : Nat) (t : Thread) : (seat s u t).measures = s.measures := rfl
@[simp] theorem seat_cur (s : State) (u : Nat) (t : Thread) : (seat s u t).cur = s.cur := rfl
@[simp] theorem seat_agenda (s : State) (u : Nat) (t : Thread) : (seat s u t).agenda = s.agenda := rfl
@[simp] theorem seat_nextId (s : State) (u : Nat) (t : Thread) : (seat s u t).nextId = s.nextId := rfl
@[simp] theorem seat_wclock (s : State) (u : Nat) (t : Thread) : (seat s u t).wclock = s.wclock := rfl
@[simp] theorem seat_draws (s : State) (u : Nat) (t : Thread) : (seat s u t).draws = s.draws := rfl

/-! `retireTo` -/

@[simp] theorem retireTo_threads (s : State) (u : Nat) (t : Thread) (pc : Word) : (retireTo s u t pc).threads = tput u { t with pc := pc, prog := .none, status := .ready, since := s.time + 1 } s.threads := rfl
@[simp] theorem retireTo_saved (s : State) (u : Nat) (t : Thread) (pc : Word) : (retireTo s u t pc).saved = s.saved := rfl
@[simp] theorem retireTo_frames (s : State) (u : Nat) (t : Thread) (pc : Word) : (retireTo s u t pc).frames = s.frames := rfl
@[simp] theorem retireTo_areas (s : State) (u : Nat) (t : Thread) (pc : Word) : (retireTo s u t pc).areas = s.areas := rfl
@[simp] theorem retireTo_cores (s : State) (u : Nat) (t : Thread) (pc : Word) : (retireTo s u t pc).cores = s.cores := rfl
@[simp] theorem retireTo_islands (s : State) (u : Nat) (t : Thread) (pc : Word) : (retireTo s u t pc).islands = s.islands := rfl
@[simp] theorem retireTo_channels (s : State) (u : Nat) (t : Thread) (pc : Word) : (retireTo s u t pc).channels = s.channels := rfl
@[simp] theorem retireTo_mem (s : State) (u : Nat) (t : Thread) (pc : Word) : (retireTo s u t pc).mem = s.mem := rfl
@[simp] theorem retireTo_words (s : State) (u : Nat) (t : Thread) (pc : Word) : (retireTo s u t pc).words = s.words := rfl
@[simp] theorem retireTo_softWords (s : State) (u : Nat) (t : Thread) (pc : Word) : (retireTo s u t pc).softWords = s.softWords := rfl
@[simp] theorem retireTo_hist (s : State) (u : Nat) (t : Thread) (pc : Word) : (retireTo s u t pc).hist = s.hist := rfl
@[simp] theorem retireTo_seals (s : State) (u : Nat) (t : Thread) (pc : Word) : (retireTo s u t pc).seals = s.seals := rfl
@[simp] theorem retireTo_owner (s : State) (u : Nat) (t : Thread) (pc : Word) : (retireTo s u t pc).owner = s.owner := rfl
@[simp] theorem retireTo_tenants (s : State) (u : Nat) (t : Thread) (pc : Word) : (retireTo s u t pc).tenants = s.tenants := rfl
@[simp] theorem retireTo_l2 (s : State) (u : Nat) (t : Thread) (pc : Word) : (retireTo s u t pc).l2 = s.l2 := rfl
@[simp] theorem retireTo_l3 (s : State) (u : Nat) (t : Thread) (pc : Word) : (retireTo s u t pc).l3 = s.l3 := rfl
@[simp] theorem retireTo_sram (s : State) (u : Nat) (t : Thread) (pc : Word) : (retireTo s u t pc).sram = s.sram := rfl
@[simp] theorem retireTo_l2base (s : State) (u : Nat) (t : Thread) (pc : Word) : (retireTo s u t pc).l2base = s.l2base := rfl
@[simp] theorem retireTo_l3base (s : State) (u : Nat) (t : Thread) (pc : Word) : (retireTo s u t pc).l3base = s.l3base := rfl
@[simp] theorem retireTo_sramBase (s : State) (u : Nat) (t : Thread) (pc : Word) : (retireTo s u t pc).sramBase = s.sramBase := rfl
@[simp] theorem retireTo_devErrors (s : State) (u : Nat) (t : Thread) (pc : Word) : (retireTo s u t pc).devErrors = s.devErrors := rfl
@[simp] theorem retireTo_accs (s : State) (u : Nat) (t : Thread) (pc : Word) : (retireTo s u t pc).accs = s.accs := rfl
@[simp] theorem retireTo_pending (s : State) (u : Nat) (t : Thread) (pc : Word) : (retireTo s u t pc).pending = s.pending := rfl
@[simp] theorem retireTo_msgs (s : State) (u : Nat) (t : Thread) (pc : Word) : (retireTo s u t pc).msgs = s.msgs := rfl
@[simp] theorem retireTo_forks (s : State) (u : Nat) (t : Thread) (pc : Word) : (retireTo s u t pc).forks = s.forks := rfl
@[simp] theorem retireTo_nodes (s : State) (u : Nat) (t : Thread) (pc : Word) : (retireTo s u t pc).nodes = s.nodes := rfl
@[simp] theorem retireTo_remotes (s : State) (u : Nat) (t : Thread) (pc : Word) : (retireTo s u t pc).remotes = s.remotes := rfl
@[simp] theorem retireTo_spaces (s : State) (u : Nat) (t : Thread) (pc : Word) : (retireTo s u t pc).spaces = s.spaces := rfl
@[simp] theorem retireTo_wds (s : State) (u : Nat) (t : Thread) (pc : Word) : (retireTo s u t pc).wds = s.wds := rfl
@[simp] theorem retireTo_late (s : State) (u : Nat) (t : Thread) (pc : Word) : (retireTo s u t pc).late = s.late := rfl
@[simp] theorem retireTo_tiles (s : State) (u : Nat) (t : Thread) (pc : Word) : (retireTo s u t pc).tiles = s.tiles := rfl
@[simp] theorem retireTo_xfers (s : State) (u : Nat) (t : Thread) (pc : Word) : (retireTo s u t pc).xfers = s.xfers := rfl
@[simp] theorem retireTo_grids (s : State) (u : Nat) (t : Thread) (pc : Word) : (retireTo s u t pc).grids = s.grids := rfl
@[simp] theorem retireTo_pubs (s : State) (u : Nat) (t : Thread) (pc : Word) : (retireTo s u t pc).pubs = s.pubs := rfl
@[simp] theorem retireTo_tags (s : State) (u : Nat) (t : Thread) (pc : Word) : (retireTo s u t pc).tags = s.tags := rfl
@[simp] theorem retireTo_launches (s : State) (u : Nat) (t : Thread) (pc : Word) : (retireTo s u t pc).launches = s.launches := rfl
@[simp] theorem retireTo_bars (s : State) (u : Nat) (t : Thread) (pc : Word) : (retireTo s u t pc).bars = s.bars := rfl
@[simp] theorem retireTo_queues (s : State) (u : Nat) (t : Thread) (pc : Word) : (retireTo s u t pc).queues = s.queues := rfl
@[simp] theorem retireTo_lastQueue (s : State) (u : Nat) (t : Thread) (pc : Word) : (retireTo s u t pc).lastQueue = s.lastQueue := rfl
@[simp] theorem retireTo_runningSlice (s : State) (u : Nat) (t : Thread) (pc : Word) : (retireTo s u t pc).runningSlice = s.runningSlice := rfl
@[simp] theorem retireTo_fns (s : State) (u : Nat) (t : Thread) (pc : Word) : (retireTo s u t pc).fns = s.fns := rfl
@[simp] theorem retireTo_hostMem (s : State) (u : Nat) (t : Thread) (pc : Word) : (retireTo s u t pc).hostMem = s.hostMem := rfl
@[simp] theorem retireTo_parts (s : State) (u : Nat) (t : Thread) (pc : Word) : (retireTo s u t pc).parts = s.parts := rfl
@[simp] theorem retireTo_jobs (s : State) (u : Nat) (t : Thread) (pc : Word) : (retireTo s u t pc).jobs = s.jobs := rfl
@[simp] theorem retireTo_peers (s : State) (u : Nat) (t : Thread) (pc : Word) : (retireTo s u t pc).peers = s.peers := rfl
@[simp] theorem retireTo_ports (s : State) (u : Nat) (t : Thread) (pc : Word) : (retireTo s u t pc).ports = s.ports := rfl
@[simp] theorem retireTo_device (s : State) (u : Nat) (t : Thread) (pc : Word) : (retireTo s u t pc).device = s.device := rfl
@[simp] theorem retireTo_time (s : State) (u : Nat) (t : Thread) (pc : Word) : (retireTo s u t pc).time = s.time + 1 := rfl
@[simp] theorem retireTo_boot (s : State) (u : Nat) (t : Thread) (pc : Word) : (retireTo s u t pc).boot = s.boot := rfl
@[simp] theorem retireTo_why (s : State) (u : Nat) (t : Thread) (pc : Word) : (retireTo s u t pc).why = s.why := rfl
@[simp] theorem retireTo_measures (s : State) (u : Nat) (t : Thread) (pc : Word) : (retireTo s u t pc).measures = s.measures := rfl
@[simp] theorem retireTo_cur (s : State) (u : Nat) (t : Thread) (pc : Word) : (retireTo s u t pc).cur = s.cur := rfl
@[simp] theorem retireTo_agenda (s : State) (u : Nat) (t : Thread) (pc : Word) : (retireTo s u t pc).agenda = s.agenda := rfl
@[simp] theorem retireTo_nextId (s : State) (u : Nat) (t : Thread) (pc : Word) : (retireTo s u t pc).nextId = s.nextId := rfl
@[simp] theorem retireTo_wclock (s : State) (u : Nat) (t : Thread) (pc : Word) : (retireTo s u t pc).wclock = s.wclock := rfl
@[simp] theorem retireTo_draws (s : State) (u : Nat) (t : Thread) (pc : Word) : (retireTo s u t pc).draws = s.draws := rfl

/-! `collectSlots` and `dropAgent` -/

/-- A fold keeps what each of its steps keeps. -/
theorem foldl_keeps {α β : Type} (f : State → β) (g : State → α → State) (h : ∀ s a, f (g s a) = f s) (l : List α) (s : State) :
    f (l.foldl g s) = f s := by
  induction l generalizing s with
  | nil => rfl
  | cons a l ih => rw [List.foldl_cons, ih, h]

@[simp] theorem collectSlots_saved (s : State) (i : Nat) : (collectSlots s i).saved = s.saved := by
  unfold collectSlots; dsimp only; split <;> rfl
@[simp] theorem collectSlots_frames (s : State) (i : Nat) : (collectSlots s i).frames = s.frames := by
  unfold collectSlots; dsimp only; split <;> rfl
@[simp] theorem collectSlots_areas (s : State) (i : Nat) : (collectSlots s i).areas = s.areas := by
  unfold collectSlots; dsimp only; split <;> rfl
@[simp] theorem collectSlots_cores (s : State) (i : Nat) : (collectSlots s i).cores = s.cores := by
  unfold collectSlots; dsimp only; split <;> rfl
@[simp] theorem collectSlots_islands (s : State) (i : Nat) : (collectSlots s i).islands = s.islands := by
  unfold collectSlots; dsimp only; split <;> rfl
@[simp] theorem collectSlots_channels (s : State) (i : Nat) : (collectSlots s i).channels = s.channels := by
  unfold collectSlots; dsimp only; split <;> rfl
@[simp] theorem collectSlots_mem (s : State) (i : Nat) : (collectSlots s i).mem = s.mem := by
  unfold collectSlots; dsimp only; split <;> rfl
@[simp] theorem collectSlots_words (s : State) (i : Nat) : (collectSlots s i).words = s.words := by
  unfold collectSlots; dsimp only; split <;> rfl
@[simp] theorem collectSlots_softWords (s : State) (i : Nat) : (collectSlots s i).softWords = s.softWords := by
  unfold collectSlots; dsimp only; split <;> rfl
@[simp] theorem collectSlots_hist (s : State) (i : Nat) : (collectSlots s i).hist = s.hist := by
  unfold collectSlots; dsimp only; split <;> rfl
@[simp] theorem collectSlots_seals (s : State) (i : Nat) : (collectSlots s i).seals = s.seals := by
  unfold collectSlots; dsimp only; split <;> rfl
@[simp] theorem collectSlots_owner (s : State) (i : Nat) : (collectSlots s i).owner = s.owner := by
  unfold collectSlots; dsimp only; split <;> rfl
@[simp] theorem collectSlots_tenants (s : State) (i : Nat) : (collectSlots s i).tenants = s.tenants := by
  unfold collectSlots; dsimp only; split <;> rfl
@[simp] theorem collectSlots_l2 (s : State) (i : Nat) : (collectSlots s i).l2 = s.l2 := by
  unfold collectSlots; dsimp only; split <;> rfl
@[simp] theorem collectSlots_l3 (s : State) (i : Nat) : (collectSlots s i).l3 = s.l3 := by
  unfold collectSlots; dsimp only; split <;> rfl
@[simp] theorem collectSlots_sram (s : State) (i : Nat) : (collectSlots s i).sram = s.sram := by
  unfold collectSlots; dsimp only; split <;> rfl
@[simp] theorem collectSlots_l2base (s : State) (i : Nat) : (collectSlots s i).l2base = s.l2base := by
  unfold collectSlots; dsimp only; split <;> rfl
@[simp] theorem collectSlots_l3base (s : State) (i : Nat) : (collectSlots s i).l3base = s.l3base := by
  unfold collectSlots; dsimp only; split <;> rfl
@[simp] theorem collectSlots_sramBase (s : State) (i : Nat) : (collectSlots s i).sramBase = s.sramBase := by
  unfold collectSlots; dsimp only; split <;> rfl
@[simp] theorem collectSlots_devErrors (s : State) (i : Nat) : (collectSlots s i).devErrors = s.devErrors := by
  unfold collectSlots; dsimp only; split <;> rfl
@[simp] theorem collectSlots_accs (s : State) (i : Nat) : (collectSlots s i).accs = s.accs := by
  unfold collectSlots; dsimp only; split <;> rfl
@[simp] theorem collectSlots_pending (s : State) (i : Nat) : (collectSlots s i).pending = s.pending := by
  unfold collectSlots; dsimp only; split <;> rfl
@[simp] theorem collectSlots_msgs (s : State) (i : Nat) : (collectSlots s i).msgs = s.msgs := by
  unfold collectSlots; dsimp only; split <;> rfl
@[simp] theorem collectSlots_forks (s : State) (i : Nat) : (collectSlots s i).forks = s.forks := by
  unfold collectSlots; dsimp only; split <;> rfl
@[simp] theorem collectSlots_nodes (s : State) (i : Nat) : (collectSlots s i).nodes = s.nodes := by
  unfold collectSlots; dsimp only; split <;> rfl
@[simp] theorem collectSlots_remotes (s : State) (i : Nat) : (collectSlots s i).remotes = s.remotes := by
  unfold collectSlots; dsimp only; split <;> rfl
@[simp] theorem collectSlots_spaces (s : State) (i : Nat) : (collectSlots s i).spaces = s.spaces := by
  unfold collectSlots; dsimp only; split <;> rfl
@[simp] theorem collectSlots_wds (s : State) (i : Nat) : (collectSlots s i).wds = s.wds := by
  unfold collectSlots; dsimp only; split <;> rfl
@[simp] theorem collectSlots_late (s : State) (i : Nat) : (collectSlots s i).late = s.late := by
  unfold collectSlots; dsimp only; split <;> rfl
@[simp] theorem collectSlots_xfers (s : State) (i : Nat) : (collectSlots s i).xfers = s.xfers := by
  unfold collectSlots; dsimp only; split <;> rfl
@[simp] theorem collectSlots_grids (s : State) (i : Nat) : (collectSlots s i).grids = s.grids := by
  unfold collectSlots; dsimp only; split <;> rfl
@[simp] theorem collectSlots_pubs (s : State) (i : Nat) : (collectSlots s i).pubs = s.pubs := by
  unfold collectSlots; dsimp only; split <;> rfl
@[simp] theorem collectSlots_tags (s : State) (i : Nat) : (collectSlots s i).tags = s.tags := by
  unfold collectSlots; dsimp only; split <;> rfl
@[simp] theorem collectSlots_launches (s : State) (i : Nat) : (collectSlots s i).launches = s.launches := by
  unfold collectSlots; dsimp only; split <;> rfl
@[simp] theorem collectSlots_bars (s : State) (i : Nat) : (collectSlots s i).bars = s.bars := by
  unfold collectSlots; dsimp only; split <;> rfl
@[simp] theorem collectSlots_contexts (s : State) (i : Nat) : (collectSlots s i).contexts = s.contexts := by
  unfold collectSlots; dsimp only; split <;> rfl
@[simp] theorem collectSlots_queues (s : State) (i : Nat) : (collectSlots s i).queues = s.queues := by
  unfold collectSlots; dsimp only; split <;> rfl
@[simp] theorem collectSlots_lastQueue (s : State) (i : Nat) : (collectSlots s i).lastQueue = s.lastQueue := by
  unfold collectSlots; dsimp only; split <;> rfl
@[simp] theorem collectSlots_runningSlice (s : State) (i : Nat) : (collectSlots s i).runningSlice = s.runningSlice := by
  unfold collectSlots; dsimp only; split <;> rfl
@[simp] theorem collectSlots_fns (s : State) (i : Nat) : (collectSlots s i).fns = s.fns := by
  unfold collectSlots; dsimp only; split <;> rfl
@[simp] theorem collectSlots_hostMem (s : State) (i : Nat) : (collectSlots s i).hostMem = s.hostMem := by
  unfold collectSlots; dsimp only; split <;> rfl
@[simp] theorem collectSlots_parts (s : State) (i : Nat) : (collectSlots s i).parts = s.parts := by
  unfold collectSlots; dsimp only; split <;> rfl
@[simp] theorem collectSlots_jobs (s : State) (i : Nat) : (collectSlots s i).jobs = s.jobs := by
  unfold collectSlots; dsimp only; split <;> rfl
@[simp] theorem collectSlots_peers (s : State) (i : Nat) : (collectSlots s i).peers = s.peers := by
  unfold collectSlots; dsimp only; split <;> rfl
@[simp] theorem collectSlots_ports (s : State) (i : Nat) : (collectSlots s i).ports = s.ports := by
  unfold collectSlots; dsimp only; split <;> rfl
@[simp] theorem collectSlots_device (s : State) (i : Nat) : (collectSlots s i).device = s.device := by
  unfold collectSlots; dsimp only; split <;> rfl
@[simp] theorem collectSlots_time (s : State) (i : Nat) : (collectSlots s i).time = s.time := by
  unfold collectSlots; dsimp only; split <;> rfl
@[simp] theorem collectSlots_boot (s : State) (i : Nat) : (collectSlots s i).boot = s.boot := by
  unfold collectSlots; dsimp only; split <;> rfl
@[simp] theorem collectSlots_why (s : State) (i : Nat) : (collectSlots s i).why = s.why := by
  unfold collectSlots; dsimp only; split <;> rfl
@[simp] theorem collectSlots_measures (s : State) (i : Nat) : (collectSlots s i).measures = s.measures := by
  unfold collectSlots; dsimp only; split <;> rfl
@[simp] theorem collectSlots_cur (s : State) (i : Nat) : (collectSlots s i).cur = s.cur := by
  unfold collectSlots; dsimp only; split <;> rfl
@[simp] theorem collectSlots_agenda (s : State) (i : Nat) : (collectSlots s i).agenda = s.agenda := by
  unfold collectSlots; dsimp only; split <;> rfl
@[simp] theorem collectSlots_nextId (s : State) (i : Nat) : (collectSlots s i).nextId = s.nextId := by
  unfold collectSlots; dsimp only; split <;> rfl
@[simp] theorem collectSlots_wclock (s : State) (i : Nat) : (collectSlots s i).wclock = s.wclock := by
  unfold collectSlots; dsimp only; split <;> rfl
@[simp] theorem collectSlots_draws (s : State) (i : Nat) : (collectSlots s i).draws = s.draws := by
  unfold collectSlots; dsimp only; split <;> rfl
@[simp] theorem dropAgent_saved (s : State) (u : Nat) : (dropAgent s u).saved = s.saved :=
  foldl_keeps State.saved _ collectSlots_saved _ _
@[simp] theorem dropAgent_frames (s : State) (u : Nat) : (dropAgent s u).frames = s.frames :=
  foldl_keeps State.frames _ collectSlots_frames _ _
@[simp] theorem dropAgent_areas (s : State) (u : Nat) : (dropAgent s u).areas = s.areas :=
  foldl_keeps State.areas _ collectSlots_areas _ _
@[simp] theorem dropAgent_cores (s : State) (u : Nat) : (dropAgent s u).cores = s.cores :=
  foldl_keeps State.cores _ collectSlots_cores _ _
@[simp] theorem dropAgent_islands (s : State) (u : Nat) : (dropAgent s u).islands = s.islands :=
  foldl_keeps State.islands _ collectSlots_islands _ _
@[simp] theorem dropAgent_channels (s : State) (u : Nat) : (dropAgent s u).channels = s.channels :=
  foldl_keeps State.channels _ collectSlots_channels _ _
@[simp] theorem dropAgent_mem (s : State) (u : Nat) : (dropAgent s u).mem = s.mem :=
  foldl_keeps State.mem _ collectSlots_mem _ _
@[simp] theorem dropAgent_words (s : State) (u : Nat) : (dropAgent s u).words = s.words :=
  foldl_keeps State.words _ collectSlots_words _ _
@[simp] theorem dropAgent_softWords (s : State) (u : Nat) : (dropAgent s u).softWords = s.softWords :=
  foldl_keeps State.softWords _ collectSlots_softWords _ _
@[simp] theorem dropAgent_hist (s : State) (u : Nat) : (dropAgent s u).hist = s.hist :=
  foldl_keeps State.hist _ collectSlots_hist _ _
@[simp] theorem dropAgent_seals (s : State) (u : Nat) : (dropAgent s u).seals = s.seals :=
  foldl_keeps State.seals _ collectSlots_seals _ _
@[simp] theorem dropAgent_owner (s : State) (u : Nat) : (dropAgent s u).owner = s.owner :=
  foldl_keeps State.owner _ collectSlots_owner _ _
@[simp] theorem dropAgent_tenants (s : State) (u : Nat) : (dropAgent s u).tenants = s.tenants :=
  foldl_keeps State.tenants _ collectSlots_tenants _ _
@[simp] theorem dropAgent_l2 (s : State) (u : Nat) : (dropAgent s u).l2 = s.l2 :=
  foldl_keeps State.l2 _ collectSlots_l2 _ _
@[simp] theorem dropAgent_l3 (s : State) (u : Nat) : (dropAgent s u).l3 = s.l3 :=
  foldl_keeps State.l3 _ collectSlots_l3 _ _
@[simp] theorem dropAgent_sram (s : State) (u : Nat) : (dropAgent s u).sram = s.sram :=
  foldl_keeps State.sram _ collectSlots_sram _ _
@[simp] theorem dropAgent_l2base (s : State) (u : Nat) : (dropAgent s u).l2base = s.l2base :=
  foldl_keeps State.l2base _ collectSlots_l2base _ _
@[simp] theorem dropAgent_l3base (s : State) (u : Nat) : (dropAgent s u).l3base = s.l3base :=
  foldl_keeps State.l3base _ collectSlots_l3base _ _
@[simp] theorem dropAgent_sramBase (s : State) (u : Nat) : (dropAgent s u).sramBase = s.sramBase :=
  foldl_keeps State.sramBase _ collectSlots_sramBase _ _
@[simp] theorem dropAgent_devErrors (s : State) (u : Nat) : (dropAgent s u).devErrors = s.devErrors :=
  foldl_keeps State.devErrors _ collectSlots_devErrors _ _
@[simp] theorem dropAgent_msgs (s : State) (u : Nat) : (dropAgent s u).msgs = s.msgs :=
  foldl_keeps State.msgs _ collectSlots_msgs _ _
@[simp] theorem dropAgent_forks (s : State) (u : Nat) : (dropAgent s u).forks = s.forks :=
  foldl_keeps State.forks _ collectSlots_forks _ _
@[simp] theorem dropAgent_nodes (s : State) (u : Nat) : (dropAgent s u).nodes = s.nodes :=
  foldl_keeps State.nodes _ collectSlots_nodes _ _
@[simp] theorem dropAgent_remotes (s : State) (u : Nat) : (dropAgent s u).remotes = s.remotes :=
  foldl_keeps State.remotes _ collectSlots_remotes _ _
@[simp] theorem dropAgent_spaces (s : State) (u : Nat) : (dropAgent s u).spaces = s.spaces :=
  foldl_keeps State.spaces _ collectSlots_spaces _ _
@[simp] theorem dropAgent_wds (s : State) (u : Nat) : (dropAgent s u).wds = s.wds :=
  foldl_keeps State.wds _ collectSlots_wds _ _
@[simp] theorem dropAgent_late (s : State) (u : Nat) : (dropAgent s u).late = s.late :=
  foldl_keeps State.late _ collectSlots_late _ _
@[simp] theorem dropAgent_xfers (s : State) (u : Nat) : (dropAgent s u).xfers = s.xfers :=
  foldl_keeps State.xfers _ collectSlots_xfers _ _
@[simp] theorem dropAgent_grids (s : State) (u : Nat) : (dropAgent s u).grids = s.grids :=
  foldl_keeps State.grids _ collectSlots_grids _ _
@[simp] theorem dropAgent_pubs (s : State) (u : Nat) : (dropAgent s u).pubs = s.pubs :=
  foldl_keeps State.pubs _ collectSlots_pubs _ _
@[simp] theorem dropAgent_tags (s : State) (u : Nat) : (dropAgent s u).tags = s.tags :=
  foldl_keeps State.tags _ collectSlots_tags _ _
@[simp] theorem dropAgent_launches (s : State) (u : Nat) : (dropAgent s u).launches = s.launches :=
  foldl_keeps State.launches _ collectSlots_launches _ _
@[simp] theorem dropAgent_bars (s : State) (u : Nat) : (dropAgent s u).bars = s.bars :=
  foldl_keeps State.bars _ collectSlots_bars _ _
@[simp] theorem dropAgent_contexts (s : State) (u : Nat) : (dropAgent s u).contexts = s.contexts :=
  foldl_keeps State.contexts _ collectSlots_contexts _ _
@[simp] theorem dropAgent_queues (s : State) (u : Nat) : (dropAgent s u).queues = s.queues :=
  foldl_keeps State.queues _ collectSlots_queues _ _
@[simp] theorem dropAgent_lastQueue (s : State) (u : Nat) : (dropAgent s u).lastQueue = s.lastQueue :=
  foldl_keeps State.lastQueue _ collectSlots_lastQueue _ _
@[simp] theorem dropAgent_runningSlice (s : State) (u : Nat) : (dropAgent s u).runningSlice = s.runningSlice :=
  foldl_keeps State.runningSlice _ collectSlots_runningSlice _ _
@[simp] theorem dropAgent_fns (s : State) (u : Nat) : (dropAgent s u).fns = s.fns :=
  foldl_keeps State.fns _ collectSlots_fns _ _
@[simp] theorem dropAgent_hostMem (s : State) (u : Nat) : (dropAgent s u).hostMem = s.hostMem :=
  foldl_keeps State.hostMem _ collectSlots_hostMem _ _
@[simp] theorem dropAgent_parts (s : State) (u : Nat) : (dropAgent s u).parts = s.parts :=
  foldl_keeps State.parts _ collectSlots_parts _ _
@[simp] theorem dropAgent_jobs (s : State) (u : Nat) : (dropAgent s u).jobs = s.jobs :=
  foldl_keeps State.jobs _ collectSlots_jobs _ _
@[simp] theorem dropAgent_peers (s : State) (u : Nat) : (dropAgent s u).peers = s.peers :=
  foldl_keeps State.peers _ collectSlots_peers _ _
@[simp] theorem dropAgent_ports (s : State) (u : Nat) : (dropAgent s u).ports = s.ports :=
  foldl_keeps State.ports _ collectSlots_ports _ _
@[simp] theorem dropAgent_device (s : State) (u : Nat) : (dropAgent s u).device = s.device :=
  foldl_keeps State.device _ collectSlots_device _ _
@[simp] theorem dropAgent_time (s : State) (u : Nat) : (dropAgent s u).time = s.time :=
  foldl_keeps State.time _ collectSlots_time _ _
@[simp] theorem dropAgent_boot (s : State) (u : Nat) : (dropAgent s u).boot = s.boot :=
  foldl_keeps State.boot _ collectSlots_boot _ _
@[simp] theorem dropAgent_why (s : State) (u : Nat) : (dropAgent s u).why = s.why :=
  foldl_keeps State.why _ collectSlots_why _ _
@[simp] theorem dropAgent_measures (s : State) (u : Nat) : (dropAgent s u).measures = s.measures :=
  foldl_keeps State.measures _ collectSlots_measures _ _
@[simp] theorem dropAgent_cur (s : State) (u : Nat) : (dropAgent s u).cur = s.cur :=
  foldl_keeps State.cur _ collectSlots_cur _ _
@[simp] theorem dropAgent_agenda (s : State) (u : Nat) : (dropAgent s u).agenda = s.agenda :=
  foldl_keeps State.agenda _ collectSlots_agenda _ _
@[simp] theorem dropAgent_nextId (s : State) (u : Nat) : (dropAgent s u).nextId = s.nextId :=
  foldl_keeps State.nextId _ collectSlots_nextId _ _
@[simp] theorem dropAgent_wclock (s : State) (u : Nat) : (dropAgent s u).wclock = s.wclock :=
  foldl_keeps State.wclock _ collectSlots_wclock _ _
@[simp] theorem dropAgent_draws (s : State) (u : Nat) : (dropAgent s u).draws = s.draws :=
  foldl_keeps State.draws _ collectSlots_draws _ _

/-! `Thread.setG` -/

@[simp] theorem Thread.setG_core (t : Thread) (n : GNum) (w : Word) : (t.setG n w).core = t.core := rfl
@[simp] theorem Thread.setG_slot (t : Thread) (n : GNum) (w : Word) : (t.setG n w).slot = t.slot := rfl
@[simp] theorem Thread.setG_cid (t : Thread) (n : GNum) (w : Word) : (t.setG n w).cid = t.cid := rfl
@[simp] theorem Thread.setG_kind (t : Thread) (n : GNum) (w : Word) : (t.setG n w).kind = t.kind := rfl
@[simp] theorem Thread.setG_launch (t : Thread) (n : GNum) (w : Word) : (t.setG n w).launch = t.launch := rfl
@[simp] theorem Thread.setG_gang (t : Thread) (n : GNum) (w : Word) : (t.setG n w).gang = t.gang := rfl
@[simp] theorem Thread.setG_forked (t : Thread) (n : GNum) (w : Word) : (t.setG n w).forked = t.forked := rfl
@[simp] theorem Thread.setG_high (t : Thread) (n : GNum) (w : Word) : (t.setG n w).high = t.high := rfl
@[simp] theorem Thread.setG_pool (t : Thread) (n : GNum) (w : Word) : (t.setG n w).pool = t.pool := rfl
@[simp] theorem Thread.setG_idx (t : Thread) (n : GNum) (w : Word) : (t.setG n w).idx = t.idx := rfl
@[simp] theorem Thread.setG_linear (t : Thread) (n : GNum) (w : Word) : (t.setG n w).linear = t.linear := rfl
@[simp] theorem Thread.setG_g (t : Thread) (n : GNum) (w : Word) : (t.setG n w).g = t.g.set n (GReg.ofWord w) := rfl
@[simp] theorem Thread.setG_v (t : Thread) (n : GNum) (w : Word) : (t.setG n w).v = t.v := rfl
@[simp] theorem Thread.setG_q (t : Thread) (n : GNum) (w : Word) : (t.setG n w).q = t.q := rfl
@[simp] theorem Thread.setG_h (t : Thread) (n : GNum) (w : Word) : (t.setG n w).h = t.h := rfl
@[simp] theorem Thread.setG_a (t : Thread) (n : GNum) (w : Word) : (t.setG n w).a = t.a := rfl
@[simp] theorem Thread.setG_pc (t : Thread) (n : GNum) (w : Word) : (t.setG n w).pc = t.pc := rfl
@[simp] theorem Thread.setG_fflags (t : Thread) (n : GNum) (w : Word) : (t.setG n w).fflags = t.fflags := rfl
@[simp] theorem Thread.setG_frm (t : Thread) (n : GNum) (w : Word) : (t.setG n w).frm = t.frm := rfl
@[simp] theorem Thread.setG_lfsr (t : Thread) (n : GNum) (w : Word) : (t.setG n w).lfsr = t.lfsr := rfl
@[simp] theorem Thread.setG_mxweight (t : Thread) (n : GNum) (w : Word) : (t.setG n w).mxweight = t.mxweight := rfl
@[simp] theorem Thread.setG_stepwin (t : Thread) (n : GNum) (w : Word) : (t.setG n w).stepwin = t.stepwin := rfl
@[simp] theorem Thread.setG_tvec (t : Thread) (n : GNum) (w : Word) : (t.setG n w).tvec = t.tvec := rfl
@[simp] theorem Thread.setG_tcause (t : Thread) (n : GNum) (w : Word) : (t.setG n w).tcause = t.tcause := rfl
@[simp] theorem Thread.setG_taddr (t : Thread) (n : GNum) (w : Word) : (t.setG n w).taddr = t.taddr := rfl
@[simp] theorem Thread.setG_tresume (t : Thread) (n : GNum) (w : Word) : (t.setG n w).tresume = t.tresume := rfl
@[simp] theorem Thread.setG_ocsel (t : Thread) (n : GNum) (w : Word) : (t.setG n w).ocsel = t.ocsel := rfl
@[simp] theorem Thread.setG_status (t : Thread) (n : GNum) (w : Word) : (t.setG n w).status = t.status := rfl
@[simp] theorem Thread.setG_since (t : Thread) (n : GNum) (w : Word) : (t.setG n w).since = t.since := rfl
@[simp] theorem Thread.setG_prog (t : Thread) (n : GNum) (w : Word) : (t.setG n w).prog = t.prog := rfl
@[simp] theorem Thread.setG_fetchFrom (t : Thread) (n : GNum) (w : Word) : (t.setG n w).fetchFrom = t.fetchFrom := rfl
@[simp] theorem Thread.setG_pauseUntil (t : Thread) (n : GNum) (w : Word) : (t.setG n w).pauseUntil = t.pauseUntil := rfl
@[simp] theorem Thread.setG_heldByHalt (t : Thread) (n : GNum) (w : Word) : (t.setG n w).heldByHalt = t.heldByHalt := rfl

/-! `Thread.emptyG` -/

@[simp] theorem Thread.emptyG_core (t : Thread) (n : GNum) : (t.emptyG n).core = t.core := rfl
@[simp] theorem Thread.emptyG_slot (t : Thread) (n : GNum) : (t.emptyG n).slot = t.slot := rfl
@[simp] theorem Thread.emptyG_cid (t : Thread) (n : GNum) : (t.emptyG n).cid = t.cid := rfl
@[simp] theorem Thread.emptyG_kind (t : Thread) (n : GNum) : (t.emptyG n).kind = t.kind := rfl
@[simp] theorem Thread.emptyG_launch (t : Thread) (n : GNum) : (t.emptyG n).launch = t.launch := rfl
@[simp] theorem Thread.emptyG_gang (t : Thread) (n : GNum) : (t.emptyG n).gang = t.gang := rfl
@[simp] theorem Thread.emptyG_forked (t : Thread) (n : GNum) : (t.emptyG n).forked = t.forked := rfl
@[simp] theorem Thread.emptyG_high (t : Thread) (n : GNum) : (t.emptyG n).high = t.high := rfl
@[simp] theorem Thread.emptyG_pool (t : Thread) (n : GNum) : (t.emptyG n).pool = t.pool := rfl
@[simp] theorem Thread.emptyG_idx (t : Thread) (n : GNum) : (t.emptyG n).idx = t.idx := rfl
@[simp] theorem Thread.emptyG_linear (t : Thread) (n : GNum) : (t.emptyG n).linear = t.linear := rfl
@[simp] theorem Thread.emptyG_g (t : Thread) (n : GNum) : (t.emptyG n).g = t.g.set n { val := t.gval n, st := .empty, src := 0, det := 0 } := rfl
@[simp] theorem Thread.emptyG_v (t : Thread) (n : GNum) : (t.emptyG n).v = t.v := rfl
@[simp] theorem Thread.emptyG_q (t : Thread) (n : GNum) : (t.emptyG n).q = t.q := rfl
@[simp] theorem Thread.emptyG_h (t : Thread) (n : GNum) : (t.emptyG n).h = t.h := rfl
@[simp] theorem Thread.emptyG_a (t : Thread) (n : GNum) : (t.emptyG n).a = t.a := rfl
@[simp] theorem Thread.emptyG_pc (t : Thread) (n : GNum) : (t.emptyG n).pc = t.pc := rfl
@[simp] theorem Thread.emptyG_fflags (t : Thread) (n : GNum) : (t.emptyG n).fflags = t.fflags := rfl
@[simp] theorem Thread.emptyG_frm (t : Thread) (n : GNum) : (t.emptyG n).frm = t.frm := rfl
@[simp] theorem Thread.emptyG_lfsr (t : Thread) (n : GNum) : (t.emptyG n).lfsr = t.lfsr := rfl
@[simp] theorem Thread.emptyG_mxweight (t : Thread) (n : GNum) : (t.emptyG n).mxweight = t.mxweight := rfl
@[simp] theorem Thread.emptyG_stepwin (t : Thread) (n : GNum) : (t.emptyG n).stepwin = t.stepwin := rfl
@[simp] theorem Thread.emptyG_tvec (t : Thread) (n : GNum) : (t.emptyG n).tvec = t.tvec := rfl
@[simp] theorem Thread.emptyG_tcause (t : Thread) (n : GNum) : (t.emptyG n).tcause = t.tcause := rfl
@[simp] theorem Thread.emptyG_taddr (t : Thread) (n : GNum) : (t.emptyG n).taddr = t.taddr := rfl
@[simp] theorem Thread.emptyG_tresume (t : Thread) (n : GNum) : (t.emptyG n).tresume = t.tresume := rfl
@[simp] theorem Thread.emptyG_ocsel (t : Thread) (n : GNum) : (t.emptyG n).ocsel = t.ocsel := rfl
@[simp] theorem Thread.emptyG_status (t : Thread) (n : GNum) : (t.emptyG n).status = t.status := rfl
@[simp] theorem Thread.emptyG_since (t : Thread) (n : GNum) : (t.emptyG n).since = t.since := rfl
@[simp] theorem Thread.emptyG_prog (t : Thread) (n : GNum) : (t.emptyG n).prog = t.prog := rfl
@[simp] theorem Thread.emptyG_fetchFrom (t : Thread) (n : GNum) : (t.emptyG n).fetchFrom = t.fetchFrom := rfl
@[simp] theorem Thread.emptyG_pauseUntil (t : Thread) (n : GNum) : (t.emptyG n).pauseUntil = t.pauseUntil := rfl
@[simp] theorem Thread.emptyG_heldByHalt (t : Thread) (n : GNum) : (t.emptyG n).heldByHalt = t.heldByHalt := rfl

/-! `Thread.emptyV` -/

@[simp] theorem Thread.emptyV_core (t : Thread) (n : VNum) : (t.emptyV n).core = t.core := rfl
@[simp] theorem Thread.emptyV_slot (t : Thread) (n : VNum) : (t.emptyV n).slot = t.slot := rfl
@[simp] theorem Thread.emptyV_cid (t : Thread) (n : VNum) : (t.emptyV n).cid = t.cid := rfl
@[simp] theorem Thread.emptyV_kind (t : Thread) (n : VNum) : (t.emptyV n).kind = t.kind := rfl
@[simp] theorem Thread.emptyV_launch (t : Thread) (n : VNum) : (t.emptyV n).launch = t.launch := rfl
@[simp] theorem Thread.emptyV_gang (t : Thread) (n : VNum) : (t.emptyV n).gang = t.gang := rfl
@[simp] theorem Thread.emptyV_forked (t : Thread) (n : VNum) : (t.emptyV n).forked = t.forked := rfl
@[simp] theorem Thread.emptyV_high (t : Thread) (n : VNum) : (t.emptyV n).high = t.high := rfl
@[simp] theorem Thread.emptyV_pool (t : Thread) (n : VNum) : (t.emptyV n).pool = t.pool := rfl
@[simp] theorem Thread.emptyV_idx (t : Thread) (n : VNum) : (t.emptyV n).idx = t.idx := rfl
@[simp] theorem Thread.emptyV_linear (t : Thread) (n : VNum) : (t.emptyV n).linear = t.linear := rfl
@[simp] theorem Thread.emptyV_g (t : Thread) (n : VNum) : (t.emptyV n).g = t.g := rfl
@[simp] theorem Thread.emptyV_v (t : Thread) (n : VNum) : (t.emptyV n).v = t.v.set n { st := .empty, src := 0, det := 0 } := rfl
@[simp] theorem Thread.emptyV_q (t : Thread) (n : VNum) : (t.emptyV n).q = t.q := rfl
@[simp] theorem Thread.emptyV_h (t : Thread) (n : VNum) : (t.emptyV n).h = t.h := rfl
@[simp] theorem Thread.emptyV_a (t : Thread) (n : VNum) : (t.emptyV n).a = t.a := rfl
@[simp] theorem Thread.emptyV_pc (t : Thread) (n : VNum) : (t.emptyV n).pc = t.pc := rfl
@[simp] theorem Thread.emptyV_fflags (t : Thread) (n : VNum) : (t.emptyV n).fflags = t.fflags := rfl
@[simp] theorem Thread.emptyV_frm (t : Thread) (n : VNum) : (t.emptyV n).frm = t.frm := rfl
@[simp] theorem Thread.emptyV_lfsr (t : Thread) (n : VNum) : (t.emptyV n).lfsr = t.lfsr := rfl
@[simp] theorem Thread.emptyV_mxweight (t : Thread) (n : VNum) : (t.emptyV n).mxweight = t.mxweight := rfl
@[simp] theorem Thread.emptyV_stepwin (t : Thread) (n : VNum) : (t.emptyV n).stepwin = t.stepwin := rfl
@[simp] theorem Thread.emptyV_tvec (t : Thread) (n : VNum) : (t.emptyV n).tvec = t.tvec := rfl
@[simp] theorem Thread.emptyV_tcause (t : Thread) (n : VNum) : (t.emptyV n).tcause = t.tcause := rfl
@[simp] theorem Thread.emptyV_taddr (t : Thread) (n : VNum) : (t.emptyV n).taddr = t.taddr := rfl
@[simp] theorem Thread.emptyV_tresume (t : Thread) (n : VNum) : (t.emptyV n).tresume = t.tresume := rfl
@[simp] theorem Thread.emptyV_ocsel (t : Thread) (n : VNum) : (t.emptyV n).ocsel = t.ocsel := rfl
@[simp] theorem Thread.emptyV_status (t : Thread) (n : VNum) : (t.emptyV n).status = t.status := rfl
@[simp] theorem Thread.emptyV_since (t : Thread) (n : VNum) : (t.emptyV n).since = t.since := rfl
@[simp] theorem Thread.emptyV_prog (t : Thread) (n : VNum) : (t.emptyV n).prog = t.prog := rfl
@[simp] theorem Thread.emptyV_fetchFrom (t : Thread) (n : VNum) : (t.emptyV n).fetchFrom = t.fetchFrom := rfl
@[simp] theorem Thread.emptyV_pauseUntil (t : Thread) (n : VNum) : (t.emptyV n).pauseUntil = t.pauseUntil := rfl
@[simp] theorem Thread.emptyV_heldByHalt (t : Thread) (n : VNum) : (t.emptyV n).heldByHalt = t.heldByHalt := rfl

/-! `Thread.poisonG` -/

@[simp] theorem Thread.poisonG_core (t : Thread) (n : GNum) (src : Word) (det : Byte) : (t.poisonG n src det).core = t.core := rfl
@[simp] theorem Thread.poisonG_slot (t : Thread) (n : GNum) (src : Word) (det : Byte) : (t.poisonG n src det).slot = t.slot := rfl
@[simp] theorem Thread.poisonG_cid (t : Thread) (n : GNum) (src : Word) (det : Byte) : (t.poisonG n src det).cid = t.cid := rfl
@[simp] theorem Thread.poisonG_kind (t : Thread) (n : GNum) (src : Word) (det : Byte) : (t.poisonG n src det).kind = t.kind := rfl
@[simp] theorem Thread.poisonG_launch (t : Thread) (n : GNum) (src : Word) (det : Byte) : (t.poisonG n src det).launch = t.launch := rfl
@[simp] theorem Thread.poisonG_gang (t : Thread) (n : GNum) (src : Word) (det : Byte) : (t.poisonG n src det).gang = t.gang := rfl
@[simp] theorem Thread.poisonG_forked (t : Thread) (n : GNum) (src : Word) (det : Byte) : (t.poisonG n src det).forked = t.forked := rfl
@[simp] theorem Thread.poisonG_high (t : Thread) (n : GNum) (src : Word) (det : Byte) : (t.poisonG n src det).high = t.high := rfl
@[simp] theorem Thread.poisonG_pool (t : Thread) (n : GNum) (src : Word) (det : Byte) : (t.poisonG n src det).pool = t.pool := rfl
@[simp] theorem Thread.poisonG_idx (t : Thread) (n : GNum) (src : Word) (det : Byte) : (t.poisonG n src det).idx = t.idx := rfl
@[simp] theorem Thread.poisonG_linear (t : Thread) (n : GNum) (src : Word) (det : Byte) : (t.poisonG n src det).linear = t.linear := rfl
@[simp] theorem Thread.poisonG_g (t : Thread) (n : GNum) (src : Word) (det : Byte) : (t.poisonG n src det).g = t.g.set n { val := t.gval n, st := .poison, src := src, det := det } := rfl
@[simp] theorem Thread.poisonG_v (t : Thread) (n : GNum) (src : Word) (det : Byte) : (t.poisonG n src det).v = t.v := rfl
@[simp] theorem Thread.poisonG_q (t : Thread) (n : GNum) (src : Word) (det : Byte) : (t.poisonG n src det).q = t.q := rfl
@[simp] theorem Thread.poisonG_h (t : Thread) (n : GNum) (src : Word) (det : Byte) : (t.poisonG n src det).h = t.h := rfl
@[simp] theorem Thread.poisonG_a (t : Thread) (n : GNum) (src : Word) (det : Byte) : (t.poisonG n src det).a = t.a := rfl
@[simp] theorem Thread.poisonG_pc (t : Thread) (n : GNum) (src : Word) (det : Byte) : (t.poisonG n src det).pc = t.pc := rfl
@[simp] theorem Thread.poisonG_fflags (t : Thread) (n : GNum) (src : Word) (det : Byte) : (t.poisonG n src det).fflags = t.fflags := rfl
@[simp] theorem Thread.poisonG_frm (t : Thread) (n : GNum) (src : Word) (det : Byte) : (t.poisonG n src det).frm = t.frm := rfl
@[simp] theorem Thread.poisonG_lfsr (t : Thread) (n : GNum) (src : Word) (det : Byte) : (t.poisonG n src det).lfsr = t.lfsr := rfl
@[simp] theorem Thread.poisonG_mxweight (t : Thread) (n : GNum) (src : Word) (det : Byte) : (t.poisonG n src det).mxweight = t.mxweight := rfl
@[simp] theorem Thread.poisonG_stepwin (t : Thread) (n : GNum) (src : Word) (det : Byte) : (t.poisonG n src det).stepwin = t.stepwin := rfl
@[simp] theorem Thread.poisonG_tvec (t : Thread) (n : GNum) (src : Word) (det : Byte) : (t.poisonG n src det).tvec = t.tvec := rfl
@[simp] theorem Thread.poisonG_tcause (t : Thread) (n : GNum) (src : Word) (det : Byte) : (t.poisonG n src det).tcause = t.tcause := rfl
@[simp] theorem Thread.poisonG_taddr (t : Thread) (n : GNum) (src : Word) (det : Byte) : (t.poisonG n src det).taddr = t.taddr := rfl
@[simp] theorem Thread.poisonG_tresume (t : Thread) (n : GNum) (src : Word) (det : Byte) : (t.poisonG n src det).tresume = t.tresume := rfl
@[simp] theorem Thread.poisonG_ocsel (t : Thread) (n : GNum) (src : Word) (det : Byte) : (t.poisonG n src det).ocsel = t.ocsel := rfl
@[simp] theorem Thread.poisonG_status (t : Thread) (n : GNum) (src : Word) (det : Byte) : (t.poisonG n src det).status = t.status := rfl
@[simp] theorem Thread.poisonG_since (t : Thread) (n : GNum) (src : Word) (det : Byte) : (t.poisonG n src det).since = t.since := rfl
@[simp] theorem Thread.poisonG_prog (t : Thread) (n : GNum) (src : Word) (det : Byte) : (t.poisonG n src det).prog = t.prog := rfl
@[simp] theorem Thread.poisonG_fetchFrom (t : Thread) (n : GNum) (src : Word) (det : Byte) : (t.poisonG n src det).fetchFrom = t.fetchFrom := rfl
@[simp] theorem Thread.poisonG_pauseUntil (t : Thread) (n : GNum) (src : Word) (det : Byte) : (t.poisonG n src det).pauseUntil = t.pauseUntil := rfl
@[simp] theorem Thread.poisonG_heldByHalt (t : Thread) (n : GNum) (src : Word) (det : Byte) : (t.poisonG n src det).heldByHalt = t.heldByHalt := rfl

/-! `Thread.poisonV` -/

@[simp] theorem Thread.poisonV_core (t : Thread) (n : VNum) (src : Word) (det : Byte) : (t.poisonV n src det).core = t.core := rfl
@[simp] theorem Thread.poisonV_slot (t : Thread) (n : VNum) (src : Word) (det : Byte) : (t.poisonV n src det).slot = t.slot := rfl
@[simp] theorem Thread.poisonV_cid (t : Thread) (n : VNum) (src : Word) (det : Byte) : (t.poisonV n src det).cid = t.cid := rfl
@[simp] theorem Thread.poisonV_kind (t : Thread) (n : VNum) (src : Word) (det : Byte) : (t.poisonV n src det).kind = t.kind := rfl
@[simp] theorem Thread.poisonV_launch (t : Thread) (n : VNum) (src : Word) (det : Byte) : (t.poisonV n src det).launch = t.launch := rfl
@[simp] theorem Thread.poisonV_gang (t : Thread) (n : VNum) (src : Word) (det : Byte) : (t.poisonV n src det).gang = t.gang := rfl
@[simp] theorem Thread.poisonV_forked (t : Thread) (n : VNum) (src : Word) (det : Byte) : (t.poisonV n src det).forked = t.forked := rfl
@[simp] theorem Thread.poisonV_high (t : Thread) (n : VNum) (src : Word) (det : Byte) : (t.poisonV n src det).high = t.high := rfl
@[simp] theorem Thread.poisonV_pool (t : Thread) (n : VNum) (src : Word) (det : Byte) : (t.poisonV n src det).pool = t.pool := rfl
@[simp] theorem Thread.poisonV_idx (t : Thread) (n : VNum) (src : Word) (det : Byte) : (t.poisonV n src det).idx = t.idx := rfl
@[simp] theorem Thread.poisonV_linear (t : Thread) (n : VNum) (src : Word) (det : Byte) : (t.poisonV n src det).linear = t.linear := rfl
@[simp] theorem Thread.poisonV_g (t : Thread) (n : VNum) (src : Word) (det : Byte) : (t.poisonV n src det).g = t.g := rfl
@[simp] theorem Thread.poisonV_v (t : Thread) (n : VNum) (src : Word) (det : Byte) : (t.poisonV n src det).v = t.v.set n { st := .poison, src := src, det := det } := rfl
@[simp] theorem Thread.poisonV_q (t : Thread) (n : VNum) (src : Word) (det : Byte) : (t.poisonV n src det).q = t.q := rfl
@[simp] theorem Thread.poisonV_h (t : Thread) (n : VNum) (src : Word) (det : Byte) : (t.poisonV n src det).h = t.h := rfl
@[simp] theorem Thread.poisonV_a (t : Thread) (n : VNum) (src : Word) (det : Byte) : (t.poisonV n src det).a = t.a := rfl
@[simp] theorem Thread.poisonV_pc (t : Thread) (n : VNum) (src : Word) (det : Byte) : (t.poisonV n src det).pc = t.pc := rfl
@[simp] theorem Thread.poisonV_fflags (t : Thread) (n : VNum) (src : Word) (det : Byte) : (t.poisonV n src det).fflags = t.fflags := rfl
@[simp] theorem Thread.poisonV_frm (t : Thread) (n : VNum) (src : Word) (det : Byte) : (t.poisonV n src det).frm = t.frm := rfl
@[simp] theorem Thread.poisonV_lfsr (t : Thread) (n : VNum) (src : Word) (det : Byte) : (t.poisonV n src det).lfsr = t.lfsr := rfl
@[simp] theorem Thread.poisonV_mxweight (t : Thread) (n : VNum) (src : Word) (det : Byte) : (t.poisonV n src det).mxweight = t.mxweight := rfl
@[simp] theorem Thread.poisonV_stepwin (t : Thread) (n : VNum) (src : Word) (det : Byte) : (t.poisonV n src det).stepwin = t.stepwin := rfl
@[simp] theorem Thread.poisonV_tvec (t : Thread) (n : VNum) (src : Word) (det : Byte) : (t.poisonV n src det).tvec = t.tvec := rfl
@[simp] theorem Thread.poisonV_tcause (t : Thread) (n : VNum) (src : Word) (det : Byte) : (t.poisonV n src det).tcause = t.tcause := rfl
@[simp] theorem Thread.poisonV_taddr (t : Thread) (n : VNum) (src : Word) (det : Byte) : (t.poisonV n src det).taddr = t.taddr := rfl
@[simp] theorem Thread.poisonV_tresume (t : Thread) (n : VNum) (src : Word) (det : Byte) : (t.poisonV n src det).tresume = t.tresume := rfl
@[simp] theorem Thread.poisonV_ocsel (t : Thread) (n : VNum) (src : Word) (det : Byte) : (t.poisonV n src det).ocsel = t.ocsel := rfl
@[simp] theorem Thread.poisonV_status (t : Thread) (n : VNum) (src : Word) (det : Byte) : (t.poisonV n src det).status = t.status := rfl
@[simp] theorem Thread.poisonV_since (t : Thread) (n : VNum) (src : Word) (det : Byte) : (t.poisonV n src det).since = t.since := rfl
@[simp] theorem Thread.poisonV_prog (t : Thread) (n : VNum) (src : Word) (det : Byte) : (t.poisonV n src det).prog = t.prog := rfl
@[simp] theorem Thread.poisonV_fetchFrom (t : Thread) (n : VNum) (src : Word) (det : Byte) : (t.poisonV n src det).fetchFrom = t.fetchFrom := rfl
@[simp] theorem Thread.poisonV_pauseUntil (t : Thread) (n : VNum) (src : Word) (det : Byte) : (t.poisonV n src det).pauseUntil = t.pauseUntil := rfl
@[simp] theorem Thread.poisonV_heldByHalt (t : Thread) (n : VNum) (src : Word) (det : Byte) : (t.poisonV n src det).heldByHalt = t.heldByHalt := rfl

/-! `Thread.addFlags` -/

@[simp] theorem Thread.addFlags_core (t : Thread) (f : Flags) : (t.addFlags f).core = t.core := rfl
@[simp] theorem Thread.addFlags_slot (t : Thread) (f : Flags) : (t.addFlags f).slot = t.slot := rfl
@[simp] theorem Thread.addFlags_cid (t : Thread) (f : Flags) : (t.addFlags f).cid = t.cid := rfl
@[simp] theorem Thread.addFlags_kind (t : Thread) (f : Flags) : (t.addFlags f).kind = t.kind := rfl
@[simp] theorem Thread.addFlags_launch (t : Thread) (f : Flags) : (t.addFlags f).launch = t.launch := rfl
@[simp] theorem Thread.addFlags_gang (t : Thread) (f : Flags) : (t.addFlags f).gang = t.gang := rfl
@[simp] theorem Thread.addFlags_forked (t : Thread) (f : Flags) : (t.addFlags f).forked = t.forked := rfl
@[simp] theorem Thread.addFlags_high (t : Thread) (f : Flags) : (t.addFlags f).high = t.high := rfl
@[simp] theorem Thread.addFlags_pool (t : Thread) (f : Flags) : (t.addFlags f).pool = t.pool := rfl
@[simp] theorem Thread.addFlags_idx (t : Thread) (f : Flags) : (t.addFlags f).idx = t.idx := rfl
@[simp] theorem Thread.addFlags_linear (t : Thread) (f : Flags) : (t.addFlags f).linear = t.linear := rfl
@[simp] theorem Thread.addFlags_g (t : Thread) (f : Flags) : (t.addFlags f).g = t.g := rfl
@[simp] theorem Thread.addFlags_v (t : Thread) (f : Flags) : (t.addFlags f).v = t.v := rfl
@[simp] theorem Thread.addFlags_q (t : Thread) (f : Flags) : (t.addFlags f).q = t.q := rfl
@[simp] theorem Thread.addFlags_h (t : Thread) (f : Flags) : (t.addFlags f).h = t.h := rfl
@[simp] theorem Thread.addFlags_a (t : Thread) (f : Flags) : (t.addFlags f).a = t.a := rfl
@[simp] theorem Thread.addFlags_pc (t : Thread) (f : Flags) : (t.addFlags f).pc = t.pc := rfl
@[simp] theorem Thread.addFlags_fflags (t : Thread) (f : Flags) : (t.addFlags f).fflags = t.fflags ||| f := rfl
@[simp] theorem Thread.addFlags_frm (t : Thread) (f : Flags) : (t.addFlags f).frm = t.frm := rfl
@[simp] theorem Thread.addFlags_lfsr (t : Thread) (f : Flags) : (t.addFlags f).lfsr = t.lfsr := rfl
@[simp] theorem Thread.addFlags_mxweight (t : Thread) (f : Flags) : (t.addFlags f).mxweight = t.mxweight := rfl
@[simp] theorem Thread.addFlags_stepwin (t : Thread) (f : Flags) : (t.addFlags f).stepwin = t.stepwin := rfl
@[simp] theorem Thread.addFlags_tvec (t : Thread) (f : Flags) : (t.addFlags f).tvec = t.tvec := rfl
@[simp] theorem Thread.addFlags_tcause (t : Thread) (f : Flags) : (t.addFlags f).tcause = t.tcause := rfl
@[simp] theorem Thread.addFlags_taddr (t : Thread) (f : Flags) : (t.addFlags f).taddr = t.taddr := rfl
@[simp] theorem Thread.addFlags_tresume (t : Thread) (f : Flags) : (t.addFlags f).tresume = t.tresume := rfl
@[simp] theorem Thread.addFlags_ocsel (t : Thread) (f : Flags) : (t.addFlags f).ocsel = t.ocsel := rfl
@[simp] theorem Thread.addFlags_status (t : Thread) (f : Flags) : (t.addFlags f).status = t.status := rfl
@[simp] theorem Thread.addFlags_since (t : Thread) (f : Flags) : (t.addFlags f).since = t.since := rfl
@[simp] theorem Thread.addFlags_prog (t : Thread) (f : Flags) : (t.addFlags f).prog = t.prog := rfl
@[simp] theorem Thread.addFlags_fetchFrom (t : Thread) (f : Flags) : (t.addFlags f).fetchFrom = t.fetchFrom := rfl
@[simp] theorem Thread.addFlags_pauseUntil (t : Thread) (f : Flags) : (t.addFlags f).pauseUntil = t.pauseUntil := rfl
@[simp] theorem Thread.addFlags_heldByHalt (t : Thread) (f : Flags) : (t.addFlags f).heldByHalt = t.heldByHalt := rfl

end Sys2Proof.Machine
end

