-- ==== Sys2Proof/Laws/Tables.lean ====
section
/-! SUPPORT. Tables and memory: reading after writing, and the canonical form of memory. -/

namespace Sys2Proof.Machine

open Sys2Proof

/-! ### Tables -/

@[simp] theorem tget_nil {α : Type} (k : Nat) : tget k ([] : Table α) = none := rfl

theorem tget_cons {α : Type} (k j : Nat) (a : α) (t : Table α) :
    tget k ((j, a) :: t) = if k = j then some a else tget k t := rfl

/-- What was put at a key is there. -/
@[simp] theorem tget_tput {α : Type} (k : Nat) (x : α) (t : Table α) : tget k (tput k x t) = some x := by
  induction t with
  | nil => simp [tput, tget]
  | cons e t ih =>
    obtain ⟨j, a⟩ := e
    simp only [tput]
    split
    · simp [tget]
    · split
      · simp [tget]
      · rename_i h1 h2
        simp [tget, h2, ih]

/-- Putting at a key leaves the other keys. -/
theorem tget_tput_ne {α : Type} {k j : Nat} (h : k ≠ j) (x : α) (t : Table α) : tget k (tput j x t) = tget k t := by
  induction t with
  | nil => simp [tput, tget, h]
  | cons e t ih =>
    obtain ⟨i, a⟩ := e
    simp only [tput]
    split
    · simp [tget, h]
    · split
      · rename_i h1 h2
        subst h2
        simp [tget, h]
      · by_cases hi : k = i
        · simp [tget, hi]
        · simp [tget, hi, ih]

/-- What was deleted at a key is gone. -/
@[simp] theorem tget_tdel {α : Type} (k : Nat) (t : Table α) : tget k (tdel k t) = none := by
  induction t with
  | nil => rfl
  | cons e t ih =>
    obtain ⟨i, a⟩ := e
    simp only [tdel]
    split
    · exact ih
    · rename_i h
      simp [tget, h, ih]

/-- Deleting at a key leaves the other keys. -/
theorem tget_tdel_ne {α : Type} {k j : Nat} (h : k ≠ j) (t : Table α) : tget k (tdel j t) = tget k t := by
  induction t with
  | nil => rfl
  | cons e t ih =>
    obtain ⟨i, a⟩ := e
    simp only [tdel]
    split
    · rename_i hji
      subst hji
      simp [tget, h, ih]
    · by_cases hi : k = i
      · simp [tget, hi]
      · simp [tget, hi, ih]

/-- A change of every entry is read through. -/
@[simp] theorem tget_tmap {α : Type} (k : Nat) (f : Nat → α → α) (t : Table α) : tget k (tmap f t) = (tget k t).map (f k) := by
  induction t with
  | nil => rfl
  | cons e t ih =>
    obtain ⟨i, a⟩ := e
    by_cases hi : k = i
    · subst hi
      simp [tmap, tget]
    · have : tget k (tmap f ((i, a) :: t)) = tget k (tmap f t) := by simp [tmap, tget, hi]
      rw [this, ih]
      simp [tget, hi]

/-- An entry that a filter keeps is read through it. -/
theorem tget_filter {α : Type} (k : Nat) (p : Nat → α → Bool) (t : Table α) (h : ∀ a, tget k t = some a → p k a = true) :
    tget k (t.filter fun e => p e.1 e.2) = tget k t := by
  induction t with
  | nil => rfl
  | cons e t ih =>
    obtain ⟨i, a⟩ := e
    by_cases hi : k = i
    · subst hi
      have := h a (by simp [tget])
      simp [this, tget]
    · have hh : ∀ b, tget k t = some b → p k b = true := by
        intro b hb
        exact h b (by simp [tget, hi, hb])
      by_cases hp : p i a = true
      · simp [hp, tget, hi, ih hh]
      · simp [hp, tget, hi, ih hh]

/-! ### The canonical form of memory -/

/-- Every listed address lies above a bound. -/
def Memory.above (n : Nat) (m : List Host.Cell) : Prop := ∀ c ∈ m, n < c.1

/-- The canonical form, by its head. -/
theorem Memory.wf_cons (a : Nat) (b : Byte) (t : List Host.Cell) :
    Memory.wf ((a, b) :: t) = true ↔ b ≠ blankByte ∧ Memory.above a t ∧ Memory.wf t = true := by
  induction t generalizing a b with
  | nil => simp [Memory.wf, Memory.above]
  | cons e t ih =>
    obtain ⟨j, c⟩ := e
    have h2 := ih j c
    constructor
    · intro h
      have h' : (b ≠ blankByte ∧ a < j) ∧ Memory.wf ((j, c) :: t) = true := by
        simpa [Memory.wf] using h
      refine ⟨h'.1.1, ?_, h'.2⟩
      have h3 := h2.1 h'.2
      intro d hd
      rcases List.mem_cons.1 hd with rfl | hd
      · exact h'.1.2
      · exact Nat.lt_trans h'.1.2 (h3.2.1 d hd)
    · rintro ⟨h1, h3, h4⟩
      have : a < j := h3 (j, c) (by simp)
      have h5 : (b ≠ blankByte ∧ a < j) ∧ Memory.wf ((j, c) :: t) = true := ⟨⟨h1, this⟩, h4⟩
      simpa [Memory.wf] using h5

/-- A byte that no cell lists reads as blank. -/
theorem memByte_above {m : List Host.Cell} {a n : Nat} (h : Memory.above n m) (ha : a ≤ n) : memByte m a = blankByte := by
  induction m with
  | nil => rfl
  | cons e t ih =>
    obtain ⟨j, b⟩ := e
    have hj : n < j := h (j, b) (by simp)
    have : a ≠ j := by omega
    simp only [memByte, this, if_false]
    exact ih fun c hc => h c (by simp [hc])

/-- A written byte is read back. -/
theorem memByte_memPut {m : List Host.Cell} (h : Memory.wf m = true) (a : Nat) (b : Byte) : memByte (memPut m a b) a = b := by
  induction m with
  | nil =>
    simp only [memPut]
    split
    · rename_i hb; simp [memByte, hb]
    · simp [memByte]
  | cons e t ih =>
    obtain ⟨j, c⟩ := e
    obtain ⟨-, ht, hw⟩ := (Memory.wf_cons j c t).1 h
    simp only [memPut]
    split
    · rename_i haj
      split
      · rename_i hb
        have : a ≠ j := by omega
        simp only [memByte, this, if_false]
        rw [memByte_above ht (by omega), hb]
      · simp [memByte]
    · split
      · rename_i h1 h2
        subst h2
        split
        · rename_i hb
          rw [memByte_above ht (Nat.le_refl _), hb]
        · simp [memByte]
      · rename_i h1 h2
        simp [memByte, h2, ih hw]

/-- A write leaves every other byte. -/
theorem memByte_memPut_ne {a k : Nat} (hk : k ≠ a) (m : List Host.Cell) (b : Byte) : memByte (memPut m a b) k = memByte m k := by
  induction m with
  | nil =>
    simp only [memPut]
    split
    · rfl
    · simp [memByte, hk]
  | cons e t ih =>
    obtain ⟨j, c⟩ := e
    simp only [memPut]
    split
    · split
      · rfl
      · simp [memByte, hk]
    · split
      · rename_i h1 h2
        subst h2
        split
        · simp [memByte, hk]
        · simp [memByte, hk]
      · by_cases hj : k = j
        · simp [memByte, hj]
        · simp [memByte, hj, ih]

/-- A write adds at most its own address. -/
theorem mem_memPut {m : List Host.Cell} {a : Nat} {b : Byte} {c : Host.Cell} (h : c ∈ memPut m a b) : c.1 = a ∨ c ∈ m := by
  revert h
  induction m with
  | nil => simp only [memPut]; split_ifs <;> simp +contextual
  | cons e t ih =>
    simp only [memPut]
    split_ifs <;> simp only [List.mem_cons] <;> intro h <;> have hi := ih <;> aesop

/-- A write keeps the canonical form. -/
theorem memPut_wf {m : List Host.Cell} (h : Memory.wf m = true) (a : Nat) (b : Byte) : Memory.wf (memPut m a b) = true := by
  induction m with
  | nil =>
    simp only [memPut]
    split
    · rfl
    · rename_i hb; simp [Memory.wf, hb]
  | cons e t ih =>
    obtain ⟨j, c⟩ := e
    have hc := (Memory.wf_cons j c t).1 h
    simp only [memPut]
    split
    · rename_i haj
      split
      · exact h
      · rename_i hb
        refine (Memory.wf_cons a b _).2 ⟨hb, ?_, h⟩
        intro d hd
        rcases List.mem_cons.1 hd with rfl | hd
        · exact haj
        · exact Nat.lt_trans haj (hc.2.1 d hd)
    · split
      · rename_i h1 h2
        subst h2
        split
        · exact hc.2.2
        · rename_i hb
          exact (Memory.wf_cons a b t).2 ⟨hb, hc.2.1, hc.2.2⟩
      · rename_i h1 h2
        refine (Memory.wf_cons j c _).2 ⟨hc.1, ?_, ih hc.2.2⟩
        intro d hd
        rcases mem_memPut hd with hd | hd
        · omega
        · exact hc.2.1 d hd

/-- Writing bytes keeps the canonical form. -/
theorem memPutBytes_wf {m : List Host.Cell} (h : Memory.wf m = true) (a : Nat) (bs : List Byte) :
    Memory.wf (memPutBytes m a bs) = true := by
  induction bs generalizing m a with
  | nil => exact h
  | cons b bs ih => exact ih (memPut_wf h a b) (a + 1)

/-- Bytes outside the written ones stay. -/
theorem memByte_memPutBytes_out {m : List Host.Cell} {a k : Nat} {bs : List Byte} (hk : k < a ∨ a + bs.length ≤ k) :
    memByte (memPutBytes m a bs) k = memByte m k := by
  induction bs generalizing m a with
  | nil => rfl
  | cons b bs ih =>
    simp only [memPutBytes, List.length_cons] at *
    rw [ih (by omega), memByte_memPut_ne (by omega)]

/-- Written bytes are read back. -/
theorem memByte_memPutBytes {m : List Host.Cell} (h : Memory.wf m = true) (a : Nat) (bs : List Byte) (i : Nat) (hi : i < bs.length) :
    memByte (memPutBytes m a bs) (a + i) = bs.getD i 0 := by
  induction bs generalizing m a i with
  | nil => simp at hi
  | cons b bs ih =>
    simp only [memPutBytes]
    cases i with
    | zero =>
      show memByte _ a = _
      rw [memByte_memPutBytes_out (by omega), memByte_memPut h]
      simp
    | succ i =>
      have := ih (memPut_wf h a b) (a + 1) i (by simpa using hi)
      rw [show a + (i + 1) = a + 1 + i by omega, this]
      simp

/-- Reading as many bytes as were written gives them back. -/
theorem memBytes_memPutBytes {m : List Host.Cell} (h : Memory.wf m = true) (a : Nat) (bs : List Byte) :
    memBytes (memPutBytes m a bs) a bs.length = bs := by
  induction bs generalizing m a with
  | nil => rfl
  | cons b bs ih =>
    simp only [memPutBytes, List.length_cons, memBytes]
    rw [memByte_memPutBytes_out (by omega), memByte_memPut h, ih (memPut_wf h a b)]

@[simp] theorem memBytes_length (m : List Host.Cell) (a n : Nat) : (memBytes m a n).length = n := by
  induction n generalizing a with
  | zero => rfl
  | succ n ih => simp [memBytes, ih]

/-- Two reads one after the other are one. -/
theorem memBytes_append (m : List Host.Cell) (a n k : Nat) : memBytes m a (n + k) = memBytes m a n ++ memBytes m (a + n) k := by
  induction n generalizing a with
  | zero => simp [memBytes]
  | succ n ih => rw [show n + 1 + k = (n + k) + 1 by omega]; simp [memBytes, ih, show a + 1 + n = a + (n + 1) by omega]

/-- Dropping cells keeps the canonical form. -/
theorem filter_wf {m : List Host.Cell} (h : Memory.wf m = true) (p : Host.Cell → Bool) : Memory.wf (m.filter p) = true := by
  induction m with
  | nil => rfl
  | cons e t ih =>
    obtain ⟨j, c⟩ := e
    have hc := (Memory.wf_cons j c t).1 h
    by_cases hp : p (j, c) = true
    · simp only [List.filter_cons, hp, if_true]
      refine (Memory.wf_cons j c _).2 ⟨hc.1, ?_, ih hc.2.2⟩
      intro d hd
      exact hc.2.1 d (List.mem_filter.1 hd).1
    · simp only [List.filter_cons, hp]
      exact ih hc.2.2

/-! ### Numbers and bytes -/

@[simp] theorem leBytes_length (n x : Nat) : (leBytes n x).length = n := by
  induction n generalizing x with
  | zero => rfl
  | succ n ih => simp [leBytes, ih]

/-- The bytes of a number give it back, as far as they reach. -/
theorem leNat_leBytes (n x : Nat) : leNat (leBytes n x) = x % 256 ^ n := by
  induction n generalizing x with
  | zero => simp [leBytes, leNat, Nat.mod_one]
  | succ n ih =>
    simp only [leBytes, leNat, ih, BitVec.toNat_ofNat]
    rw [show 256 ^ (n + 1) = 256 * 256 ^ n by ring, Nat.mod_mul]

/-- Memory after reset is in canonical form. -/
theorem reset_mem_wf : Memory.wf State.reset.mem = true := rfl

end Sys2Proof.Machine
end

