-- ==== Sys2Proof/Safety.lean ====
section
/-! DEFINITION. The terms in which claims about the machine are stated: an agent that issues with its operands at hand, a host
function that is idle, the rows that are instructions of one kind, the memory's canonical form. -/

namespace Sys2Proof.Machine

open Sys2Proof

/-- Agent `u`, whose record is `t`, is the one that issues. -/
structure Issues (s : State) (u : Nat) (t : Thread) : Prop where
  cur : s.cur = some u
  thread : tget u s.threads = some t

/-- Agent `u` issues, its sources exist and are F, and its destinations exist, are not E, and no queued `mma` reads them (R63, R66
to R68, R190). -/
structure Goes (s : State) (u : Nat) (t : Thread) (srcs dsts : List RegName) : Prop extends Issues s u t where
  full : ∀ r ∈ srcs, t.hasReg r = true ∧ t.regSt r = .full
  free : ∀ r ∈ dsts, t.hasReg r = true ∧ t.regSt r ≠ .empty ∧ runHolds s u t r = false

/-- Agent `u` runs in a thread slot of a core with a matrix unit (R47, R71). -/
structure InThread (t : Thread) : Prop where
  thread : t.kind = .thread
  core : isSteward t.core = false

/-- The instruction retires and the next one follows it, with the agent's record changed to `t1` and the rest of the state to
`s1`. -/
def Retires (i : Instr) (s s1 : State) (u : Nat) (t t1 : Thread) : Prop :=
  exec i s = .next (retireTo s1 u t1 (t.pc + w64 i.len))

/-- The instruction writes one scalar register and does nothing else. -/
def Writes (i : Instr) (s : State) (u : Nat) (t : Thread) (d : GNum) (w : Word) : Prop := Retires i s s u t (t.setG d w)

/-- The instruction writes one vector register and does nothing else. -/
def WritesV (i : Instr) (s : State) (u : Nat) (t : Thread) (d : VNum) (x : BitVec 512) : Prop :=
  Retires i s (setVData s t d x) u t { t with v := t.v.set d VReg.fullReg }

/-- The instruction traps: the trap of R236 is taken, and nothing else happens. -/
def Traps (i : Instr) (s : State) (u : Nat) (t : Thread) (c : Cause) (det : Nat) (addr : Word) : Prop :=
  exec i s = .next (takeTrap s u c det addr t.pc)

/-- A register's fill is on its way: its result is pending under the next request number, and it is E (R65). -/
def sends (s : State) (u : Nat) (d : GNum) (bs : List Byte) (kf : Bool) (node : Option Nat) : State :=
  { s with pending := tput s.nextId { uid := u, dest := .g d false, bytes := bs, bad := none, kf := kf, node := node, slot := none } s.pending
           nextId := s.nextId + 1 }

/-- A host function is idle, and firmware runs (R254). -/
structure Idle (s : State) (fn : Nat) : Prop where
  idle : (s.fn fn).cmd = none
  boot : s.boot = 1

/-- The state after the write of `cmdgo` that starts a command (R255). -/
def running (s : State) (fn code : Nat) (cid : BitVec 16) : State :=
  s.setFn fn { s.fn fn with cmd := some { code := BitVec.ofNat 8 code, cid := cid, done := false, status := 0, result := 0 } }

/-- A function may issue a command on a context: it exists, is not the steward's, and belongs to the function's partition, or the PF
may act on it (R255). -/
structure MayAct (s : State) (fn : Nat) (cid : BitVec 16) (x : Context) (pfAny : Bool) : Prop where
  ctx : s.ctx? cid.toNat = some x
  named : cid.toNat ≠ 0xFFFF
  mine : x.part = (s.fn fn).part ∨ (pfAny = true ∧ fn = 0)

/-- The scalar register that an instruction of the scalar rows writes, if it writes one. -/
def scalarDest : Instr → Option GNum
  | .li _ d _ | .lih _ d _ | .lea _ d _ | .mov _ d _ | .add _ d _ | .addReg3 _ d _ _ | .addImm _ d _ | .sub _ d _ | .subReg3 _ d _ _
  | .subImm _ d _ | .mul _ d _ | .mulReg3 _ _ d _ _ | .mulhI64 _ d _ | .mulhN64 _ d _ | .divI64 _ d _ | .divN64 _ d _
  | .remI64 _ d _ | .remN64 _ d _ | .divRemReg3 _ _ d _ _ | .and _ d _ | .andn _ d _ | .or _ d _ | .xor _ d _ | .logicReg3 _ _ d _ _
  | .logicImm _ _ d _ | .shiftReg _ _ d _ | .shiftReg3 _ _ d _ _ | .shiftImm _ _ d _ | .clz _ d _ | .ctz _ d _ | .popc _ d _
  | .minMax _ _ d _ | .minMaxReg3 _ _ d _ _ | .sext _ _ d _ | .zext _ _ d _ | .cmp _ _ d _ _ | .sel _ d _ _ | .loop _ d _
  | .call _ d _ | .sysr _ _ d | .ctrr _ d => some d
  | _ => none

/-- The rows that act on scalar registers and the PC alone: page 0's arithmetic, branches, `svc`, `brk`, `sysr`, `ctrr`, `tret`. -/
def isScalarRow : Instr → Bool
  | .nop _ | .pause _ | .align _ | .bCond _ _ _ _ _ | .bCondUnsigned _ _ _ _ _ | .bz _ _ _ | .j _ _ | .jr _ _ | .ret _ _
  | .svc _ _ | .brk _ | .tret _ => true
  | i => (scalarDest i).isSome

/-- What an instruction leaves of an agent's record when it writes at most one scalar register: every other scalar register, every
other register file, the handles, the flags and modes, the agent's place and launch. -/
structure KeepsBut (d : Option GNum) (t t1 : Thread) : Prop where
  g : ∀ n : GNum, d ≠ some n → t1.g.get n = t.g.get n
  v : t1.v = t.v
  q : t1.q = t.q
  h : t1.h = t.h
  a : t1.a = t.a
  fflags : t1.fflags = t.fflags
  frm : t1.frm = t.frm
  lfsr : t1.lfsr = t.lfsr
  mxweight : t1.mxweight = t.mxweight
  stepwin : t1.stepwin = t.stepwin
  ocsel : t1.ocsel = t.ocsel
  place : (t1.core, t1.slot, t1.cid, t1.kind, t1.launch, t1.pool) = (t.core, t.slot, t.cid, t.kind, t.launch, t.pool)

/-- The quotient and remainder of R332, over the integers: a divisor of 0 gives −1 (all ones) and the dividend; else the signed forms
truncate toward zero, and −2^63 by −1 gives −2^63 and 0. -/
def divided (v : Fin 4) (a b : Word) : Word :=
  match v with
  | 0 => if b = 0 then BitVec.allOnes 64 else BitVec.ofInt 64 (Int.tdiv a.toInt b.toInt)
  | 1 => if b = 0 then BitVec.allOnes 64 else w64 (a.toNat / b.toNat)
  | 2 => if b = 0 then a else BitVec.ofInt 64 (a.toInt - Int.tdiv a.toInt b.toInt * b.toInt)
  | 3 => if b = 0 then a else w64 (a.toNat - a.toNat / b.toNat * b.toNat)

/-- The shifts of R382 of a by n: `shl` and `rot` toward bit 63, `shr` with zeros, `sar` with copies of bit 63. -/
def shifted (v : Fin 4) (a : Word) (n : Nat) : Word :=
  match v with
  | 0 => w64 (a.toNat * 2 ^ n)
  | 1 => w64 (a.toNat / 2 ^ n)
  | 2 => BitVec.ofInt 64 (a.toInt / 2 ^ n)
  | 3 => w64 (a.toNat * 2 ^ n + a.toNat / 2 ^ (64 - n))

/-- The registers that a form of `exit` names, in the order named (R335). -/
def exitRegs : Instr → Option (List GNum)
  | .exit _ => some []
  | .exit1 _ a => some [a]
  | .exit2 _ a b => some [a, b]
  | .exit3 _ a b c => some [a, b, c]
  | .exit4 _ a b c e => some [a, b, c, e]
  | _ => none

/-- A thread has ended: its slot is Free, and its launch counts one more retired work item and no failed one (R37, R40). -/
structure Ended (s s1 : State) (u : Nat) (t : Thread) : Prop where
  gone : tget u s1.threads = none
  counted : ∀ l x, t.launch = some l → tget l s.launches = some x →
    ∃ x1, tget l s1.launches = some x1 ∧ x1.retired = x.retired + 1 ∧ x1.failed = x.failed

/-- The addresses in the device queue of a context, oldest first (R40). -/
def devQueue (s : State) (cid : Nat) : List Word :=
  match s.ctx? cid with
  | some x => x.devq.map fun e => e.addr
  | none => []

/-- A thread may name these successors: they are aligned, its overflow ring is empty, and its device queue has room (R40). -/
structure Queues (s : State) (t : Thread) (as : List Word) : Prop where
  aligned : ∀ a ∈ as, a.toNat % 256 = 0
  room : ∃ x, s.ctx? t.cid = some x ∧ x.ovhead = x.ovtail ∧ x.devq.length + as.length ≤ 256

/-- The agent begins an instruction: it is not one that waits, no acquire of the agent is outstanding, and where the SYNC prefix orders
it after them, its earlier accesses are performed (R141, R163). -/
structure Begins (s : State) (u : Nat) (t : Thread) (y : Sync) : Prop where
  fresh : t.prog = .none
  noAcquire : acquirePending s u = false
  ordered : 2 ≤ syOrder y → accessesBefore s u s.nextId = false

/-- The key of a byte of the agent's own pool. -/
def ownKey (t : Thread) (va : Word) : Nat := poolBase t.core + va.toNat

/-- `n` bytes from an address lie in the agent's own pool below its vector storage, in no word in P (R61, R99, R147). -/
structure InOwn (s : State) (t : Thread) (va : Word) (n : Nat) : Prop where
  below : va.toNat + n ≤ vbaseOf (s.core t.core).pool
  clean : touchesPoison s (ownKey t va) n = false

/-- The bytes of a range hold these values after, every byte outside it what it held before, and no word state changed. -/
structure Stored (s s1 : State) (key : Nat) (bs : List Byte) : Prop where
  inside : memBytes s1.mem key bs.length = bs
  outside : ∀ a, (a < key ∨ key + bs.length ≤ a) → memByte s1.mem a = memByte s.mem a
  states : ∀ k, s1.word k = s.word k

/-- An access of an agent with these pieces at these places is in flight, of this kind and for this register. -/
structure Sent (a : Access) (u : Nat) (k : AccKind) (d : Dest) (locs : List Where) (bytes : List (List Byte)) : Prop where
  uid : a.uid = u
  kind : a.kind = k
  dest : a.dest = d
  phase : a.phase = .flying
  locs : a.pieces.map (fun p => p.loc) = locs
  bytes : a.pieces.map (fun p => p.bytes) = bytes

/-- No word holds a soft error whose record is due (R246). -/
def NoSoft (s : State) : Prop := ∀ k, softHere s k = false

/-- Memory of this device at a byte takes the accesses of a tenant: the page is that tenant's, its seal is verified, and it may be written
(R103, R130, R134). -/
structure Takes (s : State) (key tenant : Nat) : Prop where
  owner : s.ownerOf (key / 4096) = tenant
  verified : (s.seal (key / 4096)).failed = false ∧ (s.seal (key / 4096)).cached = true
  writable : sealFrozen s (key / 4096) = false

/-- A piece of an access may be performed at its owner: the access is in flight with this one piece, which lies at a byte of a pool or of
memory that takes it, in no word in P, and nothing orders it after another (R141, R144, R158). -/
structure AtByte (s : State) (id : Nat) (a : Access) (p : Piece) (key : Nat) : Prop where
  there : tget id s.accs = some a
  only : a.pieces = [p]
  loc : p.loc = .here key
  place : isPoolKey key = true ∨ Takes s key p.tenant
  may : mayPerform s id a p = true
  clean : touchesPoison s key p.bytes.length = false
  noSoft : NoSoft s

/-! ### Vectors -/

/-- The mask bit that governs element j of a type (R60). -/
def maskBit (ty : EType) (j : Nat) : Nat :=
  match ty.bits with
  | 64 => j
  | 32 => j
  | 16 => j / 2
  | 8 => j / 4
  | _ => j / 8

/-- Whether element j is active under a mask (R405). -/
def governs (k : VMask) (t : Thread) (ty : EType) (j : Nat) : Bool := !k.m || (t.q.get k.q).getLsbD (maskBit ty j)

/-- The active elements of a register. -/
def actives (k : VMask) (t : Thread) (ty : EType) : List Nat := (List.range (512 / ty.bits)).filter (governs k t ty)

/-- How many of the elements below j are active: the steps of the generator that precede element j's (R85). -/
def rankOf (k : VMask) (t : Thread) (ty : EType) (j : Nat) : Nat := ((List.range j).filter (governs k t ty)).length

/-- The type of a conversion whose elements fill a register (R412). -/
def widerOf (a b : EType) : EType := if a.bits < b.bits then b else a

/-- The first element of type `a` of the group that p selects, in a conversion with type `b` (R412). -/
def groupStart (a b : EType) (p : Fin 4) : Nat := if a.bits < b.bits then p.val * (512 / b.bits) else 0

/-- Element j of a vector register, of a type (R60). -/
def element (s : State) (t : Thread) (ty : EType) (n : VNum) (j : Nat) : Nat := (vval s t n).toNat / 2 ^ (ty.bits * j) % 2 ^ ty.bits

/-- The integer that an element of an integer type holds (R82). -/
def intOf (ty : EType) (x : Nat) : Int := if ty.isSigned then (BitVec.ofNat ty.bits x).toInt else x

/-- Nothing of the request with this number is on its way. -/
structure Landed (s : State) (id : Nat) : Prop where
  pending : tget id s.pending = none
  accs : tget id s.accs = none
  forks : tget id s.forks = none
  wds : tget id s.wds = none
  saved : ∀ e ∈ s.areas, tget id e.2.waiters = none

/-- Under keep-full the instruction has sent its access, with these pieces at these places, and its agent waits at it, its registers as they
were (R69). -/
def Keeps (i : Instr) (s : State) (u : Nat) (t : Thread) (k : AccKind) (d : Dest) (locs : List Where) (bytes : List (List Byte)) : Prop :=
  ∃ a, exec i s = blockAt (sendAccess s a) u t .result (.sent s.nextId) ∧ Sent a u k d locs bytes ∧ a.kf = true

/-- Register d holds these elements where the mask says so and keeps its others; memory outside it, word states and scalar registers
stay. -/
structure Elements (s s1 : State) (t t1 : Thread) (k : VMask) (ty : EType) (d : VNum) (r : Nat → Nat) : Prop where
  active : ∀ j, j < 512 / ty.bits → governs k t ty j = true → element s1 t ty d j = r j
  inactive : ∀ j, j < 512 / ty.bits → governs k t ty j = false → element s1 t ty d j = element s t ty d j
  rest : ∀ a, (a < vregKey t.core t.pool t.slot d.val ∨ vregKey t.core t.pool t.slot d.val + 64 ≤ a) → memByte s1.mem a = memByte s.mem a
  states : ∀ w, s1.word w = s.word w
  scalars : t1.g = t.g
  masks : t1.q = t.q
  vectors : ∀ n, n ≠ d → t1.v.get n = t.v.get n

/-- An op counter of the agent's context rose by a number, up to its maximum, and no other did (R265, R266); none did once the
context's final report was written (R269; log 63). -/
def Counted (s s1 : State) (t : Thread) (cls : Fin 13) (n : Nat) : Prop :=
  ∀ x, s.ctx? t.cid = some x → ∃ x1, s1.ctx? t.cid = some x1
    ∧ (x1.counters.get cls).toNat = (if x.final then (x.counters.get cls).toNat else min ((x.counters.get cls).toNat + n) (2 ^ 64 - 1)) ∧ ∀ c, c ≠ cls → x1.counters.get c = x.counters.get c

/-- The instruction computes these elements, raises these flags and counts `each` for every active element (R87, R265, R405). -/
def Computes (i : Instr) (s : State) (u : Nat) (t : Thread) (k : VMask) (ty : EType) (d : VNum) (r : Nat → Nat) (fl : Flags)
    (cls : Fin 13) (each : Nat) : Prop :=
  ∃ s1 t1, Retires i s s1 u t t1 ∧ Elements s s1 t t1 k ty d r ∧ t1.fflags = t.fflags ||| fl
    ∧ Counted s s1 t cls (each * (actives k t ty).length)

/-- The instruction computes these results of a floating operation, with the flags of the active ones. -/
def ComputesF (i : Instr) (s : State) (u : Nat) (t : Thread) (k : VMask) (ty : EType) (d : VNum) (r : Nat → Nat × Flags) (each : Nat) : Prop :=
  Computes i s u t k ty d (fun j => (r j).1 % 2 ^ ty.bits) ((actives k t ty).foldl (fun g j => g ||| (r j).2) 0) (countClass ty) each

/-- The instruction moves these elements, without flags or counts. -/
def Moves (i : Instr) (s : State) (u : Nat) (t : Thread) (k : VMask) (ty : EType) (d : VNum) (r : Nat → Nat) : Prop :=
  ∃ s1 t1, Retires i s s1 u t t1 ∧ Elements s s1 t t1 k ty d r ∧ t1.fflags = t.fflags ∧ s1.contexts = s.contexts

/-! ### Floating results -/

/-- A format holds a finite number of this sign and magnitude under this encoding (R79). -/
def Holds (ty : EType) (x : Nat) (neg : Bool) (z : ℚ) : Prop :=
  x < 2 ^ (fmtOf ty).bits ∧ ∃ (m : Nat) (e : Int), decodeF ty x = .fin neg m e ∧ z = m * (2 : ℚ) ^ e

/-- A magnitude with its sign. -/
def withSign (neg : Bool) (z : ℚ) : ℚ := if neg then -z else z

/-- The largest finite magnitude of a format, the gap below it, and the smallest normal magnitude (R79). -/
def topOf (ty : EType) : ℚ := (fmtOf ty).maxFin.1 * (2 : ℚ) ^ (fmtOf ty).maxFin.2
/-- The gap of the largest finite magnitude to the one below it. -/
def gapOf (ty : EType) : ℚ := (2 : ℚ) ^ (fmtOf ty).maxFin.2
/-- The smallest normal magnitude of a format. -/
def leastNormal (ty : EType) : ℚ := (2 : ℚ) ^ (1 - ((fmtOf ty).bias : Int))

/-- Whether a mode takes a magnitude with this sign toward zero (R84). -/
def towardZero (mode : Nat) (neg : Bool) : Bool := mode == 1 || (mode == 2 && !neg) || (mode == 3 && neg)
/-- Whether a mode takes a magnitude with this sign away from zero. -/
def fromZero (mode : Nat) (neg : Bool) : Bool := (mode == 2 && neg) || (mode == 3 && !neg)

/-- z, under the encoding x, is the magnitude that a mode takes for q among those of the format (R84). -/
structure Nearest (ty : EType) (mode : Nat) (neg : Bool) (q : ℝ) (x : Nat) (z : ℚ) : Prop where
  held : Holds ty x neg z
  toward : towardZero mode neg = true → (z : ℝ) ≤ q ∧ ∀ y w, Holds ty y neg w → (w : ℝ) ≤ q → w ≤ z
  away : fromZero mode neg = true → q ≤ (z : ℝ) ∧ ∀ y w, Holds ty y neg w → q ≤ (w : ℝ) → z ≤ w
  near : mode = 0 → ∀ y w, Holds ty y neg w → |(z : ℝ) - q| ≤ |(w : ℝ) - q| ∧ (|(z : ℝ) - q| = |(w : ℝ) - q| → w ≠ z → x % 2 = 0)

/-- Whether the rounding of a magnitude above the largest finite one, with the exponent unbounded, exceeds it (R84, R86); at the middle
of the gap the even one is taken, which is the largest finite magnitude in e4m3 alone. -/
def Exceeds (ty : EType) (mode : Nat) (neg : Bool) (q : ℝ) : Prop :=
  (towardZero mode neg = true ∧ ((topOf ty + gapOf ty : ℚ) : ℝ) ≤ q) ∨ fromZero mode neg = true
  ∨ (mode = 0 ∧ (((topOf ty + gapOf ty / 2 : ℚ) : ℝ) < q ∨ (((topOf ty + gapOf ty / 2 : ℚ) : ℝ) = q ∧ ty ≠ .e4m3)))

/-- The flags of a result z for the exact q, within the range of a format: inexact where they differ, and underflow too where z is below
the smallest normal magnitude and not 0 (R86; that it is z that must not be 0 is log 75's reading). -/
def RangeFlags (ty : EType) (q : ℝ) (z : ℚ) (fl : Flags) : Prop :=
  ((z : ℝ) = q → fl = 0) ∧ ((z : ℝ) ≠ q → fl = if z ≠ 0 ∧ z < leastNormal ty then flInexact ||| flUnderflow else flInexact)

/-- r is the result, with its flags, of one rounding of the exact magnitude q > 0 into a format (R84, R86, R91). -/
structure Rounds (ty : EType) (mode : Nat) (neg : Bool) (q : ℝ) (r : Nat × Flags) : Prop where
  within : q ≤ (topOf ty : ℝ) → ∃ z, Nearest ty mode neg q r.1 z ∧ RangeFlags ty q z r.2
  beyond : (topOf ty : ℝ) < q → ¬Exceeds ty mode neg q → r = ((fmtOf ty).sign neg + (fmtOf ty).maxBits, flInexact)
  above : (topOf ty : ℝ) < q → Exceeds ty mode neg q → (fmtOf ty).hasInf = true →
    r = (if towardZero mode neg then (fmtOf ty).sign neg + (fmtOf ty).maxBits else (fmtOf ty).infBits neg, flOverflow ||| flInexact)
  saturated : (topOf ty : ℝ) < q → Exceeds ty mode neg q → (fmtOf ty).hasInf = false →
    r = ((fmtOf ty).sign neg + (fmtOf ty).maxBits, flSat ||| flInexact)

/-- The same for a signed number that is not 0. -/
def RoundsTo (ty : EType) (mode : Nat) (v : ℝ) (r : Nat × Flags) : Prop :=
  (0 < v → Rounds ty mode false v r) ∧ (v < 0 → Rounds ty mode true (-v) r)

/-- r is the result of a stochastic rounding of q, below the largest finite magnitude, with the new generator value l (R85). -/
def Stochastic (ty : EType) (neg : Bool) (q : ℚ) (l : Nat) (r : Nat × Flags) : Prop :=
  ∃ x y lo hi z, Holds ty x neg lo ∧ Holds ty y neg hi ∧ lo ≤ q ∧ q < hi ∧ (∀ v w, Holds ty v neg w → w ≤ lo ∨ hi ≤ w)
    ∧ (if 2 ^ 32 ≤ ⌊(q - lo) / (hi - lo) * 2 ^ 32⌋ + l then r.1 = y ∧ z = hi else r.1 = x ∧ z = lo) ∧ RangeFlags ty (q : ℝ) z r.2

/-- The zero that an operation of R89 gives: the common sign of its zero terms, or else −0 in mode down alone. -/
def zeroOf (ty : EType) (mode : Nat) (same neg : Bool) : Nat × Flags := ((fmtOf ty).sign (if same then neg else mode == 2), 0)

/-- The integer that a mode takes for a number (R84). -/
def IntegerOf (mode : Nat) (v : ℚ) (r : Int) : Prop :=
  (mode = 0 → |v - r| ≤ 1 / 2 ∧ (|v - r| = 1 / 2 → r % 2 = 0)) ∧ (mode = 1 → r = if 0 ≤ v then ⌊v⌋ else ⌈v⌉)
  ∧ (mode = 2 → r = ⌊v⌋) ∧ (mode = 3 → r = ⌈v⌉)

/-- The least and the greatest value of an integer type (R82). -/
def leastOf (ty : EType) : Int := if ty.isSigned then -2 ^ (ty.bits - 1) else 0
/-- The greatest value of an integer type. -/
def greatestOf (ty : EType) : Int := if ty.isSigned then 2 ^ (ty.bits - 1) - 1 else 2 ^ ty.bits - 1

/-- An integer as an element of a type, the nearer bound where it lies beyond (R91); `fl` are the flags within the bounds. -/
def bounded (ty : EType) (r : Int) (fl : Flags) : Nat × Flags :=
  if r < leastOf ty then ((leastOf ty % 2 ^ ty.bits).toNat, flSat ||| flInexact)
  else if greatestOf ty < r then ((greatestOf ty % 2 ^ ty.bits).toNat, flSat ||| flInexact)
  else ((r % 2 ^ ty.bits).toNat, fl)

/-- What is combined for element i with n stages of R90's tree still below it: at each stage element i meets element i + h, for the
active ones, and one that meets an inactive one passes on. The value, and the flags that its operations raise. -/
def treeAt (op : Nat → Nat → Nat × Flags) (leaf : Nat → Option Nat) : Nat → Nat → Nat → Option Nat × Flags
  | 0, _, i => (leaf i, 0)
  | n + 1, h, i =>
    let a := treeAt op leaf n (2 * h) i
    let b := treeAt op leaf n (2 * h) (i + h)
    match a.1, b.1 with
    | some x, some y => (some (op x y).1, a.2 ||| b.2 ||| (op x y).2)
    | some x, none => (some x, a.2 ||| b.2)
    | none, y => (y, a.2 ||| b.2)

/-! ### The matrix unit -/

/-- The operands of an `mma`, B of type `tb`, pass their checks, and no acquire of the thread is outstanding (R141, R188 to R190, R194,
R365). -/
structure MmaRuns (s : State) (u : Nat) (t : Thread) (m : Fin 16) (ty : EType) (ka kb : Bool) (a b : VNum) (tb : EType) : Prop extends
    Goes s u t (operandRegs ka a ty (m.val + 1) ++ operandRegs kb b ty (m.val + 1)) [] where
  noAcquire : acquirePending s u = false
  runs : runTooLong t ka a ty (m.val + 1) = false ∧ runTooLong t kb b ty (m.val + 1) = false
  typeB : typeOfB ty (readOperand s t kb b ty (m.val + 1)) = some tb
  typeA : typeOfAOk ty (readOperand s t ka a ty (m.val + 1)) = true
  pair : mxGroup ty tb ≠ none
  sound : operandsFault s t ty tb (m.val + 1) (readOperand s t ka a ty (m.val + 1)) (readOperand s t kb b ty (m.val + 1)) = none

/-- A handle is unbound, the slot k is free and no agent waits for one, and the queue of the agent's core has room (R185, R191). -/
structure MayBind (s : State) (t : Thread) (h : ANum) (k : Nat) : Prop where
  unbound : t.a.get h = none
  free : freeSlot (s.tile (tileOf t.core)) = some k
  first : (s.tile (tileOf t.core)).waiters = []
  noRead : ∀ e ∈ (s.tile (tileOf t.core)).reads, e.2.slot ≠ k
  room : ((s.tile (tileOf t.core)).queue (t.core % 8)).length < 4

/-- The instruction retires with its command queued and the handle bound to slot k, which holds +0 and no flags, at watermark 0 (R191,
R192). -/
def Binds (i : Instr) (s : State) (u : Nat) (t : Thread) (h : ANum) (k : Nat) (op : MxOp) : Prop :=
  ∃ s1 t1, Retires i s s1 u t t1 ∧ t1.a.get h = some k ∧ (∀ n, n ≠ h → t1.a.get n = t.a.get n)
    ∧ (∃ c, (s1.tile (tileOf t.core)).queue (t.core % 8) = (s.tile (tileOf t.core)).queue (t.core % 8) ++ [c]
      ∧ c.op = op ∧ c.slot = k ∧ c.handle = h.val ∧ c.uid = u)
    ∧ ∃ x, tget k (s1.tile (tileOf t.core)).slots = some x ∧ x.owner = some (u, h.val) ∧ x.words = List.replicate 4096 0
      ∧ x.flags = 0 ∧ x.rows = 0

/-- The number of a finite value. -/
def numOf : FVal → ℚ
  | .fin n m e => withSign n (m * (2 : ℚ) ^ e)
  | _ => 0

/-- A value is finite. -/
def isFinite : FVal → Bool
  | .fin _ _ _ => true
  | _ => false

/-- A product is infinite, with this sign (R96). -/
def InfProduct (neg : Bool) (p : FVal × FVal) : Prop :=
  (∃ n k m e, p = (.inf n, .fin k m e) ∧ m ≠ 0 ∧ (n != k) = neg) ∨ (∃ n k m e, p = (.fin k m e, .inf n) ∧ m ≠ 0 ∧ (n != k) = neg)
  ∨ ∃ n k, p = (.inf n, .inf k) ∧ (n != k) = neg

/-- A handle names a slot, no `mrd` of the slot is outstanding, and the queue of the agent's core has room (R64, R185). -/
structure MayQueue (s : State) (t : Thread) (h : ANum) (k : Nat) : Prop where
  bound : t.a.get h = some k
  noRead : ∀ e ∈ (s.tile (tileOf t.core)).reads, e.2.slot ≠ k
  room : ((s.tile (tileOf t.core)).queue (t.core % 8)).length < 4

/-- A command of the agent is the last of its core's queue, and the slot's watermark is 0; nothing else of the tile, no memory and no
other agent changed (R185, R192). -/
structure Queued (s s1 : State) (u : Nat) (t : Thread) (h : ANum) (k : Nat) (op : MxOp) : Prop where
  last : ∃ c, (s1.tile (tileOf t.core)).queue (t.core % 8) = (s.tile (tileOf t.core)).queue (t.core % 8) ++ [c]
    ∧ c.op = op ∧ c.slot = k ∧ c.handle = h.val ∧ c.uid = u ∧ c.blocks = 0 ∧ c.weight = t.mxweight.toNat
  mark : ∀ x, tget k (s.tile (tileOf t.core)).slots = some x → ∃ x1, tget k (s1.tile (tileOf t.core)).slots = some x1
    ∧ x1.rows = 0 ∧ x1.words = x.words ∧ x1.flags = x.flags
  mem : s1.mem = s.mem
  threads : s1.threads = s.threads

/-- The head of the queue at position p holds this command, which the array's grant lets run (R186). -/
structure Granted (s : State) (tile p : Nat) (c : MxCmd) (cs : List MxCmd) : Prop where
  head : (s.tile tile).queue p = c :: cs
  grant : granted s (s.tile tile) p c = true

/-- Slot k of a tile is in use and holds x. -/
structure Slot (s : State) (tile k : Nat) (x : AccSlot) : Prop where
  here : tget k (s.tile tile).slots = some x
  once : ∀ e ∈ (s.tile tile).slots, e.1 = k → e.2 = x

/-! ### Transfers -/

/-- The place of destination element n, or of a scale byte, in its word: its first bit, and how many (R80, R177). -/
def fieldOf (x : Transfer) (n : Nat) : Nat × Nat :=
  (8 * ((dstAddr x n).toNat % 8)
      + (if n < shCount x.shape ∧ (shTypes x.shape).2.bits = 4 then 4 * (n % shExt0 x.shape % 2) else 0),
    if n < shCount x.shape then (shTypes x.shape).2.bits else 8)

/-- Two fields of a word have no bit in common. -/
def fieldsApart (a b : Nat × Nat) : Prop := a.1 + a.2 ≤ b.1 ∨ b.1 + b.2 ≤ a.1

/-- The destination word of transfer x that begins at element e may land: it lies in a pool at `dk`, the counter in a pool at `ck`, apart from
it and not in P, and no access that the thread issued before the command is outstanding (R152, R167, R177, R179). -/
structure MayLand (s : State) (id e : Nat) (x : Transfer) (dk ck : Nat) : Prop where
  there : tget id s.xfers = some x
  shape : shapeOk x.shape = true ∧ x.dst.toNat % alignOf (shTypes x.shape).2 = 0
  word : beginsWord x e = true ∧ x.landed.contains e = false ∧ x.parked = false
  ordered : accessesBefore s x.uid x.after = false
  dest : ∃ n, resolve s x.cid x.core (dstAddr x e) rWrite = .ok (.here dk) n
  counter : ∃ n, resolve s x.cid x.core x.ctr rAtomic = .ok (.here ck) n
  pools : isPoolKey dk = true ∧ isPoolKey ck = true
  clean : touchesPoison s ck 16 = false ∧ ck % 8 = 0
  apart : dk / 8 * 8 + 8 ≤ ck ∨ ck + 16 ≤ dk / 8 * 8
  noWaiter : ∀ a ∈ s.accs, a.2.waitsOn (dk / 8) = none
  fields : ∀ n ∈ wordElems x e, ∀ k ∈ wordElems x e, n ≠ k → fieldsApart (fieldOf x n) (fieldOf x k)

/-- A source element lies in a pool at `sk`, in no word in P. -/
structure SourceAt (s : State) (x : Transfer) (n sk : Nat) : Prop where
  place : ∃ m, resolve s x.cid x.core (srcAddr x n) rRead = .ok (.here sk) m
  pool : isPoolKey sk = true
  clean : touchesPoison s sk (max 1 ((shTypes x.shape).1.bits / 8)) = false

/-- The code of a source element at `sk` (R80). -/
def sourceCode (s : State) (x : Transfer) (n sk : Nat) : Nat :=
  leNat (memBytes s.mem sk (max 1 ((shTypes x.shape).1.bits / 8)))
    / 2 ^ (if (shTypes x.shape).1.bits = 4 then 4 * (n % shExt0 x.shape % 2) else 0) % 2 ^ (shTypes x.shape).1.bits

/-- The generator value of destination element n, where the transfer draws (R88). -/
def drawAt (x : Transfer) (n : Nat) : Option Nat :=
  if draws (shTypes x.shape).2 x.frm.toNat = true ∧ ((shTypes x.shape).1 ≠ (shTypes x.shape).2 ∨ shMode x.shape = 1)
  then some (lfsrRun (n + 1) x.seed).toNat else none

/-- The elements and the scale of block q of a quantising transfer whose sources lie at `sk` (R92, R177). -/
def blockAtSource (s : State) (x : Transfer) (sk : Nat → Nat) (q : Nat) : List (Nat × Flags) × Nat :=
  let fs := (List.range 32).map fun j => decodeF (shTypes x.shape).1 (sourceCode s x (q * 32 + j) (sk (q * 32 + j)))
  (quantElems (shTypes x.shape).2 x.frm.toNat (blockScale (shTypes x.shape).2 fs) fs fun j => drawAt x (q * 32 + j),
    blockScale (shTypes x.shape).2 fs)

/-- The word has landed: its fields hold these values, its other bits and every byte outside it and the counter what they held, it is F,
its bytes are added to the count and these flags ORed into the flags word (R146, R177, R179, R180, R87). -/
structure WordLanded (s s1 : State) (id e : Nat) (x : Transfer) (dk ck : Nat) (v : Nat → Nat) (fl : Flags) : Prop where
  fields : ∀ n ∈ wordElems x e, leNat (memBytes s1.mem (dk / 8 * 8) 8) / 2 ^ (fieldOf x n).1 % 2 ^ (fieldOf x n).2 = v n % 2 ^ (fieldOf x n).2
  rest : ∀ b, b < 64 → (∀ n ∈ wordElems x e, fieldsApart (fieldOf x n) (b, 1)) →
    (leNat (memBytes s1.mem (dk / 8 * 8) 8)).testBit b = (leNat (memBytes s.mem (dk / 8 * 8) 8)).testBit b
  outside : ∀ a, (a < dk / 8 * 8 ∨ dk / 8 * 8 + 8 ≤ a) → (a < ck ∨ ck + 16 ≤ a) → memByte s1.mem a = memByte s.mem a
  full : s1.word (dk / 8) = .full
  count : memBytes s1.mem ck 8 = leBytes 8 (w64 (leNat (memBytes s.mem ck 8))
    + w64 (((wordElems x e).map fun n => (fieldOf x n).2).sum / 8)).toNat
  flags : memBytes s1.mem (ck + 8) 8 = leBytes 8 (leNat (memBytes s.mem (ck + 8) 8) ||| fl.toNat)
  noted : ∀ x1, tget id s1.xfers = some x1 → x1.landed = x.landed ++ [e]

/-! ### Grids -/

/-- Handle g names a grid in the agent's context, and the agent's core owns partition p of it (R197, R201). -/
structure OwnsPart (s : State) (t : Thread) (g : Nat) (b : Binding) (p : Nat) : Prop where
  bound : tget (gridKey t.cid g) s.grids = some b
  owner : b.ownPart s.device t.core = some p

/-- No agent of a context waits at a grid handle (R344). -/
def NoWaiter (s : State) (cid g : Nat) : Prop :=
  ∀ e ∈ s.threads, e.2.cid = cid → e.2.status ≠ .blocked (.ghost g) ∧ e.2.status ≠ .blocked (.publish g)

/-! ### Barriers -/

/-- A member of a cell may arrive at its open phase with an operation: it is no handler, it has no arrival there, and the phase has no
other operation (R53, R320). -/
structure Arrives (s : State) (u : Nat) (t : Thread) (k op key : Nat) (c : BarCell) : Prop where
  kind : t.kind = .thread
  fresh : t.prog = .none
  cell : barOf s t k = some (key, c)
  first : ∀ a ∈ c.arrivals, a.uid ≠ u
  same : c.arrivals = [] ∨ c.op = op

/-- An arrival now completes the open phase: it is the last one, and the accesses that it and the others cover are performed (R53,
R56). -/
structure Completes (s : State) (u : Nat) (c : BarCell) : Prop where
  last : c.arrivals.length + 1 + c.exited = c.members
  ordered : accessesBefore s u s.nextId = false
  covered : ∀ a ∈ c.arrivals, a.covered = true

/-- The value that a phase holds after an arrival (R53). -/
def accAfter (op : Nat) (c : BarCell) (v : Word) : Word := barCombine op (if c.arrivals = [] then barIdentity op else c.acc) v

/-- The arrival is counted in a phase that stays open. -/
def Arrived (s1 : State) (u op key : Nat) (c : BarCell) (v : Word) : Prop :=
  ∃ c1, tget key s1.bars = some c1 ∧ c1.arrivals.map (fun a => a.uid) = c.arrivals.map (fun a => a.uid) ++ [u] ∧ c1.phase = c.phase
    ∧ c1.op = op ∧ c1.acc = accAfter op c v ∧ c1.members = c.members ∧ c1.exited = c.exited

/-- The phase is released: the cell is at the next one, with its retired members counted as exited, and each member that waited after
its arrival goes on behind its `bar`, with the combined value (R53). -/
structure Released (s s1 : State) (u key : Nat) (c : BarCell) (acc : Word) : Prop where
  cell : ∃ c1, tget key s1.bars = some c1 ∧ c1.phase = c.phase + 1 ∧ c1.arrivals = [] ∧ c1.members = c.members
    ∧ c1.exited = c.exited + (c.arrivals.filter fun a => a.retired).length
  members : ∀ a ∈ c.arrivals, ∀ m k next, a.uid ≠ u → tget a.uid s.threads = some m → m.status = .blocked (.barrier (barLevelOf key)) →
    m.prog = .arrived k next → ∃ m1, tget a.uid s1.threads = some m1 ∧ m1.status = .ready ∧ m1.pc = next
      ∧ ∀ d, a.dest = some d → a.split = false → m1.g.get d = GReg.ofWord acc

/-! ### Spaces -/

/-- An agent derives: its quad at gS is in order, its earlier accesses are performed, and the destination is no wait of its own (R104,
R108, R111). -/
structure Derives (s : State) (u : Nat) (t : Thread) (y : Sync) (d r : GNum) (grant : Bool) (q : Quad) : Prop extends
    Goes s u t [.g r, .g (gAfter r 1), .g (gAfter r 2), .g (gAfter r 3)] [.g d] where
  fresh : t.prog = .none
  quad : quadOf grant (t.gval r) (t.gval (gAfter r 1)) (t.gval (gAfter r 2)) (t.gval (gAfter r 3)) t.pc = .ok q
  ordered : accessesBefore s u s.nextId = false

/-- The source of a derivation: node i of the caller's space covers it, and neither it nor an ancestor is withdrawn (R105). -/
structure Source (s : State) (t : Thread) (q : Quad) (i : Nat) (n : Node) : Prop where
  found : findNode s (callerOf s t).1 q.src = some (i, n)
  whole : q.src + q.pages ≤ n.vpage + n.pages
  live : marked s i = false

/-- The destination space of a derivation: on this device, not deleted, of the caller's tenant unless the caller is tenant 0, and free
over the range (R105). -/
structure Target (s : State) (t : Thread) (q : Quad) (x : Space) : Prop where
  home : q.dev = s.device
  space : tget q.space s.spaces = some x
  exists_ : x.deleted = false
  tenant : x.tenant = (callerOf s t).2 ∨ (callerOf s t).2 = 0
  free : ∀ e ∈ s.nodes, e.2.space = q.space → e.2.vpage + e.2.pages ≤ q.dst ∨ q.dst + q.pages ≤ e.2.vpage

/-- The instruction has begun what fills gD later, under the request number `id`, and left `s1`: it retires with gD in E, or under keep-full
its agent waits at it with its registers as they were (R65, R69). -/
def SendsFor (i : Instr) (y : Sync) (s s1 : State) (u : Nat) (t : Thread) (d : GNum) (id : Nat) : Prop :=
  (syKf y = false → Retires i s s1 u t (t.emptyG d)) ∧ (syKf y = true → exec i s = blockAt s1 u t .result (.sent id))

/-- The instruction's status is on its way to gD, and nothing else happened (R107). -/
def Answers (i : Instr) (y : Sync) (s : State) (u : Nat) (t : Thread) (d : GNum) (w : Nat) : Prop :=
  SendsFor i y s (sends s u d (leBytes 8 w) (syKf y) none) u t d s.nextId

/-- A scrub of n pages under a tenant is far from spending its keys and from the notice of R134, and no roll of the tenant runs. -/
structure FarFromAging (s : State) (u n : Nat) : Prop where
  due : (s.tenant u).due = false
  roll : (s.tenant u).roll = none
  mark : (s.tenant u).high + n < 2 ^ 48 - 2 ^ 32

/-- Pages of this device hold zeros and are a tenant's (R105, R136). -/
def Scrubbed (s1 : State) (pgs : List Nat) (tenant : Nat) : Prop :=
  ∀ p ∈ pgs, s1.ownerOf p = tenant ∧ ∀ b, b < 4096 → memByte s1.mem (p * 4096 + b) = 0

/-- Other pages keep their bytes and their owner. -/
def Unscrubbed (s s1 : State) (pgs : List Nat) : Prop :=
  ∀ p, p ∉ pgs → s1.ownerOf p = s.ownerOf p ∧ ∀ b, b < 4096 → memByte s1.mem (p * 4096 + b) = memByte s.mem (p * 4096 + b)

/-- A withdrawal was begun under the next request number, for gD, under keep-full or not: its roots are withdrawn, and every station has its
local cut to come (R113, R117). -/
structure Withdraws (s s1 : State) (u : Nat) (d : GNum) (kf : Bool) (roots : List Nat) : Prop where
  entry : ∃ w, tget s.nextId s1.wds = some w ∧ w.dest = .reg u (.g d false) kf ∧ w.count = 0 ∧ w.swept = [] ∧ w.uncut = List.range 128
    ∧ w.left = (roots.map (subtree s 16)).flatten
  cut : ∀ i n, tget i s.nodes = some n → tget i s1.nodes = some (if i ∈ roots then { n with withdrawn := true } else n)
  mem : s1.mem = s.mem

/-! ### The host -/

/-- A command of a function is over, with a status and a result; COMMAND_END is to follow (R254, R255). -/
def Done (s1 : State) (fn : Nat) (st : CmdStatus) (res : Nat) : Prop :=
  ∃ c, (s1.fn fn).cmd = some c ∧ c.done = true ∧ c.status = st.code ∧ c.result = res

/-- The command is over at once with this status and result, and the state is `s1` but for that (R254, R255). -/
def EndsWith (i : Instr) (s s1 : State) (fn : Nat) (st : CmdStatus) (res : Nat) : Prop := exec i s = .next (ends s1 fn st res)

/-- The function's window holds these bytes from an offset on. -/
def InWindow (s1 : State) (fn off : Nat) (bs : List Byte) : Prop := winBytes s1 fn off bs.length = bs

/-- The function's partition is defined, and is this (R258). -/
structure OfPart (s : State) (fn : Nat) (p : Partition) : Prop where
  part : tget (s.fn fn).part s.parts = some p

/-- `n` bytes of a context's space from `va` on, within one page, lie here at `key`: their owner agrees, and their seal is verified and may
be written (R102, R103, R130, R134). -/
structure Placed (s : State) (x : Context) (va : Word) (n key : Nat) : Prop where
  within : va.toNat % 4096 + n ≤ 4096
  here : roomAt s x.space x.part 0 va rWrite = .here key (s.ownerOf (key / 4096))
  memory : key + n ≤ 2 ^ 48
  verified : (s.seal (key / 4096)).failed = false ∧ (s.seal (key / 4096)).cached = true
  writable : sealFrozen s (key / 4096) = false

/-- A context's error queue lies in memory of this device: its next record at `k`, its header at `h`, apart (R237, R243). -/
structure QueuePlaced (s : State) (cid : Nat) (x : Context) (k h : Nat) : Prop where
  ctx : s.ctx? cid = some x
  free : hasLate s cid = false
  record : Placed s x (x.eqbase + w64 (64 + 32 * (x.eqtail % 2 ^ (x.eqcfg.toNat % 32)))) 32 k
  header : Placed s x x.eqbase 64 h
  lostCount : Placed s x (x.eqbase + 8) 8 (h + 8)
  apart : k + 32 ≤ h ∨ h + 64 ≤ k

/-- Whether a context's error queue is full (R244). -/
def queueFull (x : Context) : Bool := (x.eqtail + 2 ^ 64 - x.errqhead.toNat) % 2 ^ 64 == 2 ^ (x.eqcfg.toNat % 32)

/-- One notice toward the host: it joins the FIFO of the context's function, or `ovf` is set where that is full, and vector 1 is raised
(R255). -/
def Noticed (s s1 : State) (x : Context) (cid cause : Nat) : Prop :=
  (s1.fn x.fn).msix1 = (s.fn x.fn).msix1 + 1 ∧
  if (s.fn x.fn).notices.length < 64 then (s1.fn x.fn).notices = (s.fn x.fn).notices ++ [(cause, cid)] else (s1.fn x.fn).ovf = true

/-- Host memory holds these bytes from an address on, and every other byte of it is as before. -/
structure DmaWritten (s s1 : State) (addr : Nat) (bs : List Byte) : Prop where
  inside : memBytes s1.hostMem addr bs.length = bs
  outside : ∀ a, (a < addr ∨ addr + bs.length ≤ a) → memByte s1.hostMem a = memByte s.hostMem a

/-- The first `n` words of a context's space from `va` lie here, at these bytes and under these nodes: whole words of this device's memory,
each with an owner that agrees and a seal that is verified and may be written (R256, R429). -/
structure Copies (s : State) (x : Context) (va : Word) (n : Nat) (place node : Nat → Nat) : Prop where
  found : ∀ k, k < n → copyPlace s x (va + w64 (8 * k)) = .here (node k) (place k)
  aligned : ∀ k, k < n → place k % 8 = 0
  apart : ∀ j k, j < n → k < n → j ≠ k → place j ≠ place k
  owner : ∀ k, k < n → s.ownerOf (place k / 4096) = nodeOwner s (node k)
  verified : ∀ k, k < n → (s.seal (place k / 4096)).failed = false ∧ (s.seal (place k / 4096)).cached = true
  writable : ∀ k, k < n → sealFrozen s (place k / 4096) = false

/-- ROOT_SPACE is over with this status word, and no node and no space changed (R256, R430). -/
def RootAnswers (i : Instr) (s : State) (w : Nat) : Prop :=
  ∃ s1, exec i s = .next s1 ∧ Done s1 0 .ok (w % 2 ^ 32) ∧ InWindow s1 0 0 (leBytes 8 w) ∧ s1.nodes = s.nodes ∧ s1.spaces = s.spaces

/-- ROOT_SPACE met a precise trap of its instruction (R430). -/
def RootTraps (i : Instr) (s : State) (c : Cause) : Prop :=
  ∃ s1, exec i s = .next s1 ∧ Done s1 0 .badOperand c.code ∧ InWindow s1 0 0 (leBytes 8 0) ∧ s1.nodes = s.nodes ∧ s1.spaces = s.spaces

/-- The PF may run ROOT_SPACE, and its selector names this instruction (R256). -/
structure RootRuns (s : State) (k : Nat) : Prop extends Idle s 0 where
  selector : winNum s 0 0 8 = k

/-! ### Launches and the ladder -/

/-- A work queue may be taken from, it is its turn, and the head entry lies at `addr` (R217, R219). -/
structure TakesQueue (s : State) (q : Nat) (x : Queue) (addr : Word) : Prop where
  there : tget q s.queues = some x
  opened : queueOpenFor s q x = true
  turn : isTurn s (partOf s x.cid) q x.prio = true
  entry : addr = x.qbase + w64 (256 * (x.head % 2 ^ x.lsz))

/-- A gang that waits may be placed on these slots: no lower gang that waits fits, no ladder holds the context back, its slice runs, and no launch that
comes before has a gang that fits (R223, R224, R226, R259). -/
structure MayPlace (s : State) (l g : Nat) (x : Launch) (ps : List Place) : Prop where
  there : tget l s.launches = some x
  turn : gangsTurn s l g x = true
  noLadder : underLadder s x.cid = false
  runs : haltedCtx s x.cid = false
  slice : hasSlice s x.cid = true
  fits : gangFits s l g x ps = true
  first : othersFirst s l x = false

/-- A thread of a launch as it begins (R33, R35). -/
structure Begun (x : Launch) (l g n : Nat) (p : Place) (t : Thread) : Prop where
  place : (t.core, t.slot, t.cid, t.pool) = (p.core, p.slot, x.cid, x.pool)
  work : (t.launch, t.gang, t.linear, t.idx) = (some l, g, n, idxOf x n)
  pc : t.pc = x.entry
  ready : t.status = .ready
  linear : t.g.get 12 = GReg.ofWord (w64 n)
  args : ∀ k : Fin 4, ∀ w, x.args[k.val]? = some w → t.g.get (Fin.ofNat 16 k.val) = GReg.ofWord w

/-- The ladder of a context starts with this trigger, and no thread changed (R229, R230). -/
structure LadderBegins (s s1 : State) (cid trigger : Nat) (x : Context) : Prop where
  ctx : s1.ctx? cid = some { x with ladder := some (Ladder.begin x trigger s.time []), seq := x.seq + 1 }
  threads : s1.threads = s.threads

/-- Issue of a context has ended: every thread of it is held, its transfers are parked, and its ladder goes on to the save (R184, R230). -/
structure HaltBegun (s s1 : State) (cid : Nat) : Prop where
  held : ∀ u t, tget u s.threads = some t → tget u s1.threads = some (if t.cid = cid then { t with heldByHalt := true } else t)
  parked : ∀ k y, tget k s.xfers = some y → tget k s1.xfers = some (if y.cid = cid then { y with parked := true } else y)
  ladder : ∃ x l, s1.ctx? cid = some x ∧ x.st = .running ∧ x.ladder = some l ∧ l.halting = true

/-- What a save and a restore keep of an agent: its registers and modes, its indices and its place (R76, R78). -/
structure SameAgent (t t1 : Thread) : Prop where
  g : t1.g = t.g
  v : t1.v = t.v
  q : t1.q = t.q
  h : t1.h = t.h
  modes : (t1.fflags, t1.frm, t1.lfsr, t1.mxweight, t1.stepwin) = (t.fflags, t.frm, t.lfsr, t.mxweight, t.stepwin)
  traps : (t1.tvec, t1.tcause, t1.taddr, t1.tresume) = (t.tvec, t.tcause, t.taddr, t.tresume)
  place : (t1.core, t1.slot, t1.cid, t1.pool, t1.launch, t1.idx) = (t.core, t.slot, t.cid, t.pool, t.launch, t.idx)

/-- The save extent of a halted context, which lies in Pysil memory, holds in the record of each frame what its agent had; no agent of it is
resident, and the save numbered them before the next request (R76, R233). -/
structure Recorded (s : State) (x : Context) (v : Saved) : Prop where
  low : x.savebase + 0x1000 + 0x22000 * v.frames.length ≤ 2 ^ 48
  once : v.frames.Nodup
  held : ∀ i u t, v.frames[i]? = some u → tget u s.saved = some t → recordThread s (x.savebase + 0x1000 + 0x22000 * i) t = t
  gone : ∀ u ∈ v.frames, tget u s.threads = none ∧ u < s.nextId

/-- No accumulator slot, bound or saved, has an uncorrectable soft error (R246). -/
structure NoStruckSlots (s : State) : Prop where
  bound : ∀ e ∈ s.tiles, ∀ y ∈ e.2.slots, y.2.soft = false
  saved : ∀ e ∈ s.frames, ∀ y ∈ e.2.images, y.2.soft = false

/-- No two agents share a slot, and every slot is one of a core's nine (R43). -/
structure OneEach (s : State) : Prop where
  keys : ∀ e ∈ s.threads, tget e.1 s.threads = some e.2
  slots : ∀ e ∈ s.threads, e.2.slot < 9
  places : ∀ e ∈ s.threads, ∀ f ∈ s.threads, e.2.core = f.2.core → e.2.slot = f.2.slot → e = f

end Sys2Proof.Machine
end

