-- ==== Sys2Proof/Laws/Issue.lean ====
section
/-! SUPPORT. The checks on operands: when an instruction reaches its meaning, and what the issue stage can do otherwise. -/

namespace Sys2Proof.Machine

open Sys2Proof

theorem withCur_of {s : State} {u : Nat} {t : Thread} (h : Issues s u t) (k : Nat → Thread → Out) : withCur s k = k u t := by
  simp [withCur, h.cur, h.thread]

theorem firstIn_none {t : Thread} {st : RegSt} {l : List RegName} : firstIn t st l = none ↔ ∀ r ∈ l, t.regSt r ≠ st := by
  induction l with
  | nil => simp [firstIn]
  | cons r l ih =>
    by_cases h : t.regSt r = st
    · simp [firstIn, h]
    · simp [firstIn, h, ih]

theorem firstIn_some {t : Thread} {st : RegSt} {l : List RegName} {r : RegName} (h : firstIn t st l = some r) :
    r ∈ l ∧ t.regSt r = st := by
  induction l with
  | nil => simp [firstIn] at h
  | cons x l ih =>
    by_cases hx : t.regSt x = st
    · simp only [firstIn, hx, if_true] at h
      cases h
      exact ⟨by simp, hx⟩
    · simp only [firstIn, hx, if_false] at h
      exact ⟨by simp [(ih h).1], (ih h).2⟩

/-- Full sources and filled destinations that exist let an instruction go. -/
theorem gateOf_go {t : Thread} {rs rt dst : List RegName} (y : Sync)
    (hs : ∀ r ∈ rs ++ rt, t.hasReg r = true ∧ t.regSt r = .full) (hd : ∀ r ∈ dst, t.hasReg r = true ∧ t.regSt r ≠ .empty) :
    gateOf t y rs rt dst = .go := by
  have h1 : ((rs ++ rt ++ dst).any fun r => !t.hasReg r) = false := by
    rw [List.any_eq_false]
    intro r hr
    rcases List.mem_append.1 hr with hr | hr
    · simp [(hs r hr).1]
    · simp [(hd r hr).1]
  have h2 : firstIn t .empty rs = none := firstIn_none.2 fun r hr => by simp [(hs r (by simp [hr])).2]
  have h3 : firstIn t .empty rt = none := firstIn_none.2 fun r hr => by simp [(hs r (by simp [hr])).2]
  have h4 : firstIn t .poison (rs ++ rt) = none := firstIn_none.2 fun r hr => by simp [(hs r hr).2]
  have h5 : firstIn t .empty dst = none := firstIn_none.2 fun r hr => (hd r hr).2
  simp only [gateOf, h1, h2, h3, h4, h5, Bool.false_eq_true, if_false]

/-- An instruction whose operands are at hand reaches its meaning. -/
theorem issue_go {s : State} {u : Nat} {t : Thread} {rs rt dst : List RegName} (y : Sync) (k : Nat → Thread → Out)
    (h : Goes s u t (rs ++ rt) dst) : issue s y rs rt dst k = k u t := by
  have hg : gateOf t y rs rt dst = .go := gateOf_go y h.full fun r hr => ⟨(h.free r hr).1, (h.free r hr).2.1⟩
  have hr : dst.any (runHolds s u t) = false := by
    rw [List.any_eq_false]
    intro r hr
    simp [(h.free r hr).2.2]
  simp only [issue, withCur_of h.toIssues, hg, hr, Bool.false_eq_true, if_false]

/-- What the issue stage can come to: the meaning, or one of the waits and traps of R63 and R66 to R68. -/
theorem issue_cases {s : State} {u : Nat} {t : Thread} (h : Issues s u t) (y : Sync) (rs rt dst : List RegName)
    (k : Nat → Thread → Out) :
    issue s y rs rt dst k = k u t ∨ (∃ w, issue s y rs rt dst k = blockOn s u t w)
      ∨ ∃ c det addr, issue s y rs rt dst k = trapAt s u t c det addr := by
  simp only [issue, withCur_of h]
  repeat' split
  all_goals first
    | exact .inl rfl
    | exact .inr (.inl ⟨_, rfl⟩)
    | exact .inr (.inr ⟨_, _, _, rfl⟩)

theorem notInHandler_of {s : State} {u : Nat} {t : Thread} (h : Issues s u t) (hk : t.inHandler = false) (k : Out) :
    notInHandler s k = k := by
  simp [notInHandler, withCur_of h, hk]

theorem onMatrix_of {s : State} {u : Nat} {t : Thread} (h : Issues s u t) (hk : InThread t) (k : Out) : onMatrix s k = k := by
  simp [onMatrix, withCur_of h, hk.core, Thread.inHandler, hk.thread]

theorem InThread.inHandler {t : Thread} (h : InThread t) : t.inHandler = false := by simp [Thread.inHandler, h.thread]

theorem InThread.level {t : Thread} (h : InThread t) : t.level = .thread := by simp [Thread.level, h.core, h.thread]

/-! ### Registers -/

@[simp] theorem vget_set {α : Type} {n : Nat} (v : Vector α n) (i : Fin n) (x : α) : (v.set i x).get i = x := by
  simp [Vector.get_eq_getElem]

theorem vget_set_ne {α : Type} {n : Nat} (v : Vector α n) {i j : Fin n} (h : j ≠ i) (x : α) : (v.set i x).get j = v.get j := by
  have h' : i.val ≠ j.val := fun e => h (Fin.ext e.symm)
  simp only [Vector.get_eq_getElem]
  exact Vector.getElem_set_ne _ _ h'

theorem setG_get (t : Thread) (d : GNum) (w : Word) : (t.setG d w).g.get d = GReg.ofWord w := vget_set ..
theorem setG_get_ne (t : Thread) {d n : GNum} (h : n ≠ d) (w : Word) : (t.setG d w).g.get n = t.g.get n := vget_set_ne _ h _
@[simp] theorem gval_setG (t : Thread) (d : GNum) (w : Word) : (t.setG d w).gval d = w := congrArg GReg.val (setG_get t d w)
theorem gval_setG_ne (t : Thread) {d n : GNum} (h : n ≠ d) (w : Word) : (t.setG d w).gval n = t.gval n :=
  congrArg GReg.val (setG_get_ne t h w)
theorem poisonG_get (t : Thread) (d : GNum) (w : Word) (b : Byte) :
    (t.poisonG d w b).g.get d = { val := t.gval d, st := .poison, src := w, det := b } := vget_set ..
theorem emptyG_get (t : Thread) (d : GNum) : (t.emptyG d).g.get d = { val := t.gval d, st := .empty, src := 0, det := 0 } :=
  vget_set ..

/-! ### Host functions -/

@[simp] theorem fn_setFn (s : State) (n : Nat) (f : HostFn) : (s.setFn n f).fn n = f := by simp [State.fn]

theorem fn_setFn_ne (s : State) {n m : Nat} (h : m ≠ n) (f : HostFn) : (s.setFn n f).fn m = s.fn m := by
  simp [State.fn, tget_tput_ne h]

theorem command_idle {s : State} {fn code : Nat} (h : Idle s fn) (cid : BitVec 16) (k : State → State) :
    command s fn code cid k = .next (k (running s fn code cid)) := by
  simp [command, h.idle, bootAllows, h.boot, running]

theorem onContext_of {s : State} {fn : Nat} {cid : BitVec 16} {x : Context} {pf : Bool} (h : MayAct s fn cid x pf)
    (k : Context → State → State) : onContext fn cid pf k s = k x s := by
  have := h.mine
  simp only [onContext, h.ctx]
  rw [if_pos]
  exact ⟨h.named, h.mine⟩

@[simp] theorem running_fn_part (s : State) (fn code : Nat) (cid : BitVec 16) : ((running s fn code cid).fn fn).part = (s.fn fn).part := by
  simp [running]

@[simp] theorem winNum_running (s : State) (fn code : Nat) (cid : BitVec 16) (a b : Nat) :
    winNum (running s fn code cid) fn a b = winNum s fn a b := by simp [winNum, winBytes, running]

@[simp] theorem winWord_running (s : State) (fn code : Nat) (cid : BitVec 16) (a : Nat) :
    winWord (running s fn code cid) fn a = winWord s fn a := by simp [winWord]

theorem MayAct.running {s : State} {fn : Nat} {cid : BitVec 16} {x : Context} {pf : Bool} (h : MayAct s fn cid x pf) (code : Nat) :
    MayAct (running s fn code cid) fn cid x pf :=
  ⟨h.ctx, h.named, by simpa using h.mine⟩

end Sys2Proof.Machine
end

