-- ==== Sys2Proof/WellFormed.lean ====
section
/-! DEFINITION. Well-formed instructions: what the field rules of R295 and R298 to R301 let an encoding hold. -/

namespace Sys2Proof

/-- The value limits of an instruction's row hold: register pairs, immediates' ranges, types, masks (R303 to R308). -/
def Instr.operandsOk (i : Instr) : Bool :=
  match rowOf i with
  | some w => w.ok
  | none => true

/-- The number of IMM prefixes and the immediate's width are within the row's limits (R298). -/
def Instr.immediateOk (i : Instr) : Bool :=
  match rowOf i with
  | some w => match w.imm with
    | some u => u.fits
    | none => true
  | none => true

/-- The SYNC prefix names only what the instruction's class accepts (R140, R300). -/
def Instr.syncOk (i : Instr) : Bool :=
  match rowOf i with
  | some w => match w.sync with
    | some f => w.rule.accepts f
    | none => true
  | none => true

/-- The chain holds at most four prefixes (R295). -/
def Instr.chainOk (i : Instr) : Bool :=
  match chainOf i with
  | some c => decide (c.count ≤ 4)
  | none => true

/-- An instruction that has an encoding. A host command or device event has none and is always well formed. -/
def Instr.wellFormed (i : Instr) : Bool :=
  i.operandsOk && i.immediateOk && i.syncOk && i.chainOk

/-- An instruction of the opcode maps, not a host command or a device event. -/
def Instr.hasWords (i : Instr) : Bool := (rowOf i).isSome

end Sys2Proof
end

