-- ==== Sys2Proof/Certificates/Slice0/Obligations.lean ====
section
/-! DEFINITION. The statements about this model that are to be proved: `Obligations.<Name>`. -/

open Sys2Proof Sys2Proof.Machine

/-! ### Words, decoding and the step -/

/-- Words written out from the spec's examples decode to the instructions that they stand for (R311, R357, R318, R381, R327, R322, R328,
R350, R349, R371). -/
def Obligations.SpecWordsDecode : Prop :=
  decode [0x1484] = .ok (.add none 2 1)
  ∧ decode [0xD100, 0x1508] = .ok (.addReg3 none 4 2 1)
  ∧ decode [0xC010, 0xC000, 0xC000, 0x1840] = .ok (.addImm none 1 { n := 3, raw := 0x100000000 })
  ∧ decode [0x047C] = .ok (.li none 1 { n := 0, raw := 15 })
  ∧ decode [0xCFFC, 0x4C4A] = .ok (.bCond none 2 1 2 { n := 1, raw := 0xFFC })
  ∧ decode [0xC001, 0x31DD] = .ok (.shiftImm none 1 7 { n := 1, raw := 23 })
  ∧ decode [0xD302, 0x4448] = .ok (.cmp none 2 1 2 3)
  ∧ decode [0xE600, 0x0C00] = .ok (.brk none)
  ∧ decode [0xE600, 0x14C0] = .ok (.ctrr none 3)
  ∧ decode [0x5C20] = .ok (.j none { n := 0, raw := 8 })
  ∧ decode [0xFC00, 0x9800] = .ok (.ifence (some { scope := 6, order := 0, trs := false, trt := false, kf := false }))
  ∧ decode [0xD300, 0x1C4A] = .ok (.mulReg3 none 2 1 2 3)

/-- Decoding the words of a well-formed instruction gives it back: no bit of an operand is lost (R292 to R308). -/
def Obligations.DecodeOfEncode : Prop :=
  ∀ i : Instr, i.hasWords = true → i.wellFormed = true → decode (encode i) = .ok i

/-- What the decoder accepts is well formed, has words, and its words are the chain that was read: at most four prefixes and a base word
(R292, R295). A run of five prefix words is refused, whatever follows it (R295). -/
def Obligations.DecodedIsWellFormed : Prop :=
  (
    ∀ (ws : List HWord) (i : Instr), decode ws = .ok i →
      i.hasWords = true ∧ i.wellFormed = true ∧ i.len ≤ 10 ∧ ∃ n, n ≤ ws.length ∧ i.len = 2 * n)
  ∧ (
    ∀ (a b c d e : HWord) (ws : List HWord), isPrefixWord a = true → isPrefixWord b = true → isPrefixWord c = true →
      isPrefixWord d = true → isPrefixWord e = true → decode (a :: b :: c :: d :: e :: ws) = .error .badChain)

/-- A step runs what is fetched and decoded. With no turn ahead, the agent that the ports of R228 choose issues, and where its fetch gives
words that decode to `i`, the step is `exec i` in the state after the choice and the fetch with that agent issuing, and after it the
core's port is given back if the agent lacked an operand (R29, R228), and the waits that are over at their owners end (R182; log 1); so
too for a turn of one core. The agent chosen is resident, on that core, and may issue now, and the choice changes the record of that core
alone. A turn of an event is `exec` of the event, after its device cycles. What is added to `exec` changes at most one core's record of
its ports, and then the agents whose wait at a counter of this device is over: none is where no agent waits so. The words are those of
memory, lowest address first, where the agent has fetched since they changed (R3, R153), and words that do not decode take the trap of
R302. -/
def Obligations.StepRunsDecoded : Prop :=
  (∀ (s s0 s1 : State) (u : Nat) (t : Thread) (ws : List HWord) (i : Instr),
    s.agenda = [] → deviceChoice s = some (u, t, s0) → t.pc.toNat % 2 = 0 →
    fetchWords s0 t t.pc maxWords [] = .words ws s1 → decode ws = .ok i → step s = waitsEnded (portsAfter s u (exec i { s1 with cur := some u })))
  ∧ (∀ (s s0 s1 : State) (dt c u : Nat) (t : Thread) (rest : List Turn) (ws : List HWord) (i : Instr),
    s.agenda = .core dt c :: rest →
    coreChoice { s with agenda := rest, time := s.time + dt } c = some (u, t, s0) → t.pc.toNat % 2 = 0 →
    fetchWords s0 t t.pc maxWords [] = .words ws s1 → decode ws = .ok i →
    step s = waitsEnded (portsAfter { s with agenda := rest, time := s.time + dt } u (exec i { s1 with cur := some u })))
  ∧ (∀ (s s0 : State) (c u : Nat) (t : Thread), coreChoice s c = some (u, t, s0) →
    (u, t) ∈ s.threads ∧ t.core = c ∧ t.canIssue s = true ∧ { s0 with cores := s.cores } = s ∧ ∀ d, d ≠ c → s0.core d = s.core d)
  ∧ (∀ (s : State) (dt : Nat) (i : Instr) (rest : List Turn), s.agenda = .event dt i :: rest → i.hasWords = false →
    step s = waitsEnded (exec i { s with agenda := rest, time := s.time + dt }))
  ∧ (∀ (b s : State) (u : Nat), ∃ s1, portsAfter b u (.next s) = .next s1 ∧ { s1 with cores := s.cores } = s
    ∧ ((∀ t, tget u s.threads = some t → t.status ≠ .blocked .regs) → s1 = s)
    ∧ ∀ t, tget u s.threads = some t → (∀ d, d ≠ t.core → s1.core d = s.core d)
      ∧ (t.status = .blocked .regs → s1.core t.core = { s.core t.core with vecLeft := (b.core t.core).vecLeft, went := (b.core t.core).went }))
  ∧ (∀ s : State, (∀ e ∈ s.threads, ∀ va key node, e.2.status ≠ .blocked (.counter va (some key) node)) → waitsEnded (.next s) = .next s)
  ∧ (∀ f, waitsEnded (.fault f) = .fault f) ∧ (∀ r, waitsEnded (.refused r) = .refused r)
  ∧ (∀ (s : State) (t : Thread) (key : Nat), staleWords s t key = [] →
    fetchHere s t key = (BitVec.ofNat 16 (leNat (memBytes s.mem key 2)), s))
  ∧ (∀ (s s0 s1 : State) (u : Nat) (t : Thread) (ws : List HWord) (e : DecodeError),
    s.agenda = [] → deviceChoice s = some (u, t, s0) → t.pc.toNat % 2 = 0 →
    fetchWords s0 t t.pc maxWords [] = .words ws s1 → decode ws = .error e →
    step s = waitsEnded (portsAfter s u (.next (takeTrap s1 u (refusalCause t e) 0 t.pc t.pc))))

/-! ### Reset and memory -/

/-- What reset leaves: the boot ROM runs, no agent, context, partition or node is there, every pool word is E with zero data (R20), every
host function is idle with its registers 0, and the device's own number alone is LIVE (R252, R254). That the bytes outside pools read 0 is
the model's choice (log 4), and so is that no seal has a version yet (log 3). -/
def Obligations.ResetState : Prop :=
  State.reset.boot = 0 ∧ State.reset.threads = [] ∧ State.reset.contexts = [] ∧ State.reset.parts = [] ∧ State.reset.nodes = []
  ∧ State.reset.time = 0
  ∧ (∀ k : Nat, isPoolKey (k * 8) = true → State.reset.word k = .empty)
  ∧ (∀ a : Nat, memByte State.reset.mem a = 0)
  ∧ (∀ pg : Nat, (State.reset.seal pg).ver = 0 ∧ (State.reset.seal pg).failed = false)
  ∧ (∀ fn : Nat, (State.reset.fn fn).cmd = none ∧ (State.reset.fn fn).status = 0 ∧ (State.reset.fn fn).result = 0
      ∧ (State.reset.fn fn).lost = false ∧ (State.reset.fn fn).notices = [])
  ∧ (∀ d : Nat, (State.reset.peer d).st = if d = State.reset.device then .live else .absent)

/-- Memory keeps its canonical form: rising addresses and no byte equal to what an unlisted one reads as, so that equal memories are equal
data; a step from a state with that form leaves it. The form is the model's own, and so is the 0 that an unlisted byte reads as (log
4). -/
def Obligations.StepKeepsMemoryCanonical : Prop :=
  ∀ s s' : State, Memory.wf s.mem = true → step s = .next s' → Memory.wf s'.mem = true

/-- Memory is canonical after reset: the companion of StepKeepsMemoryCanonical (log 4). -/
def Obligations.ResetMemoryCanonical : Prop := Memory.wf State.reset.mem = true

/-- Bytes written at an address read back there, and every byte outside them stays, lowest address first (R3); the canonical form is the
model's own (log 4). -/
def Obligations.BytesWrittenReadBack : Prop :=
  (∀ (m : List Host.Cell) (a : Nat) (bs : List Byte), Memory.wf m = true →
    memBytes (memPutBytes m a bs) a bs.length = bs ∧ Memory.wf (memPutBytes m a bs) = true)
  ∧ (∀ (m : List Host.Cell) (a k : Nat) (bs : List Byte), (k < a ∨ a + bs.length ≤ k) →
    memByte (memPutBytes m a bs) k = memByte m k)

/-! ### Issue, waits and traps -/

/-- The checks on operands. A source in E waits, or traps with REG_EMPTY and its number under its trap bit, that of rt for a source in rt
and the other for every other source (R67); with no source in E, a source in P traps with POISON and the address and detail of its load
(R66); with all sources F a destination in E waits (R68); and a register past the pool's limit is ILLEGAL (R63). Nothing is written. A
vector register past the limit of the agent's pool, anywhere among the operands, is ILLEGAL before every other check (R63). -/
def Obligations.OperandChecks : Prop :=
  (
    ∀ (s : State) (u : Nat) (t : Thread) (y : Sync) (rs rt dst : List RegName) (k : Nat → Thread → Out), Issues s u t →
      (∀ r ∈ rs ++ rt ++ dst, t.hasReg r = true) →
      (∀ r, firstIn t .empty rs = some r → issue s y rs rt dst k =
        if syTrs y then trapHere s u t .regEmpty r.number else blockOn s u t .regs)
      ∧ (∀ r, firstIn t .empty rs = none → firstIn t .empty rt = some r → issue s y rs rt dst k =
        if syTrt y then trapHere s u t .regEmpty r.number else blockOn s u t .regs)
      ∧ (∀ r, firstIn t .empty rs = none → firstIn t .empty rt = none → firstIn t .poison (rs ++ rt) = some r →
        issue s y rs rt dst k = trapAt s u t .poison (t.regSrc r).2.toNat (t.regSrc r).1)
      ∧ (∀ r, (∀ x ∈ rs ++ rt, t.regSt x = .full) → firstIn t .empty dst = some r → issue s y rs rt dst k = blockOn s u t .regs))
  ∧ (
    ∀ (s : State) (u : Nat) (t : Thread) (y : Sync) (rs rt dst : List RegName) (k : Nat → Thread → Out), Issues s u t →
      (∃ r ∈ rs ++ rt ++ dst, t.hasReg r = false) → issue s y rs rt dst k = trapHere s u t .illegal 0)

/-- A trap at thread level, of a thread or of a message handler, with a trap routine: `tcause`, `taddr`, `tresume` are set, the PC is
`tvec`, `tvec` is 0, and the agent goes on. Without one a thread is held Blocked and its delivery is queued at its core, or with no fault
handler the host is told (R236, R238). A message handler without one ends, with one failed item of its sender's launch and one record, and
a fault run is next in its slot, or with no fault handler the host is told (R240). A trap in a fault run ends the run: the held thread
stays held, and the host is told (R238). The retirement of an instruction changes its agent's record, its context's time of last
retirement and the time, and nothing else: memory, word states, every other agent and every other context stay. That it takes one cycle is
the model's choice (log 1). What a report writes. With room in the error queue its record is written at the place of `tail`, and `tail`
rises by one, in memory and in the context; a record that goes into an empty queue raises one fault interrupt, toward the fault handler
unless one is pending, or with no fault handler toward the host. A full queue takes no record: `lost` rises by one, up to its maximum.
While the translation of the queue's page is held the record waits (R118, R243, R244). No other byte of memory changes. A record of a
context that has one waiting, or whose queue's page is held, waits behind it; nothing else changes (R118, R120). -/
def Obligations.TrapsAndRetirement : Prop :=
  (
    ∀ (s : State) (u : Nat) (t : Thread) (c : Cause) (det : Nat) (addr resume : Word), tget u s.threads = some t →
      (t.level = .thread → t.tvec ≠ 0 → takeTrap s u c det addr resume = s.setThread u { t with
        tcause := w64 (det % 256 * 2 ^ 16 + c.code), taddr := addr, tresume := resume, pc := t.tvec, tvec := 0, status := .ready
        since := s.time, prog := .none })
      ∧ (∀ x, InThread t → t.tvec = 0 → s.ctx? t.cid = some x → takeTrap s u c det addr resume =
          let s1 := s.setThread u { t with
            tcause := w64 (det % 256 * 2 ^ 16 + c.code), taddr := addr, tresume := resume, status := .blocked .held, prog := .none }
          if x.fhentry = 0 then hostNotice s1 t.cid c.code else queueFault s1 t.core (.thread u) false)
      ∧ (∀ m x, t.kind = .message m → isSteward t.core = false → t.tvec = 0 → s.ctx? t.cid = some x →
          let s0 := report s t.cid { addr := w64 (epOf s t).toNat, cause := c, detail := det % 256, item := 3, peer := none, ep := epOf s t }
          let s1 := takeTrap s u c det addr resume
          tget u s1.threads = none ∧ s1.mem = s0.mem ∧ (s1.core t.core).hlfsr = t.lfsr
          ∧ (∀ l y, m.launch = some l → tget l s.launches = some y →
            ∃ y1, tget l s1.launches = some y1 ∧ y1.failed = min (y.failed + 1) (2 ^ 32 - 1))
          ∧ (x.fhentry = 0 → (s1.core t.core).faults = (s.core t.core).faults ∧ Noticed s0 s1 x t.cid c.code)
          ∧ (x.fhentry ≠ 0 → s1.fns = s0.fns ∧ (s1.core t.core).faults =
            .message (w64 (det % 256 * 2 ^ 16 + c.code)) addr resume (epOf s t) m.sender m.pc :: (s.core t.core).faults))
      ∧ (∀ d x, t.kind = .faultRun d → s.ctx? t.cid = some x →
          let s1 := takeTrap s u c det addr resume
          tget u s1.threads = none ∧ s1.mem = s.mem ∧ (s1.core t.core).faults = (s.core t.core).faults
          ∧ (∀ v h, v ≠ u → tget v s.threads = some h → h.status = .blocked .held → tget v s1.threads = some h)
          ∧ Noticed s s1 x t.cid c.code))
  ∧ (
    ∀ (s : State) (u : Nat) (t : Thread) (pc : Word),
      (∀ a, memByte (retireTo s u t pc).mem a = memByte s.mem a)
      ∧ (∀ k, (retireTo s u t pc).word k = s.word k)
      ∧ (∀ v, v ≠ u → tget v (retireTo s u t pc).threads = tget v s.threads)
      ∧ tget u (retireTo s u t pc).threads = some { t with pc := pc, prog := .none, status := .ready, since := s.time + 1 }
      ∧ (∀ c, c ≠ t.cid → tget c (retireTo s u t pc).contexts = tget c s.contexts)
      ∧ (∀ x, tget t.cid s.contexts = some x → tget t.cid (retireTo s u t pc).contexts = some { x with lastRetire := s.time + 1 })
      ∧ (retireTo s u t pc).accs = s.accs ∧ (retireTo s u t pc).nodes = s.nodes ∧ (retireTo s u t pc).launches = s.launches
      ∧ (retireTo s u t pc).time = s.time + 1)
  ∧ (
    ∀ (s : State) (cid : Nat) (r : Report) (x : Context) (k h : Nat), QueuePlaced s cid x k h → Memory.wf s.mem = true →
      (queueFull x = false → ∃ x1, (report s cid r).ctx? cid = some x1 ∧ x1.eqtail = (x.eqtail + 1) % 2 ^ 64 ∧ x1.eqlost = x.eqlost
        ∧ memBytes (report s cid r).mem k 32 = r.bytes cid s.time
        ∧ memBytes (report s cid r).mem h 8 = leBytes 8 (x.eqtail + 1)
        ∧ (∀ a, (a < k ∨ k + 32 ≤ a) → (a < h ∨ h + 8 ≤ a) → memByte (report s cid r).mem a = memByte s.mem a)
        ∧ (x.eqtail ≠ x.errqhead.toNat → x1.pendingInt = x.pendingInt ∧ (report s cid r).fns = s.fns)
        ∧ (x.eqtail = x.errqhead.toNat → x.fhentry ≠ 0 → x1.pendingInt = true ∨ intQueued s cid = true)
        ∧ (x.eqtail = x.errqhead.toNat → x.fhentry = 0 → x1.pendingInt = x.pendingInt ∧ Noticed s (report s cid r) x cid 0))
      ∧ (queueFull x = true → ∃ x1, (report s cid r).ctx? cid = some x1 ∧ x1 = { x with eqlost := min (x.eqlost + 1) max64 }
        ∧ memBytes (report s cid r).mem (h + 8) 8 = leBytes 8 (min (x.eqlost + 1) max64)
        ∧ (∀ a, (a < h + 8 ∨ h + 16 ≤ a) → memByte (report s cid r).mem a = memByte s.mem a) ∧ (report s cid r).fns = s.fns))
  ∧ (
    ∀ (s : State) (cid : Nat) (r : Report) (x : Context), s.ctx? cid = some x →
      (hasLate s cid = true ∨ (queueFull x = false
        ∧ roomAt s x.space x.part 0 (x.eqbase + w64 (64 + 32 * (x.eqtail % 2 ^ (x.eqcfg.toNat % 32)))) rWrite = .hold
        ∧ (x.eqbase + w64 (64 + 32 * (x.eqtail % 2 ^ (x.eqcfg.toNat % 32)))).toNat % 4096 + 32 ≤ 4096)) →
      report s cid r = { s with late := s.late ++ [.record cid r.cause.code (r.bytes cid s.time)] })

/-- An instruction of the scalar rows, of a thread, a message handler or a fault run, whether it retires, waits or traps, leaves every
byte of memory, every word state, every other agent, and of its own agent every register but its destination, while that agent is
resident: no flag, mode or mask changes. -/
def Obligations.ScalarFrame : Prop :=
  ∀ (i : Instr) (s s' : State) (u : Nat) (t t' : Thread), isScalarRow i = true → Issues s u t → exec i s = .next s' →
    tget u s'.threads = some t' →
    (∀ a, memByte s'.mem a = memByte s.mem a) ∧ (∀ k, s'.word k = s.word k) ∧ (∀ v, v ≠ u → tget v s'.threads = tget v s.threads)
    ∧ KeepsBut (scalarDest i) t t'

/-! ### Scalar instructions (R303 to R427) -/

/-- `nop` and `align` do nothing; `pause` keeps the core from choosing the thread in the next 32 cycles; `li` writes its immediate
sign-extended, `lih` bits [63:32] and keeps [31:0], `lea` the PC plus its displacement (R312, R356, R357, R358, R375). Each completes for
every operand, and nothing else changes. Counts, extensions, minima and maxima, and comparison (R326, R327, R361, R378, R386, R427). -/
def Obligations.MovesAndComparisons : Prop :=
  (
    (∀ s u t y, Issues s u t → Retires (.nop y) s s u t t)
    ∧ (∀ s u t y, Issues s u t → Retires (.align y) s s u t t)
    ∧ (∀ s u t y, Issues s u t → ∃ t1, Retires (.pause y) s s u t t1 ∧ t1 = { t with pauseUntil := t1.pauseUntil }
        ∧ ∀ s2 : State, s2.time ≤ s.time + 32 → t1.canIssue s2 = false)
    ∧ (∀ s u t y d im, Goes s u t [] [.g d] → Writes (.li y d im) s u t d (immSigned im true))
    ∧ (∀ s u t y d im, Goes s u t [.g d] [.g d] →
        Writes (.lih y d im) s u t d (w64 (im.raw * 2 ^ 32) ||| (t.gval d &&& 0xFFFFFFFF)))
    ∧ (∀ s u t y d im, Goes s u t [] [.g d] → Writes (.lea y d im) s u t d (t.pc + immSigned im true)))
  ∧ (
    (∀ s u t y d r, Goes s u t [.g r] [.g d] →
      (∃ n, n ≤ 64 ∧ Writes (.clz y d r) s u t d (w64 n) ∧ (t.gval r).toNat < 2 ^ (64 - n) ∧ (n < 64 → 2 ^ (63 - n) ≤ (t.gval r).toNat))
      ∧ (∃ n, n ≤ 64 ∧ Writes (.ctz y d r) s u t d (w64 n) ∧ (t.gval r).toNat % 2 ^ n = 0 ∧ (n < 64 → (t.gval r).toNat / 2 ^ n % 2 = 1))
      ∧ Writes (.popc y d r) s u t d (w64 ((List.range 64).countP fun k => (t.gval r).getLsbD k)))
    ∧ (∀ s u t y d r, Goes s u t [.g r] [.g d] →
      Writes (.sext y 0 d r) s u t d (((t.gval r).setWidth 8).signExtend 64)
      ∧ Writes (.sext y 1 d r) s u t d (((t.gval r).setWidth 16).signExtend 64)
      ∧ Writes (.sext y 2 d r) s u t d (((t.gval r).setWidth 32).signExtend 64)
      ∧ Writes (.zext y 0 d r) s u t d (w64 ((t.gval r).toNat % 2 ^ 8))
      ∧ Writes (.zext y 1 d r) s u t d (w64 ((t.gval r).toNat % 2 ^ 16))
      ∧ Writes (.zext y 2 d r) s u t d (w64 ((t.gval r).toNat % 2 ^ 32)))
    ∧ (∀ s u t y d r, Goes s u t [.g d, .g r] [.g d] →
      Writes (.minMax y 0 d r) s u t d (BitVec.ofInt 64 (min (t.gval d).toInt (t.gval r).toInt))
      ∧ Writes (.minMax y 1 d r) s u t d (BitVec.ofInt 64 (max (t.gval d).toInt (t.gval r).toInt))
      ∧ Writes (.minMax y 2 d r) s u t d (w64 (min (t.gval d).toNat (t.gval r).toNat))
      ∧ Writes (.minMax y 3 d r) s u t d (w64 (max (t.gval d).toNat (t.gval r).toNat)))
    ∧ (∀ s u t y d a b, Goes s u t [.g a, .g b] [.g d] →
      Writes (.minMaxReg3 y 0 d a b) s u t d (BitVec.ofInt 64 (min (t.gval a).toInt (t.gval b).toInt))
      ∧ Writes (.minMaxReg3 y 1 d a b) s u t d (BitVec.ofInt 64 (max (t.gval a).toInt (t.gval b).toInt))
      ∧ Writes (.minMaxReg3 y 2 d a b) s u t d (w64 (min (t.gval a).toNat (t.gval b).toNat))
      ∧ Writes (.minMaxReg3 y 3 d a b) s u t d (w64 (max (t.gval a).toNat (t.gval b).toNat)))
    ∧ (∀ s u t y d a b, Goes s u t [.g a, .g b] [.g d] →
      Writes (.cmp y 0 d a b) s u t d (if t.gval a = t.gval b then 1 else 0)
      ∧ Writes (.cmp y 1 d a b) s u t d (if t.gval a = t.gval b then 0 else 1)
      ∧ Writes (.cmp y 2 d a b) s u t d (if (t.gval a).toInt < (t.gval b).toInt then 1 else 0)
      ∧ Writes (.cmp y 3 d a b) s u t d (if (t.gval a).toInt < (t.gval b).toInt then 0 else 1)
      ∧ Writes (.cmp y 4 d a b) s u t d (if (t.gval a).toNat < (t.gval b).toNat then 1 else 0)
      ∧ Writes (.cmp y 5 d a b) s u t d (if (t.gval a).toNat < (t.gval b).toNat then 0 else 1)))

/-- `add` and `sub` in their two-register, three-register and immediate forms: the 64-bit sum and difference, wrapping (R311, R394). The
product of `mul` and `mulh`: bits [63:0], or [127:64] of the signed or unsigned 128-bit product (R371). `and`, `andn`, `or`, `xor` in
every form, bit by bit (R316, R376, R423). Shifts by the low 6 bits of a register, or by an immediate up to 63 (R381, R382). -/
def Obligations.IntegerArithmetic : Prop :=
  (
    (∀ s u t y d r, Goes s u t [.g d, .g r] [.g d] → Writes (.add y d r) s u t d (w64 ((t.gval d).toNat + (t.gval r).toNat)))
    ∧ (∀ s u t y d a b, Goes s u t [.g a, .g b] [.g d] →
        Writes (.addReg3 y d a b) s u t d (w64 ((t.gval a).toNat + (t.gval b).toNat)))
    ∧ (∀ s u t y d im, Goes s u t [.g d] [.g d] → Writes (.addImm y d im) s u t d (t.gval d + immSigned im true))
    ∧ (∀ s u t y d r, Goes s u t [.g d, .g r] [.g d] → Writes (.sub y d r) s u t d (t.gval d - t.gval r))
    ∧ (∀ s u t y d a b, Goes s u t [.g a, .g b] [.g d] → Writes (.subReg3 y d a b) s u t d (t.gval a - t.gval b))
    ∧ (∀ s u t y d im, Goes s u t [.g d] [.g d] → Writes (.subImm y d im) s u t d (t.gval d - immSigned im true)))
  ∧ (
    (∀ s u t y d r, Goes s u t [.g d, .g r] [.g d] → Writes (.mul y d r) s u t d (w64 ((t.gval d).toNat * (t.gval r).toNat)))
    ∧ (∀ s u t y d r, Goes s u t [.g d, .g r] [.g d] →
        Writes (.mulhI64 y d r) s u t d (BitVec.ofInt 64 ((t.gval d).toInt * (t.gval r).toInt / 2 ^ 64)))
    ∧ (∀ s u t y d r, Goes s u t [.g d, .g r] [.g d] →
        Writes (.mulhN64 y d r) s u t d (w64 ((t.gval d).toNat * (t.gval r).toNat / 2 ^ 64)))
    ∧ (∀ s u t y d a b, Goes s u t [.g a, .g b] [.g d] →
        Writes (.mulReg3 y 0 d a b) s u t d (w64 ((t.gval a).toNat * (t.gval b).toNat))
        ∧ Writes (.mulReg3 y 1 d a b) s u t d (BitVec.ofInt 64 ((t.gval a).toInt * (t.gval b).toInt / 2 ^ 64))
        ∧ Writes (.mulReg3 y 2 d a b) s u t d (w64 ((t.gval a).toNat * (t.gval b).toNat / 2 ^ 64))))
  ∧ (
    (∀ s u t y d r, Goes s u t [.g d, .g r] [.g d] →
      Writes (.and y d r) s u t d (t.gval d &&& t.gval r) ∧ Writes (.andn y d r) s u t d (t.gval d &&& ~~~t.gval r)
      ∧ Writes (.or y d r) s u t d (t.gval d ||| t.gval r) ∧ Writes (.xor y d r) s u t d (t.gval d ^^^ t.gval r))
    ∧ (∀ s u t y d a b, Goes s u t [.g a, .g b] [.g d] →
      Writes (.logicReg3 y 0 d a b) s u t d (t.gval a &&& t.gval b) ∧ Writes (.logicReg3 y 1 d a b) s u t d (t.gval a &&& ~~~t.gval b)
      ∧ Writes (.logicReg3 y 2 d a b) s u t d (t.gval a ||| t.gval b) ∧ Writes (.logicReg3 y 3 d a b) s u t d (t.gval a ^^^ t.gval b))
    ∧ (∀ s u t y d im, Goes s u t [.g d] [.g d] →
      Writes (.logicImm y 0 d im) s u t d (t.gval d &&& immSigned im true)
      ∧ Writes (.logicImm y 1 d im) s u t d (t.gval d &&& ~~~immSigned im true)
      ∧ Writes (.logicImm y 2 d im) s u t d (t.gval d ||| immSigned im true)
      ∧ Writes (.logicImm y 3 d im) s u t d (t.gval d ^^^ immSigned im true)))
  ∧ (
    (∀ s u t y v d r, Goes s u t [.g d, .g r] [.g d] →
      Writes (.shiftReg y v d r) s u t d (shifted v (t.gval d) ((t.gval r).toNat % 64)))
    ∧ (∀ s u t y v d a b, Goes s u t [.g a, .g b] [.g d] →
      Writes (.shiftReg3 y v d a b) s u t d (shifted v (t.gval a) ((t.gval b).toNat % 64)))
    ∧ (∀ s u t y v d im, im.raw ≤ 63 → Goes s u t [.g d] [.g d] →
      Writes (.shiftImm y v d im) s u t d (shifted v (t.gval d) im.raw)))

/-- R332: the division forms, their words with and without REG, the bits that their SYNC prefix may hold, and the quotient and the
remainder for every dividend and divisor. Each form writes its register and nothing else: no flag rises, and no value traps. -/
def Obligations.Division : Prop :=
  (∀ d r : GNum, encode (.divI64 none d r) = [BitVec.ofNat 16 (0x2000 + d.val * 64 + r.val * 4)]
    ∧ encode (.divN64 none d r) = [BitVec.ofNat 16 (0x2000 + d.val * 64 + r.val * 4 + 1)]
    ∧ encode (.remI64 none d r) = [BitVec.ofNat 16 (0x2000 + d.val * 64 + r.val * 4 + 2)]
    ∧ encode (.remN64 none d r) = [BitVec.ofNat 16 (0x2000 + d.val * 64 + r.val * 4 + 3)])
  ∧ (∀ (v : Fin 4) (d a b : GNum), encode (.divRemReg3 none v d a b)
    = [BitVec.ofNat 16 (0xD000 + b.val * 256), BitVec.ofNat 16 (0x2000 + d.val * 64 + a.val * 4 + v.val)])
  ∧ decode [0x2048] = .ok (.divI64 none 1 2)
  ∧ (∀ (f : SyncF) (v : Fin 4) (d a b : GNum),
    (Instr.divRemReg3 (some f) v d a b).wellFormed = true ↔ f.scope.val = 0 ∧ f.order.val = 0 ∧ f.kf = false)
  ∧ (∀ s u t y d r, Goes s u t [.g d, .g r] [.g d] →
    Writes (.divI64 y d r) s u t d (divided 0 (t.gval d) (t.gval r))
    ∧ Writes (.divN64 y d r) s u t d (divided 1 (t.gval d) (t.gval r))
    ∧ Writes (.remI64 y d r) s u t d (divided 2 (t.gval d) (t.gval r))
    ∧ Writes (.remN64 y d r) s u t d (divided 3 (t.gval d) (t.gval r)))
  ∧ (∀ s u t y v d a b, Goes s u t [.g a, .g b] [.g d] →
    Writes (.divRemReg3 y v d a b) s u t d (divided v (t.gval a) (t.gval b)))

/-- R367: `mov` copies all 64 bits; its words; every REG prefix and every row of IMM prefixes, alone or together, and a SYNC prefix with
more than its trap bit, is ILLEGAL; and it waits for an E source, or traps under the trap bit, also where the register is copied to
itself. -/
def Obligations.MovCopies : Prop :=
  (∀ d r : GNum, encode (.mov none d r) = [BitVec.ofNat 16 (0x1000 + d.val * 64 + r.val * 4)])
  ∧ decode [0x10B0] = .ok (.mov none 2 12)
  ∧ (∀ (d r : GNum) (n : Nat) (ps : List HWord), n < 4096 → ps.length ≤ 3 → (∀ p ∈ ps, p.toNat / 4096 = 0xC) →
    decode (BitVec.ofNat 16 (0xD000 + n) :: ps ++ encode (.mov none d r)) = .error .illegal)
  ∧ (∀ (d r : GNum) (ps : List HWord), ps ≠ [] → ps.length ≤ 4 → (∀ p ∈ ps, p.toNat / 4096 = 0xC) →
    decode (ps ++ encode (.mov none d r)) = .error .illegal)
  ∧ (∀ (f : SyncF) (d r : GNum),
    (Instr.mov (some f) d r).wellFormed = true ↔ f.scope.val = 0 ∧ f.order.val = 0 ∧ f.trt = false ∧ f.kf = false)
  ∧ (∀ t, refusalCause t .illegal = .illegal)
  ∧ (∀ s u t y d r, Goes s u t [.g r] [.g d] → Writes (.mov y d r) s u t d (t.gval r))
  ∧ (∀ s u t y d r, Issues s u t → t.regSt (.g r) = .empty →
    (syTrs y = false → exec (.mov y d r) s = blockOn s u t .regs)
    ∧ (syTrs y = true → exec (.mov y d r) s = trapHere s u t .regEmpty (RegName.g r).number))

/-- R383: `sel` takes gS where gD is not 0, and gT where it is; its words with REG of `type` 0; ILLEGAL without REG, with every REG with
another `type`, and with IMM prefixes; all three registers are read, so that an E one among them makes it wait, or trap, chosen or not, gD
as a source outside rt. -/
def Obligations.Selects : Prop :=
  (∀ d a b : GNum, encode (.sel none d a b) = [BitVec.ofNat 16 (0xD000 + b.val * 256), BitVec.ofNat 16 (0x4800 + d.val * 64 + a.val * 4)])
  ∧ decode [0xD300, 0x4848] = .ok (.sel none 1 2 3)
  ∧ (∀ (d a : GNum) (ps : List HWord), ps.length ≤ 4 → (∀ p ∈ ps, p.toNat / 4096 = 0xC) →
    decode (ps ++ [BitVec.ofNat 16 (0x4800 + d.val * 64 + a.val * 4)]) = .error .illegal)
  ∧ (∀ (d a : GNum) (n : Nat) (ps : List HWord), n < 4096 → ps.length ≤ 3 → (∀ p ∈ ps, p.toNat / 4096 = 0xC) → (n % 256 ≠ 0 ∨ ps ≠ []) →
    decode (BitVec.ofNat 16 (0xD000 + n) :: ps ++ [BitVec.ofNat 16 (0x4800 + d.val * 64 + a.val * 4)]) = .error .illegal)
  ∧ (∀ (f : SyncF) (d a b : GNum), (Instr.sel (some f) d a b).wellFormed = true ↔ f.scope.val = 0 ∧ f.order.val = 0 ∧ f.kf = false)
  ∧ (∀ t, refusalCause t .illegal = .illegal)
  ∧ (∀ s u t y d a b, Goes s u t [.g d, .g a, .g b] [.g d] →
    Writes (.sel y d a b) s u t d (if t.gval d ≠ 0 then t.gval a else t.gval b))
  ∧ (∀ s u t y d a b, Issues s u t →
    (t.regSt (.g d) = .empty → exec (.sel y d a b) s = if syTrs y then trapHere s u t .regEmpty (RegName.g d).number else blockOn s u t .regs)
    ∧ (t.regSt (.g d) ≠ .empty → t.regSt (.g a) = .empty →
      exec (.sel y d a b) s = if syTrs y then trapHere s u t .regEmpty (RegName.g a).number else blockOn s u t .regs)
    ∧ (t.regSt (.g d) ≠ .empty → t.regSt (.g a) ≠ .empty → t.regSt (.g b) = .empty →
      exec (.sel y d a b) s = if syTrt y then trapHere s u t .regEmpty (RegName.g b).number else blockOn s u t .regs))

/-- Branches, jumps, calls: the PC becomes the PC plus twice the displacement where the condition holds and the next address where it does
not; `loop` counts down and branches while its counter is not 0; `call` writes the next address; `jr` and `ret` go to their register
(R318, R323, R324, R350, R351, R359). A target is not checked here: a target that cannot be fetched traps at its fetch (R242). `svc` traps
with SERVICE and its immediate as detail, and `brk` with BREAK, at every level; `taddr` is their address and `tresume` the next one (R322,
R395, R236). -/
def Obligations.BranchesAndServiceTraps : Prop :=
  (
    (∀ s u t y c a b im, Goes s u t [.g a, .g b] [] → exec (.bCond y c a b im) s = .next (retireTo s u t
        (if (match c with
            | 0 => decide (t.gval a = t.gval b) | 1 => decide (t.gval a ≠ t.gval b)
            | 2 => decide ((t.gval a).toInt < (t.gval b).toInt) | 3 => decide ((t.gval b).toInt ≤ (t.gval a).toInt)) = true
          then t.pc + 2 * immSigned im false else t.pc + w64 (Instr.bCond y c a b im).len)))
    ∧ (∀ s u t y c a b im, Goes s u t [.g a, .g b] [] → exec (.bCondUnsigned y c a b im) s = .next (retireTo s u t
        (if (match c with
            | 0 => decide ((t.gval a).toNat < (t.gval b).toNat) | 1 => decide ((t.gval b).toNat ≤ (t.gval a).toNat)) = true
          then t.pc + 2 * immSigned im false else t.pc + w64 (Instr.bCondUnsigned y c a b im).len)))
    ∧ (∀ s u t y a im, Goes s u t [.g a] [] → exec (.bz y a im) s = .next (retireTo s u t
        (if t.gval a = 0 then t.pc + 2 * immSigned im true else t.pc + w64 (Instr.bz y a im).len)))
    ∧ (∀ s u t y c im, Goes s u t [.g c] [.g c] → exec (.loop y c im) s = .next (retireTo s u (t.setG c (t.gval c - 1))
        (if t.gval c = 1 then t.pc + w64 (Instr.loop y c im).len else t.pc + 2 * immSigned im true)))
    ∧ (∀ s u t y im, Issues s u t → exec (.j y im) s = .next (retireTo s u t (t.pc + 2 * immSigned im true)))
    ∧ (∀ s u t y l im, Goes s u t [] [.g l] → exec (.call y l im) s =
        .next (retireTo s u (t.setG l (t.pc + w64 (Instr.call y l im).len)) (t.pc + 2 * immSigned im true)))
    ∧ (∀ s u t y a, Goes s u t [.g a] [] → exec (.jr y a) s = .next (retireTo s u t (t.gval a))
        ∧ exec (.ret y a) s = .next (retireTo s u t (t.gval a))))
  ∧ (
    (∀ s u t y im, Issues s u t → im.raw ≤ 255 →
      exec (.svc y im) s = .next (takeTrap s u .service im.raw t.pc (t.pc + w64 (Instr.svc y im).len)))
    ∧ (∀ s u t y, Issues s u t → exec (.brk y) s = .next (takeTrap s u .brk 0 t.pc (t.pc + w64 (Instr.brk y).len))))

/-! ### The life of agents (R28 to R56) -/

/-- `yield` retires; under a ladder's soft request it stops its agent there, saved with the address that follows and every register kept;
in the handler slot it is HANDLER_BLOCK (R47, R230, R426). `exit` in its five forms ends its thread: the slot is Free, the launch counts
one retired item and no failed one, and the successors go to the device queue in the order of the registers; a named address that is no
multiple of 256 is MISALIGNED before any of that, in every form, with the first such address in `taddr` (R37, R40, R335, R336; that
`taddr` holds it is log 9's reading of R235). A thread whose `exit`, in any form, meets a full overflow ring is Parked with the successors
left, and goes on at EXIT_RESUME once there is room (R41). `hret` ends a handler once its stores, atomics and messages are through: the
handler slot is Free and its LFSR stays with the core; the fault run of a held thread resumes it, sends it to g1, or retires it as failed,
as g0 says, whatever the register's state code (log 57); in a thread it is ILLEGAL (R46, R75, R156, R238, R348). -/
def Obligations.EndOfThreads : Prop :=
  (
    (∀ s u t y, Issues s u t → t.kind = .thread → (∀ x, s.ctx? t.cid = some x → x.ladder = none) → Retires (.yield y) s s u t t)
    ∧ (∀ s u t y x, Issues s u t → t.kind = .thread → s.ctx? t.cid = some x → x.ladder.isSome = true →
        ∃ s1 t1, exec (.yield y) s = .next s1 ∧ tget u s1.threads = some t1 ∧ t1.status = .blocked .stopped
          ∧ t1.pc = t.pc + w64 (Instr.yield y).len ∧ t1.g = t.g ∧ t1.heldByHalt = true)
    ∧ (∀ s u t y, Issues s u t → t.kind ≠ .thread → Traps (.yield y) s u t .handlerBlock 0 t.pc))
  ∧ (
    (∀ s u t y, Issues s u t → t.kind = .thread → ∃ s1, exec (.exit y) s = .next s1 ∧ Ended s s1 u t ∧ devQueue s1 t.cid = devQueue s t.cid)
    ∧ (∀ s u t y a, Goes s u t [.g a] [] → t.kind = .thread → Queues s t [t.gval a] → ∃ s1, exec (.exit1 y a) s = .next s1 ∧ Ended s s1 u t
        ∧ devQueue s1 t.cid = devQueue s t.cid ++ [t.gval a])
    ∧ (∀ s u t y a b, Goes s u t [.g a, .g b] [] → t.kind = .thread → Queues s t [t.gval a, t.gval b] →
        ∃ s1, exec (.exit2 y a b) s = .next s1 ∧ Ended s s1 u t ∧ devQueue s1 t.cid = devQueue s t.cid ++ [t.gval a, t.gval b])
    ∧ (∀ s u t y a b c, Goes s u t [.g a, .g b, .g c] [] → t.kind = .thread → Queues s t [t.gval a, t.gval b, t.gval c] →
        ∃ s1, exec (.exit3 y a b c) s = .next s1 ∧ Ended s s1 u t
          ∧ devQueue s1 t.cid = devQueue s t.cid ++ [t.gval a, t.gval b, t.gval c])
    ∧ (∀ s u t y a b c e, Goes s u t [.g a, .g b, .g e, .g c] [] → t.kind = .thread →
        Queues s t [t.gval a, t.gval b, t.gval c, t.gval e] →
        ∃ s1, exec (.exit4 y a b c e) s = .next s1 ∧ Ended s s1 u t
          ∧ devQueue s1 t.cid = devQueue s t.cid ++ [t.gval a, t.gval b, t.gval c, t.gval e])
    ∧ (∀ s u t i rs w, exitRegs i = some rs → Goes s u t (rs.map .g) [] → t.kind = .thread →
        (rs.map t.gval).find? (fun a => a.toNat % 256 != 0) = some w → Traps i s u t .misaligned 0 w))
  ∧ (
    (∀ s u t i rs x, exitRegs i = some rs → rs ≠ [] → Goes s u t (rs.map .g) [] → t.kind = .thread →
        (∀ a ∈ rs, (t.gval a).toNat % 256 = 0) → s.ctx? t.cid = some x → (x.devq.length = 256 ∨ x.ovhead ≠ x.ovtail) → 2 ^ (x.ovcfg.toNat % 32) ≤ x.ovtail - x.ovhead →
        ∃ s1 t1, exec i s = .next s1 ∧ tget u s1.threads = some t1 ∧ t1.status = .parked ∧ t1.prog = .exiting (rs.map t.gval)
          ∧ devQueue s1 t.cid = devQueue s t.cid)
    ∧ (∀ s u t as, tget u s.threads = some t → t.status = .parked → t.prog = .exiting as → t.heldByHalt = false →
        (∃ x, s.ctx? t.cid = some x ∧ x.ovhead = x.ovtail ∧ x.devq.length + as.length ≤ 256) →
        ∃ s1, exec (.exitResume u) s = .next s1 ∧ Ended s s1 u t ∧ devQueue s1 t.cid = devQueue s t.cid ++ as))
  ∧ (
    (∀ s u t y m, Issues s u t → t.kind = .message m → workPending s u = false →
      ∃ s1, exec (.hret y) s = .next s1 ∧ tget u s1.threads = none ∧ (s1.core t.core).hlfsr = t.lfsr
        ∧ ((∀ e ∈ s.pending, e.2.uid = u → e.2.slot = none) → ∀ v, v ≠ u → tget v s1.threads = tget v s.threads))
    ∧ (∀ s u t y v h, Issues s u t → t.kind = .faultRun (.thread v) → workPending s u = false → v ≠ u → tget v s.threads = some h →
        h.status = .blocked .held → (∀ l, h.prog ≠ .exitHeld l) →
        (t.gval 0 = 0 → ∃ s1 h1, exec (.hret y) s = .next s1 ∧ tget v s1.threads = some h1 ∧ h1.status = .ready ∧ h1.pc = h.tresume
          ∧ h1.g = h.g ∧ tget u s1.threads = none)
        ∧ (t.gval 0 = 1 → (t.gval 1).toNat % 2 = 0 → ∃ s1 h1, exec (.hret y) s = .next s1 ∧ tget v s1.threads = some h1
          ∧ h1.status = .ready ∧ h1.pc = t.gval 1 ∧ h1.g = h.g ∧ tget u s1.threads = none)
        ∧ (t.gval 0 = 2 → ∃ s1, exec (.hret y) s = .next s1 ∧ tget v s1.threads = none ∧ tget u s1.threads = none))
    ∧ (∀ s u t y, Issues s u t → t.kind = .thread → Traps (.hret y) s u t .illegal 0 t.pc))

/-! ### Memory (R140 to R165, R303 to R427) -/

/-- Loads of the own pool: the register takes the bytes at the base plus the displacement, or plus the scaled index, 8, 4, 2 or 1 of them
by the size code, lowest first, sign-extended by `ld` and `ldx` and zero-extended by their `zext` forms, at any alignment; nothing else
changes (R3, R142, R353). Stores to the own pool: the low 8, 4, 2 or 1 bytes of the register are in memory, lowest first, every other byte
of memory, every word state and every register stay, and the thread goes on (R3, R142, R147, R154, R392). Vector loads and stores of the
own pool move 64 bytes; under a mask only the bytes that its bits govern, and the others keep what they held (R60, R417). -/
def Obligations.OwnPoolAccesses : Prop :=
  (
    (∀ s u t y z d b im, Goes s u t [.g b] [.g d] → Begins s u t y → InOwn s t (t.gval b + immSigned im false) (accBytes z) →
      Writes (.ld y z d b im) s u t d (extendBytes true (memBytes s.mem (ownKey t (t.gval b + immSigned im false)) (accBytes z)))
      ∧ Writes (.ldZext y z d b im) s u t d (w64 (leNat (memBytes s.mem (ownKey t (t.gval b + immSigned im false)) (accBytes z)))))
    ∧ (∀ s u t y z (k : Fin 4) d b x, Goes s u t [.g b, .g x] [.g d] → Begins s u t y →
      InOwn s t (t.gval b + (t.gval x <<< k.val)) (accBytes z) →
      Writes (.ldx y z k d b x) s u t d (extendBytes true (memBytes s.mem (ownKey t (t.gval b + (t.gval x <<< k.val))) (accBytes z)))
      ∧ Writes (.ldxZext y z k d b x) s u t d (w64 (leNat (memBytes s.mem (ownKey t (t.gval b + (t.gval x <<< k.val))) (accBytes z))))))
  ∧ (
    (∀ s u t y z v b im, Memory.wf s.mem = true → Goes s u t [.g v, .g b] [] → Begins s u t y →
      InOwn s t (t.gval b + immSigned im false) (accBytes z) →
      ∃ s1, Retires (.st y z v b im) s s1 u t t
        ∧ Stored s s1 (ownKey t (t.gval b + immSigned im false)) (leBytes (accBytes z) (t.gval v).toNat))
    ∧ (∀ s u t y z (k : Fin 4) v b x, Memory.wf s.mem = true → Goes s u t [.g v, .g b, .g x] [] → Begins s u t y →
      InOwn s t (t.gval b + (t.gval x <<< k.val)) (accBytes z) →
      ∃ s1, Retires (.stx y z k v b x) s s1 u t t
        ∧ Stored s s1 (ownKey t (t.gval b + (t.gval x <<< k.val))) (leBytes (accBytes z) (t.gval v).toNat)))
  ∧ (
    (∀ s u t y d b im, Goes s u t [.g b] [.v (Fin.ofNat 32 d.val)] → Begins s u t y → InOwn s t (t.gval b + immSigned im false) 64 →
      WritesV (.vld y d b im) s u t (Fin.ofNat 32 d.val) (BitVec.ofNat 512 (leNat (memBytes s.mem (ownKey t (t.gval b + immSigned im false)) 64))))
    ∧ (∀ s u t y k ty d b im, Memory.wf s.mem = true → Goes s u t [.g b] [.v d] → Begins s u t y →
      InOwn s t (t.gval b + immSigned im false) 64 → ∃ s1 t1, Retires (.vldTyped y k ty d b im) s s1 u t t1
        ∧ (∀ i, i < 64 → memByte s1.mem (vregKey t.core t.pool t.slot d.val + i)
            = if (!k.m || (t.q.get k.q).getLsbD (if ty.bits = 64 then i / 8 else i / 4)) = true
              then memByte s.mem (ownKey t (t.gval b + immSigned im false) + i) else memByte s.mem (vregKey t.core t.pool t.slot d.val + i))
        ∧ (∀ a, (a < vregKey t.core t.pool t.slot d.val ∨ vregKey t.core t.pool t.slot d.val + 64 ≤ a) →
            memByte s1.mem a = memByte s.mem a)
        ∧ t1.g = t.g)
    ∧ (∀ s u t y r b im, Memory.wf s.mem = true → Goes s u t [.v (Fin.ofNat 32 r.val), .g b] [] → Begins s u t y →
      InOwn s t (t.gval b + immSigned im false) 64 → ∃ s1, Retires (.vst y r b im) s s1 u t t
        ∧ Stored s s1 (ownKey t (t.gval b + immSigned im false)) (memBytes s.mem (vregKey t.core t.pool t.slot r.val) 64))
    ∧ (∀ s u t y k ty r b im, Memory.wf s.mem = true → Goes s u t [.v r, .g b] [] → Begins s u t y →
      InOwn s t (t.gval b + immSigned im false) 64 → ∃ s1, Retires (.vstTyped y k ty r b im) s s1 u t t
        ∧ (∀ i, i < 64 → memByte s1.mem (ownKey t (t.gval b + immSigned im false) + i)
            = if (!k.m || (t.q.get k.q).getLsbD (if ty.bits = 64 then i / 8 else i / 4)) = true
              then memByte s.mem (vregKey t.core t.pool t.slot r.val + i) else memByte s.mem (ownKey t (t.gval b + immSigned im false) + i))
        ∧ (∀ a, (a < ownKey t (t.gval b + immSigned im false) ∨ ownKey t (t.gval b + immSigned im false) + 64 ≤ a) →
            memByte s1.mem a = memByte s.mem a)
        ∧ ∀ w, s1.word w = s.word w))

/-- A load of another place goes into flight and empties its register, and one that fails its checks traps at the instruction with its
address; a store goes into flight and never traps. A station translates an access, its owner then performs it: a load takes memory's
bytes, a store writes its own and leaves every other byte and every word state, in a pool and in other memory of this device. Under
keep-full a load waits at its instruction, its register as it was, and once nothing of it is on its way the instruction retires (R65, R69,
R100, R102, R142, R147, R158, R353, R392). Every fence retires once the agent's earlier accesses are performed and waits until then;
`ifence` waits for its stores and atomics and for its acquires, and its later fetches then see no older words; `pf` may bring a seal into
the cache and changes no memory and no register (R141, R153, R163, R337, R349, R377). -/
def Obligations.FlightsAndFences : Prop :=
  (
    (∀ s u t y z d b im loc node, Goes s u t [.g b] [.g d] → Begins s u t y → syKf y = false →
      ownPool t.core (t.gval b + immSigned im false) = false → (t.gval b + immSigned im false).toNat % accBytes z = 0 →
      resolve s t.cid t.core (t.gval b + immSigned im false) rRead = .ok loc node →
      ∃ a, exec (.ld y z d b im) s = .next (retireTo (sendAccess s a) u (t.emptyG d) (t.pc + w64 (Instr.ld y z d b im).len))
        ∧ Sent a u .load (.g d true) [loc] [List.replicate (accBytes z) 0])
    ∧ (∀ s u t y z d b im loc node, Goes s u t [.g b] [.g d] → Begins s u t y → syKf y = true →
      ownPool t.core (t.gval b + immSigned im false) = false → (t.gval b + immSigned im false).toNat % accBytes z = 0 →
      resolve s t.cid t.core (t.gval b + immSigned im false) rRead = .ok loc node →
      Keeps (.ld y z d b im) s u t .load (.g d true) [loc] [List.replicate (accBytes z) 0])
    ∧ (∀ s u t y z d b im id, Goes s u t [.g b] [.g d] → t.prog = .sent id → Landed s id → Retires (.ld y z d b im) s s u t t)
    ∧ (∀ s u t y z d b im c, Goes s u t [.g b] [.g d] → Begins s u t y → (t.gval b + immSigned im false).toNat % accBytes z = 0 →
      resolve s t.cid t.core (t.gval b + immSigned im false) rRead = .fail c →
      Traps (.ld y z d b im) s u t c 0 (t.gval b + immSigned im false))
    ∧ (∀ s u t y z v b im, Goes s u t [.g v, .g b] [] → Begins s u t y → ownPool t.core (t.gval b + immSigned im false) = false →
      (t.gval b + immSigned im false).toNat % accBytes z = 0 →
      ∃ a, exec (.st y z v b im) s = .next (retireTo (sendAccess s a) u t (t.pc + w64 (Instr.st y z v b im).len))
        ∧ Sent a u .store .none [.untranslated] [leBytes (accBytes z) (t.gval v).toNat])
    ∧ (∀ s id a p loc node, tget id s.accs = some a → a.phase = .flying → a.pieces = [p] → p.loc = .untranslated → p.done = false →
      resolve s a.cid a.core p.va a.kind.need = .ok loc node → ∃ s1 a1, exec (.accessAtOwner id .station) s = .next s1
        ∧ tget id s1.accs = some a1 ∧ a1.pieces.map (fun q => q.loc) = [loc] ∧ a1.phase = .flying ∧ s1.mem = s.mem)
    ∧ (∀ s id a p key, AtByte s id a p key → a.kind = .load → a.dest ≠ .none → ∃ s1 a1, exec (.accessAtOwner id (.owner 0)) s = .next s1
        ∧ tget id s1.accs = some a1 ∧ a1.phase = .returning ∧ a1.pieces.map (fun q => q.bytes) = [memBytes s.mem key p.bytes.length]
        ∧ s1.mem = s.mem)
    ∧ (∀ s id a p key, Memory.wf s.mem = true → AtByte s id a p key → a.kind = .store → ∃ s1,
        exec (.accessAtOwner id (.owner 0)) s = .next s1 ∧ tget id s1.accs = none ∧ Stored s s1 key p.bytes))
  ∧ (
    (∀ s u t y, Issues s u t → accessesBefore s u s.nextId = false →
      Retires (.fenceAcq y) s s u t t ∧ Retires (.fenceRel y) s s u t t ∧ Retires (.fenceAr y) s s u t t ∧ Retires (.fenceSc y) s s u t t)
    ∧ (∀ s u t y, Issues s u t → accessesBefore s u s.nextId = true →
      ∀ i, (i = .fenceAcq y ∨ i = .fenceRel y ∨ i = .fenceAr y ∨ i = .fenceSc y) →
        exec i s = .next (s.setThread u { t with status := .blocked .accesses }))
    ∧ (∀ s u t y, Issues s u t → (acquirePending s u = true ∨ ∃ e ∈ s.accs, e.2.uid = u ∧ e.2.kind.writes = true ∧ e.2.phase ≠ .returning) →
      exec (.ifence y) s = .next (s.setThread u { t with status := .blocked .accesses }))
    ∧ (∀ s u t y, Issues s u t → acquirePending s u = false → (∀ e ∈ s.accs, e.2.uid = u → e.2.kind.writes = false) →
      ∃ t1, Retires (.ifence y) s s u t t1 ∧ t1 = { t with fetchFrom := t1.fetchFrom } ∧ ∀ key, (∀ e ∈ s.hist, ∀ x ∈ e.2, x.1 < s.wclock) →
        staleWords s t1 key = [])
    ∧ (∀ s u t y b im, Goes s u t [.g b] [] → ∃ s1, Retires (.pf y b im) s s1 u t t ∧ s1.mem = s.mem ∧ s1.words = s.words
        ∧ s1.threads = s.threads))

/-- A returned access fills its register, which is then F with the bytes as its kind extends them; one that failed leaves it P with the
access's address for the reader's trap (R65, R66; that this is the access's effective address is log 24's reading); under keep-full a load
that failed traps its agent at the instruction instead (R69). A result that no access makes fills its register in the same way. The
word-state instructions on the own pool (R146 to R149, R342, R354, R393). `lds` of a word in F reads it and leaves it E, `ldf` leaves it
F, and either waits at a word in E, its agent Blocked at the instruction, and traps with POISON at one in P; a request that comes to
another owner waits, takes and reads there in the same way; `ftag` reads the state's code; `ste` leaves a word E; `stf` writes a word and
leaves it F, and every `ldf` that waits there returns with the data. An address that is no multiple of 8 is MISALIGNED (that `taddr` holds
the address is log 9's reading of R235). -/
def Obligations.FillsAndWordStates : Prop :=
  (
    (∀ s id a t d sg, tget id s.accs = some a → a.phase = .returning → a.failed = none → (∀ p ∈ a.pieces, p.bad = none) →
      a.dest = .g d sg → tget a.uid s.threads = some t → ∃ s1 t1, exec (.registerFill id) s = .next s1 ∧ tget id s1.accs = none
        ∧ tget a.uid s1.threads = some t1
        ∧ t1.g.get d = { val := extendBytes sg (a.pieces.map fun p => p.bytes).flatten, st := .full, src := 0, det := 0 }
        ∧ (∀ n, n ≠ d → t1.g.get n = t.g.get n) ∧ s1.mem = s.mem)
    ∧ (∀ s id a t d sg det, tget id s.accs = some a → a.phase = .returning → a.failed = some (Cause.poison.code, det) → a.kf = false →
      a.dest = .g d sg → tget a.uid s.threads = some t → ∃ s1 t1, exec (.registerFill id) s = .next s1
        ∧ tget a.uid s1.threads = some t1 ∧ t1.g.get d = { val := t.gval d, st := .poison, src := a.va, det := det })
    ∧ (∀ s id a t det, tget id s.accs = some a → a.phase = .returning → a.failed = some (Cause.poison.code, det) → a.kf = true →
      a.kind.isAtomic = false → (∀ p ∈ a.pieces, p.bad = none) → tget a.uid s.threads = some t →
      exec (.registerFill id) s = .next (takeTrap (delAcc s id) a.uid .poison det.toNat a.va t.pc))
    ∧ (∀ s id p t d, tget id s.accs = none → tget id s.pending = some p → p.node = none → p.bad = none → p.asks = none → p.dest = .g d false →
      tget p.uid s.threads = some t → ∃ s1 t1, exec (.registerFill id) s = .next s1 ∧ tget p.uid s1.threads = some t1
        ∧ t1.gval d = w64 (leNat p.bytes) ∧ t1.regSt (.g d) = .full ∧ tget id s1.pending = none))
  ∧ (
    (∀ s u t y d b im, Goes s u t [.g b] [.g d] → t.kind = .thread → Begins s u t y →
      (t.gval b + immSigned im false).toNat + 8 ≤ vbaseOf (s.core t.core).pool → (t.gval b + immSigned im false).toNat % 8 = 0 →
      s.word (ownKey t (t.gval b + immSigned im false) / 8) = .full →
      Retires (.lds y d b im) s (s.setWord (ownKey t (t.gval b + immSigned im false) / 8) .empty) u t
        (t.setG d (w64 (leNat (memBytes s.mem (ownKey t (t.gval b + immSigned im false)) 8))))
      ∧ Writes (.ldf y d b im) s u t d (w64 (leNat (memBytes s.mem (ownKey t (t.gval b + immSigned im false)) 8))))
    ∧ (∀ s u t y d b im, Goes s u t [.g b] [.g d] → t.kind = .thread → Begins s u t y →
      (t.gval b + immSigned im false).toNat + 8 ≤ vbaseOf (s.core t.core).pool → (t.gval b + immSigned im false).toNat % 8 = 0 → NoSoft s →
      s.word (ownKey t (t.gval b + immSigned im false) / 8) = .poison →
      Traps (.lds y d b im) s u t .poison 0 (t.gval b + immSigned im false)
      ∧ Traps (.ldf y d b im) s u t .poison 0 (t.gval b + immSigned im false))
    ∧ (∀ s u t y d b im i k, Goes s u t [.g b] [.g d] → t.kind = .thread → Begins s u t y →
      (t.gval b + immSigned im false).toNat + 8 ≤ vbaseOf (s.core t.core).pool → (t.gval b + immSigned im false).toNat % 8 = 0 → NoSoft s →
      s.word (ownKey t (t.gval b + immSigned im false) / 8) = .empty →
      ((i = .lds y d b im ∧ k = .lds) ∨ (i = .ldf y d b im ∧ k = .ldf)) → ∃ s1 a n, exec i s = .next s1
        ∧ tget u s1.threads = some { t with status := .blocked .result, prog := .sent s.nextId } ∧ tget s.nextId s1.accs = some a
        ∧ a.kind = k ∧ a.uid = u ∧ a.waitsOn (ownKey t (t.gval b + immSigned im false) / 8) = some n ∧ s1.mem = s.mem ∧ s1.words = s.words)
    ∧ (∀ s id a p key, AtByte s id a p key → (a.kind = .lds ∨ a.kind = .ldf) → a.dest ≠ .none → p.bytes.length = 8 → key % 8 = 0 →
      (s.word (key / 8) = .empty → sweptUnder s a = false → ∃ s1 a1 n, exec (.accessAtOwner id (.owner 0)) s = .next s1 ∧ tget id s1.accs = some a1
        ∧ a1.waitsOn (key / 8) = some n ∧ s1.mem = s.mem ∧ s1.words = s.words)
      ∧ (s.word (key / 8) = .full → ∃ s1 a1, exec (.accessAtOwner id (.owner 0)) s = .next s1 ∧ tget id s1.accs = some a1
        ∧ a1.phase = .returning ∧ a1.pieces.map (fun q => q.bytes) = [memBytes s.mem key 8] ∧ s1.mem = s.mem
        ∧ s1.word (key / 8) = (if a.kind = .lds then .empty else .full) ∧ ∀ k, k ≠ key / 8 → s1.word k = s.word k))
    ∧ (∀ s u t y d b im, Goes s u t [.g b] [.g d] → Begins s u t y → NoSoft s →
      (t.gval b + immSigned im false).toNat + 8 ≤ vbaseOf (s.core t.core).pool → (t.gval b + immSigned im false).toNat % 8 = 0 →
      Writes (.ftag y d b im) s u t d (match s.word (ownKey t (t.gval b + immSigned im false) / 8) with
        | .empty => 0 | .full => 1 | .poison => 2))
    ∧ (∀ s u t y v b im, Memory.wf s.mem = true → Goes s u t [.g v, .g b] [] → Begins s u t y → NoSoft s →
      accessesBefore s u s.nextId = false →
      (∀ e ∈ s.accs, e.1 < s.nextId) → (t.gval b + immSigned im false).toNat + 8 ≤ vbaseOf (s.core t.core).pool →
      (t.gval b + immSigned im false).toNat % 8 = 0 → s.word (ownKey t (t.gval b + immSigned im false) / 8) ≠ .poison →
      ∃ s1, Retires (.stf y v b im) s s1 u t t
        ∧ memBytes s1.mem (ownKey t (t.gval b + immSigned im false)) 8 = leBytes 8 (t.gval v).toNat
        ∧ (∀ a, (a < ownKey t (t.gval b + immSigned im false) ∨ ownKey t (t.gval b + immSigned im false) + 8 ≤ a) →
            memByte s1.mem a = memByte s.mem a)
        ∧ (∀ j a n, tget j s.accs = some a → a.kind = .ldf → a.waitsOn (ownKey t (t.gval b + immSigned im false) / 8) = some n →
            ∃ a1, tget j s1.accs = some a1 ∧ a1.phase = .returning ∧ ∀ p ∈ a1.pieces, p.bytes = leBytes 8 (t.gval v).toNat)
        ∧ ((∀ e ∈ s.accs, e.2.waitsOn (ownKey t (t.gval b + immSigned im false) / 8) = none) →
            s1.word (ownKey t (t.gval b + immSigned im false) / 8) = .full))
    ∧ (∀ s u t y b im, Goes s u t [.g b] [] → Begins s u t y → NoSoft s →
      (t.gval b + immSigned im false).toNat + 8 ≤ vbaseOf (s.core t.core).pool → (t.gval b + immSigned im false).toNat % 8 = 0 →
      s.word (ownKey t (t.gval b + immSigned im false) / 8) ≠ .poison →
      ∃ s1, Retires (.ste y b im) s s1 u t t ∧ s1.word (ownKey t (t.gval b + immSigned im false) / 8) = .empty ∧ s1.mem = s.mem
        ∧ ∀ k, k ≠ ownKey t (t.gval b + immSigned im false) / 8 → s1.word k = s.word k)
    ∧ (∀ s u t y d b im, Goes s u t [.g b] [.g d] → t.kind = .thread → Begins s u t y → (t.gval b + immSigned im false).toNat % 8 ≠ 0 →
      Traps (.lds y d b im) s u t .misaligned 0 (t.gval b + immSigned im false)
      ∧ Traps (.ldf y d b im) s u t .misaligned 0 (t.gval b + immSigned im false)
      ∧ Traps (.ftag y d b im) s u t .misaligned 0 (t.gval b + immSigned im false))
    ∧ (∀ s u t y v b im, Goes s u t [.g v, .g b] [] → Begins s u t y → (t.gval b + immSigned im false).toNat % 8 ≠ 0 →
      Traps (.stf y v b im) s u t .misaligned 0 (t.gval b + immSigned im false)
      ∧ Traps (.ste y b im) s u t .misaligned 0 (t.gval b + immSigned im false)))

/-- What an `amo` writes, on `n` bits, of the old value and the operand: the sum, the bitwise operations, the signed and unsigned minimum
and maximum, the operand itself (R314). Atomics (R160, R303, R314, R315, R325). At the owner an `amo` writes what AmoResults says and
returns what the bytes held, and `cas` and `casp` write the new value where the bytes held the expected one, and return what they held; no
other byte and no word state changes. The owner is a pool or other memory of this device. The issue of an atomic to translated memory: it
goes into flight with its operation and its operands, its destination is E, the thread goes on; under keep-full it waits at its
instruction with its registers as they were; a misaligned one, in every form, traps before that (R69, R314, R315, R325; that `taddr` holds
the address is log 9's reading of R235). -/
def Obligations.Atomics : Prop :=
  (
    ∀ w old x : Nat, (w = 4 ∨ w = 8) → old < 2 ^ (8 * w) → x < 2 ^ (8 * w) →
      amoApply .add w old x = (old + x) % 2 ^ (8 * w) ∧ amoApply .and w old x = old &&& x ∧ amoApply .or w old x = old ||| x
      ∧ amoApply .xor w old x = old ^^^ x ∧ amoApply .swap w old x = x
      ∧ amoApply .minu w old x = min old x ∧ amoApply .maxu w old x = max old x
      ∧ (BitVec.ofNat (8 * w) (amoApply .min w old x)).toInt = min (BitVec.ofNat (8 * w) old).toInt (BitVec.ofNat (8 * w) x).toInt
      ∧ (BitVec.ofNat (8 * w) (amoApply .max w old x)).toInt = max (BitVec.ofNat (8 * w) old).toInt (BitVec.ofNat (8 * w) x).toInt)
  ∧ (
    (∀ s id a p key op, Memory.wf s.mem = true → AtByte s id a p key → a.kind = .amo op → a.dest ≠ .none →
      ∃ s1 a1, exec (.accessAtOwner id (.owner 0)) s = .next s1 ∧ tget id s1.accs = some a1 ∧ a1.phase = .returning
        ∧ a1.pieces.map (fun q => q.bytes) = [memBytes s.mem key p.bytes.length]
        ∧ Stored s s1 key (leBytes p.bytes.length (amoApply op p.bytes.length (leNat (memBytes s.mem key p.bytes.length)) (leNat p.bytes))))
    ∧ (∀ s id a p key e v, Memory.wf s.mem = true → AtByte s id a p key → a.kind = .cas e v → a.dest ≠ .none →
      ∃ s1 a1, exec (.accessAtOwner id (.owner 0)) s = .next s1 ∧ tget id s1.accs = some a1 ∧ a1.phase = .returning
        ∧ a1.pieces.map (fun q => q.bytes) = [memBytes s.mem key p.bytes.length]
        ∧ Stored s s1 key (if leNat (memBytes s.mem key p.bytes.length) = e.toNat % 2 ^ (8 * p.bytes.length)
            then leBytes p.bytes.length v.toNat else memBytes s.mem key p.bytes.length))
    ∧ (∀ s id a p key e0 e1 n0 n1, Memory.wf s.mem = true → AtByte s id a p key → a.kind = .casp e0 e1 n0 n1 → p.bytes.length = 16 →
      a.dest ≠ .none → ∃ s1 a1, exec (.accessAtOwner id (.owner 0)) s = .next s1 ∧ tget id s1.accs = some a1 ∧ a1.phase = .returning
        ∧ a1.pieces.map (fun q => q.bytes) = [memBytes s.mem key 16]
        ∧ Stored s s1 key (if leNat (memBytes s.mem key 16) = e0.toNat + 2 ^ 64 * e1.toNat
            then leBytes 16 (n0.toNat + 2 ^ 64 * n1.toNat) else memBytes s.mem key 16)))
  ∧ (
    (∀ s u t y w b o a v, Goes s u t [.g a, .g v] [] → Begins s u t y → classify (t.gval a) = .translated →
      ((t.gval a).toNat % amoWidth w ≠ 0 → Traps (.amo y w b o a v) s u t .misaligned 0 (t.gval a)) ∧
      ((t.gval a).toNat % amoWidth w = 0 → ∃ x, exec (.amo y w b o a v) s =
        .next (retireTo (sendAccess s x) u t (t.pc + w64 (Instr.amo y w b o a v).len))
        ∧ Sent x u (.amo (amoOp b o)) .none [.untranslated] [leBytes (amoWidth w) (t.gval v).toNat]))
    ∧ (∀ s u t y w b o d a v, Goes s u t [.g a, .g v] [.g d] → Begins s u t y → classify (t.gval a) = .translated →
      ((t.gval a).toNat % amoWidth w ≠ 0 → Traps (.amoResult y w b o d a v) s u t .misaligned 0 (t.gval a))
      ∧ (syKf y = true → (t.gval a).toNat % amoWidth w = 0 → Keeps (.amoResult y w b o d a v) s u t (.amo (amoOp b o)) (.g d false)
        [.untranslated] [leBytes (amoWidth w) (t.gval v).toNat])
      ∧ (syKf y = false → (t.gval a).toNat % amoWidth w = 0 → ∃ x, exec (.amoResult y w b o d a v) s =
        .next (retireTo (sendAccess s x) u (t.emptyG d) (t.pc + w64 (Instr.amoResult y w b o d a v).len))
        ∧ Sent x u (.amo (amoOp b o)) (.g d false) [.untranslated] [leBytes (amoWidth w) (t.gval v).toNat]))
    ∧ (∀ s u t y d a n, Goes s u t [.g d, .g a, .g n] [.g d] → Begins s u t y → classify (t.gval a) = .translated →
      (syKf y = true → (t.gval a).toNat % 8 = 0 → Keeps (.cas y d a n) s u t (.cas (t.gval d) (t.gval n)) (.g d false) [.untranslated]
        [List.replicate 8 0])
      ∧ (syKf y = true → (t.gval a).toNat % 4 = 0 → Keeps (.casI32 y d a n) s u t (.cas (t.gval d) (t.gval n)) (.g d false) [.untranslated]
        [List.replicate 4 0])
      ∧ (syKf y = false → (t.gval a).toNat % 8 = 0 → ∃ x, exec (.cas y d a n) s =
        .next (retireTo (sendAccess s x) u (t.emptyG d) (t.pc + w64 (Instr.cas y d a n).len))
        ∧ Sent x u (.cas (t.gval d) (t.gval n)) (.g d false) [.untranslated] [List.replicate 8 0])
      ∧ (syKf y = false → (t.gval a).toNat % 4 = 0 → ∃ x, exec (.casI32 y d a n) s =
        .next (retireTo (sendAccess s x) u (t.emptyG d) (t.pc + w64 (Instr.casI32 y d a n).len))
        ∧ Sent x u (.cas (t.gval d) (t.gval n)) (.g d false) [.untranslated] [List.replicate 4 0])
      ∧ ((t.gval a).toNat % 8 ≠ 0 → Traps (.cas y d a n) s u t .misaligned 0 (t.gval a))
      ∧ ((t.gval a).toNat % 4 ≠ 0 → Traps (.casI32 y d a n) s u t .misaligned 0 (t.gval a)))
    ∧ (∀ s u t y d a n, Goes s u t [.g d, .g (nextG d), .g a, .g (nextG n), .g n] [.g d, .g (nextG d)] → Begins s u t y →
      classify (t.gval a) = .translated →
      ((t.gval a).toNat % 16 ≠ 0 → Traps (.casp y d a n) s u t .misaligned 0 (t.gval a))
      ∧ (syKf y = true → (t.gval a).toNat % 16 = 0 → Keeps (.casp y d a n) s u t (.casp (t.gval d) (t.gval (nextG d)) (t.gval n) (t.gval (nextG n)))
        (.pair d) [.untranslated] [List.replicate 16 0])
      ∧ (syKf y = false → (t.gval a).toNat % 16 = 0 → ∃ x, exec (.casp y d a n) s =
        .next (retireTo (sendAccess s x) u ((t.emptyG d).emptyG (nextG d)) (t.pc + w64 (Instr.casp y d a n).len))
        ∧ Sent x u (.casp (t.gval d) (t.gval (nextG d)) (t.gval n) (t.gval (nextG n))) (.pair d) [.untranslated] [List.replicate 16 0]))
    ∧ (∀ s u t y w b o d a v, Memory.wf s.mem = true → Goes s u t [.g a, .g v] [.g d] → Begins s u t y → syKf y = false → NoSoft s →
      InOwn s t (t.gval a) (amoWidth w) → (t.gval a).toNat % amoWidth w = 0 → ∃ s1 x, Retires (.amoResult y w b o d a v) s s1 u t (t.emptyG d)
        ∧ tget s.nextId s1.accs = some x ∧ x.phase = .returning ∧ x.dest = .g d false
        ∧ x.pieces.map (fun q => q.bytes) = [memBytes s.mem (ownKey t (t.gval a)) (amoWidth w)]
        ∧ Stored s s1 (ownKey t (t.gval a)) (leBytes (amoWidth w)
          (amoApply (amoOp b o) (amoWidth w) (leNat (memBytes s.mem (ownKey t (t.gval a)) (amoWidth w))) (leNat (leBytes (amoWidth w) (t.gval v).toNat))))))

/-! ### Vector instructions (R60, R87, R265, R405 to R421) -/

/-- The element-wise instructions on integer types: sums, differences, products and `vfma` wrap at the width, shifts use the amount modulo
the width and are arithmetic for i types, `vmin` and `vmax` compare signed or unsigned, `vabs` and `vneg` wrap. Inactive elements keep
their values; no flag is raised; each active element counts once, and twice for `vfma` (R60, R82, R265, R405, R408). -/
def Obligations.VectorIntegers : Prop :=
  ∀ (s : State) (u : Nat) (t : Thread) (y : Sync) (k : VMask) (ty : EType) (d a b : VNum), ty.isI = true → Memory.wf s.mem = true →
    (Goes s u t [.v a, .v b] [.v d] →
      Computes (.vadd y k ty d a b) s u t k ty d (fun j => (element s t ty a j + element s t ty b j) % 2 ^ ty.bits) 0 12 1
      ∧ Computes (.vsub y k ty d a b) s u t k ty d (fun j => (element s t ty a j + (2 ^ ty.bits - element s t ty b j)) % 2 ^ ty.bits) 0 12 1
      ∧ Computes (.vmul y k ty d a b) s u t k ty d (fun j => element s t ty a j * element s t ty b j % 2 ^ ty.bits) 0 12 1
      ∧ Computes (.vand y k ty d a b) s u t k ty d (fun j => element s t ty a j &&& element s t ty b j) 0 12 1
      ∧ Computes (.vor y k ty d a b) s u t k ty d (fun j => element s t ty a j ||| element s t ty b j) 0 12 1
      ∧ Computes (.vxor y k ty d a b) s u t k ty d (fun j => element s t ty a j ^^^ element s t ty b j) 0 12 1
      ∧ Computes (.vshl y k ty d a b) s u t k ty d
          (fun j => element s t ty a j * 2 ^ (element s t ty b j % ty.bits) % 2 ^ ty.bits) 0 12 1
      ∧ Computes (.vshr y k ty d a b) s u t k ty d
          (fun j => (intOf ty (element s t ty a j) / 2 ^ (element s t ty b j % ty.bits) % 2 ^ ty.bits).toNat) 0 12 1
      ∧ Computes (.vmin y k ty d a b) s u t k ty d
          (fun j => (min (intOf ty (element s t ty a j)) (intOf ty (element s t ty b j)) % 2 ^ ty.bits).toNat) 0 12 1
      ∧ Computes (.vmax y k ty d a b) s u t k ty d
          (fun j => (max (intOf ty (element s t ty a j)) (intOf ty (element s t ty b j)) % 2 ^ ty.bits).toNat) 0 12 1)
    ∧ (Goes s u t [.v a, .v d, .v b] [.v d] → Computes (.vfma y k ty d a b) s u t k ty d
        (fun j => (element s t ty a j * element s t ty b j + element s t ty d j) % 2 ^ ty.bits) 0 12 2)
    ∧ (Goes s u t [.v a] [.v d] →
      Computes (.vabs y k ty d a) s u t k ty d (fun j => (intOf ty (element s t ty a j)).natAbs % 2 ^ ty.bits) 0 12 1
      ∧ Computes (.vneg y k ty d a) s u t k ty d (fun j => (2 ^ ty.bits - element s t ty a j) % 2 ^ ty.bits) 0 12 1)

/-- The element-wise instructions on f64, f32, f16 and bf16 compute one rounded result per active element under `frm`, with the flags that
it raises ORed into `fflags`; `vabs` and `vneg` change the sign bit alone, and `vclass` marks the class of each element (R84, R87, R89,
R265, R408, R410). -/
def Obligations.VectorFloats : Prop :=
  ∀ (s : State) (u : Nat) (t : Thread) (y : Sync) (k : VMask) (ty : EType) (d a b : VNum), ty.isF = true → Memory.wf s.mem = true →
    (Goes s u t [.v a, .v b] [.v d] →
      ComputesF (.vadd y k ty d a b) s u t k ty d (fun j => fAdd ty t.frm.toNat (element s t ty a j) (element s t ty b j)) 1
      ∧ ComputesF (.vsub y k ty d a b) s u t k ty d (fun j => fSub ty t.frm.toNat (element s t ty a j) (element s t ty b j)) 1
      ∧ ComputesF (.vmul y k ty d a b) s u t k ty d (fun j => fMul ty t.frm.toNat (element s t ty a j) (element s t ty b j)) 1
      ∧ ComputesF (.vdiv y k ty d a b) s u t k ty d (fun j => fDiv ty t.frm.toNat (element s t ty a j) (element s t ty b j)) 1
      ∧ ComputesF (.vmin y k ty d a b) s u t k ty d (fun j => (fMin ty (element s t ty a j) (element s t ty b j), 0)) 1
      ∧ ComputesF (.vmax y k ty d a b) s u t k ty d (fun j => (fMax ty (element s t ty a j) (element s t ty b j), 0)) 1)
    ∧ (Goes s u t [.v a, .v d, .v b] [.v d] → ComputesF (.vfma y k ty d a b) s u t k ty d
        (fun j => fFma ty t.frm.toNat (element s t ty a j) (element s t ty b j) (element s t ty d j)) 2)
    ∧ (Goes s u t [.v a] [.v d] →
      ComputesF (.vsqrt y k ty d a) s u t k ty d (fun j => rounded ty t.frm.toNat (sqrtVal (decodeF ty (element s t ty a j)))) 1
      ∧ ComputesF (.vrcp y k ty d a) s u t k ty d (fun j => fRcp ty t.frm.toNat (element s t ty a j)) 1
      ∧ ComputesF (.vrsq y k ty d a) s u t k ty d (fun j => rounded ty t.frm.toNat (rsqVal (decodeF ty (element s t ty a j)))) 1
      ∧ ComputesF (.vexp2 y k ty d a) s u t k ty d (fun j => rounded ty t.frm.toNat (exp2Val (decodeF ty (element s t ty a j)))) 1
      ∧ ComputesF (.vlog2 y k ty d a) s u t k ty d (fun j => rounded ty t.frm.toNat (log2Val (decodeF ty (element s t ty a j)))) 1
      ∧ ComputesF (.vabs y k ty d a) s u t k ty d (fun j => (element s t ty a j % 2 ^ (ty.bits - 1), 0)) 1
      ∧ ComputesF (.vneg y k ty d a) s u t k ty d (fun j => (element s t ty a j ^^^ 2 ^ (ty.bits - 1), 0)) 1
      ∧ ComputesF (.vclass y k ty d a) s u t k ty d (fun j => (classBit ty (element s t ty a j), 0)) 1)

/-- Rounding of a number that the format holds gives its encoding and raises no flag, whatever the mode; infinities stay, and NaN is the
canonical one (R79, R81, R84, R86). One rounding of an exact finite number, in each mode: nearest even, toward zero, down, up; within the
range of the format, at its subnormals, and above its largest finite magnitude, with the flags (R84, R86, R91; where a result that rounds
to 0 is inexact without underflow is log 75's reading). A narrow conversion under mode 4 rounds as R85's definition says, and saturates
above the largest finite magnitude. The arithmetic of R89 on finite operands: the exact sum, difference, product, quotient, square root,
reciprocal and reciprocal root, rounded once under `frm`; the signs of zeros; and the exact cases of the powers and logarithms of 2 (mode
4 is nearest even, R84). The arithmetic of R89 on NaN and infinities: a NaN operand gives the canonical NaN without a flag, ∞ − ∞, 0 × ∞
and ∞ ÷ ∞ give it with `invalid`, and every other operation on an infinity is exact. -/
def Obligations.RoundingIsExact : Prop :=
  (
    ∀ (ty : EType) (mode x : Nat), ty.isF = true → x < 2 ^ ty.bits →
      encodeF ty mode none (decodeF ty x) = if decodeF ty x = .nan then ((fmtOf ty).canon, 0) else (x, 0))
  ∧ (
    (∀ (ty : EType) (mode : Nat) (neg : Bool) (m : Nat) (e : Int), ty.isFloat = true → mode ≤ 3 → 0 < m →
      Rounds ty mode neg (((m : ℚ) * (2 : ℚ) ^ e : ℚ) : ℝ) (encodeF ty mode none (.fin neg m e)))
    ∧ (∀ (ty : EType) (neg : Bool) (m : Nat) (e : Int) (l : Nat), ty.isNarrow = true → 0 < m → (m : ℚ) * (2 : ℚ) ^ e < topOf ty → 0 < l →
      l < 2 ^ 32 → Stochastic ty neg ((m : ℚ) * (2 : ℚ) ^ e) l (encodeF ty 4 (some l) (.fin neg m e)))
    ∧ (∀ (ty : EType) (neg : Bool) (m : Nat) (e : Int) (l : Nat), ty.isNarrow = true → topOf ty ≤ (m : ℚ) * (2 : ℚ) ^ e → l < 2 ^ 32 →
      encodeF ty 4 (some l) (.fin neg m e) = ((fmtOf ty).sign neg + (fmtOf ty).maxBits,
        if topOf ty + gapOf ty ≤ (m : ℚ) * (2 : ℚ) ^ e ∨ 2 ^ 32 ≤ ⌊((m : ℚ) * (2 : ℚ) ^ e - topOf ty) / gapOf ty * 2 ^ 32⌋ + l
        then flSat ||| flInexact ||| (if (fmtOf ty).hasInf then flOverflow else 0)
        else if (m : ℚ) * (2 : ℚ) ^ e = topOf ty then 0 else flInexact))
    ∧ (∀ (ty : EType) (mode : Nat) (neg : Bool) (e : Int), ty.isFloat = true → encodeF ty mode none (.fin neg 0 e) = ((fmtOf ty).sign neg, 0))
    ∧ (∀ (ty : EType) (mode : Nat) (neg : Bool), ty.isFloat = true → encodeF ty mode none (.inf neg) =
      if (fmtOf ty).hasInf then ((fmtOf ty).infBits neg, 0) else ((fmtOf ty).sign neg + (fmtOf ty).maxBits, flSat ||| flInexact))
    ∧ (∀ (ty : EType) (mode : Nat), ty.isFloat = true → encodeF ty mode none .nan = if (fmtOf ty).hasNan then ((fmtOf ty).canon, 0) else (0, flInvalid)))
  ∧ (
    ∀ (ty : EType) (frm x y w : Nat) (n1 n2 n3 : Bool) (a b c : ℚ), ty.isF = true → frm ≤ 4 → Holds ty x n1 a → Holds ty y n2 b → Holds ty w n3 c →
      RoundsTo ty (plainMode frm) ((withSign n1 a + withSign n2 b : ℚ) : ℝ) (fAdd ty frm x y)
      ∧ (withSign n1 a + withSign n2 b = 0 → fAdd ty frm x y = zeroOf ty (plainMode frm) (decide (a = 0) && n1 == n2) n1)
      ∧ RoundsTo ty (plainMode frm) ((withSign n1 a - withSign n2 b : ℚ) : ℝ) (fSub ty frm x y)
      ∧ (withSign n1 a - withSign n2 b = 0 → fSub ty frm x y = zeroOf ty (plainMode frm) (decide (a = 0) && n1 != n2) n1)
      ∧ RoundsTo ty (plainMode frm) ((withSign (n1 != n2) (a * b) : ℚ) : ℝ) (fMul ty frm x y)
      ∧ (a * b = 0 → fMul ty frm x y = ((fmtOf ty).sign (n1 != n2), 0))
      ∧ (b ≠ 0 → RoundsTo ty (plainMode frm) ((withSign (n1 != n2) (a / b) : ℚ) : ℝ) (fDiv ty frm x y))
      ∧ (a = 0 → b ≠ 0 → fDiv ty frm x y = ((fmtOf ty).sign (n1 != n2), 0))
      ∧ (a ≠ 0 → b = 0 → fDiv ty frm x y = ((fmtOf ty).infBits (n1 != n2), flDivzero))
      ∧ (a = 0 → b = 0 → fDiv ty frm x y = ((fmtOf ty).canon, flInvalid))
      ∧ RoundsTo ty (plainMode frm) ((withSign (n1 != n2) (a * b) + withSign n3 c : ℚ) : ℝ) (fFma ty frm x y w)
      ∧ (withSign (n1 != n2) (a * b) + withSign n3 c = 0 →
        fFma ty frm x y w = zeroOf ty (plainMode frm) (decide (c = 0) && (n1 != n2) == n3) n3)
      ∧ (a ≠ 0 → Rounds ty (plainMode frm) n1 ((1 / a : ℚ) : ℝ) (fRcp ty frm x))
      ∧ (a = 0 → fRcp ty frm x = ((fmtOf ty).infBits n1, flDivzero))
      ∧ (a ≠ 0 → n1 = false → Rounds ty (plainMode frm) false (Real.sqrt (a : ℝ)) (rounded ty frm (sqrtVal (decodeF ty x)))
        ∧ Rounds ty (plainMode frm) false (1 / Real.sqrt (a : ℝ)) (rounded ty frm (rsqVal (decodeF ty x))))
      ∧ (a ≠ 0 → n1 = true → rounded ty frm (sqrtVal (decodeF ty x)) = ((fmtOf ty).canon, flInvalid)
        ∧ rounded ty frm (rsqVal (decodeF ty x)) = ((fmtOf ty).canon, flInvalid) ∧ rounded ty frm (log2Val (decodeF ty x)) = ((fmtOf ty).canon, flInvalid))
      ∧ (a = 0 → rounded ty frm (sqrtVal (decodeF ty x)) = ((fmtOf ty).sign n1, 0)
        ∧ rounded ty frm (rsqVal (decodeF ty x)) = ((fmtOf ty).infBits n1, flDivzero)
        ∧ rounded ty frm (log2Val (decodeF ty x)) = ((fmtOf ty).infBits true, flDivzero))
      ∧ (∀ k : Int, n1 = false → a = (2 : ℚ) ^ k → ∃ r n z, rounded ty frm (log2Val (decodeF ty x)) = (r, 0) ∧ Holds ty r n z ∧ withSign n z = k)
      ∧ (∀ (k : Int) (r : Nat), withSign n1 a = k → Holds ty r false ((2 : ℚ) ^ k) → rounded ty frm (exp2Val (decodeF ty x)) = (r, 0))
      ∧ (a = 0 → b = 0 → fMin ty x y = (fmtOf ty).sign (n1 || n2) ∧ fMax ty x y = (fmtOf ty).sign (n1 && n2))
      ∧ (withSign n1 a < withSign n2 b → fMin ty x y = x ∧ fMin ty y x = x ∧ fMax ty x y = y ∧ fMax ty y x = y))
  ∧ (
    ∀ (ty : EType) (frm x y w : Nat), ty.isF = true → frm ≤ 4 →
      (decodeF ty x = .nan → (∀ z, fAdd ty frm x z = ((fmtOf ty).canon, 0) ∧ fAdd ty frm z x = ((fmtOf ty).canon, 0) ∧ fSub ty frm x z = ((fmtOf ty).canon, 0)
        ∧ fSub ty frm z x = ((fmtOf ty).canon, 0) ∧ fMul ty frm x z = ((fmtOf ty).canon, 0) ∧ fMul ty frm z x = ((fmtOf ty).canon, 0)
        ∧ fDiv ty frm x z = ((fmtOf ty).canon, 0) ∧ fDiv ty frm z x = ((fmtOf ty).canon, 0) ∧ fMin ty x z = (fmtOf ty).canon ∧ fMin ty z x = (fmtOf ty).canon
        ∧ fMax ty x z = (fmtOf ty).canon ∧ fMax ty z x = (fmtOf ty).canon ∧ fFma ty frm y z x = ((fmtOf ty).canon, 0))
        ∧ (∀ z, decodeF ty w ≠ .nan → fFma ty frm x z w = ((fmtOf ty).canon, 0) ∧ fFma ty frm z x w = ((fmtOf ty).canon, 0))
        ∧ fRcp ty frm x = ((fmtOf ty).canon, 0) ∧ rounded ty frm (sqrtVal (decodeF ty x)) = ((fmtOf ty).canon, 0)
        ∧ rounded ty frm (rsqVal (decodeF ty x)) = ((fmtOf ty).canon, 0) ∧ rounded ty frm (exp2Val (decodeF ty x)) = ((fmtOf ty).canon, 0)
        ∧ rounded ty frm (log2Val (decodeF ty x)) = ((fmtOf ty).canon, 0))
      ∧ (∀ n k, decodeF ty x = .inf n → decodeF ty y = .inf k →
        fAdd ty frm x y = (if n = k then ((fmtOf ty).infBits n, 0) else ((fmtOf ty).canon, flInvalid))
        ∧ fSub ty frm x y = (if n = k then ((fmtOf ty).canon, flInvalid) else ((fmtOf ty).infBits n, 0))
        ∧ fMul ty frm x y = ((fmtOf ty).infBits (n != k), 0) ∧ fDiv ty frm x y = ((fmtOf ty).canon, flInvalid))
      ∧ (∀ n k z, decodeF ty x = .inf n → Holds ty y k z →
        fAdd ty frm x y = ((fmtOf ty).infBits n, 0) ∧ fAdd ty frm y x = ((fmtOf ty).infBits n, 0) ∧ fSub ty frm x y = ((fmtOf ty).infBits n, 0)
        ∧ fSub ty frm y x = ((fmtOf ty).infBits (!n), 0)
        ∧ fMul ty frm x y = (if z = 0 then ((fmtOf ty).canon, flInvalid) else ((fmtOf ty).infBits (n != k), 0))
        ∧ fMul ty frm y x = (if z = 0 then ((fmtOf ty).canon, flInvalid) else ((fmtOf ty).infBits (n != k), 0))
        ∧ fDiv ty frm x y = ((fmtOf ty).infBits (n != k), 0) ∧ fDiv ty frm y x = ((fmtOf ty).sign (n != k), 0)
        ∧ (decodeF ty w ≠ .nan → z = 0 → fFma ty frm x y w = ((fmtOf ty).canon, flInvalid) ∧ fFma ty frm y x w = ((fmtOf ty).canon, flInvalid))
        ∧ (∀ j v, Holds ty w j v → z ≠ 0 → fFma ty frm x y w = ((fmtOf ty).infBits (n != k), 0))
        ∧ (∀ j v, Holds ty w j v → fFma ty frm y w x = ((fmtOf ty).infBits n, 0)))
      ∧ (∀ n, decodeF ty x = .inf n → fRcp ty frm x = ((fmtOf ty).sign n, 0)
        ∧ rounded ty frm (sqrtVal (decodeF ty x)) = (if n then ((fmtOf ty).canon, flInvalid) else ((fmtOf ty).infBits false, 0))
        ∧ rounded ty frm (rsqVal (decodeF ty x)) = (if n then ((fmtOf ty).canon, flInvalid) else (0, 0))
        ∧ rounded ty frm (exp2Val (decodeF ty x)) = (if n then (0, 0) else ((fmtOf ty).infBits false, 0))
        ∧ rounded ty frm (log2Val (decodeF ty x)) = (if n then ((fmtOf ty).canon, flInvalid) else ((fmtOf ty).infBits false, 0))))

/-- Comparison, selection, reduction, dot product (R90, R411, R414, R420, R421). A bit of `vcmp`'s mask is 1 where it governs elements and
all of them are active and hold the condition; `vsel` writes every element, from its first source where the mask is 1; `vred` writes a
scalar register, what R90's tree makes of the active elements, or the identity of the operation when none is active, with the flags of the
tree's operations, and counts one less than them; `vdot` adds the products of each active 32-bit lane to it. A floating comparison is
numeric, −0 equal to +0, and with a NaN every predicate but ne is false. Permutation, broadcast, insertion, extraction, and the mask
registers (R379, R409, R415, R418, R419). -/
def Obligations.VectorReductionsAndMoves : Prop :=
  (
    (∀ s u t y k ty c d a b, Goes s u t [.v a, .v b] [] → ∃ s1 t1, Retires (.vcmp y k ty c d a b) s s1 u t t1 ∧ s1.mem = s.mem ∧ t1.g = t.g
      ∧ (∀ q, q ≠ d → t1.q.get q = t.q.get q)
      ∧ (∀ i, i < 16 → ((t1.q.get d).getLsbD i = true ↔ (∃ j, j < 512 / ty.bits ∧ maskBit ty j = i)
          ∧ ∀ j, j < 512 / ty.bits → maskBit ty j = i → governs k t ty j = true ∧ elemCmp ty c (element s t ty a j) (element s t ty b j) = true)))
    ∧ (∀ ty (c : Fin 6) x z, EType.isI ty = true → x < 2 ^ ty.bits → z < 2 ^ ty.bits → elemCmp ty c x z = (match c with
        | 0 => decide (intOf ty x = intOf ty z) | 1 => decide (intOf ty x ≠ intOf ty z) | 2 => decide (intOf ty x < intOf ty z)
        | 3 => decide (intOf ty x ≤ intOf ty z) | 4 => decide (intOf ty z < intOf ty x) | 5 => decide (intOf ty z ≤ intOf ty x)))
    ∧ (∀ ty (c : Fin 6) x z nx nz vx vz, EType.isF ty = true → Holds ty x nx vx → Holds ty z nz vz → elemCmp ty c x z = (match c with
        | 0 => decide (withSign nx vx = withSign nz vz) | 1 => decide (withSign nx vx ≠ withSign nz vz) | 2 => decide (withSign nx vx < withSign nz vz)
        | 3 => decide (withSign nx vx ≤ withSign nz vz) | 4 => decide (withSign nz vz < withSign nx vx) | 5 => decide (withSign nz vz ≤ withSign nx vx)))
    ∧ (∀ ty (c : Fin 6) x z, EType.isF ty = true → (decodeF ty x = .nan ∨ decodeF ty z = .nan) → elemCmp ty c x z = decide (c = 1))
    ∧ (∀ ty (c : Fin 6) x z n nz vz, EType.isF ty = true → decodeF ty x = .inf n → Holds ty z nz vz →
        elemCmp ty c x z = (match c with | 0 => false | 1 => true | 2 => n | 3 => n | 4 => !n | 5 => !n)
        ∧ elemCmp ty c z x = (match c with | 0 => false | 1 => true | 2 => !n | 3 => !n | 4 => n | 5 => n))
    ∧ (∀ s u t y q ty d a b, Memory.wf s.mem = true → Goes s u t [.v a, .v b] [.v d] → Moves (.vsel y q ty d a b) s u t noMask ty d
        (fun j => if (t.q.get q).getLsbD (maskBit ty j) = true then element s t ty a j else element s t ty b j))
    ∧ (∀ s u t y k (ty : EType) o d a, (ty.isF = true ∨ ty.isI = true) → Goes s u t [.v a] [.g d] → ∃ s1 t1 w, Retires (.vred y k ty o d a) s s1 u t t1 ∧ s1.mem = s.mem
        ∧ t1.g.get d = GReg.ofWord w ∧ (∀ n, n ≠ d → t1.g.get n = t.g.get n)
        ∧ Counted s s1 t (countClass ty) ((actives k t ty).length - 1)
        ∧ (actives k t ty = [] → w = elemToWord ty (redIdentity ty o) ∧ t1.fflags = t.fflags)
        ∧ (∀ j, actives k t ty = [j] → w = elemToWord ty (element s t ty a j) ∧ t1.fflags = t.fflags)
        ∧ (actives k t ty ≠ [] → ∃ x fl, treeAt (redOp ty t.frm.toNat o) (fun j => if governs k t ty j = true then some (element s t ty a j) else none)
            (Nat.log2 (512 / ty.bits)) 1 0 = (some x, fl) ∧ w = elemToWord ty x ∧ t1.fflags = t.fflags ||| fl))
    ∧ (∀ s u t y k ty d a b, Memory.wf s.mem = true → Goes s u t [.v a, .v d, .v b] [.v d] →
        ∃ s1 t1, Retires (.vdot y k ty d a b) s s1 u t t1
          ∧ Elements s s1 t t1 k .f32 d (fun l => (dotLane ty t.frm.toNat (element s t .f32 d l)
              ((List.range (32 / ty.bits)).map fun e =>
                (element s t ty a (l * (32 / ty.bits) + e), element s t ty b (l * (32 / ty.bits) + e)))).1 % 2 ^ 32)
          ∧ Counted s s1 t (countClass ty) (2 * (32 / ty.bits) * (actives k t .f32).length)))
  ∧ (
    (∀ s u t y k ty d a x, Memory.wf s.mem = true → Goes s u t [.v a, .v x] [.v d] → Moves (.vperm y k ty d a x) s u t k ty d
        (fun j => element s t ty a (element s t ty x j % (512 / ty.bits))))
    ∧ (∀ s u t y k ty d r, Memory.wf s.mem = true → Goes s u t [.g r] [.v d] → Moves (.vbcast y k ty d r) s u t k ty d
        (fun _ => (t.gval r).toNat % 2 ^ ty.bits))
    ∧ (∀ s u t y ty e d r, Memory.wf s.mem = true → Goes s u t [.g r] [.v d] → Moves (.vins y ty e d r) s u t noMask ty d
        (fun j => if j = e.val then (t.gval r).toNat % 2 ^ ty.bits else element s t ty d j))
    ∧ (∀ s u t y ty e d r, Goes s u t [.v r] [.g d] → Writes (.vext y ty e d r) s u t d
        (if ty.isSigned = true then BitVec.ofInt 64 (intOf ty (element s t ty r e.val)) else w64 (element s t ty r e.val)))
    ∧ (∀ s u t y (o : Fin 5) d a b, Issues s u t → Retires (.qop y o d a b) s s u t { t with q := t.q.set d (match o with
        | 0 => t.q.get a &&& t.q.get b | 1 => t.q.get a ||| t.q.get b | 2 => t.q.get a ^^^ t.q.get b
        | 3 => t.q.get a &&& ~~~t.q.get b | 4 => ~~~t.q.get a) })
    ∧ (∀ s u t y d r, Goes s u t [] [.g d] → Writes (.vmovqToG y d r) s u t d (w64 (t.q.get r).toNat))
    ∧ (∀ s u t y d r, Goes s u t [.g r] [] →
        Retires (.vmovqToQ y d r) s s u t { t with q := t.q.set d (BitVec.ofNat 16 (t.gval r).toNat) }))

/-! ### Conversions, gathers and scatters (R85, R91 to R93, R412, R413, R416) -/

/-- `vcvt` converts the group of elements that p selects, and keeps the destination's others and its inactive ones; each active element of
a stochastic conversion takes the next step of the generator (R85, R91, R265, R412); that one between equal types, a copy, takes none is
log 61's reading. The conversion of one element (R91). A copy between equal types; float to float one rounding of the number, with the
sign of zero, infinities and NaN as the format has them; float to integer the integer that the mode takes, or the nearer bound; integer to
float one rounding (+0 for 0, log 75); integer to integer the value or the nearer bound. The scale of a block: 255 where an element is NaN
or infinite, 127 where all are zero, else from the largest magnitude (R92). `vquant` writes the block p of its destination under the scale
that it computes into its scalar register or is given there, `vdeq` multiplies the block's elements by their scale into the wide side; a
stochastic `vquant` takes one step of the generator for each element, in rising order; a scale above 255 in the register is ILLEGAL (R85,
R92, R93, R413). The elements of a block under a scale (R83, R92, R93): each is x × 2^(127−s), rounded once into the narrow format, and
back x × 2^(s−127), rounded once into the wide one; a NaN block is +0 and NaN; a NaN or an infinity in the block raises `invalid`. -/
def Obligations.VectorConversions : Prop :=
  (
    ∀ s u t y k (dt st : EType) (p : Fin 4) d r, Memory.wf s.mem = true → Goes s u t [.v r] [.v d] →
      ∃ s1 t1, Retires (.vcvt y k dt st p d r) s s1 u t t1
        ∧ t1.lfsr = (if draws dt t.frm.toNat = true ∧ dt ≠ st then lfsrRun (rankOf k t (widerOf dt st) (512 / (widerOf dt st).bits)) t.lfsr else t.lfsr)
        ∧ Elements s s1 t t1 noMask dt d (fun e =>
            if groupStart dt st p ≤ e ∧ e < groupStart dt st p + 512 / (widerOf dt st).bits
                ∧ governs k t (widerOf dt st) (e - groupStart dt st p) = true
            then (convert dt st t.frm.toNat
              (if draws dt t.frm.toNat = true ∧ dt ≠ st
                then some (lfsrRun (rankOf k t (widerOf dt st) (e - groupStart dt st p) + 1) t.lfsr).toNat else none)
              (element s t st r (groupStart st dt p + (e - groupStart dt st p)))).1 % 2 ^ dt.bits
            else element s t dt d e)
        ∧ Counted s s1 t (countClass (widerType dt st)) (rankOf k t (widerOf dt st) (512 / (widerOf dt st).bits)))
  ∧ (
    (∀ ty frm dr x, convert ty ty frm dr x = (x, 0))
    ∧ (∀ (dt st : EType) (frm x : Nat) (n : Bool) (q : ℚ), dt ≠ st → dt.isFloat = true → st.isFloat = true → frm ≤ 4 → Holds st x n q →
      (q ≠ 0 → Rounds dt (plainMode frm) n (q : ℝ) (convert dt st frm none x))
      ∧ (q ≠ 0 → q < topOf dt → dt.isNarrow = true → ∀ l, 0 < l → l < 2 ^ 32 → Stochastic dt n q l (convert dt st frm (some l) x))
      ∧ (q = 0 → ∀ dr, convert dt st frm dr x = ((fmtOf dt).sign n, 0)))
    ∧ (∀ (dt st : EType) (frm x : Nat) dr, dt ≠ st → dt.isFloat = true → st.isFloat = true →
      (∀ n, decodeF st x = .inf n → convert dt st frm dr x =
        if (fmtOf dt).hasInf then ((fmtOf dt).infBits n, 0) else ((fmtOf dt).sign n + (fmtOf dt).maxBits, flSat ||| flInexact))
      ∧ (decodeF st x = .nan → convert dt st frm dr x = if (fmtOf dt).hasNan then ((fmtOf dt).canon, 0) else (0, flInvalid)))
    ∧ (∀ (dt st : EType) (frm x : Nat) (n : Bool) (q : ℚ), dt.isI = true → st.isFloat = true → frm ≤ 4 → Holds st x n q →
      ∃ r, IntegerOf (plainMode frm) (withSign n q) r
        ∧ convert dt st frm none x = bounded dt r (if (r : ℚ) = withSign n q then 0 else flInexact))
    ∧ (∀ (dt st : EType) (frm x : Nat), dt.isI = true → st.isFloat = true →
      (∀ n, decodeF st x = .inf n → convert dt st frm none x =
        (((if n then leastOf dt else greatestOf dt) % 2 ^ dt.bits).toNat, flSat ||| flInexact))
      ∧ (decodeF st x = .nan → convert dt st frm none x = (0, flInvalid)))
    ∧ (∀ (dt st : EType) (frm x : Nat), dt.isFloat = true → st.isI = true → frm ≤ 4 → x < 2 ^ st.bits →
      RoundsTo dt (plainMode frm) ((intOf st x : ℚ) : ℝ) (convert dt st frm none x) ∧ (intOf st x = 0 → convert dt st frm none x = (0, 0)))
    ∧ (∀ (dt st : EType) (frm x : Nat), dt.isI = true → st.isI = true → x < 2 ^ st.bits → convert dt st frm none x = bounded dt (intOf st x) 0))
  ∧ (
    (∀ d vs, blockBad vs = true → blockScale d vs = 0xFF)
    ∧ (∀ d n, blockScale d (List.replicate n (.fin false 0 0)) = 127)
    ∧ (∀ d vs v top, blockBad vs = false → v ∈ vs → FVal.log v = some top → (∀ x ∈ vs, ∀ z, FVal.log x = some z → z ≤ top) →
      blockScale d vs = (max 0 (min 254 (top - emaxOf d + 127))).toNat))
  ∧ (
    (∀ s u t y dt w (p : Fin 4) d r c rs, Memory.wf s.mem = true → widePair (wideType w) r = some rs →
      Goes s u t (rs.map RegName.v) [.v d, .g c] →
      ∃ s1 t1, Retires (.vquant y dt w p d r c) s s1 u t t1
        ∧ t1.lfsr = (if draws dt t.frm.toNat then lfsrRun 32 t.lfsr else t.lfsr) ∧ t1.gval c = w64 (blockScale dt ((wideElems s t (wideType w) rs).map (decodeF (wideType w)))) ∧ t1.regSt (.g c) = .full
        ∧ (∀ n, n ≠ c → t1.g.get n = t.g.get n)
        ∧ ∀ e, e < 512 / dt.bits → element s1 t dt d e = (if p.val * 32 ≤ e ∧ e < p.val * 32 + 32
            then (quantBlock dt t.frm.toNat (blockScale dt ((wideElems s t (wideType w) rs).map (decodeF (wideType w))))
              ((wideElems s t (wideType w) rs).map (decodeF (wideType w)))
              fun j => if draws dt t.frm.toNat then some (lfsrRun (j + 1) t.lfsr).toNat else none).1.getD (e - p.val * 32) 0 % 2 ^ dt.bits
            else element s t dt d e))
    ∧ (∀ s u t y dt w (p : Fin 4) d r c rs, Memory.wf s.mem = true → widePair (wideType w) r = some rs →
      Goes s u t (rs.map RegName.v ++ [.g c]) [.v d] → (t.gval c).toNat < 256 →
      ∃ s1 t1, Retires (.vquantGiven y dt w p d r c) s s1 u t t1 ∧ t1.g = t.g
        ∧ t1.lfsr = (if draws dt t.frm.toNat then lfsrRun 32 t.lfsr else t.lfsr)
        ∧ ∀ e, e < 512 / dt.bits → element s1 t dt d e = (if p.val * 32 ≤ e ∧ e < p.val * 32 + 32
            then (quantBlock dt t.frm.toNat (t.gval c).toNat
              ((wideElems s t (wideType w) rs).map (decodeF (wideType w)))
              fun j => if draws dt t.frm.toNat then some (lfsrRun (j + 1) t.lfsr).toNat else none).1.getD (e - p.val * 32) 0 % 2 ^ dt.bits
            else element s t dt d e))
    ∧ (∀ s u t y st w (p : Fin 4) d r c ds, Memory.wf s.mem = true → widePair (wideType w) d = some ds →
      Goes s u t [.v r, .g c] (ds.map RegName.v) → (t.gval c).toNat < 256 →
      ∃ s1 t1, Retires (.vdeq y st w p d r c) s s1 u t t1 ∧ t1.g = t.g
        ∧ ∀ i, (h : i < ds.length) → ∀ e, e < 512 / (wideType w).bits → i * (512 / (wideType w).bits) + e < 32 →
          element s1 t (wideType w) ds[i] e = (dequant (wideType w) st t.frm.toNat (t.gval c).toNat
            (element s t st r (p.val * 32 + (i * (512 / (wideType w).bits) + e)))).1 % 2 ^ (wideType w).bits)
    ∧ (∀ s u t y dt w p d r c rs, widePair (wideType w) r = some rs → Goes s u t (rs.map RegName.v ++ [.g c]) [.v d] →
      256 ≤ (t.gval c).toNat → Traps (.vquantGiven y dt w p d r c) s u t .illegal 0 t.pc))
  ∧ (
    (∀ (d : EType) (frm scale : Nat) (vs : List FVal) (j : Nat) (n : Bool) (m : Nat) (e : Int), d.isNarrow = true → frm ≤ 3 → scale < 255 →
      vs[j]? = some (.fin n m e) → 0 < m → ∃ r fl, (quantElems d frm scale vs fun _ => none)[j]? = some (r, fl ||| if blockBad vs then flInvalid else 0)
        ∧ Rounds d frm n (((m : ℚ) * (2 : ℚ) ^ (e + 127 - scale) : ℚ) : ℝ) (r, fl))
    ∧ (∀ (d : EType) (scale : Nat) (vs : List FVal) (j : Nat) (n : Bool) (m : Nat) (e : Int) (draw : Nat → Nat), d.isNarrow = true → scale < 255 →
      vs[j]? = some (.fin n m e) → 0 < m → (m : ℚ) * (2 : ℚ) ^ (e + 127 - scale) < topOf d → 0 < draw j → draw j < 2 ^ 32 → ∃ r fl,
        (quantElems d 4 scale vs fun k => some (draw k))[j]? = some (r, fl ||| if blockBad vs then flInvalid else 0)
        ∧ Stochastic d n ((m : ℚ) * (2 : ℚ) ^ (e + 127 - scale)) (draw j) (r, fl))
    ∧ (∀ d frm scale vs draw, (quantBlock d frm scale vs draw).1.length = vs.length ∧ ∀ (j r : Nat) (fl : Flags), (quantElems d frm scale vs draw)[j]? = some (r, fl) →
        (quantBlock d frm scale vs draw).1[j]? = some r ∧ fl &&& (quantBlock d frm scale vs draw).2 = fl)
    ∧ (∀ d frm vs draw, vs ≠ [] → quantBlock d frm 255 vs draw = (List.replicate vs.length 0, if blockBad vs then flInvalid else 0))
    ∧ (∀ (wt d : EType) (frm scale x : Nat) (n : Bool) (q : ℚ), wt.isF = true → d.isNarrow = true → frm ≤ 4 → scale < 255 → Holds d x n q →
      (q ≠ 0 → Rounds wt (plainMode frm) n ((q * (2 : ℚ) ^ ((scale : Int) - 127) : ℚ) : ℝ) (dequant wt d frm scale x))
      ∧ (q = 0 → dequant wt d frm scale x = ((fmtOf wt).sign n, 0)))
    ∧ (∀ wt d frm x, dequant wt d frm 255 x = ((fmtOf wt).canon, 0)))

/-- `vgat` and `vsct` (R100, R142, R147, R154, R416). A gather whose active addresses pass their checks goes into flight as one access of
a piece for each, and under keep-full waits there; one whose addresses all lie in the own pool reads it at once; a scatter's elements are
stores, in rising order; the lowest misaligned element is MISALIGNED (that `taddr` is its address is log 9's reading of R235); with no
active element nothing is read or written (that the destination then keeps its register state is log 13's reading of R65). -/
def Obligations.GathersAndScatters : Prop :=
  (∀ s u t y k ty d b x j js (loc : Word → Where), Goes s u t [.g b, .v x] [.v d] → Begins s u t y → syKf y = false → actives k t ty = j :: js →
    (∀ e ∈ gatherAddrs s t k ty b x, e.2.toNat % (ty.bits / 8) = 0 ∧ ownPool t.core e.2 = false
      ∧ ∃ n, resolve s t.cid t.core e.2 rRead = .ok (loc e.2) n) →
    ∃ a t1, exec (.vgat y k ty d b x) s = .next (retireTo (sendAccess s a) u t1 (t.pc + w64 (Instr.vgat y k ty d b x).len))
      ∧ t1.regSt (.v d) = .empty ∧ t1.g = t.g
      ∧ Sent a u .load (.v d (byteMask fun c => maskActive k t ty.bits (c / (ty.bits / 8))))
          ((gatherAddrs s t k ty b x).map fun e => loc e.2) ((gatherAddrs s t k ty b x).map fun _ => List.replicate (ty.bits / 8) 0))
  ∧ (∀ s u t y k ty d b x j js (loc : Word → Where), Goes s u t [.g b, .v x] [.v d] → Begins s u t y → syKf y = true → actives k t ty = j :: js →
    (∀ e ∈ gatherAddrs s t k ty b x, e.2.toNat % (ty.bits / 8) = 0 ∧ ownPool t.core e.2 = false
      ∧ ∃ n, resolve s t.cid t.core e.2 rRead = .ok (loc e.2) n) →
    Keeps (.vgat y k ty d b x) s u t .load (.v d (byteMask fun c => maskActive k t ty.bits (c / (ty.bits / 8))))
      ((gatherAddrs s t k ty b x).map fun e => loc e.2) ((gatherAddrs s t k ty b x).map fun _ => List.replicate (ty.bits / 8) 0))
  ∧ (∀ s u t y k ty d b x, Memory.wf s.mem = true → 8 ≤ ty.bits → Goes s u t [.g b, .v x] [.v d] → Begins s u t y →
    (∀ e ∈ gatherAddrs s t k ty b x, e.2.toNat % (ty.bits / 8) = 0 ∧ InOwn s t e.2 (ty.bits / 8)) →
    ∃ r, Moves (.vgat y k ty d b x) s u t k ty d r ∧ ∀ e ∈ gatherAddrs s t k ty b x, r e.1 = leNat (memBytes s.mem (ownKey t e.2) (ty.bits / 8)))
  ∧ (∀ s u t y k ty d b x, Goes s u t [.g b, .v x] [.v d] → actives k t ty = [] → Retires (.vgat y k ty d b x) s s u t t)
  ∧ (∀ s u t y k ty r b x, Goes s u t [.v r, .g b, .v x] [] → Begins s u t y →
    (∀ e ∈ gatherAddrs s t k ty b x, e.2.toNat % (ty.bits / 8) = 0 ∧ ownPool t.core e.2 = false) →
    ∃ s1, Retires (.vsct y k ty r b x) s s1 u t t ∧ s1.mem = s.mem ∧ s1.nextId = s.nextId + (actives k t ty).length
      ∧ ∀ j (h : j < (gatherAddrs s t k ty b x).length), ∃ a, tget (s.nextId + j) s1.accs = some a ∧ Sent a u .store .none [.untranslated]
          [leBytes (ty.bits / 8) (element s t ty r (gatherAddrs s t k ty b x)[j].1)])
  ∧ (∀ s u t y k ty d r b x e es, Goes s u t [.v r, .g b, .v x] [.v d] → t.prog = .none → gatherAddrs s t k ty b x = e :: es →
    e.2.toNat % (ty.bits / 8) ≠ 0 → Traps (.vgat y k ty d b x) s u t .misaligned 0 e.2 ∧ Traps (.vsct y k ty r b x) s u t .misaligned 0 e.2)

/-! ### The matrix unit (R64, R94 to R96, R185 to R195, R364 to R374) -/

/-- `mzero`, `mwr` and `mma` put a command at the end of their core's queue and set the slot's watermark to 0; an unbound handle takes a
free slot filled with +0, and waits while there is none, for 2^20 cycles at most; the operands of an `mma` are checked first; in a handler
the page 3 instructions are ILLEGAL (R47, R185, R188 to R194, R365, R373, R374; that `taddr` of a misaligned base holds it is log 9's
reading of R235). `mrel` unbinds its handle at once and queues the return of the slot, and does nothing on an unbound one; `mwm` reads the
watermark and the slot's flags; `mrd` of a final row sends its 16 words to the register, which is E until then, poisoned if the slot is,
and one of another row waits; under keep-full an `mrd` waits at its instruction, its register as it was, and retires once its result is
there; `mrd` and `mwm` of an unbound handle are ACC_UNBOUND (R64, R69, R192, R193, R366, R369, R370, R372). -/
def Obligations.MatrixCommands : Prop :=
  (
    (∀ s u t y h k, Issues s u t → InThread t → MayQueue s t h k → ∃ s1, Retires (.mzero y h) s s1 u t t ∧ Queued s s1 u t h k .mzero)
    ∧ (∀ s u t y h k r i, Goes s u t [.v r] [] → InThread t → MayQueue s t h k → ∃ s1, Retires (.mwr y h r i) s s1 u t t
        ∧ Queued s s1 u t h k (.mwr (i.raw % 256) r.val ((List.range 16).map fun l => BitVec.ofNat 32 (element s t .n32 r l))))
    ∧ (∀ s u t y h k (m : Fin 16) ty tb ka kb a b, MmaRuns s u t m ty ka kb a b tb → InThread t → MayQueue s t h k →
        ∃ s1, Retires (.mma y h m ty ka kb a b) s s1 u t t
          ∧ Queued s s1 u t h k (.mma ty tb (m.val + 1) (readOperand s t ka a ty (m.val + 1)) (readOperand s t kb b ty (m.val + 1))))
    ∧ (∀ s u t (y : Sync) (m : Fin 16) ty tb la lb (a b : VNum), InThread t →
        Goes s u t (operandRegs false a ty (m.val + 1) ++ operandRegs false b ty (m.val + 1)) [] →
        readOperand s t false a ty (m.val + 1) = .pool (t.gval (Fin.ofNat 16 a.val)) la →
        readOperand s t false b ty (m.val + 1) = .pool (t.gval (Fin.ofNat 16 b.val)) lb →
        layType la = some ty → layType lb = some tb → mxGroup ty tb ≠ none → ∀ h,
        (layoutBad ty la = true ∨ (layoutBad tb lb = true ∧ (t.gval (Fin.ofNat 16 a.val)).toNat % 16 = 0) →
          Traps (.mma y h m ty false false a b) s u t .illegal 0 t.pc)
        ∧ (layoutBad ty la = false → (t.gval (Fin.ofNat 16 a.val)).toNat % 16 ≠ 0 →
          Traps (.mma y h m ty false false a b) s u t .misaligned 0 (t.gval (Fin.ofNat 16 a.val)))
        ∧ (layoutBad ty la = false → (t.gval (Fin.ofNat 16 a.val)).toNat % 16 = 0 → layoutBad tb lb = false →
          (t.gval (Fin.ofNat 16 b.val)).toNat % 16 ≠ 0 → Traps (.mma y h m ty false false a b) s u t .misaligned 0 (t.gval (Fin.ofNat 16 b.val))))
    ∧ (∀ s u t y h k, Issues s u t → InThread t → MayBind s t h k → Binds (.mzero y h) s u t h k .mzero)
    ∧ (∀ s u t y h k r i, Goes s u t [.v r] [] → InThread t → MayBind s t h k → Binds (.mwr y h r i) s u t h k
        (.mwr (i.raw % 256) r.val ((List.range 16).map fun l => BitVec.ofNat 32 (element s t .n32 r l))))
    ∧ (∀ s u t y h k (m : Fin 16) ty tb ka kb a b, MmaRuns s u t m ty ka kb a b tb → InThread t → MayBind s t h k →
        Binds (.mma y h m ty ka kb a b) s u t h k
          (.mma ty tb (m.val + 1) (readOperand s t ka a ty (m.val + 1)) (readOperand s t kb b ty (m.val + 1))))
    ∧ (∀ s u t y h, Issues s u t → InThread t → t.a.get h = none → freeSlot (s.tile (tileOf t.core)) = none → t.prog = .none →
        ∃ s1 t1, exec (.mzero y h) s = .next s1 ∧ tget u s1.threads = some t1 ∧ t1.status = .blocked .matrix ∧ t1.prog = .since s.time
          ∧ t1.pc = t.pc ∧ ∀ p, (s1.tile (tileOf t.core)).queue p = (s.tile (tileOf t.core)).queue p)
    ∧ (∀ s u t t0 w, tget u s.threads = some t → t.status = .blocked .matrix → t.prog = .since t0 → t0 + 2 ^ 20 ≤ s.time →
        (u, w) ∈ (s.tile (tileOf t.core)).waiters → freeSlot (s.tile (tileOf t.core)) = none →
        ∃ s0, exec (.accExhausted u) s = .next (takeTrap s0 u .accExhausted 0 t.pc t.pc)
          ∧ (∀ p, (s0.tile (tileOf t.core)).queue p = (s.tile (tileOf t.core)).queue p) ∧ s0.threads = s.threads)
    ∧ (∀ s u t y h m ty ka kb a b r i d e, Issues s u t → t.kind ≠ .thread →
        Traps (.mma y h m ty ka kb a b) s u t .illegal 0 t.pc ∧ Traps (.mzero y h) s u t .illegal 0 t.pc
        ∧ Traps (.mwr y h r i) s u t .illegal 0 t.pc ∧ Traps (.mrel y h) s u t .illegal 0 t.pc
        ∧ Traps (.mrd y h d i) s u t .illegal 0 t.pc ∧ Traps (.mwm y h e) s u t .illegal 0 t.pc))
  ∧ (
    (∀ s u t y h, Issues s u t → InThread t → t.a.get h = none → Retires (.mrel y h) s s u t t)
    ∧ (∀ s u t y h k, Issues s u t → InThread t → t.a.get h = some k → ((s.tile (tileOf t.core)).queue (t.core % 8)).length < 4 →
        ∃ s1, Retires (.mrel y h) s s1 u t { t with a := t.a.set h none } ∧ Queued s s1 u t h k .mrel)
    ∧ (∀ s u t y h k d x, Goes s u t [] [.g d] → InThread t → t.a.get h = some k → tget k (s.tile (tileOf t.core)).slots = some x →
        Writes (.mwm y h d) s u t d (w64 (x.rows + x.flags.toNat * 2 ^ 16)))
    ∧ (∀ s u t y h k d i x, Goes s u t [] [.v d] → InThread t → t.prog = .none → syKf y = false → t.a.get h = some k →
        tget k (s.tile (tileOf t.core)).slots = some x → x.soft = false → (s.tile (tileOf t.core)).reads = [] →
        outstandingReads s u t < 8 →
        (i.raw % 256 / 4 < x.rows → ∃ s1 t1 p, Retires (.mrd y h d i) s s1 u t t1 ∧ t1.regSt (.v d) = .empty
          ∧ tget s.nextId s1.pending = some p ∧ p.uid = u ∧ p.dest = .v d (BitVec.allOnes 64)
          ∧ p.bytes = (((x.words.drop (i.raw % 256 / 4 * 64 + i.raw % 256 % 4 * 16)).take 16).map fun w => leBytes 4 w.toNat).flatten
          ∧ p.bad = (if x.poisoned = true then some 0 else none))
        ∧ (x.rows ≤ i.raw % 256 / 4 → ∃ s1 t1 r, Retires (.mrd y h d i) s s1 u t t1 ∧ t1.regSt (.v d) = .empty ∧ s1.pending = s.pending
          ∧ tget s.nextId (s1.tile (tileOf t.core)).reads = some r ∧ r.slot = k ∧ r.sel = i.raw % 256 ∧ r.dest = d))
    ∧ (∀ s u t y h k d i x, Goes s u t [] [.v d] → InThread t → t.prog = .none → syKf y = true → t.a.get h = some k →
        tget k (s.tile (tileOf t.core)).slots = some x → x.soft = false → (s.tile (tileOf t.core)).reads = [] →
        outstandingReads s u t < 8 → ∃ s1, exec (.mrd y h d i) s = blockAt s1 u t .result (.sent s.nextId) ∧ s1.mem = s.mem
          ∧ s1.threads = s.threads
          ∧ (i.raw % 256 / 4 < x.rows → ∃ p, tget s.nextId s1.pending = some p ∧ p.uid = u ∧ p.dest = .v d (BitVec.allOnes 64) ∧ p.kf = true)
          ∧ (x.rows ≤ i.raw % 256 / 4 → ∃ r, tget s.nextId (s1.tile (tileOf t.core)).reads = some r ∧ r.slot = k ∧ r.dest = d ∧ r.kf = true))
    ∧ (∀ s u t y h d i id, Goes s u t [] [.v d] → InThread t → t.prog = .sent id → tget id s.pending = none →
        tget id (s.tile (tileOf t.core)).reads = none → Retires (.mrd y h d i) s s u t t)
    ∧ (∀ s u t y h d e i, Goes s u t [] [.v d, .g e] → InThread t → t.prog = .none → t.a.get h = none →
        Traps (.mrd y h d i) s u t .accUnbound 0 t.pc ∧ Traps (.mwm y h e) s u t .accUnbound 0 t.pc))

/-- The matrix unit's own steps. A grant goes to the first position from the pointer on whose head is ready, for as many units as the
head's weight. A k-block adds its products to the slot's words, ORs its flags into the slot's and counts 262,144 operations of A's type.
`mzero`, `mwr` and `mrel` take effect at their retirement, and with no later command on the slot every row is then final, the watermark
64; after an `mma` in the same case the rows are written out one by one, until the watermark is 64 (R186, R187, R191 to R193, R265, R366).
The sums of a k-block: each word of the slot takes its old value through the sum units in rising k, over the products of its row of A and
its column of B, under their scales; integers sum exactly and saturate; a floating sum unit adds the exact sum of its products, times its
scales, to the word and rounds once, to nearest even, and a sum of 0 leaves the word; NaN and infinities are as R96 lays down (R83, R94 to
R96; that a sum which cancels the word gives +0 is log 60's reading). -/
def Obligations.MatrixArithmetic : Prop :=
  (
    (∀ s tile j c cs, (s.tile tile).units = 0 → j < 8 → (s.tile tile).queue (((s.tile tile).pointer + j) % 8) = c :: cs →
      mxReady s c = true →
      (∀ n d ds, n < j → (s.tile tile).queue (((s.tile tile).pointer + n) % 8) = d :: ds → mxReady s d = false) →
      exec (.arbiterGrant tile) s = .next (s.setTile tile
        { s.tile tile with pointer := ((s.tile tile).pointer + j) % 8, units := c.weight }))
    ∧ (∀ s tile (p : Fin 8) c cs ta tb m a b g x, Granted s tile p c cs → c.op = .mma ta tb m a b → mxGroup ta tb = some g →
      Slot s tile c.slot x → x.leaving = false → operandPoison s (tile * 8 + p.val) ta a c.blocks = none →
      operandPoison s (tile * 8 + p.val) tb b c.blocks = none →
      ∃ s1 x1, exec (.kBlockRetire tile p) s = .next s1 ∧ tget c.slot (s1.tile tile).slots = some x1
        ∧ x1.words = (kBlock s (tile * 8 + p.val) g ta tb a b c.blocks x.words).1
        ∧ x1.flags = x.flags ||| (kBlock s (tile * 8 + p.val) g ta tb a b c.blocks x.words).2
        ∧ (∀ z, s.ctx? c.cid = some z → z.final = false → ∃ z1, s1.ctx? c.cid = some z1
            ∧ (z1.counters.get (macCounter ta)).toNat = min ((z.counters.get (macCounter ta)).toNat + 262144) (2 ^ 64 - 1))
        ∧ (c.blocks + 1 < m → mxStopped s c = false → ∃ c1, (s1.tile tile).queue p = c1 :: cs ∧ c1.blocks = c.blocks + 1 ∧ c1.op = c.op)
        ∧ (m ≤ c.blocks + 1 → ((s1.tile tile).queue p).length = cs.length))
    ∧ (∀ s tile (p : Fin 8) c cs x, Granted s tile p c cs → Slot s tile c.slot x → x.leaving = false →
      (c.op = .mzero → ∃ s1 x1, exec (.matrixCommandRetire tile p) s = .next s1 ∧ tget c.slot (s1.tile tile).slots = some x1
        ∧ x1.words = List.replicate 4096 0 ∧ x1.flags = 0 ∧ x1.poisoned = false ∧ ((s1.tile tile).queue p).length = cs.length
        ∧ ((s.tile tile).queues = [(p.val, c :: cs)] → (∀ d ∈ cs, d.slot ≠ c.slot) → x1.rows = 64))
      ∧ (∀ sel src row, c.op = .mwr sel src row → ∃ s1 x1, exec (.matrixCommandRetire tile p) s = .next s1
        ∧ tget c.slot (s1.tile tile).slots = some x1 ∧ x1.flags = 0 ∧ x1.poisoned = false ∧ ((s1.tile tile).queue p).length = cs.length
        ∧ x1.words = x.words.take (sel / 4 * 64 + sel % 4 * 16) ++ row ++ x.words.drop (sel / 4 * 64 + sel % 4 * 16 + 16)
        ∧ ((s.tile tile).queues = [(p.val, c :: cs)] → (∀ d ∈ cs, d.slot ≠ c.slot) → x1.rows = 64)))
    ∧ (∀ s tile (p : Fin 8) c cs x, Granted s tile p c cs → Slot s tile c.slot x → c.op = .mrel →
      (s.tile tile).queues = [(p.val, c :: cs)] → (∀ d ∈ cs, d.slot ≠ c.slot) →
      (∀ e ∈ (s.tile tile).reads, e.2.slot ≠ c.slot) → (∀ e ∈ s.pending, e.2.slot ≠ some (tile, c.slot)) →
      ∃ s1, exec (.matrixCommandRetire tile p) s = .next s1 ∧ tget c.slot (s1.tile tile).slots = none)
    ∧ (∀ s tile (k : Fin 32) x, Slot s tile k.val x → x.leaving = false → x.rows < 64 →
      (∀ e ∈ (s.tile tile).queues, ∀ d ∈ e.2, d.slot ≠ k.val) →
      ∃ s1 x1, exec (.rowWriteOut tile k) s = .next s1 ∧ tget k.val (s1.tile tile).slots = some x1 ∧ x1.rows = x.rows + 1
        ∧ x1.words = x.words))
  ∧ (
    (∀ s core g ta tb a b tile (words : List (BitVec 32)) i j, words.length = 4096 → i < 64 → j < 64 →
      (kBlock s core g ta tb a b tile words).1.getD (64 * i + j) 0 = (cellThrough g
        (fun q => if q < 2 then operandScale s core a i (2 * tile + q) else 127)
        (fun q => if q < 2 then operandScale s core b j (2 * tile + q) else 127)
        ((List.range 64).map fun n => (mxVal ta ((rowElems ta (operandRow s core ta a tile i)).getD n 0),
          mxVal tb ((rowElems tb (operandRow s core tb b tile n)).getD j 0)))
        (words.getD (64 * i + j) 0)).1)
    ∧ (∀ (c : BitVec 32) (xs : List (Int × Int)),
      (applyGroup .integer c 127 127 (xs.map fun e => (FVal.ofInt e.1 0 false, FVal.ofInt e.2 0 false))).1.toInt
        = max (-2 ^ 31) (min (2 ^ 31 - 1) (xs.foldl (fun n e => n + e.1 * e.2) c.toInt)))
    ∧ (∀ (g : MxGroup) (c : BitVec 32) (sa sb : Nat) (ps : List (FVal × FVal)), g ≠ .integer → (sa = 255 ∨ sb = 255) →
      applyGroup g c sa sb ps = (0x7FC00000, 0))
    ∧ (∀ (g : MxGroup) (c : BitVec 32) (sa sb : Nat) (ps : List (FVal × FVal)), g ≠ .integer → sa ≠ 255 → sb ≠ 255 →
      (∀ p ∈ ps, isFinite p.1 = true ∧ isFinite p.2 = true) →
      (decodeF .f32 c.toNat = .nan → applyGroup g c sa sb ps = (0x7FC00000, 0))
      ∧ (∀ n, decodeF .f32 c.toNat = .inf n → applyGroup g c sa sb ps = (c, 0))
      ∧ (∀ n z, Holds .f32 c.toNat n z → (ps.map fun p => numOf p.1 * numOf p.2).sum = 0 → applyGroup g c sa sb ps = (c, 0))
      ∧ (∀ n z v, Holds .f32 c.toNat n z → (ps.map fun p => numOf p.1 * numOf p.2).sum ≠ 0 →
        v = withSign n z + (ps.map fun p => numOf p.1 * numOf p.2).sum * (2 : ℚ) ^ ((sa : Int) + sb - 254) →
        RoundsTo .f32 0 (v : ℝ) ((applyGroup g c sa sb ps).1.toNat, (applyGroup g c sa sb ps).2)
        ∧ (v = 0 → applyGroup g c sa sb ps = (0, 0))))
    ∧ (∀ (g : MxGroup) (c : BitVec 32) (sa sb : Nat) (ps : List (FVal × FVal)), g ≠ .integer → sa ≠ 255 → sb ≠ 255 →
      ((∃ p ∈ ps, p.1 = .nan ∨ p.2 = .nan) → (applyGroup g c sa sb ps).1 = 0x7FC00000)
      ∧ ((∃ n k e, (FVal.inf n, FVal.fin k 0 e) ∈ ps ∨ (FVal.fin k 0 e, FVal.inf n) ∈ ps) →
        (applyGroup g c sa sb ps).1 = 0x7FC00000 ∧ (applyGroup g c sa sb ps).2 &&& flInvalid = flInvalid)
      ∧ ((∃ p ∈ ps, InfProduct true p) → (∃ p ∈ ps, InfProduct false p) →
        (applyGroup g c sa sb ps).1 = 0x7FC00000 ∧ (applyGroup g c sa sb ps).2 &&& flInvalid = flInvalid)
      ∧ (∀ neg, (∃ p ∈ ps, InfProduct neg p) → (∀ p ∈ ps, InfProduct neg p ∨ (isFinite p.1 = true ∧ isFinite p.2 = true)) →
        applyGroup g c sa sb ps = (if decodeF .f32 c.toNat = .nan then (0x7FC00000, 0)
          else if decodeF .f32 c.toNat = .inf (!neg) then (0x7FC00000, flInvalid)
          else (BitVec.ofNat 32 ((fmtOf .f32).infBits neg), 0)))))

/-! ### The copy engine (R87, R88, R152, R168, R175 to R182, R317, R422 to R425) -/

/-- `xshape` writes a shape that keeps the rules and is ILLEGAL for one that breaks them; its one-dimensional form takes its element type
and its extent, with every other field 0 (R175, R176, R424). `xfer` makes its checks in order and hands the shape, the bases, the counter,
`frm` and the seed to its station's engine, which takes 64; a stochastic one steps the generator once (R88, R178, R422; that `taddr` of a
MISALIGNED holds gC, gS or gD is log 9's reading of R235). -/
def Obligations.CopyEngine : Prop :=
  (
    (∀ s u t y (ty : EType) d e, Goes s u t [.g e] [] → 1 ≤ (t.gval e).toNat → (t.gval e).toNat ≤ 65536 → ty ≠ .i4 →
      (ty = .e2m1 → (t.gval e).toNat % 2 = 0) →
      ∃ h, Retires (.xshape1D y ty d e) s s u t { t with h := t.h.set d h } ∧ shExt0 h = (t.gval e).toNat ∧ shExt1 h = 1 ∧ shExt2 h = 1
        ∧ shStype h = some ty ∧ shDtype h = some ty ∧ shMode h = 0 ∧ shScoff h = 0 ∧ shSrc1 h = 0 ∧ shSrc2 h = 0 ∧ shDst1 h = 0
        ∧ shDst2 h = 0)
    ∧ (∀ s u t y (ty : EType) d e, Goes s u t [.g e] [] →
      ((t.gval e).toNat = 0 ∨ 65536 < (t.gval e).toNat ∨ ty = .i4 ∨ (ty = .e2m1 ∧ (t.gval e).toNat % 2 = 1)) →
      Traps (.xshape1D y ty d e) s u t .illegal 0 t.pc)
    ∧ (∀ s u t y d r x, Goes s u t [.g r, .g x] [] →
      (shapeOk (t.gval x ++ t.gval r) = true → Retires (.xshape y d r x) s s u t { t with h := t.h.set d (t.gval x ++ t.gval r) })
      ∧ (shapeOk (t.gval x ++ t.gval r) = false → Traps (.xshape y d r x) s u t .illegal 0 t.pc)))
  ∧ (
    (∀ s u t y n d r c key node, Goes s u t [.g d, .g r, .g c] [] → acquirePending s u = false → (t.gval c).toNat % 16 = 0 →
      (t.gval r).toNat % alignOf (shTypes (t.h.get n)).1 = 0 → (t.gval d).toNat % alignOf (shTypes (t.h.get n)).2 = 0 →
      resolve s t.cid t.core (t.gval c) rAtomic = .ok key node →
      (s.xfers.filter fun e => e.2.station == engineStation t.core && !(e.2.parked && ctxHalted s e.2.cid)).length < 64 →
      ∃ x t1, exec (.xfer y n d r c) s = .next (retireTo { s with xfers := tput s.nextId x s.xfers, nextId := s.nextId + 1 } u t1
          (t.pc + w64 (Instr.xfer y n d r c).len))
        ∧ x.shape = t.h.get n ∧ x.src = t.gval r ∧ x.dst = t.gval d ∧ x.ctr = t.gval c ∧ x.frm = t.frm ∧ x.seed = t.lfsr
        ∧ x.landed = [] ∧ x.uid = u ∧ x.station = engineStation t.core
        ∧ t1 = { t with lfsr := if draws (shTypes (t.h.get n)).2 t.frm.toNat = true
            ∧ ((shTypes (t.h.get n)).1 ≠ (shTypes (t.h.get n)).2 ∨ shMode (t.h.get n) = 1) then lfsrStep t.lfsr else t.lfsr })
    ∧ (∀ s u t y n d r c, Goes s u t [.g d, .g r, .g c] [] → acquirePending s u = false → (t.gval c).toNat % 16 ≠ 0 →
      Traps (.xfer y n d r c) s u t .misaligned 0 (t.gval c))
    ∧ (∀ s u t y n d r c, Goes s u t [.g d, .g r, .g c] [] → acquirePending s u = false → (t.gval c).toNat % 16 = 0 →
      (t.gval r).toNat % alignOf (shTypes (t.h.get n)).1 ≠ 0 → Traps (.xfer y n d r c) s u t .misaligned 0 (t.gval r))
    ∧ (∀ s u t y n d r c, Goes s u t [.g d, .g r, .g c] [] → acquirePending s u = false → (t.gval c).toNat % 16 = 0 →
      (t.gval r).toNat % alignOf (shTypes (t.h.get n)).1 = 0 → (t.gval d).toNat % alignOf (shTypes (t.h.get n)).2 ≠ 0 →
      Traps (.xfer y n d r c) s u t .misaligned 0 (t.gval d))
    ∧ (∀ s u t y n d r c key node, Goes s u t [.g d, .g r, .g c] [] → acquirePending s u = false → (t.gval c).toNat % 16 = 0 →
      (t.gval r).toNat % alignOf (shTypes (t.h.get n)).1 = 0 → (t.gval d).toNat % alignOf (shTypes (t.h.get n)).2 = 0 →
      resolve s t.cid t.core (t.gval c) rAtomic = .ok key node →
      64 ≤ (s.xfers.filter fun e => e.2.station == engineStation t.core && !(e.2.parked && ctxHalted s e.2.cid)).length →
      exec (.xfer y n d r c) s = .next (s.setThread u { t with status := .blocked .engine }))
    ∧ (∀ s u t y n d r c f, Goes s u t [.g d, .g r, .g c] [] → acquirePending s u = false → (t.gval c).toNat % 16 = 0 →
      (t.gval r).toNat % alignOf (shTypes (t.h.get n)).1 = 0 → (t.gval d).toNat % alignOf (shTypes (t.h.get n)).2 = 0 →
      resolve s t.cid t.core (t.gval c) rAtomic = .fail f → Traps (.xfer y n d r c) s u t f 0 (t.gval c)))

/-- `arrive` goes into flight toward the owner of its counter, which subtracts n from the count and sets `armed` in one step; `xwait`
retires on a counter that is armed with a count of 0 and otherwise waits, until the counter is so at its owner, and then retires whatever
becomes of the counter; in a handler it is HANDLER_BLOCK (R47, R180 to R182, R317, R425). A destination word of a copy or a conversion
lands, contiguous or strided: each element is its source's value, converted where the types differ, under the transfer's `frm` and its own
generator (R80, R88, R91, R175, R177, R179, R180, R422). A word of a quantising transfer lands: each element is that of its block,
quantised under the scale that the block's 32 sources give, and each scale byte is its block's scale (R83, R88, R92, R177, R179). A
destination word that fails (R115, R130, R179, R180). One that cannot be reached, or whose source cannot, is not written and keeps its
state; one whose source is in P is set P; a quantised one of a failed block holds +0 and 0xFF. Each failure is reported with item 4, its
bytes count as delivered, and `fword` rises by 1. What a delivery does: it adds the bytes to the count, which wraps, and to the fields of
the flags word, which saturate. -/
def Obligations.CountersAndLandings : Prop :=
  (
    (∀ s u t y c i, Goes s u t [.g c] [] → acquirePending s u = false → ownPool t.core (t.gval c) = false → (t.gval c).toNat % 16 = 0 →
      (∃ l n, resolve s t.cid t.core (t.gval c) rAtomic = .ok l n) → ∃ a, exec (.arrive y c i) s =
        .next (retireTo (sendAccess s a) u t (t.pc + w64 (Instr.arrive y c i).len))
        ∧ Sent a u (.arrive (w64 i.raw)) .none [.untranslated] [List.replicate 16 0])
    ∧ (∀ s u t y c n, Goes s u t [.g c, .g n] [] → acquirePending s u = false → ownPool t.core (t.gval c) = false →
      (t.gval c).toNat % 16 = 0 → (∃ l n, resolve s t.cid t.core (t.gval c) rAtomic = .ok l n) → ∃ a, exec (.arriveReg y c n) s =
        .next (retireTo (sendAccess s a) u t (t.pc + w64 (Instr.arriveReg y c n).len))
        ∧ Sent a u (.arrive (t.gval n)) .none [.untranslated] [List.replicate 16 0])
    ∧ (∀ s id a p key n, Memory.wf s.mem = true → AtByte s id a p key → a.kind = .arrive n → p.bytes.length = 16 → ∃ s1,
        exec (.accessAtOwner id (.owner 0)) s = .next s1 ∧ tget id s1.accs = none
        ∧ Stored s s1 key (leBytes 8 (w64 (leNat (memBytes s.mem key 8)) - n).toNat
            ++ leBytes 8 (w64 (leNat (memBytes s.mem (key + 8) 8)) ||| 0x8000000000000000).toNat))
    ∧ (∀ s u t y c, Goes s u t [.g c] [] → t.kind = .thread → t.prog = .none → acquirePending s u = false → (t.gval c).toNat % 16 = 0 →
      sameByteBefore s u s.nextId (t.gval c) 16 = false → InOwn s t (t.gval c) 16 →
      (leNat (memBytes s.mem (ownKey t (t.gval c)) 8) = 0 → 2 ^ 63 ≤ leNat (memBytes s.mem (ownKey t (t.gval c) + 8) 8) →
        Retires (.xwait y c) s s u t t)
      ∧ ((leNat (memBytes s.mem (ownKey t (t.gval c)) 8) ≠ 0 ∨ leNat (memBytes s.mem (ownKey t (t.gval c) + 8) 8) < 2 ^ 63) →
        exec (.xwait y c) s = .next (s.setThread u { t with status := .blocked (.counter (t.gval c) (some (ownKey t (t.gval c))) none) })))
    ∧ (∀ s u t va key node, OneEach s → NoSoft s → tget u s.threads = some t → t.status = .blocked (.counter va (some key) node) →
      s.word (key / 8) ≠ .poison → leNat (memBytes s.mem key 8) = 0 → 2 ^ 63 ≤ leNat (memBytes s.mem (key + 8) 8) →
      ∃ t1, tget u (endWaits s).threads = some t1 ∧ t1.status = .ready ∧ t1.since = s.time ∧ t1.pc = t.pc ∧ t1.prog = .waited none)
    ∧ (∀ s u t y c, Goes s u t [.g c] [] → t.kind = .thread → t.prog = .waited none → Retires (.xwait y c) s s u t t)
    ∧ (∀ s u t y c, Issues s u t → t.kind ≠ .thread → Traps (.xwait y c) s u t .handlerBlock 0 t.pc))
  ∧ (
    ∀ s id e x dk ck (sk : Nat → Nat), Memory.wf s.mem = true → MayLand s id e x dk ck → shMode x.shape = 0 →
      (∀ n ∈ wordElems x e, SourceAt s x n (sk n)) → ∃ s1, exec (.xferWordLand id e) s = .next s1
        ∧ WordLanded s s1 id e x dk ck
          (fun n => (convert (shTypes x.shape).2 (shTypes x.shape).1 x.frm.toNat (drawAt x n) (sourceCode s x n (sk n))).1)
          ((wordElems x e).foldl (fun f n => f ||| (convert (shTypes x.shape).2 (shTypes x.shape).1 x.frm.toNat (drawAt x n)
            (sourceCode s x n (sk n))).2) 0))
  ∧ (
    ∀ s id e x dk ck (sk : Nat → Nat), Memory.wf s.mem = true → MayLand s id e x dk ck → shMode x.shape = 1 → x.blocks = [] →
      (∀ n ∈ wordElems x e, ∀ j, j < 32 → SourceAt s x (x.blockOf n * 32 + j) (sk (x.blockOf n * 32 + j))) →
      ∃ s1, exec (.xferWordLand id e) s = .next s1
        ∧ WordLanded s s1 id e x dk ck
          (fun n => if n < shCount x.shape then ((blockAtSource s x sk (n / 32)).1.getD (n % 32) (0, 0)).1
            else (blockAtSource s x sk (n - shCount x.shape)).2)
          ((wordElems x e).foldl (fun f n => f ||| (if n < shCount x.shape then ((blockAtSource s x sk (n / 32)).1.getD (n % 32) (0, 0)).2
            else 0)) 0))
  ∧ (
    (∀ s id e x dk ck (sk : Nat → Nat) c, MayLand s id e x dk ck → shMode x.shape = 0 →
      (∀ n ∈ wordElems x e, (if n = e then resolve s x.cid x.core (srcAddr x n) rRead = .fail c else SourceAt s x n (sk n))) →
      exec (.xferWordLand id e) s = .next (landed (deliver (xferReport s x c (srcAddr x e)) id x
        (((wordElems x e).map fun n => (fieldOf x n).2).sum / 8) { fword := 1, fseal := 0, flags := 0 }) id e false))
    ∧ (∀ s id e x (sk : Nat → Nat) c, tget id s.xfers = some x → shapeOk x.shape = true → beginsWord x e = true → x.landed.contains e = false →
      x.parked = false → accessesBefore s x.uid x.after = false → shMode x.shape = 0 → engineHeld s x x.ctr rAtomic = false →
      resolve s x.cid x.core (dstAddr x e) rWrite = .fail c → (∀ n ∈ wordElems x e, SourceAt s x n (sk n)) →
      exec (.xferWordLand id e) s = .next (landed (deliver (xferReport s x c (dstAddr x e)) id x
        (((wordElems x e).map fun n => (fieldOf x n).2).sum / 8) { fword := 1, fseal := 0, flags := 0 }) id e false))
    ∧ (∀ s id e x dk ck (sk : Nat → Nat), MayLand s id e x dk ck → shMode x.shape = 0 → NoSoft s →
      (∃ m, resolve s x.cid x.core (srcAddr x e) rRead = .ok (.here (sk e)) m) → isPoolKey (sk e) = true →
      touchesPoison s (sk e) (max 1 ((shTypes x.shape).1.bits / 8)) = true →
      (∀ n ∈ wordElems x e, n ≠ e → SourceAt s x n (sk n)) → ∃ s1 s2, exec (.xferWordLand id e) s = .next s1 ∧ s1.word (dk / 8) = .poison
        ∧ s2 = poisonWord (xferReport s x .poison (srcAddr x e)) (dk / 8)
        ∧ s1 = landed (deliver s2 id x (((wordElems x e).map fun n => (fieldOf x n).2).sum / 8) { fword := 1, fseal := 0, flags := 0 }) id e true)
    ∧ (∀ s id e x dk ck q j c, Memory.wf s.mem = true → MayLand s id e x dk ck → shMode x.shape = 1 → x.blocks = [] →
      (∀ n ∈ wordElems x e, x.blockOf n = q) → j < 32 → resolve s x.cid x.core (srcAddr x (q * 32 + j)) rRead = .fail c →
      (∀ i, i < 32 → ∃ r n, resolve s x.cid x.core (srcAddr x (q * 32 + i)) rRead = r ∧ (r = .fail c ∨ ∃ k, r = .ok (.here k) n ∧ isPoolKey k = true)) →
      ∃ s1, exec (.xferWordLand id e) s = .next s1 ∧ s1.word (dk / 8) = .full
        ∧ ∀ n ∈ wordElems x e, leNat (memBytes s1.mem (dk / 8 * 8) 8) / 2 ^ (fieldOf x n).1 % 2 ^ (fieldOf x n).2
          = if n < shCount x.shape then 0 else 0xFF)
    ∧ (∀ s x c va, xferReport s x c va
        = failItem (reportAccess s x.cid { addr := va, cause := c, detail := 0, item := 4, peer := none, ep := x.ep }) x.launch)
    ∧ (∀ s id x n l ck, Memory.wf s.mem = true → (∃ m, resolve s x.cid x.core x.ctr rAtomic = .ok (.here ck) m) → isPoolKey ck = true → ck % 8 = 0 →
      touchesPoison s ck 16 = false → Stored s (deliver s id x n l) ck
        (leBytes 8 (w64 (leNat (memBytes s.mem ck 8)) + w64 n).toNat ++ leBytes 8
          (leNat (memBytes s.mem (ck + 8) 8) / 2 ^ 48 * 2 ^ 48 + min (leNat (memBytes s.mem (ck + 8) 8) / 2 ^ 32 % 2 ^ 16 + l.fword) 0xFFFF * 2 ^ 32
            + min (leNat (memBytes s.mem (ck + 8) 8) / 2 ^ 16 % 2 ^ 16 + l.fseal) 0xFFFF * 2 ^ 16
            + leNat (memBytes s.mem (ck + 8) 8) % 2 ^ 16 / 2 ^ 6 * 2 ^ 6 + (leNat (memBytes s.mem (ck + 8) 8) % 2 ^ 6 ||| l.flags.toNat)))))

/-! ### Grids and halos (R171, R196 to R205, R343 to R347, R355) -/

/-- `gdecl` binds a handle to the grid that its header and table describe, with nothing published and every buffer NONE, and with a zero
address unbinds it; a header that passes keeps the limits of the table of R198; a misaligned address is MISALIGNED, a faulty header
GRID_DESC with its word (R196, R198, R343, R344; that `taddr` holds the misaligned address is log 9's reading of R235). `hpub` of a step
that is no multiple of the temporal depth, or that its partition has published, returns without effect; of a new step it waits for the
halo engine to write its pieces (R201 says until its cells are read; that this is until they are written is log 22's reading). `hdone`
releases every piece's buffer of its step. `ldh` of a buffer that is READY for its step loads the ghost element, also under keep-full; of
one of a later step, in any state, or RELEASED for its own, it is HALO_STALE; of one that is not filled yet it waits (R69, R201 to R204).
What the halo instructions refuse: the reserved step and a step beyond 32 bits with ILLEGAL, an unbound handle with GRID_HANDLE, a core
that owns no partition with HALO_OWNER; in a handler `hpub` and `ldh` are HANDLER_BLOCK; a wait of `stepwin` cycles is HALO_TIMEOUT (R47,
R201, R202, R346, R347, R355). -/
def Obligations.HaloExchange : Prop :=
  (
    (∀ s u t y g a, Goes s u t [.g a] [] → accessesBefore s u s.nextId = false → t.gval a = 0 → NoWaiter s t.cid g.val →
      ∃ s1, Retires (.gdecl y g a) s s1 u t t ∧ tget (gridKey t.cid g.val) s1.grids = none ∧ s1.mem = s.mem)
    ∧ (∀ s u t y g a hs ws s1 s2, Goes s u t [.g a] [] → accessesBefore s u s.nextId = false → (t.gval a).toNat % 64 = 0 → t.gval a ≠ 0 →
      gridRead s t (t.gval a) 16 = .ok (hs, s1) →
      headerFault { header := hs, parts := [], last := [], marks := [], bufs := [] } = none →
      gridRead s1 t (hs.getD 10 0) (8 * Binding.count { header := hs, parts := [], last := [], marks := [], bufs := [] }) = .ok (ws, s2) →
      tableFault { header := hs, parts := records (Binding.count { header := hs, parts := [], last := [], marks := [], bufs := [] }) ws
                   last := [], marks := [], bufs := [] } = none →
      NoWaiter s2 t.cid g.val →
      ∃ s3 b, Retires (.gdecl y g a) s s3 u t t ∧ tget (gridKey t.cid g.val) s3.grids = some b ∧ b.header = hs ∧ b.last = []
        ∧ b.marks = [] ∧ ∀ q f n, (b.buf q f n).st = .none)
    ∧ (∀ b : Binding, headerFault b = none → 1 ≤ b.rad ∧ b.rad ≤ 8 ∧ 1 ≤ b.width ∧ b.width ≤ 8 ∧ b.dims ≤ 3 ∧ b.depth * b.rad ≤ b.width
      ∧ b.ptab % 64 = 0 ∧ b.count ≤ 4096 ∧ (∀ k, k < 3 → b.ext k % b.pcount k = 0) ∧ (∀ k, k < b.dims → b.width ≤ b.n k)
      ∧ ∃ ty, EType.ofCode b.typeCode = some ty ∧ ty ≠ .e2m1 ∧ ty ≠ .i4 ∧ ty ≠ .x8)
    ∧ (∀ s u t y g a, Goes s u t [.g a] [] → (t.gval a).toNat % 64 ≠ 0 → Traps (.gdecl y g a) s u t .misaligned 0 (t.gval a))
    ∧ (∀ s u t y g a hs s1 k, Goes s u t [.g a] [] → accessesBefore s u s.nextId = false → (t.gval a).toNat % 64 = 0 → t.gval a ≠ 0 →
      gridRead s t (t.gval a) 16 = .ok (hs, s1) →
      headerFault { header := hs, parts := [], last := [], marks := [], bufs := [] } = some k →
      exec (.gdecl y g a) s = .next (takeTrap s1 u .gridDesc k t.pc t.pc)))
  ∧ (
    (∀ s u t y g r b p, Goes s u t [.g r] [] → t.kind = .thread → OwnsPart s t g.val b p → (t.gval r).toNat < 0xFFFFFFFF →
      ((t.gval r).toNat % b.depth ≠ 0 ∨ ∃ l, tget p b.last = some l ∧ (t.gval r).toNat ≤ l) → Retires (.hpub y g r) s s u t t)
    ∧ (∀ s u t y g r b p, Goes s u t [.g r] [] → t.kind = .thread → OwnsPart s t g.val b p → (t.gval r).toNat < 0xFFFFFFFF →
      (t.gval r).toNat % b.depth = 0 → tget p b.last = none → t.prog = .none → piecesLeft b p (t.gval r).toNat ≠ [] →
      (∀ e ∈ s.pubs, e.2.cid = t.cid → e.2.g ≠ g.val) →
      ∃ s1 t1 x, exec (.hpub y g r) s = .next s1 ∧ tget u s1.threads = some t1 ∧ t1.status = .blocked (.publish g.val) ∧ t1.pc = t.pc
        ∧ tget s.nextId s1.pubs = some x ∧ x.part = p ∧ x.step = (t.gval r).toNat ∧ x.left = piecesLeft b p (t.gval r).toNat
        ∧ s1.mem = s.mem)
    ∧ (∀ s u t y g r b p, Goes s u t [.g r] [] → OwnsPart s t g.val b p → (t.gval r).toNat < 0xFFFFFFFF →
      accessesBefore s u s.nextId = false → ∃ s1 b1, Retires (.hdone y g r) s s1 u t t ∧ tget (gridKey t.cid g.val) s1.grids = some b1
        ∧ s1.mem = s.mem ∧ ∀ f, b.isPiece f = true → b1.buf p f (b.bufOf (t.gval r).toNat)
          = (b.buf p f (b.bufOf (t.gval r).toNat)).release (b.base (t.gval r).toNat))
    ∧ (∀ s u t y g ty d c r b p f x z w, Goes s u t [.g c, .g r] [.g d] → t.kind = .thread → Begins s u t y → OwnsPart s t g.val b p →
      (t.gval r).toNat < 0xFFFFFFFF → ty.code = b.typeCode → (t.gval c).toNat < 2 ^ 56 →
      ghostPlace b (t.gval c).toNat = some (f, x, z, w) → (t.gval c).toNat / 2 ^ 48 % 2 ^ 8 < b.comps →
      ((b.buf p f (b.bufOf (t.gval r).toNat)).st = .ready (b.base (t.gval r).toNat) →
        InOwn s t (b.ghostAddr p f (b.bufOf (t.gval r).toNat) x z w ((t.gval c).toNat / 2 ^ 48 % 2 ^ 8)) b.size →
        (b.ghostAddr p f (b.bufOf (t.gval r).toNat) x z w ((t.gval c).toNat / 2 ^ 48 % 2 ^ 8)).toNat % b.size = 0 →
        Writes (.ldh y g ty d c r) s u t d (extendBytes (ty == .i8 || ty == .i16 || ty == .i32) (memBytes s.mem
          (ownKey t (b.ghostAddr p f (b.bufOf (t.gval r).toNat) x z w ((t.gval c).toNat / 2 ^ 48 % 2 ^ 8))) b.size)))
      ∧ ((b.buf p f (b.bufOf (t.gval r).toNat)).st = .ready (b.base (t.gval r).toNat) → syKf y = true → b.size = 1 ∨ b.size = 2 ∨ b.size = 4 ∨ b.size = 8 →
        ∀ l n, ownPool t.core (b.ghostAddr p f (b.bufOf (t.gval r).toNat) x z w ((t.gval c).toNat / 2 ^ 48 % 2 ^ 8)) = false →
        (b.ghostAddr p f (b.bufOf (t.gval r).toNat) x z w ((t.gval c).toNat / 2 ^ 48 % 2 ^ 8)).toNat % b.size = 0 →
        resolve s t.cid t.core (b.ghostAddr p f (b.bufOf (t.gval r).toNat) x z w ((t.gval c).toNat / 2 ^ 48 % 2 ^ 8)) rRead = .ok l n →
        Keeps (.ldh y g ty d c r) s u t .load (.g d (ty == .i8 || ty == .i16 || ty == .i32)) [l] [List.replicate b.size 0])
      ∧ (∀ k, ((b.buf p f (b.bufOf (t.gval r).toNat)).st = .ready k ∨ (b.buf p f (b.bufOf (t.gval r).toNat)).st = .filling k
          ∨ (b.buf p f (b.bufOf (t.gval r).toNat)).st = .released k) → b.base (t.gval r).toNat < k →
        Traps (.ldh y g ty d c r) s u t .haloStale 0 t.pc)
      ∧ ((b.buf p f (b.bufOf (t.gval r).toNat)).st = .released (b.base (t.gval r).toNat) →
        Traps (.ldh y g ty d c r) s u t .haloStale 1 t.pc)
      ∧ (((b.buf p f (b.bufOf (t.gval r).toNat)).st = .none ∨ (b.buf p f (b.bufOf (t.gval r).toNat)).st = .filling (b.base (t.gval r).toNat)
          ∨ ∃ k, k < b.base (t.gval r).toNat ∧ ((b.buf p f (b.bufOf (t.gval r).toNat)).st = .ready k
            ∨ (b.buf p f (b.bufOf (t.gval r).toNat)).st = .filling k ∨ (b.buf p f (b.bufOf (t.gval r).toNat)).st = .released k)) → exec (.ldh y g ty d c r) s =
        .next (s.setThread u { t with status := .blocked (.ghost g.val), prog := .since s.time })))
    ∧ (∀ s u t y g ty d c r b p, Goes s u t [.g c, .g r] [.g d] → t.kind = .thread → t.prog = .none → OwnsPart s t g.val b p →
      (t.gval r).toNat < 0xFFFFFFFF → ty.code = b.typeCode → (t.gval c).toNat < 2 ^ 56 → ghostPlace b (t.gval c).toNat = none →
      Traps (.ldh y g ty d c r) s u t .haloRange 0 t.pc))
  ∧ (
    (∀ s u t y g ty d c r e, Goes s u t [.g c, .g r] [.g d] → t.kind = .thread → t.prog = .none →
      ((0xFFFFFFFF ≤ (t.gval r).toNat ∧ e = .illegal)
        ∨ ((t.gval r).toNat < 0xFFFFFFFF ∧ tget (gridKey t.cid g.val) s.grids = none ∧ e = .gridHandle)
        ∨ ((t.gval r).toNat < 0xFFFFFFFF ∧ (∃ b, tget (gridKey t.cid g.val) s.grids = some b ∧ b.ownPart s.device t.core = none)
          ∧ e = .haloOwner)) →
      Traps (.hpub y g r) s u t e 0 t.pc ∧ Traps (.hdone y g r) s u t e 0 t.pc ∧ Traps (.ldh y g ty d c r) s u t e 0 t.pc)
    ∧ (∀ s u t y g ty d c r, Issues s u t → t.kind ≠ .thread →
      Traps (.hpub y g r) s u t .handlerBlock 0 t.pc ∧ Traps (.ldh y g ty d c r) s u t .handlerBlock 0 t.pc)
    ∧ (∀ s u t id x w, tget u s.threads = some t → t.prog = .publishing id → tget id s.pubs = some x → x.waiting = some w →
      t.stepwin ≠ 0 → w + t.stepwin.toNat ≤ s.time → ∃ s1, exec (.hpubTimeout u) s = .next (takeTrap s1 u .haloTimeout 1 t.pc t.pc)
        ∧ s1.grids = s.grids ∧ s1.mem = s.mem)
    ∧ (∀ s u t g w, tget u s.threads = some t → t.status = .blocked (.ghost g) → t.prog = .since w → t.stepwin ≠ 0 →
      w + t.stepwin.toNat ≤ s.time → exec (.ldhTimeout u) s = .next (takeTrap s u .haloTimeout 0 t.pc t.pc)))

/-- The halo engine. A piece whose buffer admits the step is written and stamped, and its buffer is READY, or RELEASED if its release is
pending; a piece whose buffer holds a later step is dropped; a grid that the receiver has not declared is retried, and after 2^16 cycles
reported, and the publication goes on without that piece (R198, R201, R204). -/
def Obligations.HaloEngine : Prop :=
  (∀ s id q f rest x b k rb s1, tget id s.pubs = some x → x.left = (q, f) :: rest → accessesBefore s x.uid x.after = false →
    tget (gridKey x.cid x.g) s.grids = some b → b.ownerDev q = s.device →
    receiverOf s (match s.ctx? x.cid with | some c => c.tenant | none => 0) b q = some (k, rb) → rb.header = b.header → rb.parts = b.parts →
    pieceThere s (k / 64) rb q f = true → bufferAway s (k / 64) rb q f (rb.bufOf x.step) = false → rb.tagobj = 0 → (rb.buf q f (rb.bufOf x.step)).st.admits x.step = .go →
    writePiece { s with grids := tput k (rb.setBuf q f (rb.bufOf x.step) ((rb.buf q f (rb.bufOf x.step)).fillingFor x.step)) s.grids
                        pubs := tput id { x with waiting := none } s.pubs }
      id x b rb (k / 64) q f (rb.bufOf x.step) true = some s1 →
    ∃ s2 rb2, exec (.haloPieceWrite id q f) s = .next s2 ∧ tget k s2.grids = some rb2
      ∧ (rb2.buf q f (rb.bufOf x.step)).stamp = some x.step
      ∧ (rb2.buf q f (rb.bufOf x.step)).st = (if (rb.buf q f (rb.bufOf x.step)).pending = some x.step then .released x.step
          else .ready x.step)
      ∧ s2.mem = s1.mem)
  ∧ (∀ s id q f rest x b k rb, tget id s.pubs = some x → x.left = (q, f) :: rest → accessesBefore s x.uid x.after = false →
    tget (gridKey x.cid x.g) s.grids = some b → b.ownerDev q = s.device →
    receiverOf s (match s.ctx? x.cid with | some c => c.tenant | none => 0) b q = some (k, rb) →
    pieceThere s (k / 64) rb q f = true → bufferAway s (k / 64) rb q f (rb.bufOf x.step) = false →
    (rb.buf q f (rb.bufOf x.step)).st.admits x.step = .drop →
    exec (.haloPieceWrite id q f) s = .next (pieceOver s id q f))
  ∧ (∀ s id q f rest x b, tget id s.pubs = some x → x.left = (q, f) :: rest → accessesBefore s x.uid x.after = false →
    tget (gridKey x.cid x.g) s.grids = some b → b.ownerDev q = s.device →
    receiverOf s (match s.ctx? x.cid with | some c => c.tenant | none => 0) b q = none →
    ∃ s1 x1, exec (.haloPieceWrite id q f) s = .next s1 ∧ tget id s1.pubs = some x1 ∧ x1.left = x.left
      ∧ x1.first = some (x.first.getD s.time) ∧ s1.mem = s.mem ∧ s1.grids = s.grids)
  ∧ (∀ s id q f rest x w b, tget id s.pubs = some x → x.first = some w → x.left = (q, f) :: rest → w + 2 ^ 16 ≤ s.time →
    tget (gridKey x.cid x.g) s.grids = some b → rest ≠ [] → (q, f) ∉ rest →
    ∃ s1 x1, exec (.ghostWriteTimeout id q f) s = .next s1 ∧ tget id s1.pubs = some x1 ∧ x1.left = rest ∧ x1.first = none)

/-! ### The Confluence table (R206 to R212, R398 to R402) -/

/-- `tagpub` into this device's table: an entry that is missing, or that rates not yet against the generation, takes the new generation
and count with status 0; an entry from 0 to 32,767 ahead gives 2 and stays; a full slice without the entry gives 1. A reserved bit is
ILLEGAL; a peer that does not take it traps; a peer that does not answer within 2^16 cycles gives 3 (R206, R207, R399). `tagpub.drop`
frees the tenant's entries of an object and counts them; `tagq` reads an entry and changes nothing (R208, R400). `tagwait` returns when
its input's entry is at the expected generation, or when it is missing or rates not yet and the producer's launch has completed; it waits
otherwise, and an entry from 1 to 32,767 ahead is STALE_TAG. `tagwait.c` also lowers the entry's count, which frees an entry that falls to
0. In a handler both are HANDLER_BLOCK (R47, R209, R211, R212, R402). -/
def Obligations.Tags : Prop :=
  (
    (∀ s u t y d k g, Goes s u t [.g k, .g g] [.g d] → t.prog = .none → accessesBefore s u s.nextId = false →
      (t.gval k).toNat < 2 ^ 56 → (t.gval g).toNat < 2 ^ 42 →
      ((t.gval g).toNat / 2 ^ 41 % 2 = 1 ∨ (t.gval g).toNat / 2 ^ 32 % 2 ^ 9 = s.device) →
      (((∃ e, tget (tagKey (tenantOf s t) ((t.gval k).toNat / 2 ^ 32) ((t.gval k).toNat % 2 ^ 32)) s.tags = some e
            ∧ 32768 ≤ (e.gen.toNat + 65536 - (t.gval g).toNat % 2 ^ 16) % 65536)
          ∨ (tget (tagKey (tenantOf s t) ((t.gval k).toNat / 2 ^ 32) ((t.gval k).toNat % 2 ^ 32)) s.tags = none
            ∧ (s.tags.filter fun e => sliceOfKey e.1 == tagSlice ((t.gval k).toNat / 2 ^ 32) ((t.gval k).toNat % 2 ^ 32)).length < 65536)) →
        ∃ s1, Retires (.tagpub y d k g) s s1 u t (t.setG d 0) ∧ s1.mem = s.mem
          ∧ ∀ j, tget j s1.tags = (if j = tagKey (tenantOf s t) ((t.gval k).toNat / 2 ^ 32) ((t.gval k).toNat % 2 ^ 32)
            then some { gen := BitVec.ofNat 16 (t.gval g).toNat, left := BitVec.ofNat 16 ((t.gval g).toNat / 2 ^ 16), cid := t.cid, since := s.time }
            else tget j s.tags))
      ∧ ((∃ e, tget (tagKey (tenantOf s t) ((t.gval k).toNat / 2 ^ 32) ((t.gval k).toNat % 2 ^ 32)) s.tags = some e
            ∧ (e.gen.toNat + 65536 - (t.gval g).toNat % 2 ^ 16) % 65536 < 32768) → Writes (.tagpub y d k g) s u t d 2)
      ∧ (tget (tagKey (tenantOf s t) ((t.gval k).toNat / 2 ^ 32) ((t.gval k).toNat % 2 ^ 32)) s.tags = none →
          65536 ≤ (s.tags.filter fun e => sliceOfKey e.1 == tagSlice ((t.gval k).toNat / 2 ^ 32) ((t.gval k).toNat % 2 ^ 32)).length →
          Writes (.tagpub y d k g) s u t d 1))
    ∧ (∀ s u t y d k g, Goes s u t [.g k, .g g] [.g d] → t.prog = .none →
      (2 ^ 56 ≤ (t.gval k).toNat ∨ 2 ^ 42 ≤ (t.gval g).toNat) → Traps (.tagpub y d k g) s u t .illegal 0 t.pc)
    ∧ (∀ s u t y d k g c x, Goes s u t [.g k, .g g] [.g d] → t.prog = .none → (t.gval k).toNat < 2 ^ 56 → (t.gval g).toNat < 2 ^ 41 →
      (t.gval g).toNat / 2 ^ 32 ≠ s.device → s.ctx? t.cid = some x → peerCheck s x.part ((t.gval g).toNat / 2 ^ 32) = some c →
      Traps (.tagpub y d k g) s u t c 0 t.pc)
    ∧ (∀ s u id a f p, tget id s.accs = some a → a.uid = u → (∃ o n g c, a.kind = .tagpub o n g c) → a.phase = .flying →
      (∀ e ∈ s.accs, e.2.uid = u → e = (id, a)) → a.first = some f → f + 2 ^ 16 ≤ s.time → a.pieces = [p] → a.dest ≠ .none →
      ∃ s1 a1, exec (.tagLost u) s = .next s1 ∧ tget id s1.accs = some a1 ∧ a1.phase = .returning
        ∧ a1.pieces.map (fun q => q.bytes) = [leBytes 8 3]))
  ∧ (
    (∀ s u t y d k, Goes s u t [.g k] [.g d] → accessesBefore s u s.nextId = false → (t.gval k).toNat < 2 ^ 56 →
      ∃ s1, Retires (.tagpubDrop y d k) s s1 u t (t.setG d (w64 (s.tags.filter fun e =>
          e.1 / 2 ^ 32 == tenantOf s t * 2 ^ 24 + (t.gval k).toNat / 2 ^ 32).length)) ∧ s1.mem = s.mem
        ∧ ∀ j, tget j s1.tags = (if j / 2 ^ 32 = tenantOf s t * 2 ^ 24 + (t.gval k).toNat / 2 ^ 32 then none else tget j s.tags))
    ∧ (∀ s u t y d k, Goes s u t [.g k] [.g d] → (t.gval k).toNat < 2 ^ 56 → Writes (.tagq y d k) s u t d
        (match tget (tagKey (tenantOf s t) ((t.gval k).toNat / 2 ^ 32) ((t.gval k).toNat % 2 ^ 32)) s.tags with
          | none => 0
          | some e => w64 (e.gen.toNat + e.left.toNat * 2 ^ 16 + 2 ^ 32)))
    ∧ (∀ s u t y d k, Goes s u t [.g k] [.g d] → 2 ^ 56 ≤ (t.gval k).toNat →
      Traps (.tagpubDrop y d k) s u t .illegal 0 t.pc ∧ Traps (.tagq y d k) s u t .illegal 0 t.pc))
  ∧ (
    (∀ s u t y k g e, Goes s u t [.g k, .g g] [] → t.kind = .thread → acquirePending s u = false → (t.gval k).toNat < 2 ^ 56 →
      (t.gval g).toNat / 2 ^ 16 % 2 ^ 16 = 0 →
      tget (tagKey (tenantOf s t) ((t.gval k).toNat / 2 ^ 32) ((t.gval k).toNat % 2 ^ 32)) s.tags = some e →
      (e.gen.toNat = (t.gval g).toNat % 2 ^ 16 → Retires (.tagwait y k g) s s u t t
        ∧ ∃ s1, Retires (.tagwaitC y k g) s s1 u t t
          ∧ ∀ j, tget j s1.tags = (if j = tagKey (tenantOf s t) ((t.gval k).toNat / 2 ^ 32) ((t.gval k).toNat % 2 ^ 32)
            then (if e.left = 0 then some e else if e.left = 1 then none else some { e with left := e.left - 1 }) else tget j s.tags))
      ∧ (1 ≤ (e.gen.toNat + 65536 - (t.gval g).toNat % 2 ^ 16) % 65536 →
        (e.gen.toNat + 65536 - (t.gval g).toNat % 2 ^ 16) % 65536 < 32768 →
        Traps (.tagwait y k g) s u t .staleTag 0 t.pc ∧ Traps (.tagwaitC y k g) s u t .staleTag 0 t.pc)
      ∧ (32768 ≤ (e.gen.toNat + 65536 - (t.gval g).toNat % 2 ^ 16) % 65536 →
        (producerDone s t.cid ((t.gval g).toNat / 2 ^ 32) = true →
          Retires (.tagwait y k g) s s u t t ∧ Retires (.tagwaitC y k g) s s u t t)
        ∧ (producerDone s t.cid ((t.gval g).toNat / 2 ^ 32) = false →
          exec (.tagwait y k g) s = .next (s.setThread u { t with status := .blocked .tag })
          ∧ exec (.tagwaitC y k g) s = .next (s.setThread u { t with status := .blocked .tag }))))
    ∧ (∀ s u t y k g, Goes s u t [.g k, .g g] [] → t.kind = .thread → acquirePending s u = false → (t.gval k).toNat < 2 ^ 56 →
      (t.gval g).toNat / 2 ^ 16 % 2 ^ 16 = 0 →
      tget (tagKey (tenantOf s t) ((t.gval k).toNat / 2 ^ 32) ((t.gval k).toNat % 2 ^ 32)) s.tags = none →
      (producerDone s t.cid ((t.gval g).toNat / 2 ^ 32) = true →
        Retires (.tagwait y k g) s s u t t ∧ Retires (.tagwaitC y k g) s s u t t)
      ∧ (producerDone s t.cid ((t.gval g).toNat / 2 ^ 32) = false →
        exec (.tagwait y k g) s = .next (s.setThread u { t with status := .blocked .tag })
        ∧ exec (.tagwaitC y k g) s = .next (s.setThread u { t with status := .blocked .tag })))
    ∧ (∀ s u t y k g, Issues s u t → t.kind ≠ .thread →
      Traps (.tagwait y k g) s u t .handlerBlock 0 t.pc ∧ Traps (.tagwaitC y k g) s u t .handlerBlock 0 t.pc))

/-! ### Forks, moves, barriers and messages (R38, R39, R44 to R56) -/

/-- `fork` completes for every target: gD is E, or under keep-full the caller waits for it, and a request is on its way with the target's
PC, the values of the registers and what the child joins, a handler's child joining the oldest resident thread of its core. At
FORK_COMPLETE, once the caller's earlier accesses are performed, the child starts on the core named at the target, in that launch, gang,
class and pool code, with those values in the same registers and 0 in every other, and gD is to receive status 0 with the child's
endpoint; status 1 for a core that has no slot for it, 2 for one that is absent or outside the gang's placement, another device, another
core than a handler's own, or nothing to join (R38, R39, R340, R341). -/
def Obligations.Forks : Prop :=
  (∀ s u t y n d e i r, Goes s u t (.g e :: (regRange r n.val).map .g) [.g d] → t.prog = .none →
    ∃ s1 f, exec (.fork y n d e i r) s = .next s1 ∧ tget s.nextId s1.forks = some f ∧ f.uid = u ∧ f.cid = t.cid
      ∧ f.pc = t.pc + immSigned i false * 2 ∧ f.first = r.val ∧ f.vals = (regRange r n.val).map t.gval ∧ f.dest = d
      ∧ f.core = (if (t.gval e).toNat / 2 ^ 23 % 2 ^ 9 = s.device ∧ (t.inHandler = false ∨ (t.gval e).toNat / 2 ^ 11 % 2 ^ 12 = t.core)
          then some ((t.gval e).toNat / 2 ^ 11 % 2 ^ 12) else none)
      ∧ (∀ p l, (if t.inHandler = true then oldestThread s t.core else some t) = some p → p.launch = some l →
        f.join = some { launch := l, gang := p.gang, pool := p.pool, high := p.high, idx := p.idx, linear := p.linear })
      ∧ s1.mem = s.mem
      ∧ (syKf y = false → tget u s1.threads = some { t.emptyG d with
          pc := t.pc + w64 (Instr.fork y n d e i r).len, prog := .none, status := .ready, since := s.time + 1 })
      ∧ (syKf y = true → tget u s1.threads = some { t with status := .blocked .result, prog := .sent s.nextId }))
  ∧ (∀ s id f j c slot rest x, tget id s.forks = some f → accessesBefore s f.uid f.after = false → haltedCtx s f.cid = false →
    f.core = some c → f.join = some j → tget j.launch s.launches = some x → c ∈ (tget j.gang x.places).getD [] →
    coreFor s c f.cid = true → codeFits s c j.pool = true → freeSlots s c = slot :: rest → f.first + f.vals.length ≤ 16 →
    ∃ s1 t1, exec (.forkComplete id) s = .next s1 ∧ tget s.nextId s1.threads = some t1 ∧ t1.core = c ∧ t1.slot = slot ∧ t1.cid = f.cid
      ∧ t1.kind = .thread ∧ t1.status = .ready ∧ t1.pc = f.pc ∧ t1.launch = some j.launch ∧ t1.gang = j.gang ∧ t1.pool = j.pool
      ∧ t1.high = j.high ∧ t1.idx = j.idx ∧ t1.forked = true
      ∧ (∀ n : GNum, t1.g.get n = GReg.ofWord (if f.first ≤ n.val then (f.vals[n.val - f.first]?).getD 0 else 0))
      ∧ tget id s1.forks = none
      ∧ tget id s1.pending = some { uid := f.uid, dest := .g f.dest false, bytes := leBytes 8 (endpoint s1 c slot).toNat, bad := none, kf := f.kf, node := none, slot := none })
  ∧ (∀ s id f, tget id s.forks = some f → accessesBefore s f.uid f.after = false → haltedCtx s f.cid = false →
    (∀ j c x, f.core = some c → f.join = some j → tget j.launch s.launches = some x →
      (c ∉ (tget j.gang x.places).getD [] ∨ (s.core c).absent = true → ∃ s1, exec (.forkComplete id) s = .next s1 ∧ s1.threads = s.threads
        ∧ tget id s1.pending = some { uid := f.uid, dest := .g f.dest false, bytes := leBytes 8 (2 * 2 ^ 32), bad := none, kf := f.kf, node := none, slot := none })
      ∧ (c ∈ (tget j.gang x.places).getD [] → (s.core c).absent = false →
        (coreFor s c f.cid = false ∨ codeFits s c j.pool = false ∨ freeSlots s c = []) →
        ∃ s1, exec (.forkComplete id) s = .next s1 ∧ s1.threads = s.threads
        ∧ tget id s1.pending = some { uid := f.uid, dest := .g f.dest false, bytes := leBytes 8 (2 ^ 32), bad := none, kf := f.kf, node := none, slot := none }))
    ∧ ((f.core = none ∨ f.join = none) → ∃ s1, exec (.forkComplete id) s = .next s1 ∧ s1.threads = s.threads
      ∧ tget id s1.pending = some { uid := f.uid, dest := .g f.dest false, bytes := leBytes 8 (2 * 2 ^ 32), bad := none, kf := f.kf, node := none, slot := none }))
  ∧ (∀ s id f, tget id s.forks = some f → accessesBefore s f.uid f.after = true → exec (.forkComplete id) s = .next s)

/-- `migrate` to the own core, by either of its addresses, completes and moves nothing; to another core of the partition the thread waits
for its fills and its accesses and is then Leaving until a slot there accepts it, where it goes on after the `migrate` with its scalar
registers, flags, rounding mode and indices, its other registers as at reset; a heavy thread, a core outside the partition, an absent one
and any other address trap, and in a handler it is HANDLER_BLOCK. `endp` completes with its query on the way to the core, gD being E, or
the thread waiting under keep-full; the fill gives the endpoint of the core's handler slot with the generation that the query finds there,
or bit 32 alone for an absent core (that the query reaches the core as gD is filled is log 17's reading); an address outside the partition
or of no core traps (R47, R49 to R52, R333, R362). -/
def Obligations.Moves : Prop :=
  (∀ s u t y a, Goes s u t [.g a] [] → InThread t → heavy s u t = false →
    ((t.gval a).toNat < 0x60000 ∨ (0x100000000 ≤ (t.gval a).toNat ∧ (t.gval a).toNat < 0x200000000
      ∧ clusterOf t.core * 256 + ((t.gval a).toNat - 0x100000000) / 0x1000000 = t.core)) → Retires (.migrate y a) s s u t t)
  ∧ (∀ s u t y a c x, Goes s u t [.g a] [] → InThread t → s.ctx? t.cid = some x → 0x100000000 ≤ (t.gval a).toNat →
    (t.gval a).toNat < 0x200000000 → c = clusterOf t.core * 256 + ((t.gval a).toNat - 0x100000000) / 0x1000000 → c ≠ t.core →
    (heavy s u t = false → islandOf c ∈ partIslands s x.part →
      ((s.core c).absent = false → fillsPending t = false → accessesBefore s u s.nextId = false →
        ∃ s1 t1, exec (.migrate y a) s = .next s1 ∧ tget u s1.threads = some t1 ∧ t1.status = .leaving
          ∧ t1.prog = .moving c (t.pc + w64 (Instr.migrate y a).len) (t.gval a) ∧ t1.g = t.g)
      ∧ ((s.core c).absent = false → fillsPending t = true → exec (.migrate y a) s = .next (s.setThread u { t with status := .blocked .regs }))
      ∧ ((s.core c).absent = true → Traps (.migrate y a) s u t .coreAbsent 0 (t.gval a)))
    ∧ (heavy s u t = false → islandOf c ∉ partIslands s x.part → Traps (.migrate y a) s u t .notOwned 0 (t.gval a)))
  ∧ (∀ s u t y a, Goes s u t [.g a] [] → (t.kind ≠ .thread → Traps (.migrate y a) s u t .handlerBlock 0 t.pc)
    ∧ (InThread t → heavy s u t = true → Traps (.migrate y a) s u t .migrateHeavy 0 t.pc)
    ∧ (InThread t → heavy s u t = false → 0x60000 ≤ (t.gval a).toNat → ((t.gval a).toNat < 0x100000000 ∨ 0x200000000 ≤ (t.gval a).toNat) →
      Traps (.migrate y a) s u t .migrateTarget 0 t.pc))
  ∧ (∀ s u t c pc va, ∀ slot : Fin 8, tget u s.threads = some t → t.status = .leaving → t.prog = .moving c pc va →
    coreFor s c t.cid = true → codeFits s c 0 = true → slot.val ∈ freeSlots s c →
    ∃ s1 t1, exec (.migrationAccept u slot) s = .next s1 ∧ tget u s1.threads = some t1 ∧ t1.core = c ∧ t1.slot = slot.val ∧ t1.pc = pc
      ∧ t1.status = .ready ∧ (∀ n, t1.gval n = t.gval n ∧ (t1.g.get n).st = (t.g.get n).st ∧ (t1.g.get n).src = 0) ∧ t1.fflags = t.fflags
      ∧ t1.frm = t.frm ∧ t1.launch = t.launch ∧ t1.gang = t.gang ∧ t1.high = t.high ∧ t1.idx = t.idx ∧ t1.linear = t.linear ∧ t1.pool = 0
      ∧ t1.q = Vector.replicate 8 0 ∧ t1.h = Vector.replicate 4 0 ∧ t1.lfsr = 1 ∧ t1.mxweight = 8 ∧ t1.stepwin = 0x1000000 ∧ t1.tvec = 0
      ∧ t1.tcause = 0 ∧ t1.taddr = 0 ∧ t1.tresume = 0)
  ∧ (∀ s u t y d a, Goes s u t [.g a] [.g d] → t.prog = .none → isSteward t.core = false →
    (∀ x (c : Nat), s.ctx? t.cid = some x →
      ((t.gval a).toNat < 0x60000 ∧ c = t.core
        ∨ (0x100000000 ≤ (t.gval a).toNat ∧ (t.gval a).toNat < 0x200000000
          ∧ c = clusterOf t.core * 256 + ((t.gval a).toNat - 0x100000000) / 0x1000000
          ∧ (c = t.core ∨ islandOf c ∈ partIslands s x.part))) →
      ∃ s1 p, tget s.nextId s1.pending = some p ∧ p.uid = u ∧ p.dest = .g d false ∧ p.asks = some c ∧ p.bad = none ∧ p.node = none
        ∧ p.kf = syKf y ∧ s1.mem = s.mem ∧ s1.threads = s.threads
        ∧ (syKf y = false → Retires (.endp y d a) s s1 u t (t.emptyG d))
        ∧ (syKf y = true → exec (.endp y d a) s = blockAt s1 u t .result (.sent s.nextId)))
    ∧ (∀ x c, s.ctx? t.cid = some x → 0x100000000 ≤ (t.gval a).toNat → (t.gval a).toNat < 0x200000000 →
      c = clusterOf t.core * 256 + ((t.gval a).toNat - 0x100000000) / 0x1000000 → c ≠ t.core → islandOf c ∉ partIslands s x.part →
      Traps (.endp y d a) s u t .notOwned 0 (t.gval a))
    ∧ (0x60000 ≤ (t.gval a).toNat → ((t.gval a).toNat < 0x100000000 ∨ 0x200000000 ≤ (t.gval a).toNat) →
      Traps (.endp y d a) s u t .unmapped 0 (t.gval a)))
  ∧ (∀ s id p t d c, tget id s.accs = none → tget id s.pending = some p → p.asks = some c → p.node = none → p.bad = none →
    p.dest = .g d false → tget p.uid s.threads = some t → ∃ s1 t1, exec (.registerFill id) s = .next s1 ∧ tget id s1.pending = none
      ∧ tget p.uid s1.threads = some t1 ∧ t1.gval d = (if (s.core c).absent = true then w64 (2 ^ 32) else w64 (endpoint s c 8).toNat)
      ∧ t1.regSt (.g d) = .full ∧ s1.mem = s.mem)

/-- The operations of R54: exact, each with an identity; the worked example of R56. Arrivals at a barrier. Every form counts its thread
with its value at once; the phase is released when every member has arrived or retired and the accesses before the arrivals are performed.
The blocking forms wait and go on behind themselves at the release, with the combined value in gD; the others go on at once, gD being E
until the release, or, under keep-full, wait. `barw` waits only while an arrival of its thread is pending (R53 to R56, R163, R319 to
R321). The checks of a barrier, in their order: HANDLER_BLOCK in a handler; BAR_LEVEL for a forked thread, a level that the launch does
not have or that has no barrier, and a thread outside its gang's placement; BAR_MISMATCH for another operation than the phase's (R47, R53,
R320, R321). -/
def Obligations.Barriers : Prop :=
  (
    (∀ a b : Word, barCombine 1 a b = a + b ∧ barCombine 2 a b = a ^^^ b
      ∧ (barCombine 3 a b).toInt = min a.toInt b.toInt ∧ (barCombine 4 a b).toInt = max a.toInt b.toInt
      ∧ (barCombine 5 a b).toNat = min a.toNat b.toNat ∧ (barCombine 6 a b).toNat = max a.toNat b.toNat)
    ∧ (∀ (op : Nat) (a : Word), 1 ≤ op → op ≤ 6 → barCombine op (barIdentity op) a = a)
    ∧ ([0x40400000, 0xC1200000, 0x80000000, 0x3F800000] : List Word).foldl (barCombine 7) (barIdentity 7) = 0x40400000
    ∧ (∀ a b : Word, f32NaN (a.toNat % 2 ^ 32) = true → barCombine 7 a b = 0x7FC00000 ∧ barCombine 7 b a = 0x7FC00000))
  ∧ (
    (∀ s u t y key c, ∀ L : Fin 8, Issues s u t → Arrives s u t L.val 0 key c → ¬ Completes s u c →
      (∃ s1, exec (.bar y L) s = .next s1 ∧ Arrived s1 u 0 key c 0 ∧ tget u s1.threads = some { t with
        status := .blocked (.barrier L.val), prog := .arrived L.val (t.pc + w64 (Instr.bar y L).len) })
      ∧ (∃ s1, exec (.barA y L) s = .next s1 ∧ Arrived s1 u 0 key c 0 ∧ tget u s1.threads = some { t with
        pc := t.pc + w64 (Instr.barA y L).len, prog := .none, status := .ready, since := s.time + 1 }))
    ∧ (∀ s u t y key c, ∀ L : Fin 8, Issues s u t → Arrives s u t L.val 0 key c → Completes s u c →
      (∃ s1 t1, exec (.bar y L) s = .next s1 ∧ Released s s1 u key c 0 ∧ tget u s1.threads = some t1 ∧ t1.status = .ready
        ∧ t1.pc = t.pc + w64 (Instr.bar y L).len ∧ t1.g = t.g)
      ∧ (∃ s1 t1, exec (.barA y L) s = .next s1 ∧ Released s s1 u key c 0 ∧ tget u s1.threads = some t1 ∧ t1.status = .ready
        ∧ t1.pc = t.pc + w64 (Instr.barA y L).len ∧ t1.g = t.g))
    ∧ (∀ s u t y key c d v, ∀ o L : Fin 8, Goes s u t [.g v] [.g d] → Arrives s u t L.val o.val key c →
      ¬ Completes s u c →
      (∃ s1, exec (.barOp y o L d v) s = .next s1 ∧ Arrived s1 u o.val key c (t.gval v) ∧ tget u s1.threads = some { t with
        status := .blocked (.barrier L.val), prog := .arrived L.val (t.pc + w64 (Instr.barOp y o L d v).len) })
      ∧ (syKf y = false → ∃ s1, exec (.barAOp y o L d v) s = .next s1 ∧ Arrived s1 u o.val key c (t.gval v)
        ∧ tget u s1.threads = some { t.emptyG d with
          pc := t.pc + w64 (Instr.barAOp y o L d v).len, prog := .none, status := .ready, since := s.time + 1 }))
    ∧ (∀ s u t y key c d v, ∀ o L : Fin 8, Goes s u t [.g v] [.g d] → Arrives s u t L.val o.val key c →
      Completes s u c →
      (∃ s1 t1, exec (.barOp y o L d v) s = .next s1 ∧ Released s s1 u key c (accAfter o.val c (t.gval v)) ∧ tget u s1.threads = some t1
        ∧ t1.status = .ready ∧ t1.pc = t.pc + w64 (Instr.barOp y o L d v).len ∧ t1.g.get d = GReg.ofWord (accAfter o.val c (t.gval v)))
      ∧ (syKf y = false → ∃ s1 t1, exec (.barAOp y o L d v) s = .next s1 ∧ Released s s1 u key c (accAfter o.val c (t.gval v))
        ∧ tget u s1.threads = some t1 ∧ t1.status = .ready ∧ t1.pc = t.pc + w64 (Instr.barAOp y o L d v).len
        ∧ ∃ id, tget id s1.pending = some { uid := u, dest := .g d false, bytes := leBytes 8 (accAfter o.val c (t.gval v)).toNat
                                            bad := none, kf := false, node := none, slot := none }))
    ∧ (∀ s u t y key c, ∀ L : Fin 8, Issues s u t → t.kind = .thread → barOf s t L.val = some (key, c) →
      ((∀ a ∈ c.arrivals, a.uid ≠ u) → Retires (.barw y L) s s u t t)
      ∧ ((∃ a ∈ c.arrivals, a.uid = u) → exec (.barw y L) s = .next (s.setThread u { t with status := .blocked (.barrier L.val) })))
    ∧ (∀ s u t y key c d v, ∀ o L : Fin 8, Goes s u t [.g v] [.g d] → Arrives s u t L.val o.val key c → syKf y = true →
      (¬ Completes s u c → ∃ s1, exec (.barAOp y o L d v) s = .next s1 ∧ Arrived s1 u o.val key c (t.gval v) ∧ tget u s1.threads = some { t with
        status := .blocked (.barrier L.val), prog := .arrived L.val (t.pc + w64 (Instr.barAOp y o L d v).len) })
      ∧ (Completes s u c → ∃ s1, exec (.barAOp y o L d v) s = .next s1 ∧ Released s s1 u key c (accAfter o.val c (t.gval v))))
    ∧ (∀ s id a p at_ key c, tget id s.accs = some a → a.pieces = [p] → p.loc = .here at_ → p.bytes = [] → a.kind = .barrier key →
      mayPerform s id a p = true → tget key s.bars = some c → ∃ s1 c1, exec (.accessAtOwner id (.owner 0)) s = .next s1
        ∧ tget key s1.bars = some c1 ∧ (c1.phase = c.phase + 1 ∧ c1.arrivals = []
          ∨ c1 = { c with arrivals := c.arrivals.map fun (x : Arrival) => if x.uid = a.uid then { x with covered := true } else x }
            ∧ ((c.arrivals.length + c.exited = c.members ∧ ∀ x ∈ c.arrivals, x.uid = a.uid ∨ x.covered = true) → c.arrivals = []))))
  ∧ (
    (∀ s u t y, ∀ L : Fin 8, Issues s u t → t.kind ≠ .thread →
      Traps (.bar y L) s u t .handlerBlock 0 t.pc ∧ Traps (.barA y L) s u t .handlerBlock 0 t.pc ∧ Traps (.barw y L) s u t .handlerBlock 0 t.pc
      ∧ ∀ o d v, Traps (.barOp y o L d v) s u t .handlerBlock 0 t.pc ∧ Traps (.barAOp y o L d v) s u t .handlerBlock 0 t.pc)
    ∧ (∀ s u t y, ∀ L : Fin 8, Issues s u t → t.kind = .thread → t.prog = .none →
      (t.forked = true ∨ ∃ l x, t.launch = some l ∧ tget l s.launches = some x
        ∧ (x.levels.length ≤ L.val ∨ (∃ v, x.levels[L.val]? = some v ∧ v.bar = none) ∨ t.core ∉ (tget t.gang x.places).getD [])) →
      Traps (.bar y L) s u t .barLevel 0 t.pc ∧ Traps (.barA y L) s u t .barLevel 0 t.pc ∧ Traps (.barw y L) s u t .barLevel 0 t.pc
      ∧ ∀ o d v, Goes s u t [.g v] [.g d] → Traps (.barOp y o L d v) s u t .barLevel 0 t.pc ∧ Traps (.barAOp y o L d v) s u t .barLevel 0 t.pc)
    ∧ (∀ s u t y key c, ∀ L : Fin 8, Issues s u t → t.kind = .thread → t.prog = .none → barOf s t L.val = some (key, c) →
      (∀ a ∈ c.arrivals, a.uid ≠ u) → c.arrivals ≠ [] →
      (c.op ≠ 0 → Traps (.bar y L) s u t .barMismatch 0 t.pc ∧ Traps (.barA y L) s u t .barMismatch 0 t.pc)
      ∧ ∀ (o : Fin 8) d v, Goes s u t [.g v] [.g d] → c.op ≠ o.val →
        Traps (.barOp y o L d v) s u t .barMismatch 0 t.pc ∧ Traps (.barAOp y o L d v) s u t .barMismatch 0 t.pc))

/-- `send` passes a message on and retires; an odd handler address is MISALIGNED. A message reaches its core's inbox when its endpoint is
current there, its context holds the core and is under no ladder, and the inbox has room; it is refused while the inbox is full, and
dropped from flight where the endpoint is stale, or refused for 2^16 cycles; either counts as a failed item of its launch (R43 to R45,
R48, R230, R385; that `taddr` holds the odd address is log 9's reading of R235). The handler slot starts the core's oldest message, with
the carried values from g0 on, the sender's endpoint in g8 and its slot field in g9; before any message it starts a fault run, with the
held thread's trap registers in g0 to g2, its endpoint in g3, the queue's tail in g4 and its launch ID in g5. A fault interrupt goes to
the lowest core that the context holds (R46, R75, R238). -/
def Obligations.MessagesAndHandlers : Prop :=
  (
    (∀ s u t y n e h r, Goes s u t (.g e :: .g h :: (regRange r (Fin.val (n := 9) n)).map .g) [] →
      ((t.gval h).toNat % 2 = 1 → Traps (.send y n e h r) s u t .misaligned 0 (t.gval h))
      ∧ ((t.gval h).toNat % 2 = 0 → (t.gval e).toNat / 2 ^ 23 % 2 ^ 9 = s.device → (s.core ((t.gval e).toNat / 2 ^ 11 % 2 ^ 12)).absent = false →
        ∃ s1 m, Retires (.send y n e h r) s s1 u t t ∧ tget s.nextId s1.msgs = some m ∧ m.uid = u ∧ m.cid = t.cid ∧ m.sender = epOf s t
          ∧ m.dest = BitVec.ofNat 32 (t.gval e).toNat ∧ m.pc = t.gval h ∧ m.vals = (regRange r n.val).map t.gval ∧ m.launch = t.launch
          ∧ m.first = none ∧ m.refused = false ∧ m.after = s.nextId ∧ s1.mem = s.mem ∧ s1.threads = s.threads))
    ∧ (∀ s id m, tget id s.msgs = some m → m.dest.toNat / 2 ^ 23 % 2 ^ 9 = s.device → mayArrive s m = true →
      (deliverable s m = true → (s.core (m.dest.toNat / 2 ^ 11 % 2 ^ 12)).inbox.length < 64 →
        ∃ s1, exec (.messageArrival id) s = .next s1 ∧ tget id s1.msgs = none
          ∧ (s1.core (m.dest.toNat / 2 ^ 11 % 2 ^ 12)).inbox = (s.core (m.dest.toNat / 2 ^ 11 % 2 ^ 12)).inbox ++ [m])
      ∧ (deliverable s m = true → 64 ≤ (s.core (m.dest.toNat / 2 ^ 11 % 2 ^ 12)).inbox.length →
        exec (.messageArrival id) s = .next { s with msgs := tput id { m with first := some (m.first.getD s.time), refused := true } s.msgs })
      ∧ ((8 < m.dest.toNat / 2 ^ 7 % 2 ^ 4
          ∨ ((s.core (m.dest.toNat / 2 ^ 11 % 2 ^ 12)).gens.toList.getD (m.dest.toNat / 2 ^ 7 % 2 ^ 4) 0).toNat ≠ m.dest.toNat % 2 ^ 7
          ∨ (s.core (m.dest.toNat / 2 ^ 11 % 2 ^ 12)).ctx ≠ some m.cid ∨ (∃ x, s.ctx? m.cid = some x ∧ x.ladder.isSome = true)
          ∨ (m.dest.toNat / 2 ^ 7 % 2 ^ 4 < 8 ∧ ∀ v w, agentAt s (m.dest.toNat / 2 ^ 11 % 2 ^ 12) (m.dest.toNat / 2 ^ 7 % 2 ^ 4) = some (v, w) →
              w.status = .parked ∨ w.status = .leaving)) →
        ∃ s1, exec (.messageArrival id) s = .next s1 ∧ tget id s1.msgs = none ∧ s1.cores = s.cores
          ∧ ∀ l x, m.launch = some l → tget l s.launches = some x → x.failed < 2 ^ 32 - 1 → tget l s1.launches = some { x with failed := x.failed + 1 }))
    ∧ (∀ s id m, tget id s.msgs = some m → exec (.inboxNackRetry id) s = .next { s with msgs := tput id { m with refused := false } s.msgs })
    ∧ (∀ s id m f, tget id s.msgs = some m → m.refused = true → m.first = some f → f + 2 ^ 16 ≤ s.time →
      ∃ s1, exec (.inboxTimeout id) s = .next s1 ∧ tget id s1.msgs = none ∧ s1.cores = s.cores
        ∧ ∀ l x, m.launch = some l → tget l s.launches = some x → x.failed < 2 ^ 32 - 1 → tget l s1.launches = some { x with failed := x.failed + 1 }))
  ∧ (
    (∀ s c cid m rest, (s.core c).ctx = some cid → (s.core c).faults = [] → (s.core c).inbox = m :: rest → handlerFree s c cid = true →
      m.vals.length ≤ 8 →
      ∃ s1 t1, exec (.handlerStart c) s = .next s1 ∧ tget s.nextId s1.threads = some t1 ∧ (s1.core c).inbox = rest ∧ t1.core = c ∧ t1.slot = 8
        ∧ t1.cid = cid ∧ t1.inHandler = true ∧ t1.level = (if isSteward c then .steward else .thread) ∧ t1.pc = m.pc ∧ t1.status = .ready ∧ t1.pool = 0
        ∧ t1.lfsr = (s.core c).hlfsr
        ∧ ∀ n : GNum, t1.g.get n = GReg.ofWord (if n.val = 8 then w64 m.sender.toNat else if n.val = 9 then w64 (m.dest.toNat / 2 ^ 7 % 2 ^ 4)
          else (m.vals[n.val]?).getD 0))
    ∧ (∀ s c cid x v h rest, (s.core c).ctx = some cid → (s.core c).faults = .thread v :: rest → handlerFree s c cid = true →
      s.ctx? cid = some x → s.agent? v = some h →
      ∃ s1 t1, exec (.faultRunStart c) s = .next s1 ∧ tget s.nextId s1.threads = some t1 ∧ (s1.core c).faults = rest
        ∧ (s1.core c).inbox = (s.core c).inbox ∧ t1.core = c ∧ t1.slot = 8 ∧ t1.kind = .faultRun (.thread v) ∧ t1.pc = x.fhentry ∧ t1.status = .ready
        ∧ t1.gval 0 = h.tcause ∧ t1.gval 1 = h.taddr ∧ t1.gval 2 = h.tresume ∧ t1.gval 3 = w64 (epOf s h).toNat ∧ t1.gval 4 = w64 x.eqtail
        ∧ t1.gval 5 = w64 (lidOf s h) ∧ ∀ n : GNum, 6 ≤ n.val → t1.gval n = 0)
    ∧ (∀ s cid x c cs, s.ctx? cid = some x → heldCores s cid = c :: cs → x.pendingInt = true → x.fhentry ≠ 0 →
      ∃ s1 x1, exec (.faultInterrupt cid) s = .next s1 ∧ s1.ctx? cid = some x1 ∧ x1.pendingInt = false
        ∧ (s1.core c).faults = (s.core c).faults ++ [.interrupt]))

/-! ### Spaces and withdrawals (R104 to R121) -/

/-- `map` makes a child of the node that covers its source, with the rights asked for, in the destination space; `grant` moves the node
with its own; the status is OK with the new depth. For tenant 0 and another tenant's space, a `map` scrubs the pages of the range that
tenant 0 does not own, and a `grant` every page, under the new tenant. Each refusal has its code, in the order of R105, and changes
nothing. Operands outside R111 trap. Under keep-full the agent waits at the instruction in place of gD being E (R69, R104 to R108, R111,
R136, R345, R360; that `taddr` of a MISALIGNED holds the address is log 9's reading of R235). -/
def Obligations.Derivations : Prop :=
  (∀ s u t y d r q i n x, Derives s u t y d r false q → Source s t q i n → Target s t q x → n.rights.getLsbD 4 = true →
    q.rights &&& n.rights.toNat = q.rights → n.depth < 15 → s.nodes.length < 16777216 → ((callerOf s t).2 ≠ 0 ∨ x.tenant = 0) →
    ∃ s1, SendsFor (.map y d r) y s s1 u t d (s.nextId + 1) ∧ s1.mem = s.mem
      ∧ tget s.nextId s1.nodes = some {
          space := q.space, vpage := q.dst, pages := q.pages, dev := n.dev, page := n.page + (q.src - n.vpage)
          rights := BitVec.ofNat 5 q.rights, parent := some i, parentDev := none, depth := n.depth + 1, tenant := n.tenant, withdrawn := false }
      ∧ (∀ j, j ≠ s.nextId → tget j s1.nodes = tget j s.nodes)
      ∧ tget (s.nextId + 1) s1.pending = some { uid := u, dest := .g d false, bytes := leBytes 8 ((n.depth + 1) * 2 ^ 16), bad := none, kf := syKf y, node := none, slot := none })
  ∧ (∀ s u t y d r q i n x, Derives s u t y d r true q → Source s t q i n → Target s t q x → n.rights.getLsbD 4 = true →
    q.src = n.vpage → q.pages = n.pages → n.depth < 16 → ((callerOf s t).2 ≠ 0 ∨ x.tenant = 0) →
    ∃ s1, SendsFor (.grant y d r) y s s1 u t d s.nextId ∧ s1.mem = s.mem ∧ tget i s1.nodes = some { n with space := q.space, vpage := q.dst }
      ∧ (∀ j, j ≠ i → tget j s1.nodes = tget j s.nodes)
      ∧ tget s.nextId s1.pending = some { uid := u, dest := .g d false, bytes := leBytes 8 (n.depth * 2 ^ 16), bad := none, kf := syKf y, node := some i, slot := none })
  ∧ (∀ s u t y d r q i n x, Derives s u t y d r false q → Source s t q i n → Target s t q x → n.rights.getLsbD 4 = true →
    q.rights &&& n.rights.toNat = q.rights → n.depth < 15 → s.nodes.length < 16777216 → (callerOf s t).2 = 0 → x.tenant ≠ 0 → n.dev = s.device →
    (∀ e ∈ s.owner, tget e.1 s.owner = some e.2) →
    (keysSpent s 0 (scrubbedBy s (n.page + (q.src - n.vpage)) q.pages).length = true → Answers (.map y d r) y s u t d 10)
    ∧ (FarFromAging s 0 (scrubbedBy s (n.page + (q.src - n.vpage)) q.pages).length → ∃ s1 id, SendsFor (.map y d r) y s s1 u t d id
      ∧ (∃ p, tget id s1.pending = some p ∧ p.bytes = leBytes 8 ((n.depth + 1) * 2 ^ 16))
      ∧ (∃ k c, tget k s1.nodes = some c ∧ c.space = q.space ∧ c.vpage = q.dst ∧ c.pages = q.pages ∧ c.parent = some i ∧ c.tenant = n.tenant)
      ∧ Scrubbed s1 ((pageRange (n.page + (q.src - n.vpage)) q.pages).filter fun p => s.ownerOf p != 0) 0
      ∧ Unscrubbed s s1 ((pageRange (n.page + (q.src - n.vpage)) q.pages).filter fun p => s.ownerOf p != 0)))
  ∧ (∀ s u t y d r q i n x, Derives s u t y d r true q → Source s t q i n → Target s t q x → n.rights.getLsbD 4 = true →
    q.src = n.vpage → q.pages = n.pages → n.depth < 16 → (callerOf s t).2 = 0 → x.tenant ≠ 0 → n.dev = s.device →
    (keysSpent s x.tenant n.pages = true → Answers (.grant y d r) y s u t d 10)
    ∧ (FarFromAging s x.tenant n.pages → ∃ s1 id, SendsFor (.grant y d r) y s s1 u t d id
      ∧ (∃ p, tget id s1.pending = some p ∧ p.bytes = leBytes 8 (n.depth * 2 ^ 16))
      ∧ tget i s1.nodes = some { n with space := q.space, vpage := q.dst, tenant := x.tenant }
      ∧ Scrubbed s1 (pageRange n.page n.pages) x.tenant ∧ Unscrubbed s s1 (pageRange n.page n.pages)))
  ∧ (∀ s u t y d r q (gr : Bool) op, op = (if gr then Instr.grant y d r else .map y d r) → Derives s u t y d r gr q →
    (findNode s (callerOf s t).1 q.src = none → Answers op y s u t d (1 + 2 ^ 8))
    ∧ (∀ i n, findNode s (callerOf s t).1 q.src = some (i, n) → n.vpage + n.pages < q.src + q.pages → Answers op y s u t d (1 + 2 ^ 8))
    ∧ (∀ i n, findNode s (callerOf s t).1 q.src = some (i, n) → q.src + q.pages ≤ n.vpage + n.pages → marked s i = true →
        Answers op y s u t d 3)
    ∧ (∀ i n, Source s t q i n → (n.rights.getLsbD 4 = false ∨ (gr = false ∧ q.rights &&& n.rights.toNat ≠ q.rights)) →
        Answers op y s u t d (1 + 2 * 2 ^ 8))
    ∧ (∀ i n, Source s t q i n → n.rights.getLsbD 4 = true → gr = true → ¬ (q.src = n.vpage ∧ q.pages = n.pages) →
        Answers op y s u t d (1 + 3 * 2 ^ 8))
    ∧ (∀ i n, Source s t q i n → n.rights.getLsbD 4 = true →
      (if gr then q.src = n.vpage ∧ q.pages = n.pages else q.rights &&& n.rights.toNat = q.rights) →
      (q.dev ≠ s.device → (s.peer q.dev).st ≠ .live → Answers op y s u t d 8)
      ∧ (q.dev = s.device →
        ((∀ x, tget q.space s.spaces = some x → x.deleted = true) → Answers op y s u t d 8)
        ∧ (∀ x, tget q.space s.spaces = some x → x.deleted = false → x.tenant ≠ (callerOf s t).2 → (callerOf s t).2 ≠ 0 →
            Answers op y s u t d 7)
        ∧ (∀ x, tget q.space s.spaces = some x → x.deleted = false → (x.tenant = (callerOf s t).2 ∨ (callerOf s t).2 = 0) →
            (∃ e ∈ s.nodes, e.2.space = q.space ∧ e.2.vpage < q.dst + q.pages ∧ q.dst < e.2.vpage + e.2.pages) → Answers op y s u t d 2)
        ∧ (∀ x, Target s t q x → gr = false → n.depth = 15 → Answers op y s u t d 4)
        ∧ (∀ x, Target s t q x → gr = false → n.depth < 15 → 16777216 ≤ s.nodes.length → Answers op y s u t d 6))))
  ∧ (∀ s u t y d r (gr : Bool) op, op = (if gr then Instr.grant y d r else .map y d r) →
    Goes s u t [.g r, .g (gAfter r 1), .g (gAfter r 2), .g (gAfter r 3)] [.g d] → t.prog = .none →
    ((2 ^ 34 ≤ (t.gval (gAfter r 1)).toNat ∨ (gr = true ∧ (t.gval (gAfter r 1)).toNat / 2 ^ 20 % 2 ^ 5 ≠ 0)) → Traps op s u t .illegal 0 t.pc)
    ∧ ((t.gval (gAfter r 1)).toNat < 2 ^ 34 → (gr = true → (t.gval (gAfter r 1)).toNat / 2 ^ 20 % 2 ^ 5 = 0) →
      ((t.gval r).toNat % 4096 ≠ 0 → Traps op s u t .misaligned 0 (t.gval r))
      ∧ ((t.gval r).toNat % 4096 = 0 → (t.gval (gAfter r 2)).toNat % 4096 ≠ 0 → Traps op s u t .misaligned 0 (t.gval (gAfter r 2)))
      ∧ ((t.gval r).toNat % 4096 = 0 → (t.gval (gAfter r 2)).toNat % 4096 = 0 →
        ((t.gval (gAfter r 3)).toNat = 0 ∨ 2 ^ 32 < (t.gval (gAfter r 3)).toNat) → Traps op s u t .illegal 0 t.pc)
      ∧ ((t.gval r).toNat % 4096 = 0 → (t.gval (gAfter r 2)).toNat % 4096 = 0 → 1 ≤ (t.gval (gAfter r 3)).toNat →
        (t.gval (gAfter r 3)).toNat ≤ 2 ^ 32 → (t.gval r).toNat < 2 ^ 48 → Traps op s u t .unmapped 0 (t.gval r))))
  ∧ (∀ s u t y d r id op, (op = .map y d r ∨ op = .grant y d r) → Issues s u t → (t.regSt (.g d) = .full ∨ t.regSt (.g d) = .poison) →
    runHolds s u t (.g d) = false → t.prog = .sent id → Landed s id → Retires op s s u t t)

/-- `unmap` withdraws every child of its node whose source meets the range, and `unmap.self` the node itself: the roots are marked in one
step and gD is E until the end, or under keep-full the agent waits; with no child it is OK at once, and with no free filter entry, or
while translations are held for want of one, BUSY. `spnew` makes a space of the caller's tenant under an ID not in use; `spdel` marks its
space deleted, or refuses (R69, R109, R110, R113, R118, R121, R388 to R390, R404; that `taddr` of a MISALIGNED holds the address is log
9's reading of R235). -/
def Obligations.SpaceInstructions : Prop :=
  (∀ s u t y d r i n, Goes s u t [.g r, .g (gAfter r 1)] [.g d] → t.prog = .none → (t.gval r).toNat % 4096 = 0 →
    2 ^ 48 ≤ (t.gval r).toNat → 1 ≤ (t.gval (gAfter r 1)).toNat → (t.gval (gAfter r 1)).toNat ≤ 2 ^ 32 →
    (t.gval r).toNat + (t.gval (gAfter r 1)).toNat * 4096 ≤ 2 ^ 56 →
    findNode s (callerOf s t).1 ((t.gval r).toNat / 4096) = some (i, n) → (∀ e ∈ s.nodes, tget e.1 s.nodes = some e.2) →
    (n.vpage + n.pages < (t.gval r).toNat / 4096 + (t.gval (gAfter r 1)).toNat → Answers (.unmap y d r) y s u t d (1 + 2 ^ 8)
      ∧ Answers (.unmapSelf y d r) y s u t d (1 + 2 ^ 8))
    ∧ ((t.gval r).toNat / 4096 + (t.gval (gAfter r 1)).toNat ≤ n.vpage + n.pages →
      (marked s i = true → Answers (.unmap y d r) y s u t d 3 ∧ Answers (.unmapSelf y d r) y s u t d 3)
      ∧ (marked s i = false → ((t.gval r).toNat / 4096 = n.vpage ∧ (t.gval (gAfter r 1)).toNat = n.pages) →
        (filterBusy s = false → ∃ s1, SendsFor (.unmapSelf y d r) y s s1 u t d s.nextId ∧ Withdraws s s1 u d (syKf y) [i])
        ∧ (filterBusy s = true → Answers (.unmapSelf y d r) y s u t d 5))
      ∧ (marked s i = false → ¬ ((t.gval r).toNat / 4096 = n.vpage ∧ (t.gval (gAfter r 1)).toNat = n.pages) →
        Answers (.unmapSelf y d r) y s u t d (1 + 3 * 2 ^ 8))
      ∧ (marked s i = false → s.remotes = [] →
        (∀ k m, tget k s.nodes = some m → m.parent = some i → m.parentDev = none →
          overlaps (n.page + ((t.gval r).toNat / 4096 - n.vpage)) (t.gval (gAfter r 1)).toNat m.page m.pages = false) →
        Answers (.unmap y d r) y s u t d 0)
      ∧ (marked s i = false → s.remotes = [] →
        (∃ k m, tget k s.nodes = some m ∧ m.parent = some i ∧ m.parentDev = none
          ∧ overlaps (n.page + ((t.gval r).toNat / 4096 - n.vpage)) (t.gval (gAfter r 1)).toNat m.page m.pages = true) →
        (filterBusy s = true → Answers (.unmap y d r) y s u t d 5)
        ∧ (filterBusy s = false → ∃ s1 roots, SendsFor (.unmap y d r) y s s1 u t d s.nextId ∧ Withdraws s s1 u d (syKf y) roots
          ∧ ∀ k m, tget k s.nodes = some m → (k ∈ roots ↔ m.parent = some i ∧ m.parentDev = none
            ∧ overlaps (n.page + ((t.gval r).toNat / 4096 - n.vpage)) (t.gval (gAfter r 1)).toNat m.page m.pages = true)))))
  ∧ (∀ s u t y d r op, (op = .unmap y d r ∨ op = .unmapSelf y d r) → Goes s u t [.g r, .g (gAfter r 1)] [.g d] → t.prog = .none →
    ((t.gval r).toNat % 4096 ≠ 0 → Traps op s u t .misaligned 0 (t.gval r))
    ∧ ((t.gval r).toNat % 4096 = 0 → ((t.gval (gAfter r 1)).toNat = 0 ∨ 2 ^ 32 < (t.gval (gAfter r 1)).toNat) → Traps op s u t .illegal 0 t.pc)
    ∧ ((t.gval r).toNat % 4096 = 0 → 1 ≤ (t.gval (gAfter r 1)).toNat → (t.gval (gAfter r 1)).toNat ≤ 2 ^ 32 → (t.gval r).toNat < 2 ^ 48 →
      Traps op s u t .unmapped 0 (t.gval r)))
  ∧ (∀ s u t y d, Goes s u t [] [.g d] → t.prog = .none → (∃ k, 0 < k ∧ k < 2 ^ 20 ∧ tget k s.spaces = none) →
    ∃ s1 k, SendsFor (.spnew y d) y s s1 u t d s.nextId ∧ 0 < k ∧ k < 2 ^ 20 ∧ tget k s.spaces = none
      ∧ tget k s1.spaces = some { tenant := (callerOf s t).2, deleted := false } ∧ (∀ j, j ≠ k → tget j s1.spaces = tget j s.spaces)
      ∧ tget s.nextId s1.pending = some { uid := u, dest := .g d false, bytes := leBytes 8 (k * 2 ^ 32), bad := none, kf := syKf y, node := none, slot := none })
  ∧ (∀ s u t y d r, Goes s u t [.g r] [.g d] → t.prog = .none →
    (2 ^ 20 ≤ (t.gval r).toNat → Traps (.spdel y d r) s u t .illegal 0 t.pc)
    ∧ ((t.gval r).toNat < 2 ^ 20 →
      ((tget (t.gval r).toNat s.spaces = none ∨ t.gval r = 0) → Answers (.spdel y d r) y s u t d 8)
      ∧ (∀ x, tget (t.gval r).toNat s.spaces = some x → t.gval r ≠ 0 →
        (x.deleted = true → Answers (.spdel y d r) y s u t d 8)
        ∧ (x.deleted = false → x.tenant ≠ (callerOf s t).2 → (callerOf s t).2 ≠ 0 → Answers (.spdel y d r) y s u t d 7)
        ∧ (x.deleted = false → (x.tenant = (callerOf s t).2 ∨ (callerOf s t).2 = 0) →
          ((∃ e ∈ s.contexts, e.2.space = (t.gval r).toNat ∧ e.2.st ≠ .dead) → Answers (.spdel y d r) y s u t d 9)
          ∧ ((∀ e ∈ s.contexts, e.2.space = (t.gval r).toNat → e.2.st = .dead) →
            (filterBusy s = true → Answers (.spdel y d r) y s u t d 5)
            ∧ (filterBusy s = false → ∃ s1 w, SendsFor (.spdel y d r) y s s1 u t d s.nextId ∧ tget s.nextId s1.wds = some w
              ∧ w.space = some (t.gval r).toNat ∧ w.dest = .reg u (.g d false) (syKf y)
              ∧ tget (t.gval r).toNat s1.spaces = some { x with deleted := true }))))))
  ∧ (∀ s u t y d r id, Goes s u t [.g r, .g (gAfter r 1)] [.g d] → t.prog = .sent id → Landed s id →
    Retires (.unmap y d r) s s u t t ∧ Retires (.unmapSelf y d r) s s u t t ∧ Retires (.spnew y d) s s u t t ∧ Retires (.spdel y d r) s s u t t)

/-- R112: `mprobe` fills gD with the rights, depth, tenant, withdrawal and remaining pages that a translation of the page would find now,
and with 0 where no node covers it or the address lies outside translated space; it changes nothing else. Under keep-full the agent waits
at the instruction until the word is there (R69). -/
def Obligations.Probes : Prop :=
  (∀ s u t y d a id, Goes s u t [.g a] [.g d] → t.prog = .sent id → Landed s id → Retires (.mprobe y d a) s s u t t)
  ∧ ∀ s u t y d a, Goes s u t [.g a] [.g d] → t.prog = .none →
    (((t.gval a).toNat < 2 ^ 48 ∨ 2 ^ 56 ≤ (t.gval a).toNat) → Answers (.mprobe y d a) y s u t d 0)
    ∧ (2 ^ 48 ≤ (t.gval a).toNat → (t.gval a).toNat < 2 ^ 56 →
      (findNode s (callerOf s t).1 ((t.gval a).toNat / 4096) = none → Answers (.mprobe y d a) y s u t d 0)
      ∧ (∀ i n, findNode s (callerOf s t).1 ((t.gval a).toNat / 4096) = some (i, n) → n.depth < 16 → n.tenant < 2 ^ 12 →
        Answers (.mprobe y d a) y s u t d (n.rights.toNat + n.depth * 2 ^ 8 + 2 ^ 12 + (if marked s i then 2 ^ 13 else 0) + n.tenant * 2 ^ 16
          + min (n.vpage + n.pages - (t.gval a).toNat / 4096) (2 ^ 32 - 1) * 2 ^ 32)))

/-- The course of a withdrawal. Each station installs its entry; once all have, or 600 cycles after the cut, the sweep takes the nodes in
their order and counts them, and their children stay withdrawn; a cut message marks all its nodes in one step; acknowledgements are
awaited for at most 2^16 cycles, after which the peer is LOST, and how many nodes a peer swept is a free value (log 15); and when nothing
is left, and no access translated before the cuts is on its way, the count fills the register, and the entry is free (R17, R102, R113 to
R119). -/
def Obligations.WithdrawalCourse : Prop :=
  (∀ s w st x, tget w s.wds = some x → x.entry = true → st ∈ x.uncut → (∀ c, x.dest ≠ .kill c) →
    ∃ s1, exec (.localCut w st) s = .next s1 ∧ tget w s1.wds = some { x with uncut := x.uncut.filter (· != st) } ∧ s1.nodes = s.nodes)
  ∧ (∀ s w x i rest, tget w s.wds = some x → x.left = i :: rest →
    ((x.entry = true ∧ (x.uncut = [] ∨ x.started + 600 ≤ s.time)) ∨ (x.holds = true ∧ ∀ c, x.dest ≠ .kill c)) →
    ∃ s1, exec (.sweep w) s = .next (killGoesOn s1 x.dest) ∧ tget i s1.nodes = none
      ∧ (∀ j, j ≠ i → tget j s1.nodes = (tget j s.nodes).map fun n => if n.parent = some i ∧ n.parentDev = none then { n with withdrawn := true } else n)
      ∧ tget w s1.wds = some { x with left := rest, swept := x.swept ++ [i], count := x.count + 1 })
  ∧ (∀ s w x, tget w s.wds = some x → x.uncut ≠ [] → s.time < x.started + 600 → x.holds = false → exec (.sweep w) s = .next s)
  ∧ (∀ s dev is, is ≠ [] → (∀ i ∈ is, ∃ n, tget i s.nodes = some n ∧ n.parentDev = some dev ∧ n.withdrawn = false) →
    (∀ e ∈ s.nodes, tget e.1 s.nodes = some e.2) →
    (anyPort s = true → ∃ s1 w, exec (.remoteCut dev is) s = .next s1
      ∧ (∀ i n, tget i s.nodes = some n → tget i s1.nodes = some (if i ∈ is then { n with withdrawn := true } else n))
      ∧ tget s.nextId s1.wds = some w ∧ w.dest = .peer dev ∧ w.holds = decide (64 ≤ filterUsed s)
      ∧ w.left = (is.map (subtree s 16)).flatten)
    ∧ (anyPort s = false → exec (.remoteCut dev is) s = .next s))
  ∧ (∀ s w x dev, tget w s.wds = some x → (∀ c, x.dest ≠ .kill c) →
    ((anyPort s = true ∧ ∃ e ∈ x.acks, e.1 = dev) → ∃ n, n ≤ 2 ^ 24 ∧
      exec (.cutAck w dev) s = .next { s with
        draws := s.draws + 1, wds := tput w { x with acks := x.acks.eraseP fun e => e.1 == dev, count := x.count + n } s.wds })
    ∧ ((anyPort s = false ∨ ∀ e ∈ x.acks, e.1 ≠ dev) → exec (.cutAck w dev) s = .next s))
  ∧ (∀ s w x dev, tget w s.wds = some x → (∀ c, x.dest ≠ .kill c) →
    ((∃ e ∈ x.acks, e.1 = dev ∧ e.2 + 2 ^ 16 ≤ s.time) → ∃ s1, exec (.cutAckTimeout w dev) s = .next s1
      ∧ tget w s1.wds = some { x with acks := x.acks.filter fun e => e.1 != dev } ∧ (s1.peer dev).st = .lost)
    ∧ ((∀ e ∈ x.acks, e.1 = dev → s.time < e.2 + 2 ^ 16) → exec (.cutAckTimeout w dev) s = .next s))
  ∧ (∀ s w x u d kf t, tget w s.wds = some x → x.dest = .reg u (.g d false) kf → x.space = none → x.left = [] →
    (x.uncut = [] ∨ x.started + 600 ≤ s.time) → x.acks = [] →
    (∀ k ∈ x.waits, tget k s.wds = none) → sweptInFlight s x = false → tget u s.threads = some t →
    ∃ s1 t1, exec (.withdrawalComplete w) s = .next s1 ∧ tget w s1.wds = none ∧ tget u s1.threads = some t1
      ∧ t1.g.get d = GReg.ofWord (w64 (min x.count (2 ^ 32 - 1) * 2 ^ 32)))
  ∧ (∀ s w x, tget w s.wds = some x →
    (x.left ≠ [] ∨ x.acks ≠ [] ∨ sweptInFlight s x = true ∨ (x.uncut ≠ [] ∧ s.time < x.started + 600 ∧ x.holds = false)) →
    exec (.withdrawalComplete w) s = .next s)

/-! ### System registers, time and the steward (R70 to R75, R328 to R331, R334, R338, R387, R396, R397, R403) -/

/-- `sysr` reads each register of R70 zero-extended; a selector that names none is ILLEGAL (R70 to R74, R396). `sysw` writes the register
that its selector names, with the value rules of R72 and R73; a bad value, a read-only register and a selector that names none are
ILLEGAL, and at thread level the trap registers and `errqhead` are PRIVILEGE (R70 to R75, R397). -/
def Obligations.SystemRegisters : Prop :=
  (
    (∀ s u t y d, Goes s u t [] [.g d] →
      Writes (.sysr y 0x00 d) s u t d (w64 t.fflags.toNat) ∧ Writes (.sysr y 0x01 d) s u t d (w64 t.frm.toNat)
      ∧ Writes (.sysr y 0x02 d) s u t d (w64 t.lfsr.toNat) ∧ Writes (.sysr y 0x03 d) s u t d (w64 t.mxweight.toNat)
      ∧ Writes (.sysr y 0x04 d) s u t d (w64 t.stepwin.toNat) ∧ Writes (.sysr y 0x08 d) s u t d (w64 t.pool)
      ∧ Writes (.sysr y 0x09 d) s u t d (w64 (epOf s t).toNat) ∧ Writes (.sysr y 0x10 d) s u t d t.tvec
      ∧ Writes (.sysr y 0x11 d) s u t d t.tcause ∧ Writes (.sysr y 0x12 d) s u t d t.taddr ∧ Writes (.sysr y 0x13 d) s u t d t.tresume
      ∧ Writes (.sysr y 0x20 d) s u t d (w64 t.ocsel.toNat))
    ∧ (∀ s u t y d x, Goes s u t [] [.g d] → s.ctx? t.cid = some x → t.cid < 2 ^ 16 → x.tenant < 2 ^ 12 →
      Writes (.sysr y 0x0A d) s u t d (w64 (t.cid + x.tenant * 2 ^ 16)) ∧ Writes (.sysr y 0x18 d) s u t d x.errqhead
      ∧ Writes (.sysr y 0x22 d) s u t d (w64 x.ocsat.toNat)
      ∧ (∀ k : Fin 13, t.ocsel.toNat = k.val → Writes (.sysr y 0x21 d) s u t d (x.counters.get k))
      ∧ (13 ≤ t.ocsel.toNat → Writes (.sysr y 0x21 d) s u t d 0))
    ∧ (∀ s u t y d, ∀ n : Fin 256, Goes s u t [] [.g d] →
      n.val ∉ [0x00, 0x01, 0x02, 0x03, 0x04, 0x08, 0x09, 0x0A, 0x10, 0x11, 0x12, 0x13, 0x18, 0x20, 0x21, 0x22] →
      Traps (.sysr y n d) s u t .illegal 0 t.pc))
  ∧ (
    (∀ s u t y r, Goes s u t [.g r] [] →
      ((t.gval r).toNat < 2 ^ 6 → Retires (.sysw y 0x00 r) s s u t { t with fflags := BitVec.ofNat 6 (t.gval r).toNat })
      ∧ (2 ^ 6 ≤ (t.gval r).toNat → Traps (.sysw y 0x00 r) s u t .illegal 0 t.pc)
      ∧ ((t.gval r).toNat ≤ 4 → Retires (.sysw y 0x01 r) s s u t { t with frm := BitVec.ofNat 3 (t.gval r).toNat })
      ∧ (4 < (t.gval r).toNat → Traps (.sysw y 0x01 r) s u t .illegal 0 t.pc)
      ∧ (0 < (t.gval r).toNat → (t.gval r).toNat < 2 ^ 32 → Retires (.sysw y 0x02 r) s s u t { t with lfsr := BitVec.ofNat 32 (t.gval r).toNat })
      ∧ (t.gval r = 0 → Retires (.sysw y 0x02 r) s s u t { t with lfsr := 1 })
      ∧ (2 ^ 32 ≤ (t.gval r).toNat → Traps (.sysw y 0x02 r) s u t .illegal 0 t.pc)
      ∧ (0 < (t.gval r).toNat → (t.gval r).toNat < 16 → Retires (.sysw y 0x03 r) s s u t { t with mxweight := BitVec.ofNat 4 (t.gval r).toNat })
      ∧ (((t.gval r).toNat = 0 ∨ 16 ≤ (t.gval r).toNat) → Traps (.sysw y 0x03 r) s u t .illegal 0 t.pc)
      ∧ ((t.gval r).toNat < 2 ^ 32 → Retires (.sysw y 0x04 r) s s u t { t with stepwin := BitVec.ofNat 32 (t.gval r).toNat })
      ∧ (2 ^ 32 ≤ (t.gval r).toNat → Traps (.sysw y 0x04 r) s u t .illegal 0 t.pc)
      ∧ Retires (.sysw y 0x10 r) s s u t { t with tvec := w64 ((t.gval r).toNat - (t.gval r).toNat % 2) }
      ∧ ((t.gval r).toNat < 16 → Retires (.sysw y 0x20 r) s s u t { t with ocsel := BitVec.ofNat 4 (t.gval r).toNat })
      ∧ (16 ≤ (t.gval r).toNat → Traps (.sysw y 0x20 r) s u t .illegal 0 t.pc)
      ∧ (t.level ≠ .thread →
        ((t.gval r).toNat % 2 ^ 31 < 2 ^ 24 → (t.gval r).toNat < 2 ^ 32 → Retires (.sysw y 0x11 r) s s u t { t with tcause := t.gval r })
        ∧ Retires (.sysw y 0x12 r) s s u t { t with taddr := t.gval r } ∧ Retires (.sysw y 0x13 r) s s u t { t with tresume := t.gval r }
        ∧ ∀ x, s.ctx? t.cid = some x → Retires (.sysw y 0x18 r) s (s.setCtx t.cid { x with errqhead := t.gval r }) u t t))
    ∧ (∀ s u t y r, Issues s u t → t.level = .thread → ∀ n : Fin 256, n.val ∈ [0x11, 0x12, 0x13, 0x18] →
      Traps (.sysw y n r) s u t .privilege 0 t.pc)
    ∧ (∀ s u t y r, ∀ n : Fin 256, Goes s u t [.g r] [] →
      n.val ∉ [0x00, 0x01, 0x02, 0x03, 0x04, 0x10, 0x11, 0x12, 0x13, 0x18, 0x20] → Traps (.sysw y n r) s u t .illegal 0 t.pc))

/-- `flags` reads `fflags` and clears the bits asked for; `ctrr` reads device time; `tret` goes on at `tresume`, and in a fault run is
ILLEGAL; `errq` reads the queue's tail once its agent's own work is performed or its failure's record written; `sleep` ends at once for 0
and else when device time has come, and in a handler is HANDLER_BLOCK (R47, R328, R334, R338, R387, R403). -/
def Obligations.FlagsTimeAndSleep : Prop :=
  (∀ s u t y d r, Goes s u t [.g r] [.g d] →
    ((t.gval r).toNat < 2 ^ 6 → Retires (.flags y d r) s s u t
      ({ t with fflags := t.fflags &&& ~~~BitVec.ofNat 6 (t.gval r).toNat }.setG d (w64 t.fflags.toNat)))
    ∧ (2 ^ 6 ≤ (t.gval r).toNat → Traps (.flags y d r) s u t .illegal 0 t.pc))
  ∧ (∀ s u t y d, Goes s u t [] [.g d] → Writes (.ctrr y d) s u t d (w64 s.time))
  ∧ (∀ s u t y, Issues s u t → (t.level ≠ .handler → exec (.tret y) s = .next (retireTo s u t t.tresume))
    ∧ (t.level = .handler → Traps (.tret y) s u t .illegal 0 t.pc))
  ∧ (∀ s u t y d x, Goes s u t [] [.g d] → s.ctx? t.cid = some x →
    (lateRecord s u = false → (∀ e ∈ s.accs, e.2.uid ≠ u) → (∀ e ∈ s.msgs, e.2.uid ≠ u) → Writes (.errq y d) s u t d (w64 x.eqtail))
    ∧ (((∃ e ∈ s.msgs, e.2.uid = u) ∨ lateRecord s u = true) → exec (.errq y d) s = .next (s.setThread u { t with status := .blocked .accesses })))
  ∧ (∀ s u t y r, Goes s u t [.g r] [] → t.kind = .thread →
    (t.gval r = 0 → Retires (.sleep y r) s s u t t)
    ∧ (t.gval r ≠ 0 → exec (.sleep y r) s = .next (s.setThread u { t with
        status := .blocked .sleep, prog := .sleeping (s.time + (t.gval r).toNat) (t.pc + w64 (Instr.sleep y r).len) })))
  ∧ (∀ s u t y r, Issues s u t → t.kind ≠ .thread → Traps (.sleep y r) s u t .handlerBlock 0 t.pc)
  ∧ (∀ s u t till next, tget u s.threads = some t → t.status = .blocked .sleep → t.prog = .sleeping till next → t.heldByHalt = false →
    (till ≤ s.time → ∃ s1 t1, exec (.sleepWake u) s = .next s1 ∧ tget u s1.threads = some t1 ∧ t1.status = .ready ∧ t1.pc = next ∧ t1.g = t.g)
    ∧ (s.time < till → exec (.sleepWake u) s = .next s))

/-- The steward's instructions at any other level are PRIVILEGE before any other check. `keyroll` starts the roll of a tenant, or answers
why not, a running roll before all else (log 58); `taddr` after its MISALIGNED is the address (log 9). `ctxsv` is ILLEGAL until the
context's issue has ended, then waits for what is still on its way to its cores (log 34) and saves it: every thread of it becomes a frame,
its cores are freed and it is halted, or with too small an extent it is killed. `ctxld` restores one from a complete extent that can be
read, once its cores are free, and kills it where a seal of the extent fails (log 40) (R71, R135, R302, R308, R329 to R331). -/
def Obligations.StewardInstructions : Prop :=
  (∀ s u t y d r, Issues s u t → t.level ≠ .steward →
    Traps (.keyrollInstruction y d r) s u t .privilege 0 t.pc ∧ Traps (.ctxsv y r) s u t .privilege 0 t.pc
    ∧ Traps (.ctxld y r) s u t .privilege 0 t.pc)
  ∧ (∀ s u t y d r, Goes s u t [.g r, .g (gAfter r 1)] [.g d] → t.level = .steward →
    (2 ^ 12 ≤ (t.gval r).toNat → Traps (.keyrollInstruction y d r) s u t .illegal 0 t.pc)
    ∧ ((t.gval r).toNat < 2 ^ 12 → (t.gval (gAfter r 1)).toNat % 32 ≠ 0 →
      Traps (.keyrollInstruction y d r) s u t .misaligned 0 (t.gval (gAfter r 1)))
    ∧ ((t.gval r).toNat < 2 ^ 12 → (t.gval (gAfter r 1)).toNat % 32 = 0 →
      ((s.tenant (t.gval r).toNat).roll.isSome = true → Writes (.keyrollInstruction y d r) s u t d 1)
      ∧ ((s.tenant (t.gval r).toNat).roll = none → tenantInUse s (t.gval r).toNat = false → Writes (.keyrollInstruction y d r) s u t d 2)
      ∧ ((s.tenant (t.gval r).toNat).roll = none → tenantInUse s (t.gval r).toNat = true → (s.tenant (t.gval r).toNat).kgen = 0xFFFF →
        Writes (.keyrollInstruction y d r) s u t d 3)
      ∧ ((s.tenant (t.gval r).toNat).roll = none → tenantInUse s (t.gval r).toNat = true → (s.tenant (t.gval r).toNat).kgen ≠ 0xFFFF →
        ∃ s1, Retires (.keyrollInstruction y d r) s s1 u t (t.setG d 0) ∧ (s1.tenant (t.gval r).toNat).roll = some (.steward (t.gval (gAfter r 1)))
          ∧ (s1.tenant (t.gval r).toNat).kgen = (s.tenant (t.gval r).toNat).kgen ∧ s1.mem = s.mem)))
  ∧ (∀ s u t y r, Goes s u t [.g r] [] → t.level = .steward → (2 ^ 16 ≤ (t.gval r).toNat ∨ s.ctx? (t.gval r).toNat = none) →
    Traps (.ctxsv y r) s u t .illegal 0 t.pc ∧ Traps (.ctxld y r) s u t .illegal 0 t.pc)
  ∧ (∀ s u t y r x l, Goes s u t [.g r] [] → t.level = .steward → (t.gval r).toNat < 2 ^ 16 → s.ctx? (t.gval r).toNat = some x →
    x.ladder = some l →
    (saveStopped s (t.gval r).toNat = false → Traps (.ctxsv y r) s u t .illegal 0 t.pc)
    ∧ (saveStopped s (t.gval r).toNat = true → saveReady s (t.gval r).toNat = false → ∃ s1 t1, exec (.ctxsv y r) s = .next s1
      ∧ tget u s1.threads = some t1 ∧ t1.pc = t.pc ∧ t1.g = t.g ∧ (∃ w, t1.status = .blocked w) ∧ s1.mem = s.mem ∧ s1.contexts = s.contexts)
    ∧ (saveReady s (t.gval r).toNat = true → saveFits s (t.gval r).toNat x = true →
      ∃ s1 x1 v, Retires (.ctxsv y r) s s1 u t t ∧ s1.ctx? (t.gval r).toNat = some x1 ∧ x1.st = .halted v ∧ v.trigger = l.trigger
        ∧ v.cores = heldCores s (t.gval r).toNat ∧ v.frames = (agentsOf s (t.gval r).toNat).map Prod.fst
        ∧ (∀ c ∈ v.cores, (s1.core c).ctx = none) ∧ (∀ w ∈ v.frames, tget w s1.threads = none))
    ∧ (saveReady s (t.gval r).toNat = true → saveFits s (t.gval r).toNat x = false → x.st ≠ .dead →
      ∃ s1, Retires (.ctxsv y r) s s1 u t t ∧ ∀ x1, s1.ctx? (t.gval r).toNat = some x1 → x1.st = .dead))
  ∧ (∀ s u t y r x v, Goes s u t [.g r] [] → t.level = .steward → (t.gval r).toNat < 2 ^ 16 → s.ctx? (t.gval r).toNat = some x →
    x.st = .halted v →
    (memByte s.mem x.savebase ≠ 1 → Traps (.ctxld y r) s u t .illegal 0 t.pc)
    ∧ (memByte s.mem x.savebase = 1 → restoreReady s (t.gval r).toNat v = false →
      exec (.ctxld y r) s = .next (s.setThread u { t with status := .blocked .engine }))
    ∧ (memByte s.mem x.savebase = 1 → restoreReady s (t.gval r).toNat v = true → extentBad s x v.frames.length = false →
      (extentFill s x v).1 = true →
      ∃ s1 x1, Retires (.ctxld y r) s s1 u t t ∧ s1.ctx? (t.gval r).toNat = some x1 ∧ x1.st = .running ∧ x1.ladder = none)
    ∧ (memByte s.mem x.savebase = 1 → restoreReady s (t.gval r).toNat v = true → (extentFill s x v).1 = false →
      ∃ s1, Retires (.ctxld y r) s s1 u t t ∧ ∀ x1, s1.ctx? (t.gval r).toNat = some x1 → x1.st = .dead))

/-! ### Host registers and commands (R217, R218, R221, R229, R231, R237, R244, R254 to R256, R428) -/

/-- A `cmdgo` while a command runs is discarded and sets `lost`, which a write of 1 clears; the end of a command clears `busy`, writes
`status` and `result` and signals vector 0; a code of no command is BAD_CMD; a read of `fltq` gives the oldest notice, or 0, pops it and
clears `ovf`; a write of `window` is kept, byte for byte, and a read of `cmdgo` gives 0 (R6, R254 to R256). A command whose operand names
no context of the function's partition is NO_RIGHT, whether or not such a context exists, but for the PF's CTX_DESTROY, HALT, KILL, RESUME
and TIMERS; the PF's own commands are NO_RIGHT for a VF; in recovery a context command is BAD_STATE (R255, R256). -/
def Obligations.HostRegistersAndRights : Prop :=
  (
    (∀ s fn, (s.fn fn).cmd ≠ none →
      exec (.cmdgoWhileBusy fn) s = .next (s.setFn fn { s.fn fn with lost := true })
      ∧ ∀ cid, ∀ i ∈ ([.halt fn cid, .kill fn cid, .resume fn cid, .timers fn cid, .ctxDestroy fn cid, .queueOpen fn cid, .queueClose fn cid,
          .errqAck fn cid, .keyroll fn cid, .jobOpen fn cid, .jobClose fn cid, .report fn cid, .composition fn cid, .quote fn cid, .cert fn cid,
          .peerRead fn cid, .partDefine fn cid] : List Instr), exec i s = .next (s.setFn fn { s.fn fn with lost := true }))
    ∧ (∀ s fn w, (w.getLsbD 16 = true → exec (.cmdstLostClear fn w) s = .next (s.setFn fn { s.fn fn with lost := false }))
      ∧ (w.getLsbD 16 = false → exec (.cmdstLostClear fn w) s = .next s))
    ∧ (∀ s fn c, (s.fn fn).cmd = some c → c.done = true → ∃ s1, exec (.commandEnd fn) s = .next s1 ∧ (s1.fn fn).cmd = none
      ∧ (s1.fn fn).status = BitVec.ofNat 8 c.status ∧ (s1.fn fn).result = BitVec.ofNat 32 c.result
      ∧ (s1.fn fn).msix0 = (s.fn fn).msix0 + 1 ∧ (s1.fn fn).window = (s.fn fn).window ∧ ∀ m, m ≠ fn → s1.fn m = s.fn m)
    ∧ (∀ s fn code cid, Idle s fn → ¬(1 ≤ code.toNat ∧ code.toNat ≤ 0x11) → ¬(0x20 ≤ code.toNat ∧ code.toNat ≤ 0x23) →
      EndsWith (.badCmd fn code cid) s (running s fn code.toNat cid) fn .badCmd 0)
    ∧ (∀ s fn, ∃ s1, exec (.fltqRead fn) s = .next s1 ∧ (s1.fn fn).notices = (s.fn fn).notices.tail ∧ (s1.fn fn).ovf = false
      ∧ ((s.fn fn).notices = [] → (s1.fn fn).fltq = 0)
      ∧ (∀ c k rest, (s.fn fn).notices = (c, k) :: rest →
        (s1.fn fn).fltq = w64 (c % 2 ^ 16 + k % 2 ^ 16 * 2 ^ 16 + 2 ^ 32 + if (s.fn fn).ovf then 2 ^ 33 else 0))
      ∧ ∀ m, m ≠ fn → s1.fn m = s.fn m)
    ∧ (∀ s fn, barRead s fn 0x10 = 0)
    ∧ (∀ s fn off w, 0x100 ≤ off → off + 8 ≤ 0x200 → ∃ s1, exec (.registerWrite fn off w) s = .next s1 ∧ winWord s1 fn (off - 0x100) = w
      ∧ (∀ k, k < 256 → (k < off - 0x100 ∨ off - 0x100 + 8 ≤ k) → winBytes s1 fn k 1 = winBytes s fn k 1)))
  ∧ (
    (∀ s fn cid, Idle s fn → fn ≠ 0 → (s.ctx? cid.toNat = none ∨ ∃ x, s.ctx? cid.toNat = some x ∧ x.part ≠ (s.fn fn).part) →
      ∀ e ∈ ([(.ctxDestroy fn cid, 0x02), (.queueOpen fn cid, 0x03), (.queueClose fn cid, 0x04), (.halt fn cid, 0x05), (.kill fn cid, 0x06),
        (.resume fn cid, 0x07), (.timers fn cid, 0x08), (.report fn cid, 0x0C), (.errqAck fn cid, 0x10)] : List (Instr × Nat)),
        EndsWith e.1 s (running s fn e.2 cid) fn .noRight 0)
    ∧ (∀ s cid x, Idle s 0 → s.ctx? cid.toNat = some x → x.part ≠ (s.fn 0).part →
      ∀ e ∈ ([(.queueOpen 0 cid, 0x03), (.queueClose 0 cid, 0x04), (.report 0 cid, 0x0C), (.errqAck 0 cid, 0x10)] : List (Instr × Nat)),
        EndsWith e.1 s (running s 0 e.2 cid) 0 .noRight 0)
    ∧ (∀ s fn cid, Idle s fn → fn ≠ 0 → ∀ e ∈ ([(.partDefine fn cid, 0x20), (.peerRead fn cid, 0x21)] : List (Instr × Nat)),
        EndsWith e.1 s (running s fn e.2 cid) fn .noRight 0)
    ∧ (∀ s fn cid, (s.fn fn).cmd = none → s.boot = 2 →
      ∀ e ∈ ([(.ctxDestroy fn cid, 0x02), (.queueOpen fn cid, 0x03), (.queueClose fn cid, 0x04), (.halt fn cid, 0x05), (.kill fn cid, 0x06),
        (.resume fn cid, 0x07), (.timers fn cid, 0x08), (.keyroll fn cid, 0x09), (.jobOpen fn cid, 0x0A), (.jobClose fn cid, 0x0B),
        (.report fn cid, 0x0C), (.composition fn cid, 0x0D), (.errqAck fn cid, 0x10), (.partDefine fn cid, 0x20)] : List (Instr × Nat)),
        EndsWith e.1 s (running s fn e.2 cid) fn .badState 0))

/-- CTX_CREATE makes a context of the partition's tenant, Running, with what its operands give, in a new space or the named one, and with
a save extent of the size of R221; its ID is the result and its space stands in the window (R221, R237, R256). That a number is unused and
that firmware finds room are premises; which ID is taken is a free value (log 15). TIMERS replaces the four timers, and refuses a `kill`
below 2^16; ERRQ_ACK sets `errqhead` within the queue; RESUME needs a context halted on a trigger of the host's, and waits for its
restore; HALT of a running context starts the ladder with trigger 3, and of a halted one is over; KILL and CTX_DESTROY of a dead context
are over, and the second frees the ID (R229, R244, R256). KILL of a context that runs or is halted ends it at once: it is dead, no thread,
transfer or fork of it is left and its queues are fenced; CTX_DESTROY does the same, and frees the ID when the kill is over (R231,
R256). -/
def Obligations.ContextLife : Prop :=
  (
    ∀ s fn cid f p, Idle s fn → OfPart s fn p → createBad s fn = false →
      (winNum s fn 0 8 = 0 ∨ ∃ x, tget (winNum s fn 0 8) s.spaces = some x ∧ x.tenant = p.tenant) →
      f.ok = true → extentFree s p f.n (extentSize s (s.fn fn).part / 4096) = true → keysSpent s p.tenant (extentSize s (s.fn fn).part / 4096) = false →
      (∃ n, n < 0xFFFF ∧ tget n s.contexts = none) → (∃ n, 0 < n ∧ n < 2 ^ 20 ∧ tget n s.spaces = none) →
      ∃ s1 c x sp, exec (.ctxCreate fn cid f) s = .next s1 ∧ Done s1 fn .ok c ∧ s.ctx? c = none ∧ s1.ctx? c = some x
        ∧ InWindow s1 fn 0 (leBytes 8 sp) ∧ (winNum s fn 0 8 ≠ 0 → sp = winNum s fn 0 8) ∧ (winNum s fn 0 8 = 0 → tget sp s.spaces = none)
        ∧ (x.part, x.tenant, x.space, x.fn, x.st) = ((s.fn fn).part, p.tenant, sp, fn, .running)
        ∧ (x.ovbase, x.ovcfg, x.ladrep, x.fhentry, x.eqbase, x.eqcfg)
          = (winWord s fn 0x08, winWord s fn 0x10, winWord s fn 0x30, winWord s fn 0x40, winWord s fn 0x48, winWord s fn 0x50)
        ∧ (x.grace, x.kill, x.wdog, x.hang) = (winNum s fn 0x18 4, winNum s fn 0x1C 4, winNum s fn 0x20 8, winNum s fn 0x28 4)
        ∧ (x.savebase, x.savesize) = (f.n * 4096, extentSize s (s.fn fn).part))
  ∧ (
    (∀ s fn cid x, Idle s fn → MayAct s fn cid x true →
      (2 ^ 16 ≤ winNum s fn 4 4 → EndsWith (.timers fn cid) s ((running s fn 0x08 cid).setCtx cid.toNat { x with
        grace := winNum s fn 0 4, kill := winNum s fn 4 4, wdog := winNum s fn 8 8, hang := winNum s fn 0x10 4 }) fn .ok 0)
      ∧ (winNum s fn 4 4 < 2 ^ 16 → EndsWith (.timers fn cid) s (running s fn 0x08 cid) fn .badOperand 0)
      ∧ ((∀ v, x.st ≠ .halted v) → EndsWith (.resume fn cid) s (running s fn 0x07 cid) fn .badState 0)
      ∧ (∀ v l, x.st = .halted v → x.ladder = some l →
        (v.trigger = 0 → EndsWith (.resume fn cid) s (running s fn 0x07 cid) fn .badState 0)
        ∧ (v.trigger ≠ 0 → exec (.resume fn cid) s = .next ((running s fn 0x07 cid).setCtx cid.toNat
            { x with ladder := some { l with answers := l.answers ++ [fn] } })))
      ∧ (∀ v, x.st = .halted v → EndsWith (.halt fn cid) s (running s fn 0x05 cid) fn .ok 0)
      ∧ (x.st = .running → x.ladder = none → x.grace ≠ 0 → ∃ s1, exec (.halt fn cid) s = .next s1
        ∧ s1.ctx? cid.toNat = some { x with ladder := some (Ladder.begin x 3 s.time [fn]), seq := x.seq + 1 } ∧ s1.threads = s.threads)
      ∧ (x.st = .dead → x.ladder = none → EndsWith (.halt fn cid) s (running s fn 0x05 cid) fn .ok 0
        ∧ EndsWith (.kill fn cid) s (running s fn 0x06 cid) fn .ok 0
        ∧ ∃ s1, EndsWith (.ctxDestroy fn cid) s s1 fn .ok 0 ∧ s1.ctx? cid.toNat = none))
    ∧ (∀ s fn cid x, Idle s fn → MayAct s fn cid x false →
      ((x.eqtail + 2 ^ 64 - winNum s fn 0 8) % 2 ^ 64 ≤ 2 ^ (x.eqcfg.toNat % 32) → EndsWith (.errqAck fn cid) s
        ((running s fn 0x10 cid).setCtx cid.toNat { x with errqhead := winWord s fn 0 }) fn .ok (x.eqtail % 2 ^ 32))
      ∧ (2 ^ (x.eqcfg.toNat % 32) < (x.eqtail + 2 ^ 64 - winNum s fn 0 8) % 2 ^ 64 →
        EndsWith (.errqAck fn cid) s (running s fn 0x10 cid) fn .badOperand 0)))
  ∧ (
    ∀ s fn cid x, Idle s fn → MayAct s fn cid x true → x.st ≠ .dead →
      (∃ s1 x1, exec (.kill fn cid) s = .next s1 ∧ s1.ctx? cid.toNat = some x1 ∧ x1.st = .dead ∧ (x1.devq = [] ∧ x1.ovq = [])
        ∧ (∀ e ∈ s1.threads, e.2.cid ≠ cid.toNat) ∧ (∀ e ∈ s1.saved, e.2.cid ≠ cid.toNat) ∧ (∀ e ∈ s1.xfers, e.2.cid ≠ cid.toNat)
        ∧ (∀ e ∈ s1.forks, e.2.cid ≠ cid.toNat) ∧ (∀ e ∈ s1.queues, e.2.cid = cid.toNat → e.2.fenced = true))
      ∧ ∃ s1, exec (.ctxDestroy fn cid) s = .next s1 ∧ (∀ e ∈ s1.threads, e.2.cid ≠ cid.toNat)
        ∧ (∀ e ∈ s1.queues, e.2.cid = cid.toNat → e.2.fenced = true) ∧ (∀ x1, s1.ctx? cid.toNat = some x1 → x1.st = .dead ∧ x1.ladder ≠ none))

/-- QUEUE_OPEN: a first opening sets the head count, the tail and the tail register to 0; a reopening keeps the first two, clears the
fence and checks the register's value; a descriptor against R217 is BAD_OPERAND; QUEUE_CLOSE fences. A write of a tail register is held,
and of an open queue it moves the tail, or fences it with QUEUE_OVERRUN (R217, R218, R256). MEM_COPY moves its words one after another up
to the first one that fails: into the context's space from host memory, each word set F, or out of it; with the last word moved it is OK,
else BAD_OPERAND with the offset of the first byte not moved; a misshapen operand is BAD_OPERAND before anything moves (R256, R429). -/
def Obligations.WorkQueues : Prop :=
  (
    (∀ s fn cid x p j, Idle s fn → MayAct s fn cid x false → OfPart s fn p → winNum s fn 0 8 = j →
      (p.qcount ≤ j ∨ descriptorBad s fn cid = true → EndsWith (.queueOpen fn cid) s (running s fn 0x03 cid) fn .badOperand 0)
      ∧ (j < p.qcount → descriptorBad s fn cid = false →
        ∃ s1, exec (.queueOpen fn cid) s = .next s1 ∧ Done s1 fn .ok 0
          ∧ (tget (p.qfirst + j) s.queues = none →
            tget (p.qfirst + j) s1.queues = some (describedQueue s fn cid 0 0) ∧ tailReg s1 fn j = 0)
          ∧ ∀ q, tget (p.qfirst + j) s.queues = some q →
            ((tailReg s fn j + 2 ^ 32 - q.head) % 2 ^ 32 ≤ 2 ^ bitsOf (winNum s fn 0x10 8) 0 5 →
              ((q.tail + 2 ^ 32 - tailReg s fn j) % 2 ^ 32 = 0 ∨ 2 ^ 31 < (q.tail + 2 ^ 32 - tailReg s fn j) % 2 ^ 32) →
              tget (p.qfirst + j) s1.queues = some (describedQueue s fn cid q.head (tailReg s fn j)))
            ∧ (2 ^ bitsOf (winNum s fn 0x10 8) 0 5 < (tailReg s fn j + 2 ^ 32 - q.head) % 2 ^ 32 →
              tget (p.qfirst + j) s1.queues = some { describedQueue s fn cid q.head q.tail with fenced := true }))
      ∧ (j < p.qcount → ∃ s1, exec (.queueClose fn cid) s = .next s1 ∧ Done s1 fn .ok 0
        ∧ ∀ q, tget (p.qfirst + j) s.queues = some q → tget (p.qfirst + j) s1.queues = some { q with fenced := true })
      ∧ (p.qcount ≤ j → EndsWith (.queueClose fn cid) s (running s fn 0x04 cid) fn .badOperand 0))
    ∧ (∀ s fn p j (w : Word), OfPart s fn p → j < p.qcount → ∃ s1, exec (.tailWrite fn j w) s = .next s1
      ∧ tget j (s1.fn fn).tails = some (w64 (w.toNat % 2 ^ 32))
      ∧ (tget (p.qfirst + j) s.queues = none → s1.queues = s.queues)
      ∧ ∀ q, tget (p.qfirst + j) s.queues = some q →
        ((q.opened = false ∨ q.fenced = true) → s1.queues = s.queues)
        ∧ (q.opened = true → q.fenced = false →
          ((w.toNat % 2 ^ 32 + 2 ^ 32 - q.head) % 2 ^ 32 ≤ 2 ^ q.lsz →
            ((q.tail + 2 ^ 32 - w.toNat % 2 ^ 32) % 2 ^ 32 = 0 ∨ 2 ^ 31 < (q.tail + 2 ^ 32 - w.toNat % 2 ^ 32) % 2 ^ 32) →
            tget (p.qfirst + j) s1.queues = some { q with tail := w.toNat % 2 ^ 32 })
          ∧ ((2 ^ q.lsz < (w.toNat % 2 ^ 32 + 2 ^ 32 - q.head) % 2 ^ 32
              ∨ (1 ≤ (q.tail + 2 ^ 32 - w.toNat % 2 ^ 32) % 2 ^ 32 ∧ (q.tail + 2 ^ 32 - w.toNat % 2 ^ 32) % 2 ^ 32 ≤ 2 ^ 31)) →
            tget (p.qfirst + j) s1.queues = some { q with fenced := true }))))
  ∧ (
    (∀ s fn cid f x n m place node, Idle s fn → MayAct s fn cid x false → winNum s fn 0 8 = 0 → winNum s fn 0x08 8 % 8 = 0 →
      winNum s fn 0x18 8 = 8 * n → 0 < n → n ≤ 2 ^ 21 → f.ok = true → m ≤ n → Copies s x (winWord s fn 0x08) m place node →
      (m < n → copyPlace s x (winWord s fn 0x08 + w64 (8 * m)) = .nowhere) → Memory.wf s.mem = true →
      ∃ s1, exec (.memCopyToDevice fn cid f) s = .next s1 ∧ Done s1 fn (if m = n then .ok else .badOperand) (if m = n then 0 else 8 * m)
        ∧ (∀ k, k < m → memBytes s1.mem (place k) 8 = memBytes s.hostMem (winNum s fn 0x10 8 + 8 * k) 8)
        ∧ (∀ a, (∀ k, k < m → a < place k ∨ place k + 8 ≤ a) → memByte s1.mem a = memByte s.mem a)
        ∧ (s.accs = [] → ∀ k, k < m → lostWord s (place k / 8) = false → s1.word (place k / 8) = .full) ∧ s1.hostMem = s.hostMem)
    ∧ (∀ s fn cid f x n m place node, Idle s fn → MayAct s fn cid x false → winNum s fn 0 8 = 1 → winNum s fn 0x08 8 % 8 = 0 →
      winNum s fn 0x18 8 = 8 * n → 0 < n → n ≤ 2 ^ 21 → f.ok = true → m ≤ n → Copies s x (winWord s fn 0x08) m place node →
      (∀ k, k < m → touchesPoison s (place k) 8 = false) →
      (m < n → copyPlace s x (winWord s fn 0x08 + w64 (8 * m)) = .nowhere) → Memory.wf s.hostMem = true →
      ∃ s1, exec (.memCopyToHost fn cid f) s = .next s1 ∧ Done s1 fn (if m = n then .ok else .badOperand) (if m = n then 0 else 8 * m)
        ∧ (∀ k, k < m → memBytes s1.hostMem (winNum s fn 0x10 8 + 8 * k) 8 = memBytes s.mem (place k) 8)
        ∧ (∀ a, (a < winNum s fn 0x10 8 ∨ winNum s fn 0x10 8 + 8 * m ≤ a) → memByte s1.hostMem a = memByte s.hostMem a) ∧ s1.mem = s.mem)
    ∧ (∀ s fn cid f x, Idle s fn → MayAct s fn cid x false →
      (winNum s fn 0x08 8 % 8 ≠ 0 ∨ winNum s fn 0x18 8 % 8 ≠ 0 ∨ winNum s fn 0x18 8 = 0 ∨ 2 ^ 24 < winNum s fn 0x18 8) →
      (winNum s fn 0 8 % 2 = 0 → EndsWith (.memCopyToDevice fn cid f) s (running s fn 0x11 cid) fn .badOperand 0)
      ∧ (winNum s fn 0 8 % 2 = 1 → EndsWith (.memCopyToHost fn cid f) s (running s fn 0x11 cid) fn .badOperand 0)))

/-! ### Copies, keys, jobs, evidence, partitions, boot (R135, R252, R256 to R258, R261 to R271, R428 to R430) -/

/-- KEYROLL starts a roll of the partition's tenant, or is over with the status of the roll; a finished roll leaves the tenant's next
generation with that generation's mark, or none where the tenant has neither a page nor a context, and ends the command with its record in
the window (R135, R136, R256). A dirty seal takes its next version under its owner's current generation, raises the owner's mark, and its
L2 counter rises with it; a seal at its last version, and one of a page that is not dirty, is not written back. A station's own fill
verifies a page, or sets `failed` for good; with fewer than 512 seals in the station's cache none leaves it (R1, R127 to R129, R134,
R137). That a writeback takes its whole tree path with it is the model's choice (log 16). -/
def Obligations.KeyRollsAndSeals : Prop :=
  (
    (∀ s fn cid p, Idle s fn → OfPart s fn p →
      ((s.tenant p.tenant).roll ≠ none → EndsWith (.keyroll fn cid) s (running s fn 0x09 cid) fn .ok 1)
      ∧ ((s.tenant p.tenant).roll = none → (s.tenant p.tenant).kgen = 0xFFFF → EndsWith (.keyroll fn cid) s (running s fn 0x09 cid) fn .ok 3)
      ∧ ((s.tenant p.tenant).roll = none → (s.tenant p.tenant).kgen ≠ 0xFFFF → ∃ s1, exec (.keyroll fn cid) s = .next s1
        ∧ s1.tenant p.tenant = { s.tenant p.tenant with roll := some (.host fn), hnew := 0 } ∧ ∃ c, (s1.fn fn).cmd = some c ∧ c.done = false))
    ∧ (∀ s t fn, (s.tenant t).roll = some (.host fn) → (s.fn fn).cmd ≠ none → ∃ s1, exec (.rollComplete t) s = .next s1
        ∧ Done s1 fn .ok 0 ∧ (s1.tenant t).roll = none
        ∧ ((t = 0 ∨ (∃ e ∈ s.owner, e.2 = t) ∨ ∃ e ∈ s.contexts, e.2.tenant = t) →
          (s1.tenant t).kgen = (s.tenant t).kgen + 1 ∧ (s1.tenant t).high = (s.tenant t).hnew)
        ∧ (t ≠ 0 → (∀ e ∈ s.owner, e.2 ≠ t) → (∀ e ∈ s.contexts, e.2.tenant ≠ t) → (s1.tenant t).kgen = 0 ∧ (s1.tenant t).high = 0)
        ∧ winNum s1 fn 0 4 = 1 ∧ winNum s1 fn 16 8 = t % 2 ^ 64 ∧ winNum s1 fn 24 8 = s.time % 2 ^ 64 ∧ s1.mem = s.mem
        ∧ (∀ pg x, pg < 2 ^ 36 → tget pg s.seals = some x → (∀ y, (pg, y) ∈ s.seals → y = x) → s.ownerOf pg = t → pg % 786432 < stationSeals →
          underNew s pg = false → x.failed = false → (x.cached = true ∨ x.broken = false) → ∃ y, tget pg s1.seals = some y ∧ y.ver = 0 ∧ y.frozen = false
            ∧ y.gpar = decide (((s.tenant t).kgen + 1) % 2 = 1)))
    ∧ (∀ s t, (s.tenant t).roll = none → exec (.rollComplete t) s = .next s))
  ∧ (
    (∀ s pg, (s.seal pg).dirty = true → sealFrozen s pg = false → underNew s pg = false → (s.tenant (s.ownerOf pg)).due = false →
      max (s.tenant (s.ownerOf pg)).high ((s.seal pg).ver + 1) < 2 ^ 48 - 2 ^ 32 →
      ∃ s1, exec (.sealWriteback pg) s = .next s1 ∧ s1.mem = s.mem
        ∧ s1.seal pg = { s.seal pg with ver := (s.seal pg).ver + 1, gpar := decide ((s.tenant (s.ownerOf pg)).kgen % 2 = 1)
                                        frozen := decide ((s.seal pg).ver + 1 = 2 ^ 48 - 1), dirty := false, broken := false }
        ∧ (s1.tenant (s.ownerOf pg)).high = max (s.tenant (s.ownerOf pg)).high ((s.seal pg).ver + 1)
        ∧ tget (l1Of pg) s1.l2 = some (min ((tget (l1Of pg) s.l2).getD s.l2base + 1) (2 ^ 48 - 1))
        ∧ ∀ q, q ≠ pg → s1.seal q = s.seal q)
    ∧ (∀ s pg, ((s.seal pg).dirty = false ∨ sealFrozen s pg = true) → (s.tenant (s.ownerOf pg)).due = false → exec (.sealWriteback pg) s = .next s)
    ∧ (∀ s pg, ((s.seal pg).failed = true → exec (.ownAccordFill pg) s = .next s)
      ∧ ((s.seal pg).failed = false → (s.seal pg).cached = true → exec (.ownAccordFill pg) s = .next s)
      ∧ ((s.seal pg).failed = false → (s.seal pg).cached = false → ((s.seal pg).broken = true ∨ keysHeld s pg = false) →
        exec (.ownAccordFill pg) s = .next (s.setSeal pg { s.seal pg with failed := true }))
      ∧ ((s.seal pg).failed = false → (s.seal pg).cached = false → (s.seal pg).broken = false → keysHeld s pg = true →
        (∃ s1, exec (.ownAccordFill pg) s = .next s1 ∧ (s1.seal pg).cached = true ∧ s1.mem = s.mem)
        ∧ ((s.seals.filter fun e => e.1 / 786432 == pg / 786432 && e.2.cached).length < 512 →
          exec (.ownAccordFill pg) s = .next (s.setSeal pg { s.seal pg with cached := true })))))

/-- A job: JOB_OPEN's refusals, and the job that it opens; JOB_CLOSE closes it; COMPOSITION writes its record of 64 + 64 N bytes;
PEER_READ writes a state for each device number (R252, R261, R264). A report is 608 bytes in host memory: its kind and finality, this
device's identity, the context, the host's nonce, the counters, `ocsat` and the time, signed over its first 512 bytes; a quote has kind 2,
and zeros for what belongs to a context; CERT writes the chain (R267 to R270). -/
def Obligations.JobsAndEvidence : Prop :=
  (
    (∀ s fn cid p ds, Idle s fn → OfPart s fn p →
      ds = (List.range (winNum s fn 0x10 8)).map (fun i => leNat (memBytes s.hostMem (winNum s fn 0x18 8 + 2 * i) 2)) →
      (openJob s (s.fn fn).part ≠ none → EndsWith (.jobOpen fn cid) s (running s fn 0x0A cid) fn .badState 0)
      ∧ (openJob s (s.fn fn).part = none → (∃ e ∈ s.threads, partOf s e.2.cid = (s.fn fn).part ∧ e.2.inHandler = false) → EndsWith (.jobOpen fn cid) s (running s fn 0x0A cid) fn .badState 0)
      ∧ (openJob s (s.fn fn).part = none → (∀ e ∈ s.threads, partOf s e.2.cid = (s.fn fn).part → e.2.inHandler = true) →
        ((winNum s fn 0x10 8 = 0 ∨ 320 < winNum s fn 0x10 8 ∨ s.device ∉ ds ∨ ¬ ds.Nodup) →
          EndsWith (.jobOpen fn cid) s (running s fn 0x0A cid) fn .badOperand 0)
        ∧ (0 < winNum s fn 0x10 8 → winNum s fn 0x10 8 ≤ 320 → s.device ∈ ds → ds.Nodup →
          ((∃ d ∈ ds, (s.peer d).st ≠ .live) → EndsWith (.jobOpen fn cid) s (running s fn 0x0A cid) fn .noResource 0)
          ∧ ((∀ d ∈ ds, (s.peer d).st = .live) → ∃ s1 j, exec (.jobOpen fn cid) s = .next s1 ∧ Done s1 fn .ok 0
            ∧ tget (s.fn fn).part s1.jobs = some j ∧ j.members = ds ∧ j.id = winBytes s fn 0 16 ∧ j.openedAt = s.time ∧ j.closed = false
            ∧ j.lost = [] ∧ j.exchanged = []))))
    ∧ (∀ s fn cid p, Idle s fn → OfPart s fn p →
      (∀ j, tget (s.fn fn).part s.jobs = some j → j.closed = false → ∃ s1, exec (.jobClose fn cid) s = .next s1 ∧ Done s1 fn .ok 0
        ∧ tget (s.fn fn).part s1.jobs = some { j with closed := true })
      ∧ (∀ j, tget (s.fn fn).part s.jobs = some j → j.members.length = j.idents.length → j.members.length < 2 ^ 16 → Memory.wf s.hostMem = true →
        ∃ s1 bs, exec (.composition fn cid) s = .next s1 ∧ Done s1 fn .ok (64 + 64 * j.members.length)
          ∧ DmaWritten s s1 (winNum s fn 0 8) bs ∧ bs.length = 64 + 64 * j.members.length
          ∧ leNat (bs.take 8) = j.members.length + (if j.closed then 2 ^ 16 else 0) + (if j.lost = [] then 0 else 2 ^ 17)
          ∧ (bs.drop 8).take 16 = fixLen 16 j.id
          ∧ ∀ k d, j.members[k]? = some d → leNat ((bs.drop (64 + 64 * k)).take 8) = d % 2 ^ 9
            + (if (tget d j.exchanged).isSome then 2 ^ 9 else 0) + (if d = s.device then 2 ^ 10 else 0) + (if d ∈ j.lost then 2 ^ 11 else 0)))
    ∧ (∀ s cid, Idle s 0 → Memory.wf s.hostMem = true → ∃ s1 bs, exec (.peerRead 0 cid) s = .next s1 ∧ Done s1 0 .ok 0
      ∧ DmaWritten s s1 (winNum s 0 0 8) bs ∧ bs.length = 512 ∧ ∀ d, d < 512 → bs[d]? = some (BitVec.ofNat 8 (s.peer d).st.code)))
  ∧ (
    (∀ s fn cid x, Idle s fn → MayAct s fn cid x false → Memory.wf s.hostMem = true → ∃ s1 bs, exec (.report fn cid) s = .next s1
      ∧ Done s1 fn .ok 0 ∧ DmaWritten s s1 (winNum s fn 0x20 8) bs ∧ bs.length = 608
      ∧ leNat (bs.take 8) = 1 + 2 ^ 16 + (if reportFinal s x then 2 ^ 24 else 0)
      ∧ (bs.drop 0x08).take 48 = identityOf s s.device
      ∧ leNat ((bs.drop 0x38).take 8) = cid.toNat + x.tenant % 2 ^ 12 * 2 ^ 16 + x.part % 2 ^ 6 * 2 ^ 32 + s.device % 2 ^ 9 * 2 ^ 40
      ∧ (bs.drop 0x50).take 32 = winBytes s fn 0 32
      ∧ (∀ k : Fin 13, leNat ((bs.drop (0x130 + 8 * k.val)).take 8) = (x.counters.get k).toNat)
      ∧ leNat ((bs.drop 0x198).take 8) = x.ocsat.toNat ∧ leNat ((bs.drop 0x1D8).take 8) = s.time % 2 ^ 64
      ∧ bs.drop 0x200 = fixLen 96 (Config.sign (sha384 (bs.take 0x200))))
    ∧ (∀ s fn cid, Idle s fn → Memory.wf s.hostMem = true → ∃ s1 bs, exec (.quote fn cid) s = .next s1 ∧ Done s1 fn .ok 0
      ∧ DmaWritten s s1 (winNum s fn 0x20 8) bs ∧ bs.length = 608 ∧ leNat (bs.take 8) = 1 + 2 * 2 ^ 16
      ∧ (bs.drop 0x08).take 48 = identityOf s s.device ∧ (bs.drop 0x50).take 32 = winBytes s fn 0 32
      ∧ (bs.drop 0x130).take 168 = List.replicate 168 0 ∧ leNat ((bs.drop 0x1D8).take 8) = s.time % 2 ^ 64
      ∧ bs.drop 0x200 = fixLen 96 (Config.sign (sha384 (bs.take 0x200))))
    ∧ (∀ s fn cid, Idle s fn → Memory.wf s.hostMem = true → ∃ s1, exec (.cert fn cid) s = .next s1 ∧ Done s1 fn .ok Config.certChain.length
      ∧ DmaWritten s s1 (winNum s fn 0 8) Config.certChain))

/-- PART_DEFINE defines a partition, binds its function and extends M3, and refuses what R258 names; FW_LOAD is for recovery; a device
reset clears everything inside the device and boots into firmware at steward level, or ends in recovery, as the image's signature says
(R71, R257, R258, R270, R271); that a slice length of 0, no queue and a share above 256 are BAD_OPERAND is read from the ranges that R258
states (log 19). That a reset empties memory and keeps the host's is log 47's choice, and the one thread of firmware log 48's. -/
def Obligations.PartitionsAndBoot : Prop :=
  (∀ s cid num p vf, Idle s 0 → num = bitsOf (winNum s 0 0x30 8) 0 6 → (p, vf) = partitionOf (winBytes s 0 0 56) →
    (partBad s num p vf = false → partBusy s num p = false → ∃ s1, exec (.partDefine 0 cid) s = .next s1 ∧ Done s1 0 .ok 0
      ∧ tget num s1.parts = some p ∧ (s1.fn vf).part = num ∧ (∀ k, k ≠ num → tget k s1.parts = tget k s.parts)
      ∧ s1.measures[3]? = some (sha384 (s.measures.getD 3 (List.replicate 48 0) ++ sha384 (winBytes s 0 0 56))))
    ∧ ((p.qcount = 0 ∨ 16384 < p.qcount ∨ 16384 < p.qfirst + p.qcount ∨ 256 < p.share ∨ p.slice = 0
        ∨ 256 < p.share + ((s.parts.filter fun e => e.1 != num).map fun e => e.2.share).sum ∨ partReserved (winBytes s 0 0 56) = true ∨ (num = 0 ∧ (p.tenant ≠ 0 ∨ vf ≠ 0)) ∨ (num ≠ 0 ∧ vf = 0)
        ∨ (p.sliced = true ∧ p.islands ≠ [])
        ∨ ∃ e ∈ s.parts, e.1 ≠ num ∧ (e.2.tenant = p.tenant ∨ (∃ i ∈ e.2.islands, i ∈ p.islands) ∨ (∃ g ∈ e.2.groups, g ∈ p.groups)
          ∨ (∃ n, e.2.qfirst ≤ n ∧ n < e.2.qfirst + e.2.qcount ∧ p.qfirst ≤ n ∧ n < p.qfirst + p.qcount) ∨ boundFn e.2 = vf ∨ (p.sliced = true ∧ e.2.sliced = true))) →
      EndsWith (.partDefine 0 cid) s (running s 0 0x20 cid) 0 .badOperand 0)
    ∧ (partBad s num p vf = false → ((∃ e ∈ s.contexts, e.1 ≠ 0xFFFF ∧ e.2.part = num)
        ∨ ((∃ e ∈ s.contexts, ∃ o, tget e.2.part s.parts = some o ∧ o.sliced = true ∧ heldCores s e.1 ≠ [])
          ∧ ∃ i ∈ p.islands, ∀ e ∈ s.parts, i ∉ e.2.islands)) →
      EndsWith (.partDefine 0 cid) s (running s 0 0x20 cid) 0 .badState 0))
  ∧ (∀ s cid f, Idle s 0 → EndsWith (.fwLoad 0 cid f) s (running s 0 0x22 cid) 0 .badState 0)
  ∧ (∀ s cid f, (s.fn 0).cmd = none → s.boot = 2 → ∃ s1, exec (.fwLoad 0 cid f) s = .next s1
    ∧ (64 * 2 ^ 20 < winNum s 0 8 8 → s1.boot = 2 ∧ s1.why = 3)
    ∧ (winNum s 0 8 8 ≤ 64 * 2 ^ 20 →
      (Config.imageVerifies (memBytes s.hostMem (winNum s 0 0 8) (winNum s 0 8 8)) = true → s1.boot = 1 ∧ s1.why = 0 ∧ Done s1 0 .ok 0)
      ∧ (Config.imageVerifies (memBytes s.hostMem (winNum s 0 0 8) (winNum s 0 8 8)) = false → s1.boot = 2 ∧ s1.why = 2)))
  ∧ (∀ s f, ∃ s1, exec (.deviceReset f) s = .next s1 ∧ s1.mem = [] ∧ (∀ e ∈ s1.threads, e.2.cid = 0xFFFF ∧ e.2.level = .steward) ∧ s1.launches = [] ∧ s1.hostMem = s.hostMem
    ∧ (f.ok = true → s1.measures[0]? = some (sha384 (List.replicate 48 0 ++ sha384 f.bytes))
      ∧ (Config.imageVerifies f.bytes = true → s1.boot = 1 ∧ s1.why = 0 ∧ s1.threads.length = 1)
      ∧ (Config.imageVerifies f.bytes = false → s1.boot = 2 ∧ s1.why = 2 ∧ s1.threads = []))
    ∧ (f.ok = false → s1.boot = 2 ∧ s1.why = 1 ∧ s1.threads = []))

/-- ROOT_SPACE runs `map`, `grant`, `unmap`, `unmap.self`, `spnew`, `spdel` and `mprobe` in space 0 as tenant 0: the status word fills the
window and its low half the result; a precise trap is BAD_OPERAND with its cause; a node that `grant` gives another tenant is scrubbed
under that tenant, and a `map` into another tenant's space scrubs the pages that tenant 0 does not own; each refusal of both has its code
(R105, R106, R112, R113, R136, R256, R430). -/
def Obligations.RootSpace : Prop :=
  (∀ s cid q i n x, RootRuns s 0 → quadOf false (rootOperand s 0 0) (rootOperand s 0 1) (rootOperand s 0 2) (rootOperand s 0 3) 0 = .ok q →
    findNode s 0 q.src = some (i, n) →
    (n.vpage + n.pages < q.src + q.pages → RootAnswers (.rootSpaceMap 0 cid) s (1 + 2 ^ 8))
    ∧ (q.src + q.pages ≤ n.vpage + n.pages → marked s i = true → RootAnswers (.rootSpaceMap 0 cid) s 3)
    ∧ (q.src + q.pages ≤ n.vpage + n.pages → marked s i = false → n.rights.getLsbD 4 = true → q.rights &&& n.rights.toNat = q.rights →
      q.dev = s.device → tget q.space s.spaces = some x → x.deleted = false → x.tenant = 0 → n.depth < 15 → s.nodes.length < 16777216 →
      (∀ e ∈ s.nodes, e.2.space = q.space → e.2.vpage + e.2.pages ≤ q.dst ∨ q.dst + q.pages ≤ e.2.vpage) →
      ∃ s1, exec (.rootSpaceMap 0 cid) s = .next s1 ∧ Done s1 0 .ok ((n.depth + 1) * 2 ^ 16) ∧ s1.mem = s.mem
        ∧ tget s.nextId s1.nodes = some {
            space := q.space, vpage := q.dst, pages := q.pages, dev := n.dev, page := n.page + (q.src - n.vpage)
            rights := BitVec.ofNat 5 q.rights, parent := some i, parentDev := none, depth := n.depth + 1, tenant := n.tenant, withdrawn := false }
        ∧ ∀ j, j ≠ s.nextId → tget j s1.nodes = tget j s.nodes))
  ∧ (∀ s cid q i n x, RootRuns s 1 → quadOf true (rootOperand s 0 0) (rootOperand s 0 1) (rootOperand s 0 2) (rootOperand s 0 3) 0 = .ok q →
    findNode s 0 q.src = some (i, n) → q.src = n.vpage → q.pages = n.pages → marked s i = false → n.rights.getLsbD 4 = true →
    q.dev = s.device → n.dev = s.device → tget q.space s.spaces = some x → x.deleted = false → x.tenant ≠ 0 →
    (∀ e ∈ s.nodes, e.2.space = q.space → e.2.vpage + e.2.pages ≤ q.dst ∨ q.dst + q.pages ≤ e.2.vpage) →
    (keysSpent s x.tenant n.pages = true → RootAnswers (.rootSpaceGrant 0 cid) s 10)
    ∧ (FarFromAging s x.tenant n.pages → n.depth < 16 →
      ∃ s1, exec (.rootSpaceGrant 0 cid) s = .next s1 ∧ tget i s1.nodes = some { n with space := q.space, vpage := q.dst, tenant := x.tenant }
        ∧ (∀ j, j ≠ i → tget j s1.nodes = tget j s.nodes)
        ∧ (∃ p, tget s.nextId s1.pending = some p ∧ p.dest = .host 0 ∧ p.bytes = leBytes 8 (n.depth * 2 ^ 16))
        ∧ Scrubbed s1 (pageRange n.page n.pages) x.tenant ∧ Unscrubbed s s1 (pageRange n.page n.pages)))
  ∧ (∀ s cid q i n x, RootRuns s 0 → quadOf false (rootOperand s 0 0) (rootOperand s 0 1) (rootOperand s 0 2) (rootOperand s 0 3) 0 = .ok q →
    findNode s 0 q.src = some (i, n) → q.src + q.pages ≤ n.vpage + n.pages → marked s i = false → n.rights.getLsbD 4 = true →
    q.rights &&& n.rights.toNat = q.rights → q.dev = s.device → n.dev = s.device → tget q.space s.spaces = some x → x.deleted = false →
    x.tenant ≠ 0 → n.depth < 15 → s.nodes.length < 16777216 → (∀ e ∈ s.owner, tget e.1 s.owner = some e.2) →
    (∀ e ∈ s.nodes, e.2.space = q.space → e.2.vpage + e.2.pages ≤ q.dst ∨ q.dst + q.pages ≤ e.2.vpage) →
    (keysSpent s 0 (scrubbedBy s (n.page + (q.src - n.vpage)) q.pages).length = true → RootAnswers (.rootSpaceMap 0 cid) s 10)
    ∧ (FarFromAging s 0 (scrubbedBy s (n.page + (q.src - n.vpage)) q.pages).length → ∃ s1, exec (.rootSpaceMap 0 cid) s = .next s1
      ∧ Done s1 0 .ok ((n.depth + 1) * 2 ^ 16)
      ∧ (∃ k c, tget k s1.nodes = some c ∧ c.space = q.space ∧ c.vpage = q.dst ∧ c.pages = q.pages ∧ c.parent = some i ∧ c.tenant = n.tenant)
      ∧ Scrubbed s1 ((pageRange (n.page + (q.src - n.vpage)) q.pages).filter fun p => s.ownerOf p != 0) 0
      ∧ Unscrubbed s s1 ((pageRange (n.page + (q.src - n.vpage)) q.pages).filter fun p => s.ownerOf p != 0)))
  ∧ (∀ s cid (gr : Bool) op q, op = (if gr then Instr.rootSpaceGrant 0 cid else .rootSpaceMap 0 cid) → RootRuns s (if gr then 1 else 0) →
    quadOf gr (rootOperand s 0 0) (rootOperand s 0 1) (rootOperand s 0 2) (rootOperand s 0 3) 0 = .ok q →
    (findNode s 0 q.src = none → RootAnswers op s (1 + 2 ^ 8))
    ∧ ∀ i n, findNode s 0 q.src = some (i, n) →
      (n.vpage + n.pages < q.src + q.pages → RootAnswers op s (1 + 2 ^ 8))
      ∧ (q.src + q.pages ≤ n.vpage + n.pages →
        (marked s i = true → RootAnswers op s 3)
        ∧ (marked s i = false →
          ((n.rights.getLsbD 4 = false ∨ (gr = false ∧ q.rights &&& n.rights.toNat ≠ q.rights)) → RootAnswers op s (1 + 2 * 2 ^ 8))
          ∧ (n.rights.getLsbD 4 = true → gr = true → ¬ (q.src = n.vpage ∧ q.pages = n.pages) → RootAnswers op s (1 + 3 * 2 ^ 8))
          ∧ (n.rights.getLsbD 4 = true → (if gr then q.src = n.vpage ∧ q.pages = n.pages else q.rights &&& n.rights.toNat = q.rights) →
            (q.dev ≠ s.device → (s.peer q.dev).st ≠ .live → RootAnswers op s 8)
            ∧ (q.dev = s.device →
              ((∀ x, tget q.space s.spaces = some x → x.deleted = true) → RootAnswers op s 8)
              ∧ ∀ x, tget q.space s.spaces = some x → x.deleted = false →
                ((∃ e ∈ s.nodes, e.2.space = q.space ∧ e.2.vpage < q.dst + q.pages ∧ q.dst < e.2.vpage + e.2.pages) → RootAnswers op s 2)
                ∧ ((∀ e ∈ s.nodes, e.2.space = q.space → e.2.vpage + e.2.pages ≤ q.dst ∨ q.dst + q.pages ≤ e.2.vpage) → gr = false →
                  (n.depth = 15 → RootAnswers op s 4) ∧ (n.depth < 15 → 16777216 ≤ s.nodes.length → RootAnswers op s 6)))))))
  ∧ (∀ s cid, RootRuns s 0 → (rootOperand s 0 0).toNat % 4096 ≠ 0 → (rootOperand s 0 1).toNat < 2 ^ 34 → RootTraps (.rootSpaceMap 0 cid) s .misaligned)
  ∧ (∀ s cid, RootRuns s 2 →
    ((rootOperand s 0 0).toNat % 4096 ≠ 0 → RootTraps (.rootSpaceUnmap 0 cid) s .misaligned)
    ∧ ((rootOperand s 0 0).toNat % 4096 = 0 → (rootOperand s 0 1).toNat = 0 → RootTraps (.rootSpaceUnmap 0 cid) s .illegal)
    ∧ ∀ first pages, pairOf (rootOperand s 0 0) (rootOperand s 0 1) 0 = .ok (first, pages) →
      (findNode s 0 first = none → RootAnswers (.rootSpaceUnmap 0 cid) s (1 + 2 ^ 8))
      ∧ (∀ i n, findNode s 0 first = some (i, n) → first + pages ≤ n.vpage + n.pages → marked s i = false → s.remotes = [] →
        (∀ e ∈ s.nodes, e.2.parent ≠ some i) → RootAnswers (.rootSpaceUnmap 0 cid) s 0))
  ∧ (∀ s cid first pages i n, RootRuns s 3 → pairOf (rootOperand s 0 0) (rootOperand s 0 1) 0 = .ok (first, pages) →
    findNode s 0 first = some (i, n) → first = n.vpage → pages = n.pages → marked s i = false → tget i s.nodes = some n →
    (filterBusy s = true → RootAnswers (.rootSpaceUnmapSelf 0 cid) s 5)
    ∧ (filterBusy s = false → ∃ s1 w, exec (.rootSpaceUnmapSelf 0 cid) s = .next s1 ∧ tget i s1.nodes = some { n with withdrawn := true }
      ∧ tget s.nextId s1.wds = some w ∧ w.dest = .host 0 ∧ w.count = 0 ∧ w.uncut = List.range 128))
  ∧ (∀ s cid, RootRuns s 4 → (∃ k, 0 < k ∧ k < 2 ^ 20 ∧ tget k s.spaces = none) →
    ∃ s1 k, exec (.rootSpaceSpnew 0 cid) s = .next s1 ∧ 0 < k ∧ k < 2 ^ 20 ∧ tget k s.spaces = none
      ∧ tget k s1.spaces = some { tenant := 0, deleted := false } ∧ Done s1 0 .ok 0 ∧ InWindow s1 0 0 (leBytes 8 (k * 2 ^ 32)))
  ∧ (∀ s cid, RootRuns s 5 → (rootOperand s 0 0).toNat < 2 ^ 20 →
    (tget (rootOperand s 0 0).toNat s.spaces = none → RootAnswers (.rootSpaceSpdel 0 cid) s 8)
    ∧ (∀ x, tget (rootOperand s 0 0).toNat s.spaces = some x → rootOperand s 0 0 ≠ 0 → x.deleted = false →
      ((∃ e ∈ s.contexts, e.2.space = (rootOperand s 0 0).toNat ∧ e.2.st ≠ .dead) → RootAnswers (.rootSpaceSpdel 0 cid) s 9)
      ∧ ((∀ e ∈ s.contexts, e.2.space = (rootOperand s 0 0).toNat → e.2.st = .dead) → filterBusy s = false →
        ∃ s1 w, exec (.rootSpaceSpdel 0 cid) s = .next s1 ∧ tget s.nextId s1.wds = some w ∧ w.dest = .host 0
          ∧ tget (rootOperand s 0 0).toNat s1.spaces = some { x with deleted := true })))
  ∧ (∀ s cid, RootRuns s 6 → 2 ^ 48 ≤ (rootOperand s 0 0).toNat → (rootOperand s 0 0).toNat < 2 ^ 56 →
    (findNode s 0 ((rootOperand s 0 0).toNat / 4096) = none → RootAnswers (.rootSpaceMprobe 0 cid) s 0)
    ∧ (∀ i n, findNode s 0 ((rootOperand s 0 0).toNat / 4096) = some (i, n) → n.depth < 16 → n.tenant < 2 ^ 12 →
      RootAnswers (.rootSpaceMprobe 0 cid) s (n.rights.toNat + n.depth * 2 ^ 8 + 2 ^ 12 + (if marked s i then 2 ^ 13 else 0) + n.tenant * 2 ^ 16
        + min (n.vpage + n.pages - (rootOperand s 0 0).toNat / 4096) (2 ^ 32 - 1) * 2 ^ 32)))

/-! ### Queues, launches and gangs (R12, R33 to R37, R40, R210 to R213, R217 to R226) -/

/-- The dispatcher takes the head record of a queue, whose head count rises: a good record opens a launch with the fields that it gives, a
bad one opens none; a record that cannot be read fences the queue, and under a hold nothing is taken yet; and no queue is taken from out
of turn or beyond its quota. A successor leaves the device queue in the same way, and the overflow ring refills the device queue, oldest
first (R34, R40, R42, R217, R219, R222). -/
def Obligations.RecordsTaken : Prop :=
  (∀ s q x addr bs s2 s3, TakesQueue s q x addr → spaceRead (tookTurn s (partOf s x.cid) q x.prio) x.cid 0 addr 256 = .ok bs s2 →
    writeHead { s2 with queues := tput q { x with head := (x.head + 1) % 2 ^ 32 } s2.queues } q { x with head := (x.head + 1) % 2 ^ 32 } = some s3 →
    (shapeGood s (partOf s x.cid) bs = true ∨ (launchOf s x.cid addr bs (some q) x.prio).donerec = 0) →
    ∃ s1 q1, exec (.recordTake q) s = .next s1 ∧ tget q s1.queues = some q1 ∧ q1.head = (x.head + 1) % 2 ^ 32 ∧ q1.tail = x.tail
      ∧ (shapeGood s (partOf s x.cid) bs = true → tget s.nextId s1.launches = some (launchOf s x.cid addr bs (some q) x.prio))
      ∧ (shapeGood s (partOf s x.cid) bs = false → s1.launches = s.launches))
  ∧ (∀ s q x addr c s2, TakesQueue s q x addr → spaceRead (tookTurn s (partOf s x.cid) q x.prio) x.cid 0 addr 256 = .fail c s2 →
    ∃ s1, exec (.recordTake q) s = .next s1 ∧ tget q s1.queues = some { x with fenced := true } ∧ s1.launches = s.launches)
  ∧ (∀ s q x addr, TakesQueue s q x addr → spaceRead (tookTurn s (partOf s x.cid) q x.prio) x.cid 0 addr 256 = .hold →
    exec (.recordTake q) s = .next s)
  ∧ (∀ s q x, tget q s.queues = some x → (x.opened = false ∨ x.fenced = true ∨ x.tail = x.head ∨ x.quota ≤ outstanding s q ∨ 1024 ≤ s.launches.length) →
    exec (.recordTake q) s = .next s)
  ∧ (∀ s q x, tget q s.queues = some x → isTurn s (partOf s x.cid) q x.prio = false → exec (.recordTake q) s = .next s)
  ∧ (∀ s cid x, s.ctx? cid = some x → isTurn s x.part (deviceQueueNo cid) (bitsOf x.ovcfg.toNat 8 3) = false →
    exec (.deviceQueueTake cid) s = .next s)
  ∧ (∀ s cid x e rest bs s2, s.ctx? cid = some x → x.devq = e :: rest → deviceOpenFor s x = true →
    isTurn s x.part (deviceQueueNo cid) (bitsOf x.ovcfg.toNat 8 3) = true →
    spaceRead ((tookTurn s x.part (deviceQueueNo cid) (bitsOf x.ovcfg.toNat 8 3)).setCtx cid { x with devq := rest }) cid 0 e.addr 256
      = .ok bs s2 → shapeGood s x.part bs = true →
    ∃ s1, exec (.deviceQueueTake cid) s = .next s1 ∧ s1.ctx? cid = some { x with devq := rest }
      ∧ tget s.nextId s1.launches = some (launchOf s cid e.addr bs none (bitsOf x.ovcfg.toNat 8 3)))
  ∧ (∀ s cid x e rest, s.ctx? cid = some x → x.devq = e :: rest →
    (∃ a ∈ s.accs, a.2.uid = e.uid ∧ a.1 < e.after ∧ a.2.kind.writes = true ∧ a.2.phase ≠ .returning) →
    exec (.deviceQueueTake cid) s = .next s)
  ∧ (∀ s cid x e rest, s.ctx? cid = some x → x.ovq = e :: rest →
    (256 ≤ x.devq.length → exec (.overflowMove cid) s = .next s)
    ∧ ∀ bs s2, x.devq.length < 256 → x.st ≠ .dead → spaceRead s cid 0 (ringAddr x x.ovhead) 8 = .ok bs s2 →
      ∃ s1, exec (.overflowMove cid) s = .next s1 ∧ s1.ctx? cid = some { x with
        devq := x.devq ++ [{ e with addr := w64 (leNat bs) }], ovq := rest, ovhead := x.ovhead + 1 })

/-- A gang of this device is placed whole, in one step: each of its threads is resident and Ready in its slot, with the indices and
arguments of the launch; a gang that does not fit, has a lower one that waits and fits, or whose context is under a ladder is not placed;
and islands are reserved for a gang that has waited 2^22 cycles (R33, R35, R36, R224, R226). A held gang is dispatched when every input of
its blocks is ready; with a stale input its block runs no thread, and all its threads count as failed; else it stays held, and while
another held gang of the launch became ready before it. A launch whose threads have all retired, with nothing of it on its way, completes:
its record is written, and its ID is known as completed (R37, R211 to R213). -/
def Obligations.GangsAndCompletion : Prop :=
  (
    (∀ s l g x ps, MayPlace s l g x ps → gangIsHere s (partOf s x.cid) x g = true → x.args.length = 4 →
      (∀ e ∈ s.threads, e.1 < s.nextId) →
      ∃ s1 x1, exec (.gangPlace l g ps) s = .next s1 ∧ tget l s1.launches = some x1 ∧ x1.gang g = .placed
        ∧ x1.alive = x.alive + ps.length ∧ x1.total = x.total + ps.length ∧ x1.started = some (x.started.getD s.time)
        ∧ ∀ k p, ps[k]? = some p → ∃ u t, tget u s1.threads = some t ∧ Begun x l g (g * x.gangSize + k) p t)
    ∧ (∀ s l g x ps, tget l s.launches = some x → (underLadder s x.cid = true ∨ gangsTurn s l g x = false ∨ gangFits s l g x ps = false) →
      exec (.gangPlace l g ps) s = .next s)
    ∧ (∀ s l g x is, tget l s.launches = some x → x.gang g = .waiting → g < x.gangCount →
      ((tget g x.readyAt).getD x.taken + 2 ^ 22 ≤ s.time →
        (∀ i ∈ is, i ∈ partIslands s (partOf s x.cid) ∧ (s.island i).reserved = none) →
        ∃ s1, exec (.gangReserve l g is) s = .next s1 ∧ ∀ i ∈ is, s1.island i = { s.island i with reserved := some (l, g) })
      ∧ (s.time < (tget g x.readyAt).getD x.taken + 2 ^ 22 → exec (.gangReserve l g is) s = .next s)))
  ∧ (
    (∀ s l g x, tget l s.launches = some x → x.gang g = .held → g < x.gangCount →
      (readyBefore s x (max x.taken (readySince (gangInputs s x g))) = false →
        ((∀ b ∈ gangInputs s x g, ∀ v ∈ b, v.verdict ≠ .stale ∧ v.verdict ≠ .notYet) → ∃ s1 x1, exec (.blockDispatch l g) s = .next s1
          ∧ tget l s1.launches = some x1 ∧ (∀ h ∈ gangsOfBlock x g, x1.gang h = .waiting) ∧ x1.failed = x.failed)
        ∧ ((∃ b ∈ gangInputs s x g, ∃ v ∈ b, v.verdict = .stale) → ∃ s1 x1, exec (.blockDispatch l g) s = .next s1
          ∧ tget l s1.launches = some x1 ∧ (∀ h ∈ gangsOfBlock x g, x1.gang h = .dropped)
          ∧ x1.failed = min (x.failed + (gangsOfBlock x g).length * x.gangSize) (2 ^ 32 - 1) ∧ s1.tags = s.tags ∧ s1.threads = s.threads))
      ∧ ((∀ b ∈ gangInputs s x g, ∀ v ∈ b, v.verdict ≠ .stale) → (∃ b ∈ gangInputs s x g, ∃ v ∈ b, v.verdict = .notYet) →
        ∃ n, exec (.blockDispatch l g) s = .next { s with draws := n })
      ∧ (readyBefore s x (max x.taken (readySince (gangInputs s x g))) = true → exec (.blockDispatch l g) s = .next s))
    ∧ (∀ s l x c, tget l s.launches = some x → s.ctx? x.cid = some c → c.st ≠ .dead →
      (∀ s2, launchIdle s l x = true → x.away = false →
        ((x.donerec = 0 ∧ s2 = s) ∨ (x.donerec ≠ 0 ∧ spaceWrite s x.cid 0 x.donerec
          (leBytes 8 ((if x.failed = 0 then 1 else 2) + min x.failed (2 ^ 32 - 1) * 2 ^ 32) ++ leBytes 8 x.retired ++ leBytes 8 x.lid
            ++ leBytes 8 s.time) = .ok [] s2)) →
        ∃ s1 c1, exec (.launchComplete l) s = .next s1 ∧ tget l s1.launches = none ∧ s1.ctx? x.cid = some c1
          ∧ tget x.lid c1.completed = some s.time ∧ s1.mem = s2.mem)
      ∧ ((x.alive ≠ 0 ∨ x.settled ≠ x.gangCount ∨ (∃ e ∈ s.msgs, e.2.launch = some l) ∨ (∃ e ∈ s.xfers, e.2.launch = some l)) →
        exec (.launchComplete l) s = .next s)))

/-! ### The ladder (R76 to R78, R226, R229 to R234, R259) -/

/-- A launch that has run for `wdog` cycles, a context that has retired nothing for `hang` cycles and a used-up slice start the ladder,
with triggers 1, 2 and 0, and not before. Issue ends once every thread has stopped, or when the grace is over; a context that has not
halted by the end of its kill timer is dead (R229, R230, R259). -/
def Obligations.LadderTriggers : Prop :=
  (∀ s l y x t0, tget l s.launches = some y → y.started = some t0 → s.ctx? y.cid = some x → x.st = .running → x.ladder = none → x.grace ≠ 0 →
    (x.wdog ≠ 0 → t0 + y.pausedFor + x.wdog ≤ s.time → ∃ s1, exec (.wdogExpiry l) s = .next s1 ∧ LadderBegins s s1 y.cid 1 x)
    ∧ ((x.wdog = 0 ∨ s.time < t0 + y.pausedFor + x.wdog) → exec (.wdogExpiry l) s = .next s))
  ∧ (∀ s cid x, s.ctx? cid = some x → x.st = .running → x.ladder = none → x.grace ≠ 0 →
    (x.hang ≠ 0 → (∃ e ∈ s.threads, e.2.cid = cid ∧ e.2.inHandler = false) → x.lastRetire + x.hang ≤ s.time →
      ∃ s1, exec (.hangExpiry cid) s = .next s1 ∧ LadderBegins s s1 cid 2 x)
    ∧ ((x.hang = 0 ∨ s.time < x.lastRetire + x.hang ∨ ∀ e ∈ s.threads, e.2.cid = cid → e.2.inHandler = true) →
      exec (.hangExpiry cid) s = .next s))
  ∧ (∀ s p d r cid x, tget p s.parts = some d → d.sliced = true → tget p s.runningSlice = some r → sliceHolder s p = some (cid, x) →
    s.ctx? cid = some x → x.st = .running → x.ladder = none → x.grace ≠ 0 →
    (r.2 + d.slice * 1024 ≤ s.time → (∃ e ∈ workers s p, e.2 ≠ cid) → ∃ s1, exec (.sliceEnd p) s = .next s1 ∧ LadderBegins s s1 cid 0 x)
    ∧ ((s.time < r.2 + d.slice * 1024 ∨ ∀ e ∈ workers s p, e.2 = cid) → exec (.sliceEnd p) s = .next s))
  ∧ (∀ s cid x l, s.ctx? cid = some x → x.st = .running → x.ladder = some l → l.halting = false →
    ((∀ e ∈ agentsOf s cid, e.2.stopped = true) → ∃ s1, exec (.allStopped cid) s = .next s1 ∧ HaltBegun s s1 cid)
    ∧ ((∃ e ∈ agentsOf s cid, e.2.stopped = false) → exec (.allStopped cid) s = .next s)
    ∧ (l.start + l.grace ≤ s.time → ∃ s1, exec (.graceExpiry cid) s = .next s1 ∧ HaltBegun s s1 cid)
    ∧ (s.time < l.start + l.grace → exec (.graceExpiry cid) s = .next s))
  ∧ (∀ s cid x l, s.ctx? cid = some x → x.st = .running → x.ladder = some l →
    (l.start + l.grace + l.kill ≤ s.time → ∃ s1 x1, exec (.killExpiry cid) s = .next s1 ∧ s1.ctx? cid = some x1 ∧ x1.st = .dead
      ∧ (∀ e ∈ s1.threads, e.2.cid ≠ cid) ∧ ∀ e ∈ s1.queues, e.2.cid = cid → e.2.fenced = true)
    ∧ (s.time < l.start + l.grace + l.kill → exec (.killExpiry cid) s = .next s))

/-- A save takes every thread of the context out of the machine with its registers, frees its cores and leaves it halted; a restore gives
every thread back, on its core and in its slot, with what its record in the save extent has, and the context runs; an extent that is
inconsistent, or of which a seal fails, kills the context; and a sliced partition's next context begins its slice when the running one has
halted (R76 to R78, R230, R233, R234, R256, R259, R278). What comes back from the state's own tables and not from the extent, launch and
kind of an agent among it, and the death at a failed seal are log 40's; that RESTORE does nothing in a sliced partition, and the slice of
a context that never ran, are log 50's. -/
def Obligations.SaveAndRestore : Prop :=
  (∀ s cid x l, s.ctx? cid = some x → x.ladder = some l → OneEach s →
    (saveReady s cid = true → saveFits s cid x = true → ∃ s1 x1 v, exec (.saveWritten cid) s = .next s1 ∧ s1.ctx? cid = some x1
      ∧ x1.st = .halted v ∧ v.trigger = l.trigger ∧ v.since = s.time ∧ v.cores = heldCores s cid ∧ (∀ c ∈ v.cores, (s1.core c).ctx = none)
      ∧ (∀ e ∈ s1.threads, e.2.cid ≠ cid)
      ∧ ∀ u t, tget u s.threads = some t →
        (t.cid ≠ cid → ∃ t1, tget u s1.threads = some t1 ∧ SameAgent t t1) ∧ (t.cid = cid → u ∈ v.frames ∧ ∃ t1, tget u s1.saved = some t1 ∧ SameAgent t t1))
    ∧ (saveReady s cid = false → exec (.saveWritten cid) s = .next s))
  ∧ (∀ s cid x l v ps, s.ctx? cid = some x → x.st = .halted v → x.ladder = some l → l.answers ≠ [] → slicedPart s x.part = false → v.trigger ≠ 0 →
    restoreReady s cid v = true → extentBad s x v.frames.length = false → (extentFill s x v).1 = true → Recorded s x v → NoStruckSlots s →
    ∃ s1 x1, exec (.restore cid ps) s = .next s1 ∧ s1.ctx? cid = some x1 ∧ x1.st = .running ∧ x1.ladder = none
      ∧ ∀ u t f, u ∈ v.frames → tget u s.saved = some t → tget u s.frames = some f → (∀ c d a, t.prog ≠ .failing c d a) →
        ∃ t1, tget u s1.threads = some t1 ∧ SameAgent t t1 ∧ t1.pc = t.pc)
  ∧ (∀ s cid x l v ps, s.ctx? cid = some x → x.st = .halted v → x.ladder = some l → l.answers ≠ [] → slicedPart s x.part = false → v.trigger ≠ 0 →
    restoreReady s cid v = true → (extentBad s x v.frames.length = true ∨ (extentFill s x v).1 = false) →
    ∃ s1, exec (.restore cid ps) s = .next s1 ∧ (∀ x1, s1.ctx? cid = some x1 → x1.st = .dead) ∧ ∀ e ∈ s1.threads, e.2.cid ≠ cid)
  ∧ (∀ s cid x l ps, s.ctx? cid = some x → x.ladder = some l → (l.answers = [] ∨ slicedPart s x.part = true) →
    exec (.restore cid ps) s = .next s)
  ∧ (∀ s p d born cid x ps, tget p s.parts = some d → d.sliced = true → sliceOver s p = true → nextWorker s p = some (born, cid) →
    s.ctx? cid = some x →
    (x.st = .running → exec (.nextSliceRestore p ps) s = .next { s with runningSlice := tput p (born, s.time) s.runningSlice })
    ∧ (∀ v, x.st = .halted v → v.trigger = 0 → restoreReady s cid v = true → extentBad s x v.frames.length = false → (extentFill s x v).1 = true →
      ∃ s1 x1, exec (.nextSliceRestore p ps) s = .next s1 ∧ s1.ctx? cid = some x1 ∧ x1.st = .running
        ∧ tget p s1.runningSlice = some (born, s.time)))

/-! ### Peers, seals, islands, channels, errors, retirement and the fabric (R15, R18 to R20, R23, R128 to R134, R162, R164, R246 to R253) -/

/-- A peer's answer performs an access there: a load's data are those of the answer, and a store is over; what its owner finds fails it as
an owner here would. An answer that refuses it leaves it to be tried again, for 2^16 cycles from its first attempt; then it is reported,
and its destination is to be P. A peer silent for 2^16 cycles is LOST, in every open job too; with no live port none is heard (R48, R162,
R164, R251, R252, R262). A port replays, beats and is lost as R250 and R251 say, and its level state follows the fill of the receiver's
buffer with hysteresis; a joining peer that passes its checks is LIVE with its identity and its M0 to M3, and one that fails is DISABLED;
a device that rejoins drops every node whose parent is elsewhere; with no live port nothing of a handshake comes in (R119, R250 to
R253). -/
def Obligations.PeersAnswer : Prop :=
  (
    (∀ s id a p dev key f0 f, tget id s.accs = some a → a.pieces = [p] → p.loc = .peer dev key → p.done = false → a.first = some f0 →
      maySend s id a = true → anyPort s = true →
      (f.ok = true → a.kind = .load → a.dest ≠ .none → (f.parts.getD 0 []).length = p.bytes.length →
        ∃ s1, exec (.remoteAck id f) s = .next s1 ∧ s1.mem = s.mem ∧ tget id s1.accs = some { a with
          phase := .returning, pieces := [{ p with done := true, bytes := f.parts.getD 0 [], bad := none }], first := none, refused := false, nacked := false })
      ∧ (f.ok = true → a.kind = .store → ∃ s1, exec (.remoteAck id f) s = .next s1 ∧ tget id s1.accs = none ∧ s1.mem = s.mem)
      ∧ (f.ok = false → f.n = Cause.poison.code → leNat (f.bytes.take 1) = 0 → a.kind = .load → a.dest ≠ .none →
        ∃ s1, exec (.remoteAck id f) s = .next s1 ∧ s1.mem = s.mem ∧ tget id s1.accs = some { a with
          phase := .returning, pieces := [{ p with done := true, bad := some 0 }], first := none, refused := false, nacked := false })
      ∧ (f.ok = false → peerFinds f.n = none → dropsTaker s a f.n = false → exec (.remoteAck id f) s = .next (flitIn { s with
          accs := tput id { a with refused := true, nacked := true } s.accs })))
    ∧ (∀ s id m f, tget id s.accs = none → tget id s.msgs = some m → m.dev ≠ s.device → mayArrive s m = true → anyPort s = true →
      (f.ok = true → ∃ s1, exec (.remoteAck id f) s = .next s1 ∧ tget id s1.msgs = none)
      ∧ (f.ok = false → f.n = 0 → ∃ s1, exec (.remoteAck id f) s = .next s1 ∧ tget id s1.msgs = none)
      ∧ (f.ok = false → f.n ≠ 0 → exec (.remoteAck id f) s = .next (flitIn { s with
          msgs := tput id { m with first := some (m.first.getD s.time), refused := true, nacked := true } s.msgs })))
    ∧ (∀ s id f, anyPort s = false → exec (.remoteAck id f) s = .next s)
    ∧ (∀ s id a, tget id s.accs = some a →
      (a.refused = true → exec (.nackRetry id) s = .next { s with accs := tput id { a with refused := false } s.accs })
      ∧ (a.refused = false → exec (.nackRetry id) s = .next s)
      ∧ ∀ f0, a.first = some f0 →
        (a.nacked = true → a.kind.isRequest = false → f0 + 2 ^ 16 ≤ s.time → ∃ s1, exec (.remoteTimeout id) s = .next s1
          ∧ ((a.kind.returns = true ∧ a.dest ≠ .none) → ∃ a1, tget id s1.accs = some a1 ∧ a1.phase = .returning
            ∧ a1.failed = some (Cause.remoteTimeout.code, 0))
          ∧ ((a.kind.returns = false ∨ a.dest = .none) → tget id s1.accs = none))
        ∧ ((a.nacked = false ∨ s.time < f0 + 2 ^ 16) → exec (.remoteTimeout id) s = .next s))
    ∧ (∀ s dev, ((∃ e ∈ s.accs, silentAccess s dev e.2 = true) ∨ (∃ e ∈ s.msgs, silentMessage s dev e.2 = true)) →
      ∃ s1, exec (.peerLost dev) s = .next s1 ∧ (s1.peer dev).st = .lost
        ∧ ∀ p j, tget p s.jobs = some j → j.closed = false → dev ∈ j.members → ∃ j1, tget p s1.jobs = some j1 ∧ dev ∈ j1.lost ∧ j1.members = j.members)
    ∧ (∀ s dev, (∀ e ∈ s.accs, silentAccess s dev e.2 = false) → (∀ e ∈ s.msgs, silentMessage s dev e.2 = false) →
      exec (.peerLost dev) s = .next s))
  ∧ (
    (∀ s p, p < 72 → (s.port p).live = true →
      (∃ s1, exec (.flitReplay p) s = .next s1 ∧ s1.port p = { s.port p with replays := (s.port p).replays + 1 })
      ∧ ((s.port p).lastFlit + 2000 ≤ s.time → ∃ s1, exec (.heartbeat p) s = .next s1 ∧ s1.port p = { s.port p with lastFlit := s.time, replays := 0, seq := (s.port p).seq + 1 })
      ∧ (s.time < (s.port p).lastFlit + 2000 → exec (.heartbeat p) s = .next s)
      ∧ ((16 ≤ (s.port p).replays ∨ (s.port p).lastFlit + 8000 ≤ s.time) → ∃ s1, exec (.portLost p) s = .next s1 ∧ (s1.port p).live = false)
      ∧ ((s.port p).replays < 16 → s.time < (s.port p).lastFlit + 8000 → exec (.portLost p) s = .next s)
      ∧ ∀ fill : Fin 9, ∃ s1, exec (.levelStateChange p fill) s = .next s1
        ∧ (7 ≤ fill.val → (s1.port p).level = 2)
        ∧ (fill.val < 7 → (s.port p).level = 2 → (s1.port p).level = if fill.val < 6 then 1 else 2)
        ∧ (fill.val < 4 → (s.port p).level ≠ 2 → (s1.port p).level = 0)
        ∧ (4 < fill.val → fill.val < 7 → (s.port p).level ≠ 2 → (s1.port p).level = 1)
        ∧ (fill.val = 4 → (s.port p).level ≠ 2 → (s1.port p).level = (s.port p).level))
    ∧ (∀ s p, (72 ≤ p ∨ (s.port p).live = false) → exec (.flitReplay p) s = .next s ∧ exec (.heartbeat p) s = .next s ∧ exec (.portLost p) s = .next s)
    ∧ (∀ s dev f, dev ≠ s.device → dev < 512 → anyPort s = true → ∃ s1, exec (.joinHandshake dev f) s = .next s1
      ∧ (f.ok = true → (s1.peer dev).st = .live ∧ (s1.peer dev).ident = f.bytes ∧ (s1.peer dev).measures = f.parts.take 4) ∧ (f.ok = false → (s1.peer dev).st = .disabled)
      ∧ (∀ d, d ≠ dev → s1.peer d = s.peer d)
      ∧ (f.n = 1 → ∀ e ∈ s1.nodes, e.2.parentDev = none) ∧ (f.n ≠ 1 → s1.nodes = s.nodes))
    ∧ (∀ s dev f, anyPort s = false → exec (.joinHandshake dev f) s = .next s))

/-- An operating point changes no result; a gated island is one that no context holds or reaches, and at its power-up every scratchpad
word of its cores holds zero data in state E and its tiles' slots are free; a spare channel changes nothing that software sees, and with
no spare left a failing channel's words are P (R18 to R20, R23). -/
def Obligations.IslandsAndChannels : Prop :=
  (∀ s isl pt, ((s.island isl).gated = false → exec (.operatingPointChange isl pt) s
      = .next { s with islands := tput isl { s.island isl with point := pt } s.islands })
    ∧ ((s.island isl).gated = true → exec (.operatingPointChange isl pt) s = .next s))
  ∧ (∀ s isl, (s.island isl).gated = false → mayGate s isl = true → ∃ s1, exec (.islandGate isl) s = .next s1 ∧ (s1.island isl).gated = true
    ∧ s1.threads = s.threads ∧ ∀ a, (isPoolKey a = false ∨ poolCore a / 32 ≠ isl) → memByte s1.mem a = memByte s.mem a)
  ∧ (∀ s isl, (∃ c, c / 32 = isl ∧ (s.core c).ctx ≠ none) → exec (.islandGate isl) s = .next s)
  ∧ (∀ s isl, (∃ e ∈ s.threads, ∃ x, s.ctx? e.2.cid = some x ∧ isSteward e.2.core = false ∧ clusterOf e.2.core = isl / 8 ∧ isl ∈ partIslands s x.part) → exec (.islandGate isl) s = .next s)
  ∧ (∀ s isl, (s.island isl).gated = true → ∃ s1, exec (.islandPowerUp isl) s = .next s1 ∧ (s1.island isl).gated = false
    ∧ (∀ a, isPoolKey a = true → poolCore a / 32 = isl → memByte s1.mem a = 0 ∧ s1.word (a / 8) = .empty)
    ∧ (∀ a, (isPoolKey a = false ∨ poolCore a / 32 ≠ isl) → memByte s1.mem a = memByte s.mem a)
    ∧ ∀ tile, tile / 4 = isl → (s1.tile tile).slots = [])
  ∧ (∀ s isl, (s.island isl).gated = false → exec (.islandPowerUp isl) s = .next s)
  ∧ (∀ s ch, (s.channel ch).withdrawn = false →
    (0 < sparesLeft s ch → exec (.channelSpare ch) s
      = .next { s with channels := tput ch { s.channel ch with spares := (s.channel ch).spares + 1 } s.channels })
    ∧ (sparesLeft s ch = 0 → exec (.channelSpare ch) s = .next s)
    ∧ (0 < sparesLeft s ch → ∀ ws, ∃ s1, exec (.channelFailure ch ws) s = .next s1 ∧ s1.mem = s.mem
      ∧ (∀ k ∈ ws, isPoolKey (k * 8) = false → channelOf (k * 8) = ch → s1.word k = .poison)
      ∧ ∀ k, k ∉ ws → s1.word k = s.word k)
    ∧ (sparesLeft s ch = 0 → ∀ ws, ∃ s1, exec (.channelFailure ch ws) s = .next s1 ∧ s1.mem = s.mem
      ∧ (∀ k, isPoolKey (k * 8) = false → channelOf (k * 8) = ch → s1.word k = .poison)))

/-- An uncorrectable soft error makes a register or a word P, marks a slot or a seal, frees a tag entry, or is a device error; a planned
retirement loses nothing, and raises the generations of the slots whose threads go on elsewhere and of the handler slot, or with the spare
in use is as a failed one (log 65); a failed one ends every thread of the core, and the new pool is zero data in state P (R15, R133, R246
to R248). -/
def Obligations.ErrorsAndRetirement : Prop :=
  (∀ s u t g, tget u s.threads = some t → ∃ s1 t1, exec (.softError (.greg u g)) s = .next s1 ∧ tget u s1.threads = some t1
    ∧ t1.regSt (.g g) = .poison ∧ (t1.g.get g).val = (t.g.get g).val ∧ (t1.g.get g).det = 2 ∧ ∀ n, n ≠ g → t1.g.get n = t.g.get n)
  ∧ (∀ s u t v, tget u s.threads = some t → ∃ s1 t1, exec (.softError (.vreg u v)) s = .next s1 ∧ tget u s1.threads = some t1
    ∧ t1.regSt (.v v) = .poison ∧ t1.g = t.g ∧ ∀ n, n ≠ v → t1.v.get n = t.v.get n)
  ∧ (∀ s k, lostWord s k = false → ∃ s1, exec (.softError (.word k)) s = .next s1 ∧ s1.word k = .poison ∧ softHere s1 k = true ∧ s1.mem = s.mem
    ∧ ∀ j, j ≠ k → s1.word j = s.word j)
  ∧ (∀ s tile slot y, tget slot (s.tile tile).slots = some y → ∃ s1, exec (.softError (.accSlot tile slot)) s = .next s1
    ∧ tget slot (s1.tile tile).slots = some { y with soft := true, softTold := false })
  ∧ (∀ s pg, exec (.softError (.stored pg)) s = .next (s.setSeal pg { s.seal pg with broken := true }))
  ∧ (∀ s pg, ∃ s1, exec (.softError (.seal pg)) s = .next s1 ∧ (s1.seal pg).failed = true
    ∧ s1.devErrors = s.devErrors ++ [Cause.softError.code])
  ∧ (∀ s tenant obj tile, ∃ s1, exec (.softError (.tag tenant obj tile)) s = .next s1 ∧ tget (tagKey tenant obj tile) s1.tags = none)
  ∧ (∀ s, exec (.softError .other) s = .next { s with devErrors := s.devErrors ++ [Cause.softError.code] })
  ∧ (∀ s c ps, isSteward c = false → (s.island (islandOf c)).spareUsed = false → (s.core c).absent = false →
    ∃ s1, exec (.plannedRetirement c ps) s = .next s1 ∧ (s1.island (islandOf c)).spareUsed = true ∧ s1.threads = s.threads ∧ s1.mem = s.mem
      ∧ s1.words = s.words ∧ (s1.core c).inbox = (s.core c).inbox
      ∧ (OneEach s → (∀ e ∈ s.threads, e.2.inHandler = decide (e.2.slot = 8)) → ∀ k : Fin 9,
        ((k.val = 8 ∨ ∃ e ∈ s.threads, e.2.core = c ∧ e.2.slot = k.val) → (s1.core c).gens.get k = (s.core c).gens.get k + 1)
        ∧ (k.val ≠ 8 → (∀ e ∈ s.threads, e.2.core = c → e.2.slot ≠ k.val) → (s1.core c).gens.get k = (s.core c).gens.get k)))
  ∧ (∀ s c ps, (s.island (islandOf c)).spareUsed = true → exec (.plannedRetirement c ps) s = exec (.failedRetirement c) s)
  ∧ (∀ s c, isSteward c = false → (s.core c).absent = false → ∃ s1, exec (.failedRetirement c) s = .next s1
    ∧ (∀ e ∈ s1.threads, e.2.core ≠ c) ∧ (s1.core c).inbox = [] ∧ (s1.core c).absent = (s.island (islandOf c)).spareUsed
    ∧ (s1.island (islandOf c)).spareUsed = true
    ∧ ∀ k, poolBase c / 8 ≤ k → k < poolBase c / 8 + poolSize / 8 → s1.word k = .poison ∧ memBytes s1.mem (k * 8) 8 = List.replicate 8 0)
end

