-- ==== Sys2Proof/Laws/Owner.lean ====
section
/-! SUPPORT. Everything that a write at its owner can do to the state. -/

namespace Sys2Proof.Machine

open Sys2Proof

/-- The state without what a write at an owner may change: memory and its words, the accesses that wait there, seals and their version
tree, device errors, and the marks of the packages that a job exchanged with. -/
def beyondMemory (s : State) : State :=
  { s with mem := [], hist := [], wclock := 0, accs := [], words := [], softWords := [], seals := [], tenants := [], l2 := [], l3 := [],
           sram := [], draws := 0, devErrors := [], jobs := [] }

/-- A write at an owner leaves everything else, and memory in its canonical form. -/
structure AtOwner (s s1 : State) : Prop where
  rest : beyondMemory s1 = beyondMemory s
  wf : Memory.wf s.mem = true → Memory.wf s1.mem = true

theorem AtOwner.refl (s : State) : AtOwner s s := ⟨rfl, fun h => h⟩

theorem AtOwner.trans {a b c : State} (h : AtOwner a b) (k : AtOwner b c) : AtOwner a c := ⟨k.rest.trans h.rest, fun x => k.wf (h.wf x)⟩

theorem AtOwner.tiles {s s1 : State} (h : AtOwner s s1) : s1.tiles = s.tiles := (congrArg State.tiles h.rest :)
theorem AtOwner.contexts {s s1 : State} (h : AtOwner s s1) : s1.contexts = s.contexts := (congrArg State.contexts h.rest :)
theorem AtOwner.fns {s s1 : State} (h : AtOwner s s1) : s1.fns = s.fns := (congrArg State.fns h.rest :)
theorem AtOwner.threads {s s1 : State} (h : AtOwner s s1) : s1.threads = s.threads := (congrArg State.threads h.rest :)
theorem AtOwner.pending {s s1 : State} (h : AtOwner s s1) : s1.pending = s.pending := (congrArg State.pending h.rest :)

theorem foldl_atOwner {α : Type} (g : State → α → State) (h : ∀ s a, AtOwner s (g s a)) (l : List α) (s : State) : AtOwner s (l.foldl g s) := by
  induction l generalizing s with
  | nil => exact AtOwner.refl s
  | cons a l ih => exact (h s a).trans (ih _)

theorem putBytes_atOwner (s : State) (key : Nat) (bs : List Byte) : AtOwner s (putBytes s key bs) :=
  ⟨rfl, fun h => memPutBytes_wf h key bs⟩

theorem setWord_atOwner (s : State) (k : Nat) (w : WordSt) : AtOwner s (s.setWord k w) := by
  unfold State.setWord
  split
  · exact AtOwner.refl s
  · split <;> exact ⟨rfl, fun h => h⟩

theorem mapAccs_atOwner (s : State) (f : Nat → Access → Access) : AtOwner s (s.mapAccs f) := ⟨rfl, fun h => h⟩

theorem fillWord_atOwner (s : State) (k : Nat) : AtOwner s (fillWord s k) := by
  unfold fillWord
  simp only []
  split
  · exact (mapAccs_atOwner ..).trans (setWord_atOwner ..)
  · exact (mapAccs_atOwner ..).trans ((mapAccs_atOwner ..).trans (setWord_atOwner ..))

theorem poisonWord_atOwner (s : State) (k : Nat) : AtOwner s (poisonWord s k) := (mapAccs_atOwner ..).trans (setWord_atOwner ..)

theorem raisePaths_atOwner (s : State) (l : List Nat) : AtOwner s (raisePaths s l) := ⟨rfl, id⟩
theorem setSeal_atOwner (s : State) (pg : Nat) (x : Seal) : AtOwner s (s.setSeal pg x) := ⟨rfl, id⟩
theorem raiseMark_atOwner (s : State) (t v : Nat) (new : Bool) : AtOwner s (raiseMark s t v new) := by
  unfold raiseMark; dsimp only; split <;> exact ⟨rfl, id⟩
theorem versionUp_atOwner (s : State) (pg : Nat) : AtOwner s (versionUp s pg) :=
  ((setSeal_atOwner ..).trans (raisePaths_atOwner ..)).trans (raiseMark_atOwner ..)
theorem evict_atOwner (s : State) (pg : Nat) : AtOwner s (evict s pg) := by
  unfold evict; dsimp only; split
  · exact (versionUp_atOwner ..).trans (setSeal_atOwner ..)
  · exact setSeal_atOwner ..
theorem markPeer_atOwner (s : State) (part dev : Nat) : AtOwner s (markPeer s part dev) := by
  unfold markPeer
  split
  · split
    · exact ⟨rfl, id⟩
    · exact AtOwner.refl s
  · exact AtOwner.refl s
theorem drawField_atOwner (s : State) : AtOwner s (drawField s).2 := ⟨rfl, id⟩
theorem makeRoom_atOwner (s : State) (pg : Nat) : AtOwner s (makeRoom s pg) := by
  unfold makeRoom; dsimp only; split
  · exact AtOwner.refl s
  · split
    · exact (drawField_atOwner s).trans (evict_atOwner ..)
    · exact drawField_atOwner s
theorem install_atOwner (s : State) (pg : Nat) : AtOwner s (install s pg) := by
  unfold install; split
  · exact AtOwner.refl s
  · exact (makeRoom_atOwner ..).trans (setSeal_atOwner ..)
theorem dirtyPage_atOwner (s : State) (pg : Nat) : AtOwner s (dirtyPage s pg) := (install_atOwner ..).trans (setSeal_atOwner ..)

theorem engineWrite_atOwner (s : State) (key : Nat) (bs : List Byte) : AtOwner s (engineWrite s key bs) := by
  unfold engineWrite
  simp only []
  refine AtOwner.trans (putBytes_atOwner s key bs) (AtOwner.trans (b := if isPoolKey key = true then putBytes s key bs
    else dirtyPage (putBytes s key bs) (key / 4096)) ?_ (foldl_atOwner _ (fun s k => ?_) _ _))
  · split
    · exact AtOwner.refl _
    · exact dirtyPage_atOwner ..
  · exact (fillWord_atOwner s k).trans ⟨rfl, fun h => h⟩

theorem sealFill_atOwner (s : State) (pg : Nat) : AtOwner s (sealFill s pg).2 := by
  unfold sealFill
  simp only []
  split
  · exact AtOwner.refl s
  · split
    · exact AtOwner.refl s
    · split
      · exact setSeal_atOwner ..
      · exact install_atOwner ..

theorem demandRead_atOwner (s : State) (key tenant : Nat) : AtOwner s (demandRead s key tenant).2 := by
  unfold demandRead
  split
  · exact AtOwner.refl s
  · split
    · exact ⟨rfl, fun h => h⟩
    · have h := sealFill_atOwner s (key / 4096)
      split <;> rename_i he <;> rw [he] at h <;> exact h

theorem demandWrite_atOwner (s : State) (key tenant : Nat) : AtOwner s (demandWrite s key tenant).2 := by
  have h := demandRead_atOwner s key tenant
  unfold demandWrite
  split
  · rename_i he; rw [he] at h; exact h
  · rename_i he; rw [he] at h
    split <;> exact h

end Sys2Proof.Machine
end

