-- ==== Sys2Proof/Laws/Report.lean ====
section
/-! SUPPORT. Everything that a write at its owner, a write of firmware and an error-queue record can do to the state. -/

namespace Sys2Proof.Machine

open Sys2Proof

/-- A property of the state that what comes of a read or a write leaves. -/
def RoomRes.Leaves (p : State → Prop) : RoomRes → Prop
  | .ok _ s1 => p s1
  | .fail _ s1 => p s1
  | .hold => True

/-- The same of a plan. -/
def RoomPlan.Leaves (p : State → Prop) : RoomPlan → Prop
  | .ok _ s1 => p s1
  | .fail _ s1 => p s1
  | .hold => True

theorem planPart_atOwner {s : State} {r : RoomPlan} (h : r.Leaves (AtOwner s)) (space part cluster : Nat) (c : Word × Nat) :
    (planPart space part cluster r c).Leaves (AtOwner s) := by
  cases r with
  | hold => trivial
  | fail e s0 => exact h
  | ok ks s0 =>
    unfold planPart
    dsimp only
    split
    · exact h
    · trivial
    · exact AtOwner.trans h (markPeer_atOwner ..)
    · rename_i phys tenant _
      split
      · exact AtOwner.trans h (demandWrite_atOwner s0 phys tenant)
      · exact AtOwner.trans h (demandWrite_atOwner s0 phys tenant)

theorem writePart_atOwner (r : State × List Byte) (k : Option Nat × Nat) : AtOwner r.1 (writePart r k).1 := by
  unfold writePart
  dsimp only
  split
  · exact engineWrite_atOwner ..
  · exact AtOwner.refl _

/-- A write of the dispatcher or firmware, done or failed. -/
theorem roomWrite_atOwner (s : State) (space part cluster : Nat) (va : Word) (bs : List Byte) :
    (roomWrite s space part cluster va bs).Leaves (AtOwner s) := by
  have hplan : ∀ (l : List (Word × Nat)) (r : RoomPlan), r.Leaves (AtOwner s) → (l.foldl (planPart space part cluster) r).Leaves (AtOwner s) := by
    intro l
    induction l with
    | nil => intro r h; exact h
    | cons c l ih => intro r h; exact ih _ (planPart_atOwner h ..)
  have hw : ∀ (ks : List (Option Nat × Nat)) (r : State × List Byte), AtOwner r.1 (ks.foldl writePart r).1 := by
    intro ks
    induction ks with
    | nil => intro r; exact AtOwner.refl _
    | cons k ks ih => intro r; exact (writePart_atOwner r k).trans (ih _)
  have h1 := hplan (spanChunks va bs.length) (.ok [] s) (AtOwner.refl s)
  unfold roomWrite
  split
  · rename_i he; rw [he] at h1; exact h1
  · trivial
  · rename_i ks s1 he; rw [he] at h1; exact AtOwner.trans h1 (hw ks (s1, bs))

theorem spaceWrite_atOwner (s : State) (cid cluster : Nat) (va : Word) (bs : List Byte) :
    (spaceWrite s cid cluster va bs).Leaves (AtOwner s) := by
  unfold spaceWrite
  split
  · exact AtOwner.refl s
  · exact roomWrite_atOwner ..

/-- The state without what a record may change: what a write at an owner may, the host functions, the contexts, and the records that
wait. -/
def beyondReports (s : State) : State := { beyondMemory s with fns := [], contexts := [], late := [] }

/-- A context as a record may leave it: its queue's position and its pending interrupt alone differ (R243, R244). -/
def SameContext (x y : Context) : Prop :=
  { y with eqtail := 0, eqlost := 0, pendingInt := false } = { x with eqtail := 0, eqlost := 0, pendingInt := false }

/-- What a record changes. -/
structure Reported (s s1 : State) : Prop where
  rest : beyondReports s1 = beyondReports s
  wf : Memory.wf s.mem = true → Memory.wf s1.mem = true
  ctx : ∀ c x, s.ctx? c = some x → ∃ y, s1.ctx? c = some y ∧ SameContext x y
  gone : ∀ c, s.ctx? c = none → s1.ctx? c = none

theorem Reported.refl (s : State) : Reported s s := ⟨rfl, id, fun _ x h => ⟨x, h, rfl⟩, fun _ h => h⟩

theorem Reported.trans {a b c : State} (h : Reported a b) (k : Reported b c) : Reported a c :=
  ⟨k.rest.trans h.rest, fun x => k.wf (h.wf x), fun n x hx => by
    obtain ⟨y, hy, e⟩ := h.ctx n x hx
    obtain ⟨z, hz, e2⟩ := k.ctx n y hy
    exact ⟨z, hz, e2.trans e⟩, fun n hn => k.gone n (h.gone n hn)⟩

theorem AtOwner.reported {s s1 : State} (h : AtOwner s s1) : Reported s s1 :=
  ⟨(congrArg (fun x : State => { x with fns := [], contexts := [], late := [] }) h.rest :), h.wf, fun c x hx => ⟨x, by
    unfold State.ctx? at hx ⊢; rw [h.contexts]; exact hx, rfl⟩, fun c hc => by unfold State.ctx? at hc ⊢; rw [h.contexts]; exact hc⟩

theorem Reported.tiles {s s1 : State} (h : Reported s s1) : s1.tiles = s.tiles := (congrArg State.tiles h.rest :)
theorem Reported.threads {s s1 : State} (h : Reported s s1) : s1.threads = s.threads := (congrArg State.threads h.rest :)
theorem Reported.pending {s s1 : State} (h : Reported s s1) : s1.pending = s.pending := (congrArg State.pending h.rest :)
theorem Reported.launches {s s1 : State} (h : Reported s s1) : s1.launches = s.launches := (congrArg State.launches h.rest :)
theorem Reported.time {s s1 : State} (h : Reported s s1) : s1.time = s.time := (congrArg State.time h.rest :)
theorem Reported.cores {s s1 : State} (h : Reported s s1) : s1.cores = s.cores := (congrArg State.cores h.rest :)
theorem Reported.tags {s s1 : State} (h : Reported s s1) : s1.tags = s.tags := (congrArg State.tags h.rest :)
theorem Reported.xfers {s s1 : State} (h : Reported s s1) : s1.xfers = s.xfers := (congrArg State.xfers h.rest :)
theorem Reported.nodes {s s1 : State} (h : Reported s s1) : s1.nodes = s.nodes := (congrArg State.nodes h.rest :)
theorem Reported.msgs {s s1 : State} (h : Reported s s1) : s1.msgs = s.msgs := (congrArg State.msgs h.rest :)
theorem Reported.pubs {s s1 : State} (h : Reported s s1) : s1.pubs = s.pubs := (congrArg State.pubs h.rest :)
theorem Reported.grids {s s1 : State} (h : Reported s s1) : s1.grids = s.grids := (congrArg State.grids h.rest :)
theorem Reported.queues {s s1 : State} (h : Reported s s1) : s1.queues = s.queues := (congrArg State.queues h.rest :)

theorem setFn_reported (s : State) (n : Nat) (f : HostFn) : Reported s (s.setFn n f) := ⟨rfl, id, fun _ x h => ⟨x, h, rfl⟩, fun _ h => h⟩

theorem setCtx_reported {s : State} {c : Nat} {x y : Context} (h : s.ctx? c = some x) (hy : SameContext x y) : Reported s (s.setCtx c y) := by
  refine ⟨rfl, id, fun n z hz => ?_, fun n hz => ?_⟩
  · by_cases hn : n = c
    · subst hn
      rw [h] at hz; cases hz
      exact ⟨y, tget_tput .., hy⟩
    · exact ⟨z, (tget_tput_ne hn ..).trans hz, rfl⟩
  · by_cases hn : n = c
    · subst hn; rw [h] at hz; cases hz
    · exact (tget_tput_ne hn ..).trans hz

theorem hostNotice_reported (s : State) (cid cause : Nat) : Reported s (hostNotice s cid cause) := by
  unfold hostNotice
  split
  · exact Reported.refl s
  · simp only []; split <;> exact setFn_reported ..

theorem contextInterrupt_reported (s : State) (cid cause : Nat) : Reported s (contextInterrupt s cid cause) := by
  unfold contextInterrupt
  split
  · exact Reported.refl s
  · rename_i x hx
    split
    · exact hostNotice_reported ..
    · split
      · exact Reported.refl s
      · have h := setCtx_reported hx (y := { x with pendingInt := true }) rfl
        simp only []
        split
        · exact h.trans (hostNotice_reported ..)
        · exact h

theorem modCtx_reported (s : State) (c : Nat) (f : Context → Context) (h : ∀ x, SameContext x (f x)) : Reported s (s.modCtx c f) := by
  unfold State.modCtx
  split
  · rename_i x hx; exact setCtx_reported hx (h x)
  · exact Reported.refl s

theorem spaceWrite_reported (s : State) (cid cluster : Nat) (va : Word) (bs : List Byte) :
    (spaceWrite s cid cluster va bs).Leaves fun s1 => Reported s s1 ∧ s1.contexts = s.contexts := by
  have h := spaceWrite_atOwner s cid cluster va bs
  cases hr : spaceWrite s cid cluster va bs with
  | ok b s1 => rw [hr] at h; exact ⟨AtOwner.reported h, AtOwner.contexts h⟩
  | fail e s1 => rw [hr] at h; exact ⟨AtOwner.reported h, AtOwner.contexts h⟩
  | hold => trivial

theorem loseRecord_reported {s s1 : State} {cid : Nat} {x : Context} (hx : s.ctx? cid = some x)
    (h : loseRecord s cid x = some s1) : Reported s s1 := by
  have h0 := setCtx_reported hx (y := { x with eqlost := min (x.eqlost + 1) max64 }) rfl
  have h1 := spaceWrite_reported (s.setCtx cid { x with eqlost := min (x.eqlost + 1) max64 }) cid 0 (x.eqbase + 8)
    (leBytes 8 (min (x.eqlost + 1) max64))
  unfold loseRecord at h
  dsimp only at h
  split at h
  · rename_i he; cases h; rw [he] at h1; exact h0.trans h1.1
  · rename_i he; cases h; rw [he] at h1; exact h0.trans h1.1
  · cases h

theorem loseRecord_noticed {s s1 : State} {cid code : Nat} {x : Context} (hx : s.ctx? cid = some x)
    (h : (loseRecord s cid x).map (fun s2 => hostNotice s2 cid code) = some s1) : Reported s s1 := by
  obtain ⟨s2, h2, rfl⟩ := Option.map_eq_some_iff.1 h
  exact (loseRecord_reported hx h2).trans (hostNotice_reported ..)

theorem putRecord_reported {s s1 : State} {cid code : Nat} {bytes : List Byte} (h : putRecord s cid code bytes = some s1) :
    Reported s s1 := by
  unfold putRecord at h
  split at h
  · cases h; exact Reported.refl s
  · rename_i x hx
    dsimp only at h
    split at h
    · exact loseRecord_reported hx h
    · have h1 := spaceWrite_reported s cid 0 (x.eqbase + w64 (64 + 32 * (x.eqtail % 2 ^ (x.eqcfg.toNat % 32)))) bytes
      split at h
      · cases h
      · rename_i e s2 he; rw [he] at h1
        exact h1.1.trans (loseRecord_noticed (by unfold State.ctx? at hx ⊢; rw [h1.2]; exact hx) h)
      · rename_i b s2 he; rw [he] at h1
        have h2 := spaceWrite_reported s2 cid 0 x.eqbase (leBytes 8 (x.eqtail + 1))
        split at h
        · cases h
        · rename_i e s3 he2; rw [he2] at h2
          exact h1.1.trans (h2.1.trans (loseRecord_noticed (by unfold State.ctx? at hx ⊢; rw [h2.2, h1.2]; exact hx) h))
        · rename_i b3 s3 he2; rw [he2] at h2
          have h3 := h1.1.trans (h2.1.trans (modCtx_reported s3 cid (fun y => { y with eqtail := (x.eqtail + 1) % 2 ^ 64 }) fun _ => rfl))
          cases h
          split
          · exact h3.trans (contextInterrupt_reported ..)
          · exact h3

/-- Everything that an error-queue record can do. -/
theorem report_reported (s : State) (cid : Nat) (r : Report) : Reported s (report s cid r) := by
  unfold report reportBytes
  split
  · rename_i hp; exact putRecord_reported hp
  · exact ⟨rfl, id, fun _ x h => ⟨x, h, rfl⟩, fun _ h => h⟩

theorem foldl_reported {α : Type} (g : State → α → State) (h : ∀ s a, Reported s (g s a)) (l : List α) (s : State) : Reported s (l.foldl g s) := by
  induction l generalizing s with
  | nil => exact Reported.refl s
  | cons a l ih => exact (h s a).trans (ih _)

/-- Everything that a write of firmware in a save extent can do. -/
theorem extentWrite_reported (s : State) (cid key : Nat) (bs : List Byte) : Reported s (extentWrite s cid key bs) := by
  have h := (sealFill_atOwner s (key / 4096)).reported
  unfold extentWrite
  dsimp only
  split
  · exact h
  · split
    · exact (h.trans (drawField_atOwner _).reported).trans (report_reported ..)
    · exact h.trans (engineWrite_atOwner ..).reported

theorem reportAccess_reported (s : State) (cid : Nat) (r : Report) : Reported s (reportAccess s cid r) := by
  unfold reportAccess
  simp only []
  split
  · exact (report_reported ..).trans (contextInterrupt_reported ..)
  · exact report_reported ..

end Sys2Proof.Machine
end

