-- ==== Sys2Proof/Laws/Retire.lean ====
section
/-! SUPPORT. The end of an agent: what leaving a barrier, giving up its accumulator slots, and retiring change. -/

namespace Sys2Proof.Machine

open Sys2Proof

/-- A property that each turn of a fold keeps holds after the fold. -/
theorem foldl_inv {α : Type} (p : State → Prop) (g : State → α → State) (h : ∀ s a, p s → p (g s a)) (l : List α) (s : State) (hs : p s) :
    p (l.foldl g s) := by
  induction l generalizing s with
  | nil => exact hs
  | cons a l ih => exact ih _ (h _ _ hs)

/-- The device queue of a context. -/
def queueOf (s : State) (cid : Nat) : Option (List Successor) := (tget cid s.contexts).map fun x => x.devq

theorem devQueue_eq (s : State) (cid : Nat) : devQueue s cid = ((queueOf s cid).map (List.map fun e => e.addr)).getD [] := by
  simp only [devQueue, queueOf, State.ctx?]
  split <;> simp_all

/-- A change of a context that leaves its device queue leaves every device queue. -/
theorem queueOf_modCtx (s : State) (c : Nat) (f : Context → Context) (h : ∀ x, (f x).devq = x.devq) (cid : Nat) :
    queueOf (s.modCtx c f) cid = queueOf s cid := by
  unfold State.modCtx
  split
  · rename_i x hx
    by_cases hc : cid = c
    · subst hc; simp [queueOf, h, hx]
    · simp [queueOf, tget_tput_ne hc]
  · rfl

@[simp] theorem modCtx_launches (s : State) (c : Nat) (f : Context → Context) : (s.modCtx c f).launches = s.launches := by
  unfold State.modCtx; split <;> rfl
@[simp] theorem modCtx_threads (s : State) (c : Nat) (f : Context → Context) : (s.modCtx c f).threads = s.threads := by
  unfold State.modCtx; split <;> rfl
@[simp] theorem modCtx_mem (s : State) (c : Nat) (f : Context → Context) : (s.modCtx c f).mem = s.mem := by
  unfold State.modCtx; split <;> rfl
@[simp] theorem modCtx_cores (s : State) (c : Nat) (f : Context → Context) : (s.modCtx c f).cores = s.cores := by
  unfold State.modCtx; split <;> rfl
@[simp] theorem modThread_launches (s : State) (u : Nat) (f : Thread → Thread) : (s.modThread u f).launches = s.launches := by
  unfold State.modThread; split <;> rfl
@[simp] theorem modThread_contexts (s : State) (u : Nat) (f : Thread → Thread) : (s.modThread u f).contexts = s.contexts := by
  unfold State.modThread; split <;> rfl
@[simp] theorem modAgent_launches (s : State) (u : Nat) (f : Thread → Thread) : (s.modAgent u f).launches = s.launches := by
  unfold State.modAgent
  split
  · simp
  · split <;> rfl
@[simp] theorem modAgent_contexts (s : State) (u : Nat) (f : Thread → Thread) : (s.modAgent u f).contexts = s.contexts := by
  unfold State.modAgent
  split
  · simp
  · split <;> rfl
@[simp] theorem agentPutV_launches (s : State) (u : Nat) (t : Thread) (n : VNum) (bs : List Byte) :
    (agentPutV s u t n bs).launches = s.launches := by
  unfold agentPutV; split <;> rfl
@[simp] theorem agentPutV_contexts (s : State) (u : Nat) (t : Thread) (n : VNum) (bs : List Byte) :
    (agentPutV s u t n bs).contexts = s.contexts := by
  unfold agentPutV; split <;> rfl
theorem keepRecord_reported (s : State) (u : Nat) (d : Dest) : Reported s (keepRecord s u d) := by
  unfold keepRecord
  split
  · exact foldl_reported _ (fun s (e : Nat × List Byte) => extentWrite_reported s _ e.1 e.2) _ _
  · exact Reported.refl s
/-- A record leaves every device queue. -/
theorem Reported.queue {s s1 : State} (h : Reported s s1) (cid : Nat) : queueOf s1 cid = queueOf s cid := by
  unfold queueOf
  cases hx : s.ctx? cid with
  | none => rw [show tget cid s.contexts = none from hx, show tget cid s1.contexts = none from h.gone cid hx]
  | some x =>
    obtain ⟨y, hy, e⟩ := h.ctx cid x hx
    rw [show tget cid s.contexts = some x from hx, show tget cid s1.contexts = some y from hy]
    exact congrArg some (congrArg Context.devq e :)
@[simp] theorem endRootSpace_launches (s : State) (fn : Nat) (bs : List Byte) : (endRootSpace s fn bs).launches = s.launches := by
  unfold endRootSpace; rfl
@[simp] theorem endRootSpace_contexts (s : State) (fn : Nat) (bs : List Byte) : (endRootSpace s fn bs).contexts = s.contexts := by
  unfold endRootSpace; rfl
@[simp] theorem fillRegs_launches (s : State) (u : Nat) (d : Dest) (bs : List Byte) : (fillRegs s u d bs).launches = s.launches := by
  unfold fillRegs; split <;> first | rfl | simp | (split <;> simp)
@[simp] theorem fillRegs_contexts (s : State) (u : Nat) (d : Dest) (bs : List Byte) : (fillRegs s u d bs).contexts = s.contexts := by
  unfold fillRegs; split <;> first | rfl | simp | (split <;> simp)
@[simp] theorem fillDest_launches (s : State) (u : Nat) (d : Dest) (bs : List Byte) : (fillDest s u d bs).launches = s.launches :=
  (keepRecord_reported ..).launches.trans (fillRegs_launches ..)
theorem fillDest_queue (s : State) (u : Nat) (d : Dest) (bs : List Byte) (cid : Nat) : queueOf (fillDest s u d bs) cid = queueOf s cid :=
  ((keepRecord_reported ..).queue cid).trans (by unfold queueOf; rw [fillRegs_contexts])
@[simp] theorem fillArrival_launches (w : Word) (s : State) (a : Arrival) : (fillArrival w s a).launches = s.launches := by
  unfold fillArrival; split
  · rfl
  · split <;> simp
theorem fillArrival_queue (w : Word) (s : State) (a : Arrival) (cid : Nat) : queueOf (fillArrival w s a) cid = queueOf s cid := by
  unfold fillArrival; split
  · rfl
  · split
    · rfl
    · exact fillDest_queue ..
@[simp] theorem releaseMember_launches (k : Nat) (s : State) (a : Arrival) : (releaseMember k s a).launches = s.launches := by
  unfold releaseMember; split <;> simp
theorem releaseMember_queue (k : Nat) (s : State) (a : Arrival) (cid : Nat) : queueOf (releaseMember k s a) cid = queueOf s cid := by
  unfold releaseMember
  split
  · rfl
  · refine (queueOf_modCtx _ _ _ ?_ _).trans (by simp [queueOf])
    intro x; rfl
@[simp] theorem releaseBar_launches (s : State) (k : Nat) (c : BarCell) : (releaseBar s k c).launches = s.launches := by
  unfold releaseBar
  dsimp only
  rw [foldl_keeps State.launches _ (fun s a => releaseMember_launches _ s a)]
  exact foldl_keeps State.launches _ (fun s a => fillArrival_launches _ s a) _ _
theorem releaseBar_queue (s : State) (k : Nat) (c : BarCell) (cid : Nat) : queueOf (releaseBar s k c) cid = queueOf s cid := by
  unfold releaseBar
  dsimp only
  rw [foldl_keeps (queueOf · cid) _ (fun s a => releaseMember_queue _ s a cid)]
  exact foldl_keeps (queueOf · cid) _ (fun s a => fillArrival_queue _ s a cid) _ _
@[simp] theorem keepCell_launches (s : State) (k : Nat) (c : BarCell) : (keepCell s k c).launches = s.launches := by
  unfold keepCell; split
  · exact releaseBar_launches ..
  · rfl
theorem keepCell_queue (s : State) (k : Nat) (c : BarCell) (cid : Nat) : queueOf (keepCell s k c) cid = queueOf s cid := by
  unfold keepCell; split
  · exact releaseBar_queue ..
  · rfl
@[simp] theorem barExit_launches (s : State) (u k : Nat) : (barExit s u k).launches = s.launches := by
  unfold barExit
  split
  · rfl
  · split
    · rfl
    · exact keepCell_launches ..
theorem barExit_queue (s : State) (u k cid : Nat) : queueOf (barExit s u k) cid = queueOf s cid := by
  unfold barExit
  split
  · rfl
  · split
    · rfl
    · exact keepCell_queue ..
@[simp] theorem releaseHandles_launches (s : State) (u : Nat) (t : Thread) : (releaseHandles s u t).launches = s.launches := by
  unfold releaseHandles
  dsimp only
  rw [foldl_keeps State.launches _ (fun s h => by split <;> rfl)]
  split <;> simp
@[simp] theorem releaseHandles_contexts (s : State) (u : Nat) (t : Thread) : (releaseHandles s u t).contexts = s.contexts := by
  unfold releaseHandles
  dsimp only
  rw [foldl_keeps State.contexts _ (fun s h => by split <;> rfl)]
  split <;> simp
@[simp] theorem failItem_contexts (s : State) (l : Option Nat) : (failItem s l).contexts = s.contexts := by
  unfold failItem
  split
  · rfl
  · split <;> rfl

/-- Its retirement counts in its launch once (R37). -/
theorem retireThread_counts (s : State) (u : Nat) (t : Thread) (l : Nat) (x : Launch) (hl : t.launch = some l)
    (hx : tget l s.launches = some x) :
    tget l (retireThread s u t false).launches = some { x with alive := x.alive - 1, retired := x.retired + 1 } := by
  have h1 : ∀ k : List Nat, (k.foldl (fun s k => barExit s u k) s).launches = s.launches := fun k =>
    foldl_keeps State.launches _ (fun s a => barExit_launches s u a) k s
  simp [retireThread, hl, h1, hx]

/-- Every device queue stays when a thread retires. -/
theorem retireThread_queue (s : State) (u : Nat) (t : Thread) (f : Bool) (cid : Nat) :
    queueOf (retireThread s u t f) cid = queueOf s cid := by
  have h1 : ∀ k : List Nat, queueOf (k.foldl (fun s k => barExit s u k) s) cid = queueOf s cid := fun k =>
    foldl_keeps (queueOf · cid) _ (fun s a => barExit_queue s u a cid) k s
  have h2 : ∀ s : State, queueOf (releaseHandles s u t) cid = queueOf s cid := fun s => by simp [queueOf]
  have h3 : ∀ s : State, queueOf (dropAgent s u) cid = queueOf s cid := fun s => by simp [queueOf]
  have h4 : ∀ (s : State) (l : Option Nat), queueOf (failItem s l) cid = queueOf s cid := fun s l => by simp [queueOf]
  simp only [retireThread, h3]
  split
  · rw [h4]
    split
    · rw [h2, h1]
    · split
      · rw [h2, h1]
      · exact (h2 _).trans (h1 _)
  · split
    · rw [h2, h1]
    · split
      · rw [h2, h1]
      · exact (h2 _).trans (h1 _)

/-- A wake leaves of an agent everything but its status and its age. -/
theorem wake_get {s : State} {v : Nat} {t : Thread} (h : tget v s.threads = some t) (p : Nat → Thread → Bool) :
    ∃ t1, tget v (s.wake p).threads = some t1 ∧ t1 = { t with status := t1.status, since := t1.since } := by
  simp only [State.wake, tget_tmap, h, Option.map_some]
  split
  · split
    · exact ⟨_, rfl, rfl⟩
    · exact ⟨_, rfl, rfl⟩
  · exact ⟨_, rfl, rfl⟩

/-! An agent that is gone stays gone. -/

theorem modThread_none {s : State} {v : Nat} (h : tget v s.threads = none) (u : Nat) (f : Thread → Thread) :
    tget v (s.modThread u f).threads = none := by
  unfold State.modThread
  split
  · rename_i t ht
    have : v ≠ u := fun e => by subst e; simp [h] at ht
    simp [tget_tput_ne this, h]
  · exact h
theorem modAgent_none {s : State} {v : Nat} (h : tget v s.threads = none) (u : Nat) (f : Thread → Thread) :
    tget v (s.modAgent u f).threads = none := by
  unfold State.modAgent
  split
  · exact modThread_none h u f
  · split <;> exact h
theorem agentPutV_threads (s : State) (u : Nat) (t : Thread) (n : VNum) (bs : List Byte) :
    (agentPutV s u t n bs).threads = s.threads := by
  unfold agentPutV; split <;> rfl
theorem fillDest_none {s : State} {v : Nat} (h : tget v s.threads = none) (u : Nat) (d : Dest) (bs : List Byte) :
    tget v (fillDest s u d bs).threads = none := by
  unfold fillDest
  rw [(keepRecord_reported ..).threads]
  unfold fillRegs
  split
  · exact h
  · exact modAgent_none h u _
  · exact modAgent_none h u _
  · split
    · exact h
    · exact modAgent_none (by rw [agentPutV_threads]; exact h) u _
  · exact h
theorem releaseBar_none {s : State} {v : Nat} (h : tget v s.threads = none) (k : Nat) (c : BarCell) :
    tget v (releaseBar s k c).threads = none := by
  unfold releaseBar
  refine foldl_inv (fun s => tget v s.threads = none) _ (fun s a hs => ?_) _ _ ?_
  · unfold releaseMember
    split
    · exact hs
    · rw [modCtx_threads]; exact modAgent_none hs _ _
  · refine foldl_inv (fun s => tget v s.threads = none) _ (fun s a hs => ?_) _ _ h
    unfold fillArrival
    split
    · exact hs
    · split
      · exact hs
      · exact fillDest_none hs _ _ _
theorem keepCell_none {s : State} {v : Nat} (h : tget v s.threads = none) (k : Nat) (c : BarCell) : tget v (keepCell s k c).threads = none := by
  unfold keepCell; split
  · exact releaseBar_none h _ _
  · exact h
theorem barExit_none {s : State} {v : Nat} (h : tget v s.threads = none) (u k : Nat) : tget v (barExit s u k).threads = none := by
  unfold barExit
  split
  · exact h
  · split
    · exact h
    · exact keepCell_none h _ _
theorem failItem_threads (s : State) (l : Option Nat) : (failItem s l).threads = s.threads := by
  unfold failItem
  split
  · rfl
  · split <;> rfl
theorem failItems_none {s : State} {v : Nat} (l : Option Nat) (n : Nat) (h : tget v s.threads = none) :
    tget v (failItems s l n).threads = none := by
  induction n generalizing s with
  | zero => exact h
  | succ n ih => exact ih (by rw [failItem_threads]; exact h)
theorem wake_none {s : State} {v : Nat} (h : tget v s.threads = none) (p : Nat → Thread → Bool) : tget v (s.wake p).threads = none := by
  simp [State.wake, tget_tmap, h]
theorem collectSlots_none {s : State} {v : Nat} (h : tget v s.threads = none) (i : Nat) : tget v (collectSlots s i).threads = none := by
  unfold collectSlots
  dsimp only
  split
  · exact h
  · exact wake_none h _
theorem releaseHandles_none {s : State} {v : Nat} (h : tget v s.threads = none) (u : Nat) (t : Thread) :
    tget v (releaseHandles s u t).threads = none := by
  unfold releaseHandles
  refine foldl_inv (fun s => tget v s.threads = none) _ (fun s k hs => by split <;> exact hs) _ _ ?_
  split
  · exact h
  · exact collectSlots_none (by simpa using h) _
theorem dropAgent_gone (s : State) (u : Nat) : tget u (dropAgent s u).threads = none :=
  foldl_inv (fun s => tget u s.threads = none) _ (fun _ i hs => collectSlots_none hs i) _ _ (tget_tdel ..)
theorem dropAgent_none {s : State} {v : Nat} (u : Nat) (h : tget v s.threads = none) : tget v (dropAgent s u).threads = none := by
  by_cases e : v = u
  · subst e; exact dropAgent_gone s v
  · exact foldl_inv (fun s => tget v s.threads = none) _ (fun _ i hs => collectSlots_none hs i) _ _ ((tget_tdel_ne e _).trans h)
/-- A thread that retires leaves the machine, whatever state it is in. -/
theorem retireThread_gone (s : State) (u : Nat) (t : Thread) (f : Bool) : tget u (retireThread s u t f).threads = none := dropAgent_gone ..

theorem retireThread_none {s : State} {v : Nat} (h : tget v s.threads = none) (u : Nat) (t : Thread) (f : Bool) :
    tget v (retireThread s u t f).threads = none := by
  have h2 : tget v (releaseHandles ((t.barKeys s).foldl (fun s k => barExit s u k) s) u t).threads = none := by
    exact releaseHandles_none (foldl_inv (fun s => tget v s.threads = none) _ (fun s k hs => barExit_none hs u k) _ _ h) u t
  unfold retireThread
  apply dropAgent_none
  split
  · rw [failItem_threads]
    split
    · exact h2
    · split <;> exact h2
  · split
    · exact h2
    · split <;> exact h2

end Sys2Proof.Machine
end

