-- ==== Sys2Proof/Laws/Access.lean ====
section
/-! SUPPORT. Addresses of the own pool, the pieces of an access, and what loads and stores of the own pool do. -/

namespace Sys2Proof.Machine

open Sys2Proof

theorem vbaseOf_le (c : Nat) : vbaseOf c ≤ poolSize := by unfold vbaseOf poolSize; omega

theorem classify_own {va : Word} (h : va.toNat < poolSize) : classify va = .own va.toNat := by simp [classify, h]

/-- An address of the own pool below its vector storage resolves to its byte there (R61, R99). -/
theorem resolve_own {s : State} {core : Nat} {va : Word} (h : va.toNat < vbaseOf (s.core core).pool) (cid need : Nat) :
    resolve s cid core va need = .ok (.here (poolBase core + va.toNat)) none := by
  simp only [resolve, classify_own (Nat.lt_of_lt_of_le h (vbaseOf_le _))]
  rw [if_neg (by omega)]

theorem ownPool_of {va : Word} (h : va.toNat < poolSize) (core : Nat) : ownPool core va = true := by simp [ownPool, classify_own h]

theorem isPoolKey_of {k : Nat} (h : 2 ^ 48 ≤ k) : isPoolKey k = true := decide_eq_true h

theorem poolBase_ge (c : Nat) : 2 ^ 48 ≤ poolBase c := by simp [poolBase]

/-- The pieces of an access cover its bytes in order. -/
inductive Covers : Word → Nat → List Byte → List Piece → Prop where
  | nil (va : Word) (off : Nat) : Covers va off [] []
  | cons (va : Word) (off : Nat) (b : Byte) (bs cs : List Byte) (ps : List Piece) :
      Covers (va + w64 (bs.length + 1)) (off + (bs.length + 1)) cs ps →
      Covers va off (b :: bs ++ cs) (mkPiece va off (b :: bs) :: ps)

theorem bytePieces_covers (va : Word) (off : Nat) (bs : List Byte) : Covers va off bs (bytePieces va off bs) := by
  induction bs generalizing va off with
  | nil => exact .nil ..
  | cons b bs ih => exact .cons va off b [] bs _ (ih _ _)

theorem scalarPieces_covers (va : Word) (off : Nat) {bs : List Byte} (h : bs ≠ []) : Covers va off bs (scalarPieces va off bs) := by
  unfold scalarPieces
  split
  · obtain ⟨b, bs', rfl⟩ := List.exists_cons_of_ne_nil h
    have := Covers.cons va off b bs' [] [] (.nil _ _)
    simpa using this
  · exact bytePieces_covers ..

theorem vectorPieces_covers {fuel : Nat} (va : Word) (off : Nat) {bs : List Byte} (h : bs.length ≤ fuel) :
    Covers va off bs (vectorPieces fuel va off bs) := by
  induction fuel generalizing va off bs with
  | zero =>
    have : bs = [] := List.eq_nil_of_length_eq_zero (by omega)
    subst this; exact .nil ..
  | succ fuel ih =>
    unfold vectorPieces
    cases bs with
    | nil => exact .nil ..
    | cons b rest =>
      dsimp only
      split
      · rename_i hc
        simp only [List.length_cons] at hc h
        have e : b :: rest = (b :: rest.take 7) ++ rest.drop 7 := by simp
        have := Covers.cons va off b (rest.take 7) (rest.drop 7) (vectorPieces fuel (va + 8) (off + 8) (rest.drop 7)) (by
          have hl : (rest.take 7).length + 1 = 8 := by simp; omega
          rw [hl]
          exact ih _ _ (by simp; omega))
        simpa using this
      · exact .cons va off b [] rest _ (ih _ _ (by simpa using h))

/-- A piece of the own pool, translated. -/
def Piece.owned (core : Nat) (p : Piece) : Piece := { p with loc := .here (poolBase core + p.va.toNat), tenant := 0 }

/-- Every piece lies in the own pool below a limit. -/
def AllBelow (lim : Nat) (ps : List Piece) : Prop := ∀ p ∈ ps, p.va.toNat + p.bytes.length ≤ lim ∧ p.bytes ≠ []

theorem w64_add_toNat {va : Word} {n m : Nat} (h : va.toNat + n ≤ m) (hm : m < 2 ^ 64) : (va + w64 n).toNat = va.toNat + n := by
  simp only [w64, BitVec.toNat_add, BitVec.toNat_ofNat]; omega

theorem Covers.allBelow {va : Word} {off lim : Nat} {bs : List Byte} {ps : List Piece} (h : Covers va off bs ps)
    (hl : va.toNat + bs.length ≤ lim) (hm : lim < 2 ^ 64) : AllBelow lim ps := by
  induction h with
  | nil => intro p hp; simp at hp
  | cons va off b bs cs ps h ih =>
    simp only [List.length_append, List.length_cons] at hl
    intro p hp
    rcases List.mem_cons.1 hp with rfl | hp
    · simp only [mkPiece, List.length_cons]; exact ⟨by omega, by simp⟩
    · refine ih ?_ p hp
      rw [w64_add_toNat (m := lim) (by omega) hm]; omega

theorem resolvePieces_own {s : State} {core lim : Nat} (cid need : Nat) {ps : List Piece} (h : AllBelow lim ps)
    (hl : lim ≤ vbaseOf (s.core core).pool) : resolvePieces s cid core need ps = (ps.map (Piece.owned core), []) := by
  induction ps with
  | nil => rfl
  | cons p ps ih =>
    have hp := h p (by simp)
    have : 0 < p.bytes.length := List.length_pos_iff.2 hp.2
    simp only [resolvePieces, ih fun q hq => h q (by simp [hq])]
    rw [resolve_own (by omega)]
    rfl

theorem checkPieces_own {s : State} {core lim : Nat} (cid need : Nat) {ps : List Piece} (h : AllBelow lim ps)
    (hl : lim ≤ vbaseOf (s.core core).pool) : checkPieces s cid core need ps = .ok [] := by
  induction ps with
  | nil => rfl
  | cons p ps ih =>
    have hp := h p (by simp)
    have : 0 < p.bytes.length := List.length_pos_iff.2 hp.2
    simp only [checkPieces]
    rw [resolve_own (by omega)]
    exact ih fun q hq => h q (by simp [hq])

theorem allOwn_own {core lim : Nat} {ps : List Piece} (h : AllBelow lim ps) (hl : lim ≤ poolSize) : allOwn core ps = true := by
  simp only [allOwn, List.all_eq_true]
  intro p hp
  have := h p hp
  have : 0 < p.bytes.length := List.length_pos_iff.2 this.2
  exact ownPool_of (by omega) _

theorem storesOwn_own {core lim : Nat} {ps : List Piece} (h : AllBelow lim ps) (hl : lim ≤ poolSize) : storesOwn core ps = true := by
  simp [storesOwn, allOwn_own h hl]

theorem mem_touchedWords {key n k : Nat} : k ∈ touchedWords key n ↔ n ≠ 0 ∧ key / 8 ≤ k ∧ k ≤ (key + n - 1) / 8 := by
  unfold touchedWords
  split
  · simp_all
  · simp only [List.mem_map, List.mem_range]
    constructor
    · rintro ⟨a, ha, rfl⟩; omega
    · rintro ⟨h1, h2, h3⟩; exact ⟨k - key / 8, by omega, by omega⟩

/-- A range inside one that touches no word in P touches none. -/
theorem touchesPoison_sub {s : State} {key n key' n' : Nat} (h : touchesPoison s key n = false) (h1 : key ≤ key')
    (h2 : key' + n' ≤ key + n) : touchesPoison s key' n' = false := by
  simp only [touchesPoison, List.any_eq_false] at h ⊢
  intro k hk
  refine h k ?_
  rw [mem_touchedWords] at hk ⊢
  omega

/-- The words and bytes that lie in memory and the word states alone decide what a range touches. -/
theorem touchesPoison_congr {s s' : State} (h : ∀ k, s'.word k = s.word k) (key n : Nat) :
    touchesPoison s' key n = touchesPoison s key n := by simp only [touchesPoison, h]

/-! ### Loads -/

theorem owned_clean {s : State} {core lo n : Nat} {ps : List Piece}
    (h : ∀ p ∈ ps, lo ≤ p.va.toNat ∧ p.va.toNat + p.bytes.length ≤ lo + n) (hc : touchesPoison s (poolBase core + lo) n = false)
    {q : Piece} (hq : q ∈ ps.map (Piece.owned core)) :
    ∃ key, q.loc = .here key ∧ touchesPoison s key q.bytes.length = false := by
  obtain ⟨p, hp, rfl⟩ := List.mem_map.1 hq
  have := h p hp
  exact ⟨_, rfl, touchesPoison_sub hc (by omega) (by simp only [Piece.owned]; omega)⟩

theorem Covers.within {va : Word} {off lim : Nat} {bs : List Byte} {ps : List Piece} (h : Covers va off bs ps)
    (hl : va.toNat + bs.length ≤ lim) (hm : lim < 2 ^ 64) :
    ∀ p ∈ ps, va.toNat ≤ p.va.toNat ∧ p.va.toNat + p.bytes.length ≤ va.toNat + bs.length := by
  induction h with
  | nil => intro p hp; simp at hp
  | cons va off b bs cs ps h ih =>
    simp only [List.length_append, List.length_cons] at hl ⊢
    have e := w64_add_toNat (va := va) (n := bs.length + 1) (m := lim) (by omega) hm
    intro p hp
    rcases List.mem_cons.1 hp with rfl | hp
    · simp only [mkPiece, List.length_cons]; omega
    · have := ih (by omega) p hp
      omega

theorem Covers.bytes {va : Word} {off lim : Nat} {bs : List Byte} {ps : List Piece} (h : Covers va off bs ps) (core : Nat)
    (m : List Host.Cell) (hl : va.toNat + bs.length ≤ lim) (hm : lim < 2 ^ 64) :
    ((ps.map (Piece.owned core)).map fun p => match p.loc with | .here key => memBytes m key p.bytes.length | _ => p.bytes).flatten
      = memBytes m (poolBase core + va.toNat) bs.length := by
  induction h with
  | nil => rfl
  | cons va off b bs cs ps h ih =>
    simp only [List.length_append, List.length_cons] at hl ⊢
    have e := w64_add_toNat (va := va) (n := bs.length + 1) (m := lim) (by omega) hm
    rw [memBytes_append]
    simp only [List.map_cons, List.flatten_cons]
    rw [ih (by omega), e]
    simp only [Piece.owned, mkPiece, List.length_cons]
    rw [Nat.add_assoc]

/-- A piece of the own pool is read as its load issues. -/
theorem readOwn_owned {s : State} {core lim : Nat} {ps : List Piece} (h : AllBelow lim ps) (hl : lim ≤ poolSize) {q : Piece}
    (hq : q ∈ ps.map (Piece.owned core)) : readOwn s core q = { q with
      done := true, bytes := match q.loc with | .here key => memBytes s.mem key q.bytes.length | _ => q.bytes } := by
  obtain ⟨p, hp, rfl⟩ := List.mem_map.1 hq
  have hp := h p hp
  have : 0 < p.bytes.length := List.length_pos_iff.2 hp.2
  simp only [readOwn, Piece.owned, ownPool_of (show p.va.toNat < poolSize by omega)]

/-- A scalar load of the own pool completes at issue with the bytes of memory. -/
theorem loadAccess_own {s : State} {u : Nat} {t : Thread} {y : Sync} {va : Word} {bs : List Byte} (hb : Begins s u t y)
    (ho : InOwn s t va bs.length) (i : Instr) (d : GNum) (sg : Bool) {ps : List Piece} (hc : Covers va 0 bs ps) :
    loadAccess s i y u t (.g d sg) va ps = finishG s i u t d (extendBytes sg (memBytes s.mem (ownKey t va) bs.length)) := by
  have hv := vbaseOf_le (s.core t.core).pool
  have h64 : vbaseOf (s.core t.core).pool < 2 ^ 64 := lt_of_le_of_lt hv (by decide)
  have ha : AllBelow (vbaseOf (s.core t.core).pool) ps := hc.allBelow ho.below h64
  simp only [loadAccess, hb.fresh, hb.noAcquire, Bool.false_eq_true, if_false]
  rw [checkPieces_own t.cid rRead ha (le_refl _), resolvePieces_own t.cid rRead ha (le_refl _)]
  simp only [allOwn_own ha hv, if_true]
  split
  · rename_i q hq
    obtain ⟨key, h1, h2⟩ := owned_clean (hc.within ho.below h64) ho.clean (List.mem_of_find?_eq_some hq)
    have := List.find?_some hq
    simp [h1, h2] at this
  · have e : ((ps.map (Piece.owned t.core)).map (readOwn s t.core)).map (fun p => p.bytes) =
        (ps.map (Piece.owned t.core)).map fun p => match p.loc with | .here key => memBytes s.mem key p.bytes.length | _ => p.bytes := by
      rw [List.map_map]
      exact List.map_congr_left fun q hq => congrArg Piece.bytes (readOwn_owned ha hv hq)
    exact congrArg (fun x => finishG s i u t d (extendBytes sg x)) ((congrArg List.flatten e).trans (hc.bytes t.core s.mem ho.below h64))

/-! ### Stores -/

theorem wholeWords_sub {key n k : Nat} (h : k ∈ wholeWords key n) : k ∈ touchedWords key n := by
  rw [mem_touchedWords]
  simp only [wholeWords, List.mem_map, List.mem_range] at h
  obtain ⟨a, ha, rfl⟩ := h
  omega

@[simp] theorem putBytes_mem (s : State) (key : Nat) (bs : List Byte) : (putBytes s key bs).mem = memPutBytes s.mem key bs := rfl
@[simp] theorem putBytes_word (s : State) (key : Nat) (bs : List Byte) (k : Nat) : (putBytes s key bs).word k = s.word k := rfl
@[simp] theorem putBytes_threads (s : State) (key : Nat) (bs : List Byte) : (putBytes s key bs).threads = s.threads := rfl

/-- A store to a pool that meets no word in P writes its bytes and nothing else that a program can see. -/
theorem storeBytes_pool {s : State} {key : Nat} {bs : List Byte} (hp : isPoolKey key = true)
    (hc : touchesPoison s key bs.length = false) : storeBytes s key bs = putBytes s key bs := by
  have : (wholeWords key bs.length).filter (fun k => s.word k == .poison) = [] := by
    rw [List.filter_eq_nil_iff]
    intro k hk
    simp only [touchesPoison, List.any_eq_false] at hc
    exact hc k (wholeWords_sub hk)
  simp only [storeBytes, this, hp, if_true, List.foldl_nil]

theorem storeBlocked_clean {s : State} {key n : Nat} (hc : touchesPoison s key n = false) : storeBlocked s key n = false := by
  simp only [storeBlocked, touchesPoison, List.any_eq_false, Bool.and_eq_true, not_and] at hc ⊢
  intro k hk hb
  exact absurd hb (hc k hk)

theorem runsOf_flatten (ps : List Piece) : (runsOf ps).flatten = ps := by
  induction ps with
  | nil => rfl
  | cons p ps ih =>
    rw [runsOf]
    split
    · rename_i h
      rw [h] at ih
      split <;> simpa using ih
    · simpa using ih

/-- Every piece of a store stands when none fails. -/
theorem standing_all {fault : Piece → Option Cause} {ps : List Piece} (h : ∀ p ∈ ps, fault p = none) : standing fault ps = ps := by
  have hr : (runsOf ps).filter (fun r => r.all fun p => (fault p).isNone) = runsOf ps := by
    rw [List.filter_eq_self]
    intro r hr
    rw [List.all_eq_true]
    intro p hp
    rw [h p (by rw [← runsOf_flatten ps]; exact List.mem_flatten.2 ⟨r, hr, hp⟩), Option.isNone_none]
  rw [standing, hr, runsOf_flatten]

/-- A word that is not in P has no record due, so an access that meets no word in P writes none (R246). -/
theorem softRecord_clean {s : State} {p : Piece} {key : Nat} (hc : touchesPoison s key p.bytes.length = false) (a : Access) :
    softRecord s a p key = s := by
  have h : ∀ l : List Nat, (∀ k ∈ l, s.word k ≠ .poison) → l.foldl (fun s k =>
      if softHere s k then
        let first := if k * 8 ≤ key then p.va else p.va + w64 (k * 8 - key)
        report (softTold s k) a.cid
          { addr := first, cause := .softError, detail := 0, item := a.kind.item, peer := none, ep := a.ep }
      else s) s = s := by
    intro l hl
    induction l with
    | nil => rfl
    | cons k l ih =>
      have hk : softHere s k = false := by simp [softHere, hl k (by simp)]
      rw [List.foldl_cons, if_neg (by simp [hk])]
      exact ih fun j hj => hl j (by simp [hj])
  refine h _ fun k hk => ?_
  simp only [touchesPoison, List.any_eq_false, beq_iff_eq] at hc
  exact hc k hk

/-- No piece of a store in the own pool fails, where no word in P is touched. -/
theorem ownStoreFault_none {s : State} {t : Thread} {lo n lim : Nat} {ps : List Piece} (ha : AllBelow lim ps)
    (hl : lim ≤ vbaseOf (s.core t.core).pool) (hw : ∀ p ∈ ps, lo ≤ p.va.toNat ∧ p.va.toNat + p.bytes.length ≤ lo + n)
    (hc : touchesPoison s (poolBase t.core + lo) n = false) {q : Piece} (hq : q ∈ ps.map (Piece.owned t.core)) :
    ownStoreFault s t q = none := by
  obtain ⟨p, hp, rfl⟩ := List.mem_map.1 hq
  have h1 := ha p hp
  have h2 := hw p hp
  have : 0 < p.bytes.length := List.length_pos_iff.2 h1.2
  have hb : touchesPoison s (poolBase t.core + p.va.toNat) p.bytes.length = false := touchesPoison_sub hc (by omega) (by omega)
  simp [ownStoreFault, Piece.owned, resolve_own (s := s) (core := t.core) (va := p.va) (by omega), storeBlocked_clean hb]

/-- A fold whose every turn leaves the state leaves it. -/
theorem foldl_fixed {α : Type} {g : State → α → State} {s : State} {l : List α} (h : ∀ a ∈ l, g s a = s) : l.foldl g s = s := by
  induction l with
  | nil => rfl
  | cons a l ih => rw [List.foldl_cons, h a (by simp)]; exact ih fun b hb => h b (by simp [hb])

/-- What the stores of the pieces of one access leave: the bytes, one after another. -/
structure Put (s s1 : State) (key : Nat) (bs : List Byte) : Prop where
  mem : s1.mem = memPutBytes s.mem key bs
  states : ∀ k, s1.word k = s.word k
  threads : s1.threads = s.threads
  contexts : s1.contexts = s.contexts
  time : s1.time = s.time

theorem memPutBytes_append (m : List Host.Cell) (a : Nat) (bs cs : List Byte) :
    memPutBytes m a (bs ++ cs) = memPutBytes (memPutBytes m a bs) (a + bs.length) cs := by
  induction bs generalizing m a with
  | nil => rfl
  | cons b bs ih => simp only [List.cons_append, memPutBytes, ih, List.length_cons]; congr 1; omega

theorem Covers.store {va : Word} {off lim : Nat} {bs : List Byte} {ps : List Piece} (h : Covers va off bs ps) (core : Nat)
    {f : State → Piece → State}
    (hf : ∀ (s : State) (key : Nat) (p : Piece), p.loc = .here key → storeBlocked s key p.bytes.length = false →
      f s p = storeBytes s key p.bytes)
    (hl : va.toNat + bs.length ≤ lim) (hm : lim < 2 ^ 64) (s : State)
    (hc : touchesPoison s (poolBase core + va.toNat) bs.length = false) :
    Put s ((ps.map (Piece.owned core)).foldl f s) (poolBase core + va.toNat) bs := by
  induction h generalizing s with
  | nil => exact ⟨rfl, fun _ => rfl, rfl, rfl, rfl⟩
  | cons va off b bs cs ps h ih =>
    simp only [List.length_append, List.length_cons] at hl hc
    have e := w64_add_toNat (va := va) (n := bs.length + 1) (m := lim) (by omega) hm
    have hk : isPoolKey (poolBase core + va.toNat) = true := isPoolKey_of (Nat.le_trans (poolBase_ge core) (Nat.le_add_right _ _))
    have hc1 : touchesPoison s (poolBase core + va.toNat) (b :: bs).length = false :=
      touchesPoison_sub hc (le_refl _) (by simp only [List.length_cons]; omega)
    have h1 : f s (Piece.owned core (mkPiece va off (b :: bs))) = putBytes s (poolBase core + va.toNat) (b :: bs) := by
      rw [hf s (poolBase core + va.toNat) (Piece.owned core (mkPiece va off (b :: bs))) rfl (storeBlocked_clean hc1)]
      exact storeBytes_pool hk hc1
    simp only [List.map_cons, List.foldl_cons, h1]
    have r := ih (by omega) (putBytes s (poolBase core + va.toNat) (b :: bs)) (by
      rw [touchesPoison_congr (putBytes_word s _ _), e]
      exact touchesPoison_sub hc (by omega) (by omega))
    refine ⟨?_, fun k => (r.states k).trans rfl, r.threads.trans rfl, r.contexts.trans rfl, r.time.trans rfl⟩
    rw [r.mem, e, memPutBytes_append, putBytes_mem, List.length_cons, Nat.add_assoc]

/-- A store to the own pool completes at issue. -/
theorem storeAccess_own {s : State} {u : Nat} {t : Thread} {y : Sync} {va : Word} {bs : List Byte} (hb : Begins s u t y)
    (ho : InOwn s t va bs.length) (i : Instr) {ps : List Piece} (hc : Covers va 0 bs ps) :
    ∃ s1, storeAccess s i y u t va ps = finish s1 i u t ∧ Put s s1 (ownKey t va) bs := by
  have hv := vbaseOf_le (s.core t.core).pool
  have h64 : vbaseOf (s.core t.core).pool < 2 ^ 64 := lt_of_le_of_lt hv (by decide)
  have ha : AllBelow (vbaseOf (s.core t.core).pool) ps := hc.allBelow ho.below h64
  have hord : (decide (2 ≤ syOrder y) && accessesBefore s u s.nextId) = false := by
    by_cases h : 2 ≤ syOrder y
    · simp [hb.ordered h]
    · simp [h]
  simp only [storeAccess, hb.noAcquire, Bool.false_eq_true, if_false, storesOwn_own ha hv, if_true, hord]
  have hn : ∀ q ∈ ps.map (Piece.owned t.core), ownStoreFault s t q = none :=
    fun q hq => ownStoreFault_none ha (le_refl _) (hc.within ho.below h64) ho.clean hq
  rw [resolvePieces_own t.cid rWrite ha (le_refl _), standing_all hn,
    List.findSome?_eq_none_iff.2 fun q hq => by rw [hn q hq, Option.map_none]]
  simp only
  rw [foldl_fixed (s := s) fun q hq => by
    obtain ⟨key, h1, h2⟩ := owned_clean (hc.within ho.below h64) ho.clean hq
    simp only [h1, softRecord_clean h2]]
  exact ⟨_, rfl, hc.store t.core (fun s key p h1 _ => by simp [h1]) ho.below h64 s ho.clean⟩

/-- What `Put` says of single bytes. -/
theorem Put.stored {s s1 : State} {key : Nat} {bs : List Byte} (h : Put s s1 key bs) (hw : Memory.wf s.mem = true) :
    Stored s s1 key bs := by
  refine ⟨?_, fun a ha => ?_, h.states⟩
  · rw [h.mem, memBytes_memPutBytes hw]
  · rw [h.mem, memByte_memPutBytes_out ha]

end Sys2Proof.Machine
end

