-- ==== Sys2Proof/Laws/Vector.lean ====
section
/-! SUPPORT. Elements and bytes of vector registers: what is assembled from elements reads back element by element, and the pieces
of a masked access are its active bytes. -/

namespace Sys2Proof.Machine

open Sys2Proof

theorem assemble_lt (w : Nat) (l : List Nat) : assemble w l < 2 ^ (w * l.length) := by
  induction l with
  | nil => simp [assemble]
  | cons x l ih =>
    have h1 : x % 2 ^ w < 2 ^ w := Nat.mod_lt _ (Nat.pow_pos (by decide))
    have h2 : 2 ^ w * (assemble w l + 1) ≤ 2 ^ w * 2 ^ (w * l.length) := Nat.mul_le_mul_left _ ih
    rw [List.length_cons, Nat.mul_succ, Nat.pow_add, Nat.mul_comm (2 ^ (w * l.length))]
    simp only [assemble]
    rw [Nat.mul_add, Nat.mul_one] at h2
    omega

/-- What is assembled from elements of a width reads back element by element. -/
theorem assemble_get (w : Nat) (l : List Nat) (j : Nat) (hj : j < l.length) :
    assemble w l / 2 ^ (w * j) % 2 ^ w = l[j] % 2 ^ w := by
  induction l generalizing j with
  | nil => simp at hj
  | cons x l ih =>
    cases j with
    | zero =>
      simp only [assemble, Nat.mul_zero, Nat.pow_zero, Nat.div_one, List.getElem_cons_zero]
      rw [Nat.add_mul_mod_self_left, Nat.mod_mod]
    | succ j =>
      have h1 : x % 2 ^ w < 2 ^ w := Nat.mod_lt _ (Nat.pow_pos (by decide))
      have h2 : (x % 2 ^ w + 2 ^ w * assemble w l) / 2 ^ w = assemble w l := by
        rw [Nat.add_mul_div_left _ _ (Nat.pow_pos (by decide)), Nat.div_eq_of_lt h1, Nat.zero_add]
      simp only [assemble, List.getElem_cons_succ]
      rw [Nat.mul_succ, Nat.add_comm (w * j), Nat.pow_add, ← Nat.div_div_eq_div_mul, h2]
      exact ih j (by simpa using hj)

/-- The elements of a register value that is built element by element. -/
theorem elemOf_buildV {w : Nat} (hd : 512 % w = 0) (f : Nat → Nat) {j : Nat} (hj : j < elemCount w) :
    elemOf (buildV w f) w j = f j % 2 ^ w := by
  have hl : w * (512 / w) = 512 := by
    have := Nat.div_add_mod 512 w
    omega
  have h := assemble_lt w ((List.range (elemCount w)).map f)
  simp only [List.length_map, List.length_range, elemCount, hl] at h
  simp only [elemOf, buildV, BitVec.toNat_ofNat, elemCount]
  rw [Nat.mod_eq_of_lt h]
  have hg := assemble_get w ((List.range (512 / w)).map f) j (by simpa [elemCount] using hj)
  simpa using hg

theorem leNat_lt (bs : List Byte) : leNat bs < 2 ^ (8 * bs.length) := by
  induction bs with
  | nil => simp [leNat]
  | cons b bs ih =>
    have h1 : b.toNat < 256 := b.isLt
    rw [List.length_cons, Nat.mul_succ, Nat.pow_add]
    simp only [leNat]
    omega

/-- The bytes of a number made of bytes are those bytes. -/
theorem leBytes_leNat (bs : List Byte) : leBytes bs.length (leNat bs) = bs := by
  induction bs with
  | nil => rfl
  | cons b bs ih =>
    have h1 : b.toNat < 256 := b.isLt
    simp only [List.length_cons, leBytes, leNat]
    congr 1
    · apply BitVec.eq_of_toNat_eq
      simp only [BitVec.toNat_ofNat]
      omega
    · rw [show (b.toNat + 256 * leNat bs) / 256 = leNat bs by omega]
      exact ih

theorem leBytes_leNat' {n : Nat} {bs : List Byte} (h : bs.length = n) : leBytes n (leNat bs) = bs := by
  subst h; exact leBytes_leNat bs

theorem byteMask_get (act : Nat → Bool) {i : Nat} (hi : i < 64) : (byteMask act).getLsbD i = act i := by
  have h := assemble_get 1 ((List.range 64).map fun b => if act b then 1 else 0) i (by simpa using hi)
  simp only [Nat.one_mul, Nat.pow_one, List.getElem_map, List.getElem_range] at h
  simp only [byteMask, BitVec.getLsbD_ofNat, hi, decide_true, Bool.true_and, Nat.testBit, Nat.shiftRight_eq_div_pow, Nat.one_and_eq_mod_two]
  rw [h]
  cases act i <;> rfl

/-! ### The pieces of a masked access -/

/-- The runs of active bytes are runs, in order, of active bytes, and hold each of them. -/
theorem activeRuns_spec (act : Nat → Bool) (n b : Nat) :
    (∀ r ∈ activeRuns act n b, b ≤ r.1 ∧ r.1 + r.2 ≤ b + n ∧ 0 < r.2 ∧ ∀ i, r.1 ≤ i → i < r.1 + r.2 → act i = true)
    ∧ ∀ i, b ≤ i → i < b + n → act i = true → ∃ r ∈ activeRuns act n b, r.1 ≤ i ∧ i < r.1 + r.2 := by
  induction n generalizing b with
  | zero => exact ⟨by simp [activeRuns], fun i h1 h2 => by omega⟩
  | succ n ih =>
    obtain ⟨h1, h2⟩ := ih (b + 1)
    unfold activeRuns
    dsimp only
    split
    · rename_i ha
      cases hr : activeRuns act n (b + 1) with
      | nil =>
        rw [hr] at h2
        refine ⟨?_, ?_⟩
        · intro r hr'
          simp only [List.mem_singleton] at hr'
          subst hr'
          exact ⟨le_refl _, by simp only []; omega, Nat.one_pos, fun i i1 i2 => by
            have : i = b := by omega
            subst this; exact ha⟩
        · intro i i1 i2 i3
          by_cases he : i = b
          · subst he; exact ⟨_, List.mem_singleton.2 rfl, le_refl _, by simp only []; omega⟩
          · obtain ⟨r, hr', _⟩ := h2 i (by omega) (by omega) i3
            simp at hr'
      | cons e more =>
        obtain ⟨f, l⟩ := e
        rw [hr] at h1 h2
        dsimp only
        split
        · rename_i hf
          subst hf
          refine ⟨?_, ?_⟩
          · intro r hr'
            rcases List.mem_cons.1 hr' with rfl | hr'
            · have := h1 (b + 1, l) (by simp)
              exact ⟨le_refl _, by dsimp only at *; omega, by dsimp only; omega, fun i i1 i2 => by
                dsimp only at *
                by_cases he : i = b
                · subst he; exact ha
                · exact this.2.2.2 i (by omega) (by omega)⟩
            · have := h1 r (by simp [hr'])
              exact ⟨by omega, by omega, this.2.2.1, this.2.2.2⟩
          · intro i i1 i2 i3
            by_cases he : i = b
            · exact ⟨(b, l + 1), by simp, by dsimp only; omega, by dsimp only; omega⟩
            · obtain ⟨r, hr', h3, h4⟩ := h2 i (by omega) (by omega) i3
              rcases List.mem_cons.1 hr' with rfl | hr'
              · exact ⟨(b, l + 1), by simp, by dsimp only at *; omega, by dsimp only at *; omega⟩
              · exact ⟨r, by simp [hr'], h3, h4⟩
        · refine ⟨?_, ?_⟩
          · intro r hr'
            rcases List.mem_cons.1 hr' with rfl | hr'
            · exact ⟨le_refl _, by dsimp only; omega, Nat.one_pos, fun i i1 i2 => by
                have : i = b := by dsimp only at *; omega
                subst this; exact ha⟩
            · have := h1 r hr'
              exact ⟨by omega, by omega, this.2.2.1, this.2.2.2⟩
          · intro i i1 i2 i3
            by_cases he : i = b
            · exact ⟨(b, 1), by simp, by dsimp only; omega, by dsimp only; omega⟩
            · obtain ⟨r, hr', h3⟩ := h2 i (by omega) (by omega) i3
              exact ⟨r, by simp only [List.mem_cons]; right; exact List.mem_cons.1 hr', h3⟩
    · rename_i ha
      refine ⟨?_, ?_⟩
      · intro r hr'
        have := h1 r hr'
        exact ⟨by omega, by omega, this.2.2.1, this.2.2.2⟩
      · intro i i1 i2 i3
        by_cases he : i = b
        · subst he; simp [i3] at ha
        · exact h2 i (by omega) (by omega) i3

/-- Where the pieces of an access to 64 bytes lie, and what they hold. -/
structure LaidOut (va : Word) (bs : List Byte) (p : Piece) : Prop where
  addr : p.va.toNat = va.toNat + p.off
  pos : p.bytes ≠ []
  fits : p.off + p.bytes.length ≤ 64
  holds : p.bytes = (bs.drop p.off).take p.bytes.length

theorem Covers.placed {va : Word} {lim off : Nat} {bs : List Byte} {ps : List Piece} (h : Covers va off bs ps)
    (hl : va.toNat + bs.length ≤ lim) (hm : lim < 2 ^ 64) :
    (∀ p ∈ ps, off ≤ p.off ∧ p.off + p.bytes.length ≤ off + bs.length ∧ p.va.toNat + off = va.toNat + p.off ∧ p.bytes ≠ []
      ∧ p.bytes = (bs.drop (p.off - off)).take p.bytes.length)
    ∧ ∀ i, off ≤ i → i < off + bs.length → ∃ p ∈ ps, p.off ≤ i ∧ i < p.off + p.bytes.length := by
  induction h with
  | nil => exact ⟨by simp, fun i h1 h2 => by simp at h2; omega⟩
  | cons va off b bs cs ps h ih =>
    simp only [List.length_append, List.length_cons] at hl
    have e := w64_add_toNat (va := va) (n := bs.length + 1) (m := lim) (by omega) hm
    obtain ⟨h1, h2⟩ := ih (by omega)
    refine ⟨?_, ?_⟩
    · intro p hp
      rcases List.mem_cons.1 hp with rfl | hp
      · simp [mkPiece]
      · obtain ⟨i1, i2, i3, i4, i5⟩ := h1 p hp
        refine ⟨by omega, by simp only [List.length_append, List.length_cons]; omega, by omega, i4, ?_⟩
        rw [List.drop_append, List.drop_eq_nil_of_le (by simp only [List.length_cons]; omega), List.nil_append, List.length_cons]
        rw [show p.off - off - (bs.length + 1) = p.off - (off + (bs.length + 1)) by omega]
        exact i5
    · intro i i1 i2
      simp only [List.length_append, List.length_cons] at i2
      by_cases hi : i < off + (bs.length + 1)
      · exact ⟨_, List.mem_cons_self .., i1, by simpa [mkPiece] using hi⟩
      · obtain ⟨p, hp, i3⟩ := h2 i (by omega) (by omega)
        exact ⟨p, by simp [hp], i3⟩

/-- The pieces of a masked access lie at its active bytes and hold what is to be stored there. -/
theorem maskedPieces_spec (va : Word) (act : Nat → Bool) {bs : List Byte} (hb : bs.length = 64) {lim : Nat}
    (hl : va.toNat + 64 ≤ lim) (hm : lim < 2 ^ 64) :
    (∀ p ∈ maskedPieces va act bs, LaidOut va bs p)
    ∧ ∀ i, i < 64 → ((∃ p ∈ maskedPieces va act bs, p.off ≤ i ∧ i < p.off + p.bytes.length) ↔ act i = true) := by
  obtain ⟨h1, h2⟩ := activeRuns_spec act 64 0
  have hr : ∀ r ∈ activeRuns act 64 0, (∀ p ∈ vectorPieces r.2 (va + w64 r.1) r.1 ((bs.drop r.1).take r.2),
        LaidOut va bs p ∧ r.1 ≤ p.off ∧ p.off + p.bytes.length ≤ r.1 + r.2)
      ∧ ∀ i, r.1 ≤ i → i < r.1 + r.2 → ∃ p ∈ vectorPieces r.2 (va + w64 r.1) r.1 ((bs.drop r.1).take r.2),
        p.off ≤ i ∧ i < p.off + p.bytes.length := by
    intro r hr
    obtain ⟨i1, i2, i3, i4⟩ := h1 r hr
    have e := w64_add_toNat (va := va) (n := r.1) (m := lim) (by omega) hm
    have hlen : ((bs.drop r.1).take r.2).length = r.2 := by simp only [List.length_take, List.length_drop]; omega
    obtain ⟨j1, j2⟩ := (vectorPieces_covers (va + w64 r.1) r.1 (fuel := r.2) (bs := (bs.drop r.1).take r.2) (by omega)).placed
      (lim := lim) (by rw [hlen]; omega) hm
    refine ⟨fun p hp => ?_, fun i k1 k2 => j2 i k1 (by rw [hlen]; exact k2)⟩
    obtain ⟨k1, k2, k3, k4, k5⟩ := j1 p hp
    rw [hlen] at k2
    refine ⟨⟨by omega, k4, by omega, ?_⟩, k1, k2⟩
    conv_lhs => rw [k5]
    rw [List.drop_take, List.drop_drop, List.take_take]
    congr 1
    · omega
    · congr 1; omega
  refine ⟨?_, fun i hi => ⟨?_, ?_⟩⟩
  · intro p hp
    simp only [maskedPieces, List.mem_flatten, List.mem_map] at hp
    obtain ⟨_, ⟨r, hr', rfl⟩, hp⟩ := hp
    exact ((hr r hr').1 p hp).1
  · rintro ⟨p, hp, h3, h4⟩
    simp only [maskedPieces, List.mem_flatten, List.mem_map] at hp
    obtain ⟨_, ⟨r, hr', rfl⟩, hp⟩ := hp
    obtain ⟨_, h5, h6⟩ := (hr r hr').1 p hp
    exact (h1 r hr').2.2.2 i (by omega) (by omega)
  · intro ha
    obtain ⟨r, hr', h3, h4⟩ := h2 i (by omega) (by omega) ha
    obtain ⟨p, hp, h5⟩ := (hr r hr').2 i h3 h4
    exact ⟨p, by simp only [maskedPieces, List.mem_flatten, List.mem_map]; exact ⟨_, ⟨r, hr', rfl⟩, hp⟩, h5⟩

/-! ### Vector loads and stores of the own pool -/

theorem maskedPieces_below {va : Word} {act : Nat → Bool} {bs : List Byte} {lim : Nat} (hb : bs.length = 64)
    (hl : va.toNat + 64 ≤ lim) (hm : lim < 2 ^ 64) : AllBelow lim (maskedPieces va act bs) := by
  intro p hp
  have h := (maskedPieces_spec va act hb hl hm).1 p hp
  exact ⟨by have := h.addr; have := h.fits; omega, h.pos⟩

theorem memBytes_getD (m : List Host.Cell) (a n i : Nat) (hi : i < n) : (memBytes m a n).getD i 0 = memByte m (a + i) := by
  induction n generalizing a i with
  | zero => omega
  | succ n ih =>
    cases i with
    | zero => rfl
    | succ i =>
      simp only [memBytes, List.getD_cons_succ]
      rw [ih (a + 1) i (by omega)]
      congr 1; omega

/-- The bytes of pieces put into a list of 64 bytes, one piece after another. -/
theorem patch_get {K : Nat} {m : List Host.Cell} {va : Word} {bs : List Byte} {ps : List Piece} (hp : ∀ p ∈ ps, LaidOut va bs p)
    (core : Nat) (hK : K = poolBase core + va.toNat) {f : List Byte → Piece → List Byte}
    (hf : ∀ acc p key, p.loc = .here key → f acc p = acc.take p.off ++ memBytes m key p.bytes.length ++ acc.drop (p.off + p.bytes.length))
    (acc : List Byte) (ha : acc.length = 64) :
    ((ps.map (Piece.owned core)).foldl f acc).length = 64
    ∧ ∀ i, i < 64 → ((∃ p ∈ ps, p.off ≤ i ∧ i < p.off + p.bytes.length) →
        ((ps.map (Piece.owned core)).foldl f acc).getD i 0 = memByte m (K + i))
      ∧ ((¬ ∃ p ∈ ps, p.off ≤ i ∧ i < p.off + p.bytes.length) →
        ((ps.map (Piece.owned core)).foldl f acc).getD i 0 = acc.getD i 0) := by
  induction ps generalizing acc with
  | nil => exact ⟨ha, fun i hi => ⟨by simp, fun _ => rfl⟩⟩
  | cons p ps ih =>
    have h := hp p (by simp)
    have hfit := h.fits
    have e1 : f acc (Piece.owned core p) = acc.take p.off ++ memBytes m (K + p.off) p.bytes.length ++ acc.drop (p.off + p.bytes.length) := by
      rw [hf acc (Piece.owned core p) (poolBase core + p.va.toNat) rfl, hK, h.addr, Nat.add_assoc]; rfl
    have hlen : (f acc (Piece.owned core p)).length = 64 := by
      rw [e1]; simp only [List.length_append, List.length_take, List.length_drop, memBytes_length]; omega
    obtain ⟨r1, r2⟩ := ih (fun q hq => hp q (by simp [hq])) (f acc (Piece.owned core p)) hlen
    refine ⟨r1, fun i hi => ?_⟩
    obtain ⟨r3, r4⟩ := r2 i hi
    simp only [List.map_cons, List.foldl_cons]
    have hin : p.off ≤ i ∧ i < p.off + p.bytes.length → (f acc (Piece.owned core p)).getD i 0 = memByte m (K + i) := by
      rintro ⟨i1, i2⟩
      rw [e1, List.getD_eq_getElem?_getD, List.append_assoc, List.getElem?_append_right (by simp only [List.length_take]; omega)]
      have : i - (acc.take p.off).length = i - p.off := by simp only [List.length_take]; omega
      rw [this, List.getElem?_append_left (by simp only [memBytes_length]; omega), ← List.getD_eq_getElem?_getD,
        memBytes_getD _ _ _ _ (by omega)]
      congr 1; omega
    have hout : ¬ (p.off ≤ i ∧ i < p.off + p.bytes.length) → (f acc (Piece.owned core p)).getD i 0 = acc.getD i 0 := by
      intro hn
      rw [e1, List.getD_eq_getElem?_getD, List.getD_eq_getElem?_getD]
      by_cases h1 : i < p.off
      · rw [List.append_assoc, List.getElem?_append_left (by simp only [List.length_take]; omega), List.getElem?_take_of_lt h1]
      · rw [List.getElem?_append_right (by simp only [List.length_append, List.length_take, memBytes_length]; omega)]
        simp only [List.length_append, List.length_take, memBytes_length, List.getElem?_drop]
        congr 2; omega
    refine ⟨?_, ?_⟩
    · rintro ⟨q, hq, h3⟩
      by_cases hx : ∃ q ∈ ps, q.off ≤ i ∧ i < q.off + q.bytes.length
      · exact r3 hx
      · rw [r4 hx]
        rcases List.mem_cons.1 hq with rfl | hq
        · exact hin h3
        · exact absurd ⟨q, hq, h3⟩ hx
    · intro hn
      rw [r4 fun ⟨q, hq, h3⟩ => hn ⟨q, by simp [hq], h3⟩]
      exact hout fun h3 => hn ⟨p, by simp, h3⟩

/-- The bytes that a load of the own pool reads, each at its place. -/
theorem placed_owned {s : State} {core lim : Nat} {ps : List Piece} (h : AllBelow lim ps) (hl : lim ≤ poolSize) :
    placedBytes ((ps.map (Piece.owned core)).map (readOwn s core)) =
      (ps.map (Piece.owned core)).foldl (fun (acc : List Byte) p => match p.loc with
        | .here key => acc.take p.off ++ memBytes s.mem key p.bytes.length ++ acc.drop (p.off + p.bytes.length)
        | _ => acc) (List.replicate 64 0) := by
  have key : ∀ (ps : List Piece), AllBelow lim ps → ∀ acc : List Byte,
      ((ps.map (Piece.owned core)).map (readOwn s core)).foldl
        (fun acc p => acc.take p.off ++ p.bytes ++ acc.drop (p.off + p.bytes.length)) acc =
      (ps.map (Piece.owned core)).foldl (fun (acc : List Byte) p => match p.loc with
        | .here key => acc.take p.off ++ memBytes s.mem key p.bytes.length ++ acc.drop (p.off + p.bytes.length)
        | _ => acc) acc := by
    intro ps
    induction ps with
    | nil => intro _ _; rfl
    | cons p ps ih =>
      intro h acc
      simp only [List.map_cons, List.foldl_cons]
      rw [readOwn_owned h hl (List.mem_map_of_mem (List.mem_cons_self ..)), ih fun q hq => h q (by simp [hq])]
      simp [Piece.owned, memBytes_length]
  exact key ps h _

/-- A vector load of the own pool: the active bytes of the register take the bytes of memory, the others stay. -/
theorem vecLoad_own {s : State} {u : Nat} {t : Thread} {y : Sync} {va : Word} (act : Nat → Bool) (hb : Begins s u t y)
    (ho : InOwn s t va 64) (i : Instr) (d : VNum) :
    loadAccess s i y u t (.v d (byteMask act)) va (maskedPieces va act (List.replicate 64 0))
      = finishV s i u t d (BitVec.ofNat 512 (leNat ((List.range 64).map fun b =>
          if act b then memByte s.mem (ownKey t va + b) else (vBytes s t d).getD b 0))) := by
  have hv := vbaseOf_le (s.core t.core).pool
  have h64 : vbaseOf (s.core t.core).pool < 2 ^ 64 := lt_of_le_of_lt hv (by decide)
  have hlen : (List.replicate 64 (0 : Byte)).length = 64 := by simp
  have ha : AllBelow (vbaseOf (s.core t.core).pool) (maskedPieces va act (List.replicate 64 0)) :=
    maskedPieces_below hlen ho.below h64
  obtain ⟨m1, m2⟩ := maskedPieces_spec va act hlen ho.below h64
  simp only [loadAccess, hb.fresh, hb.noAcquire, Bool.false_eq_true, if_false]
  rw [checkPieces_own t.cid rRead ha (le_refl _), resolvePieces_own t.cid rRead ha (le_refl _)]
  simp only [allOwn_own ha hv, if_true]
  split
  · rename_i q hq
    have hw : ∀ p ∈ maskedPieces va act (List.replicate 64 0), va.toNat ≤ p.va.toNat ∧ p.va.toNat + p.bytes.length ≤ va.toNat + 64 :=
      fun p hp => by have := (m1 p hp).addr; have := (m1 p hp).fits; omega
    obtain ⟨key, h1, h2⟩ := owned_clean hw ho.clean (List.mem_of_find?_eq_some hq)
    have := List.find?_some hq
    simp [h1, h2] at this
  · refine congrArg (fun l => finishV s i u t d (BitVec.ofNat 512 (leNat l))) ?_
    simp only [mergeBytes]
    apply List.map_congr_left
    intro b hb'
    have hb' : b < 64 := List.mem_range.1 hb'
    rw [byteMask_get act hb']
    split
    · rename_i hact
      have := patch_get (K := ownKey t va) (m := s.mem) m1 t.core rfl
        (f := fun (acc : List Byte) p => match p.loc with
              | .here key => acc.take p.off ++ memBytes s.mem key p.bytes.length ++ acc.drop (p.off + p.bytes.length)
              | _ => acc) (fun acc p key h => by simp [h]) (List.replicate 64 0) hlen
      exact (congrArg (fun l => l.getD b 0) (placed_owned ha hv)).trans ((this.2 b hb').1 ((m2 b hb').2 hact))
    · rfl

/-- Stores of pieces, byte by byte. -/
theorem stores_get {va : Word} {bs : List Byte} {ps : List Piece} (core : Nat) (hp : ∀ p ∈ ps, LaidOut va bs p)
    {f : State → Piece → State}
    (hf : ∀ (s : State) (key : Nat) (p : Piece), p.loc = .here key → storeBlocked s key p.bytes.length = false →
      f s p = storeBytes s key p.bytes)
    (s : State) (hw : Memory.wf s.mem = true) (hc : touchesPoison s (poolBase core + va.toNat) 64 = false) :
    Memory.wf ((ps.map (Piece.owned core)).foldl f s).mem = true
    ∧ (∀ k, ((ps.map (Piece.owned core)).foldl f s).word k = s.word k)
    ∧ ((ps.map (Piece.owned core)).foldl f s).threads = s.threads
    ∧ (∀ i, i < 64 → ((∃ p ∈ ps, p.off ≤ i ∧ i < p.off + p.bytes.length) →
        memByte ((ps.map (Piece.owned core)).foldl f s).mem (poolBase core + va.toNat + i) = bs.getD i 0)
      ∧ ((¬ ∃ p ∈ ps, p.off ≤ i ∧ i < p.off + p.bytes.length) →
        memByte ((ps.map (Piece.owned core)).foldl f s).mem (poolBase core + va.toNat + i) = memByte s.mem (poolBase core + va.toNat + i)))
    ∧ ∀ a, (a < poolBase core + va.toNat ∨ poolBase core + va.toNat + 64 ≤ a) →
        memByte ((ps.map (Piece.owned core)).foldl f s).mem a = memByte s.mem a := by
  induction ps generalizing s with
  | nil => exact ⟨hw, fun _ => rfl, rfl, fun i hi => ⟨by simp, fun _ => rfl⟩, fun _ _ => rfl⟩
  | cons p ps ih =>
    have h := hp p (by simp)
    have hfit := h.fits
    have hadd := h.addr
    have hk : isPoolKey (poolBase core + p.va.toNat) = true := isPoolKey_of (Nat.le_trans (poolBase_ge core) (Nat.le_add_right _ _))
    have hc1 : touchesPoison s (poolBase core + p.va.toNat) p.bytes.length = false := touchesPoison_sub hc (by omega) (by omega)
    have h1 : f s (Piece.owned core p) = putBytes s (poolBase core + p.va.toNat) p.bytes := by
      rw [hf s (poolBase core + p.va.toNat) (Piece.owned core p) rfl (storeBlocked_clean hc1)]
      exact storeBytes_pool hk hc1
    simp only [List.map_cons, List.foldl_cons, h1]
    obtain ⟨r1, r2, r3, r4, r5⟩ := ih (fun q hq => hp q (by simp [hq])) (putBytes s (poolBase core + p.va.toNat) p.bytes)
      (memPutBytes_wf hw _ _) (by rw [touchesPoison_congr (putBytes_word s _ _)]; exact hc)
    have hb : poolBase core + p.va.toNat = poolBase core + va.toNat + p.off := by omega
    refine ⟨r1, fun k => (r2 k).trans rfl, r3.trans rfl, fun i hi => ?_, fun a ha => ?_⟩
    · obtain ⟨r6, r7⟩ := r4 i hi
      refine ⟨?_, ?_⟩
      · rintro ⟨q, hq, h3⟩
        by_cases hx : ∃ q ∈ ps, q.off ≤ i ∧ i < q.off + q.bytes.length
        · exact r6 hx
        · rw [r7 hx]
          rcases List.mem_cons.1 hq with rfl | hq
          · have hi2 : poolBase core + va.toNat + i = poolBase core + q.va.toNat + (i - q.off) := by omega
            rw [putBytes_mem, hi2, memByte_memPutBytes hw _ _ _ (by omega), h.holds, List.getD_eq_getElem?_getD]
            rw [List.getElem?_take_of_lt (by omega), List.getElem?_drop, ← List.getD_eq_getElem?_getD]
            congr 1; omega
          · exact absurd ⟨q, hq, h3⟩ hx
      · intro hn
        rw [r7 fun ⟨q, hq, h3⟩ => hn ⟨q, by simp [hq], h3⟩, putBytes_mem]
        refine memByte_memPutBytes_out ?_
        by_contra hcon
        exact hn ⟨p, by simp, by omega, by omega⟩
    · rw [r5 a ha, putBytes_mem]
      exact memByte_memPutBytes_out (by omega)

/-- A vector store to the own pool: the active bytes go to memory, every other byte stays. -/
theorem vecStore_own {s : State} {u : Nat} {t : Thread} {y : Sync} {va : Word} (act : Nat → Bool) {bs : List Byte} (hlen : bs.length = 64)
    (hw : Memory.wf s.mem = true) (hb : Begins s u t y) (ho : InOwn s t va 64) (i : Instr) :
    ∃ s1, storeAccess s i y u t va (maskedPieces va act bs) = finish s1 i u t
      ∧ (∀ b, b < 64 → memByte s1.mem (ownKey t va + b) = if act b = true then bs.getD b 0 else memByte s.mem (ownKey t va + b))
      ∧ (∀ a, (a < ownKey t va ∨ ownKey t va + 64 ≤ a) → memByte s1.mem a = memByte s.mem a)
      ∧ (∀ k, s1.word k = s.word k) ∧ s1.threads = s.threads := by
  have hv := vbaseOf_le (s.core t.core).pool
  have h64 : vbaseOf (s.core t.core).pool < 2 ^ 64 := lt_of_le_of_lt hv (by decide)
  have ha : AllBelow (vbaseOf (s.core t.core).pool) (maskedPieces va act bs) := maskedPieces_below hlen ho.below h64
  obtain ⟨m1, m2⟩ := maskedPieces_spec va act hlen ho.below h64
  have hord : (decide (2 ≤ syOrder y) && accessesBefore s u s.nextId) = false := by
    by_cases h : 2 ≤ syOrder y
    · simp [hb.ordered h]
    · simp [h]
  simp only [storeAccess, hb.noAcquire, Bool.false_eq_true, if_false, storesOwn_own ha hv, if_true, hord]
  have hwi : ∀ p ∈ maskedPieces va act bs, va.toNat ≤ p.va.toNat ∧ p.va.toNat + p.bytes.length ≤ va.toNat + 64 :=
    fun p hp => by have := (m1 p hp).addr; have := (m1 p hp).fits; omega
  have hn : ∀ q ∈ (maskedPieces va act bs).map (Piece.owned t.core), ownStoreFault s t q = none :=
    fun q hq => ownStoreFault_none ha (le_refl _) hwi ho.clean hq
  rw [resolvePieces_own t.cid rWrite ha (le_refl _), standing_all hn,
    List.findSome?_eq_none_iff.2 fun q hq => by rw [hn q hq, Option.map_none]]
  simp only
  rw [foldl_fixed (s := s) fun q hq => by
    obtain ⟨key, h1, h2⟩ := owned_clean hwi ho.clean hq
    simp only [h1, softRecord_clean h2]]
  refine ⟨_, rfl, ?_⟩
  obtain ⟨r1, r2, r3, r4, r5⟩ := stores_get (f := fun s p => match p.loc with
      | .here key => storeBytes s key p.bytes
      | _ => s) t.core m1 (fun s key p h1 _ => by simp [h1]) s hw ho.clean
  refine ⟨fun b hb' => ?_, r5, r2, r3⟩
  obtain ⟨r6, r7⟩ := r4 b hb'
  by_cases hact : act b = true
  · rw [if_pos hact]; exact r6 ((m2 b hb').2 hact)
  · rw [if_neg hact]; exact r7 fun h => hact ((m2 b hb').1 h)

/-! ### Results of vector instructions -/

theorem elemCount_bits (ty : EType) : 512 % ty.bits = 0 ∧ 0 < ty.bits := by cases ty <;> decide

theorem elemOf_lt (x : BitVec 512) (w j : Nat) : elemOf x w j < 2 ^ w := Nat.mod_lt _ (Nat.pow_pos (by decide))

theorem element_eq (s : State) (t : Thread) (ty : EType) (n : VNum) (j : Nat) : element s t ty n j = elemOf (vval s t n) ty.bits j := by
  unfold element elemOf; rfl

theorem word_mem (s : State) (m : List Host.Cell) (k : Nat) : State.word { s with mem := m } k = s.word k := rfl

theorem setVData_mem (s : State) (t : Thread) (d : VNum) (x : BitVec 512) :
    (setVData s t d x).mem = memPutBytes s.mem (vregKey t.core t.pool t.slot d) (leBytes 64 x.toNat) := by
  simp only [setVData]
theorem ctx_mem (s : State) (m : List Host.Cell) (c : Nat) : State.ctx? { s with mem := m } c = s.ctx? c := rfl

theorem setVData_ctx (s : State) (t : Thread) (d : VNum) (x : BitVec 512) (c : Nat) : (setVData s t d x).ctx? c = s.ctx? c := by
  unfold setVData
  exact ctx_mem ..

theorem setVData_word (s : State) (t : Thread) (d : VNum) (x : BitVec 512) (k : Nat) : (setVData s t d x).word k = s.word k := by
  unfold setVData
  exact word_mem ..

theorem element_lt (s : State) (t : Thread) (ty : EType) (n : VNum) (j : Nat) : element s t ty n j < 2 ^ ty.bits := by
  rw [element_eq]; exact elemOf_lt ..

theorem governing_bits (ty : EType) (j : Nat) : governing ty.bits j = maskBit ty j := by
  cases ty <;> simp [governing, maskBit, EType.bits] <;> omega

theorem maskActive_bits (k : VMask) (t : Thread) (ty : EType) (j : Nat) : maskActive k t ty.bits j = governs k t ty j := by
  simp only [maskActive, governs, governing_bits]

theorem activeElems_bits (k : VMask) (t : Thread) (ty : EType) : activeElems k t ty.bits = actives k t ty := by
  unfold activeElems actives elemCount
  exact List.filter_congr fun j _ => maskActive_bits k t ty j

/-- A register's data read back after they are written. -/
theorem vval_setVData {s : State} (hw : Memory.wf s.mem = true) (t : Thread) (d : VNum) (x : BitVec 512) : vval (setVData s t d x) t d = x := by
  have h := memBytes_memPutBytes hw (vregKey t.core t.pool t.slot d) (leBytes 64 x.toNat)
  rw [leBytes_length] at h
  have hx : x.toNat % 256 ^ 64 = x.toNat := Nat.mod_eq_of_lt (by rw [show (256 : Nat) = 2 ^ 8 from rfl, ← Nat.pow_mul]; exact x.isLt)
  simp only [vval, vBytes, setVData, h, leNat_leBytes, hx, BitVec.ofNat_toNat, BitVec.setWidth_eq]

/-- What a register whose elements are built one by one holds. -/
theorem setVData_elements {s : State} (hw : Memory.wf s.mem = true) {t t1 : Thread} {k : VMask} {ty : EType} {d : VNum} {r f : Nat → Nat}
    (hf : ∀ j, j < 512 / ty.bits → f j % 2 ^ ty.bits = if governs k t ty j = true then r j else element s t ty d j)
    (hg : t1.g = t.g) (hq : t1.q = t.q) (hv : ∀ n, n ≠ d → t1.v.get n = t.v.get n) :
    Elements s (setVData s t d (buildV ty.bits f)) t t1 k ty d r := by
  have e : ∀ j, j < 512 / ty.bits → element (setVData s t d (buildV ty.bits f)) t ty d j = f j % 2 ^ ty.bits := fun j hj => by
    rw [element_eq, vval_setVData hw]
    exact elemOf_buildV (elemCount_bits ty).1 f hj
  refine ⟨fun j hj h => by rw [e j hj, hf j hj, if_pos h], fun j hj h => by rw [e j hj, hf j hj, if_neg (by simp [h])], fun a ha => ?_,
    fun w => setVData_word s t d _ w, hg, hq, hv⟩
  rw [setVData_mem]
  exact memByte_memPutBytes_out (by simpa using ha)

theorem addCount_ctx {s : State} {c : Nat} {x : Context} (hx : s.ctx? c = some x) (cls : Fin 13) (n : Nat) :
    (addCount s c cls n).ctx? c = some (x.addCount cls n) := by
  simp only [State.ctx?] at hx
  simp [addCount, State.modCtx, hx, State.ctx?]

theorem counter_added (x : Context) (cls : Fin 13) (n : Nat) :
    ((x.addCount cls n).counters.get cls).toNat
      = if x.final then (x.counters.get cls).toNat else min ((x.counters.get cls).toNat + n) (2 ^ 64 - 1) := by
  unfold Context.addCount max64
  have := (x.counters.get cls).isLt
  split
  · rfl
  split
  · simp only [vget_set, BitVec.toNat_allOnes]; omega
  · simp only [vget_set, BitVec.toNat_add, w64, BitVec.toNat_ofNat]; omega

theorem addCount_counted (s : State) (t : Thread) (cls : Fin 13) (n : Nat) : Counted s (addCount s t.cid cls n) t cls n := by
  intro x hx
  refine ⟨_, addCount_ctx hx cls n, counter_added x cls n, fun c hc => ?_⟩
  unfold Context.addCount
  split
  · rfl
  split
  · exact vget_set_ne _ hc _
  · exact vget_set_ne _ hc _

theorem modCtx_keeps {α : Type} (f : State → α) (s : State) (c : Nat) (g : Context → Context)
    (h : ∀ x : Table Context, f { s with contexts := x } = f s) : f (s.modCtx c g) = f s := by
  unfold State.modCtx
  split
  · exact h _
  · rfl

@[simp] theorem addCount_mem (s : State) (c : Nat) (i : Fin 13) (n : Nat) : (addCount s c i n).mem = s.mem := modCtx_mem ..
theorem addCount_word (s : State) (c : Nat) (i : Fin 13) (n k : Nat) : (addCount s c i n).word k = s.word k :=
  modCtx_keeps (fun s => s.word k) s c _ fun _ => rfl

theorem Elements.counted {s s1 : State} {t t1 : Thread} {k : VMask} {ty : EType} {d : VNum} {r : Nat → Nat} (h : Elements s s1 t t1 k ty d r)
    (c : Nat) (i : Fin 13) (n : Nat) : Elements s (addCount s1 c i n) t t1 k ty d r := by
  have e : ∀ j, element (addCount s1 c i n) t ty d j = element s1 t ty d j := fun j => by
    simp only [element, vval, vBytes, addCount_mem]
  exact ⟨fun j hj hg => (e j).trans (h.active j hj hg), fun j hj hg => (e j).trans (h.inactive j hj hg),
    fun a ha => by rw [addCount_mem]; exact h.rest a ha, fun w => (addCount_word ..).trans (h.states w), h.scalars, h.masks, h.vectors⟩

theorem fillV_g (t : Thread) (d : VNum) (b : Bool) (f : Flags) : ((t.fillV d b).addFlags f).g = t.g := by cases b <;> rfl
theorem fillV_q (t : Thread) (d : VNum) (b : Bool) (f : Flags) : ((t.fillV d b).addFlags f).q = t.q := by cases b <;> rfl
theorem fillV_pc (t : Thread) (d : VNum) (b : Bool) (f : Flags) : ((t.fillV d b).addFlags f).pc = t.pc := by cases b <;> rfl
theorem fillV_fflags (t : Thread) (d : VNum) (b : Bool) (f : Flags) : ((t.fillV d b).addFlags f).fflags = t.fflags ||| f := by
  cases b <;> rfl
theorem fillV_v (t : Thread) {d n : VNum} (h : n ≠ d) (b : Bool) (f : Flags) : ((t.fillV d b).addFlags f).v.get n = t.v.get n := by
  cases b
  · rfl
  · exact vget_set_ne _ h _

/-- An element-wise instruction whose operands are at hand. -/
theorem elementWise_computes {s : State} {u : Nat} {t : Thread} {y : Sync} {k : VMask} {ty : EType} {d a : VNum} {b : Option VNum}
    {readsD : Bool} (i : Instr) (each : Nat) (f : Nat → Nat → Nat → Nat → Nat × Flags) (hw : Memory.wf s.mem = true)
    (h : Goes s u t ((RegName.v a :: if readsD then [RegName.v d] else []) ++ b.toList.map RegName.v) [.v d]) (r : Nat → Nat × Flags)
    (hr : ∀ j, f t.frm.toNat (elemOf (vval s t a) ty.bits j) (elemOf (secondData s t b) ty.bits j)
      (elemOf (vval s t d) ty.bits j) = r j) :
    ∃ s1 t1, elementWise s i y k ty d a b readsD each f = .next (retireTo s1 u t1 (t.pc + w64 i.len))
      ∧ Elements s s1 t t1 k ty d (fun j => (r j).1 % 2 ^ ty.bits)
      ∧ t1.fflags = t.fflags ||| (actives k t ty).foldl (fun g j => g ||| (r j).2) 0
      ∧ Counted s s1 t (countClass ty) (each * (actives k t ty).length) := by
  simp only [elementWise]
  rw [issue_go y _ h]
  simp only [vecDone, hr, activeElems_bits]
  refine ⟨addCount (setVData s t d (buildV ty.bits fun j => if maskActive k t ty.bits j then (r j).1 else elemOf (vval s t d) ty.bits j)) t.cid
      (countClass ty) (each * (actives k t ty).length),
    (t.fillV d (!(actives k t ty).isEmpty)).addFlags ((actives k t ty).foldl (fun g j => g ||| (r j).2) 0), ?_, ?_, ?_, ?_⟩
  · simp only [finish, nextPc, fillV_pc]
  · refine Elements.counted (setVData_elements hw (fun j hj => ?_) (fillV_g ..) (fillV_q ..) fun n hn => fillV_v t hn _ _) _ _ _
    rw [maskActive_bits]
    split
    · simp only []
    · rw [element_eq]; exact Nat.mod_eq_of_lt (elemOf_lt ..)
  · exact fillV_fflags ..
  · intro x hx
    exact addCount_counted _ t _ _ x (by rw [setVData_ctx]; exact hx)

end Sys2Proof.Machine
end

