-- ==== Sys2Proof/Machine/Scopes.lean ====
section
/-! DEFINITION. Scopes and their instances, home scopes, and which release and acquire can synchronise (R138, R139, R143). A step holds a
release at any scope until every earlier access is acknowledged, and an acquire at any scope before every later access (R141, R163), so
these definitions say which pairs a program may rely on, and change no step (log 12). -/

namespace Sys2Proof.Machine

open Sys2Proof

/-- An agent as scopes see it: an agent of a core's slot on a device of the domain, or the host (R138). -/
inductive ScopeAgent where
  | slot (dev core slot : Nat)
  | host
  deriving DecidableEq, Repr

/-- Whether two cores of a device lie in one instance of tile or cluster scope, a unit of the device: a steward core lies in no tile of a
cluster and in no cluster, so that its own agents alone do with it (R71, R138). -/
def sameUnit (unit : Nat → Nat) (c f : Nat) : Bool := if isSteward c || isSteward f then c == f else unit c == unit f

/-- Whether the second agent lies in the first one's instance of a scope, by the scope's code. The host is an agent at system scope
only (R138). -/
def inInstance (scope : Nat) (a b : ScopeAgent) : Bool :=
  match a, b with
  | .slot d c k, .slot e f l =>
    match scope with
    | 0 => d == e && c == f && k == l
    | 1 => d == e && c == f
    | 2 => d == e && sameUnit tileOf c f
    | 3 => d == e && sameUnit clusterOf c f
    | 4 => d == e && dieOf c == dieOf f
    | 5 => d == e
    | _ => true
  | _, _ => decide (7 ≤ scope)

/-- The home scope of a word: cluster for a word of a core pool, domain for a translated one (R139). -/
def homeScope (key : Nat) : Nat := if isPoolKey key then 3 else 6

/-- The scope of a SYNC prefix on a word-state access: code 0 means home (R140). -/
def wordScope (key code : Nat) : Nat := if code = 0 then homeScope key else code

/-- Whether a release of A at scope S and an acquire of B at scope S' can synchronise (R139). -/
def maySynchronise (s : Nat) (a : ScopeAgent) (s' : Nat) (b : ScopeAgent) : Bool := inInstance s a b && inInstance s' b a

/-- Whether an acquire reads every byte that a release wrote: the bytes by their first key and their number (R143). -/
def readsAll (relKey relLen acqKey acqLen : Nat) : Bool := decide (acqKey ≤ relKey) && decide (relKey + relLen ≤ acqKey + acqLen)

/-- A pair is ordered only if its scopes and its bytes allow it (R139, R143). -/
def pairOrders (s : Nat) (a : ScopeAgent) (relKey relLen : Nat) (s' : Nat) (b : ScopeAgent) (acqKey acqLen : Nat) : Bool :=
  maySynchronise s a s' b && readsAll relKey relLen acqKey acqLen

/-- The agent of a thread or handler, as scopes see it. -/
def Thread.scopeAgent (t : Thread) (dev : Nat) : ScopeAgent := .slot dev t.core t.slot

end Sys2Proof.Machine
end

