-- ==== Sys2Proof/Tests/Slice0.lean ====
section
/-! SUPPORT. The model's own tests: ill-formed terms that `wellFormed` refuses, words written out from the spec's encodings, single steps
whose results come from the spec's rules, and for each obligation with hypotheses a state and operands that meet them (`witness_<Name>`). -/

open Sys2Proof Sys2Proof.Machine

namespace Tests

/-! ### Well-formedness -/

/-- A SYNC prefix with nothing set. -/
def plain : SyncF := { scope := 0, order := 0, trs := false, trt := false, kf := false }
/-- No mask. -/
def unmasked : VMask := { m := false, q := 0 }

/-- `casp` names the even register of each of its pairs (R325): g1 is refused. -/
theorem test_operandsOk : (Instr.casp none 1 4 6).operandsOk = false ∧ (Instr.casp none 2 4 6).operandsOk = true := by decide
/-- At most four IMM prefixes (R298), and 4 bits of the base field with none of them. -/
theorem test_immediateOk : (Instr.addImm none 1 { n := 5, raw := 0 }).immediateOk = false
    ∧ (Instr.addImm none 1 { n := 0, raw := 16 }).immediateOk = false ∧ (Instr.addImm none 1 { n := 0, raw := 15 }).immediateOk = true := by
  decide
/-- `add` accepts no order in its SYNC prefix, and a trap bit (R300, R140). -/
theorem test_syncOk : (Instr.add (some { plain with order := 1 }) 1 2).syncOk = false
    ∧ (Instr.add (some { plain with trs := true }) 1 2).syncOk = true := by decide
/-- A SYNC prefix leaves room for three IMM prefixes (R295). -/
theorem test_chainOk : (Instr.addImm (some plain) 1 { n := 4, raw := 0 }).chainOk = false
    ∧ (Instr.addImm (some plain) 1 { n := 3, raw := 0 }).chainOk = true := by decide
/-- A host command has no words and is well formed. -/
theorem test_event_wellFormed : (Instr.sweep 3).wellFormed = true ∧ (Instr.sweep 3).hasWords = false := by decide

/-! ### Words: every one stands in the spec beside the instruction (R309 to R427) -/

/-- The fates of R302's table. -/
theorem test_decode_refusals : decode [0xF280, 0xD100, 0x7049] = .error .badChain
    ∧ decode [0xC001, 0xC001, 0xC001, 0xC001, 0xC001, 0x0400] = .error .badChain ∧ decode [0xE100, 0xE200, 0x0000] = .error .badChain
    ∧ decode [0xE700, 0x0000] = .error .illegal ∧ decode [0xE000, 0x1484] = .error .illegal ∧ decode [0xB400] = .error .illegal
    ∧ decode [0xF001, 0x7048] = .error .illegal ∧ decode [0xD000, 0x1084] = .error .illegal := by decide
/-- A steward instruction is decoded only at steward level (R302 step 3). -/
theorem test_decode_steward : refusalCause (Thread.fresh 0 0 1 3 0) .stewardOnly = .privilege
    ∧ decode [0xE600, 0xA810] = .ok (.ctxld none 4) ∧ decode [0xE600, 0xA410] = .ok (.ctxsv none 4)
    ∧ decode [0xE600, 0xA048] = .ok (.keyrollInstruction none 1 2) := by decide
theorem test_decode_scalar : decode [0x0003] = .ok (.align none) ∧ decode [0x0001] = .ok (.yield none)
    ∧ decode [0xC010, 0x04C0] = .ok (.li none 3 { n := 1, raw := 0x100 })
    ∧ decode [0xC003, 0xC838, 0xC383, 0x0860] = .ok (.lih none 1 { n := 3, raw := 0x38383838 })
    ∧ decode [0xC004, 0x0C40] = .ok (.lea none 1 { n := 1, raw := 64 }) ∧ decode [0x10B0] = .ok (.mov none 2 12)
    ∧ decode [0x161D] = .ok (.sub none 8 7) ∧ decode [0xC000, 0x19E1] = .ok (.subImm none 7 { n := 1, raw := 8 })
    ∧ decode [0xD100, 0x1509] = .ok (.subReg3 none 4 2 1) ∧ decode [0x1E9C] = .ok (.mul none 10 7)
    ∧ decode [0xD300, 0x1C4A] = .ok (.mulReg3 none 2 1 2 3) ∧ decode [0x2048] = .ok (.divI64 none 1 2)
    ∧ decode [0x204B] = .ok (.remN64 none 1 2) ∧ decode [0xD500, 0x20D2] = .ok (.divRemReg3 none 2 3 4 5) := by decide
theorem test_decode_logic : decode [0x248D] = .ok (.andn none 2 3) ∧ decode [0xC00F, 0x287C] = .ok (.logicImm none 0 1 { n := 1, raw := 0xFF })
    ∧ decode [0x2796] = .ok (.or none 14 5) ∧ decode [0xD500, 0x25D2] = .ok (.logicReg3 none 2 7 4 5)
    ∧ decode [0x2613] = .ok (.xor none 8 4) ∧ decode [0x30B0] = .ok (.shiftImm none 0 2 { n := 0, raw := 12 })
    ∧ decode [0x318A] = .ok (.shiftImm none 2 6 { n := 0, raw := 2 }) ∧ decode [0x2C84] = .ok (.shiftReg none 0 2 1)
    ∧ decode [0xD300, 0x2C4B] = .ok (.shiftReg3 none 3 1 2 3) ∧ decode [0x3448] = .ok (.clz none 1 2)
    ∧ decode [0x35D5] = .ok (.ctz none 7 5) ∧ decode [0x35D6] = .ok (.popc none 7 5) ∧ decode [0x39E5] = .ok (.minMax none 1 7 9)
    ∧ decode [0xD300, 0x384A] = .ok (.minMaxReg3 none 2 1 2 3) ∧ decode [0x3CCE] = .ok (.sext none 2 3 3)
    ∧ decode [0x4049] = .ok (.zext none 1 1 2) ∧ decode [0xD300, 0x4848] = .ok (.sel none 1 2 3) := by decide
theorem test_decode_control : decode [0x587C] = .ok (.loop none 1 { n := 0, raw := 15 }) ∧ decode [0x5718] = .ok (.bz none 12 { n := 0, raw := 6 })
    ∧ decode [0xC008, 0x63C0] = .ok (.call none 15 { n := 1, raw := 0x80 }) ∧ decode [0x6414] = .ok (.jr none 5)
    ∧ decode [0x643D] = .ok (.ret none 15) ∧ decode [0x6800] = .ok (.exit none) ∧ decode [0x68C1] = .ok (.exit1 none 3)
    ∧ decode [0xD314, 0x684B] = .ok (.exit4 none 1 2 3 4) ∧ decode [0x6C0C] = .ok (.svc none { n := 0, raw := 3 })
    ∧ decode [0xC004, 0x6C00] = .ok (.svc none { n := 1, raw := 0x40 }) := by decide
theorem test_decode_memory : decode [0x7048] = .ok (.ld none 0 1 2 { n := 0, raw := 0 })
    ∧ decode [0xF280, 0x7048] = .ok (.ld (some { plain with scope := 1, order := 1 }) 0 1 2 { n := 0, raw := 0 })
    ∧ decode [0xC040, 0x7449] = .ok (.ldZext none 1 1 2 { n := 1, raw := 64 }) ∧ decode [0xD402, 0x7C19] = .ok (.ldx none 1 2 0 6 4)
    ∧ decode [0xC008, 0x7AC4] = .ok (.st none 0 11 1 { n := 1, raw := 8 })
    ∧ decode [0xFD00, 0x7850] = .ok (.st (some { plain with scope := 6, order := 2 }) 0 1 4 { n := 0, raw := 0 })
    ∧ decode [0xD203, 0x844C] = .ok (.stx none 0 3 1 3 2) ∧ decode [0x88C4] = .ok (.lds none 3 1 { n := 0, raw := 0 })
    ∧ decode [0xC008, 0x8849] = .ok (.ldf none 1 2 { n := 1, raw := 8 }) ∧ decode [0x884A] = .ok (.ftag none 1 2 { n := 0, raw := 0 })
    ∧ decode [0x8C84] = .ok (.stf none 2 1 { n := 0, raw := 0 }) ∧ decode [0x8C05] = .ok (.ste none 1 { n := 0, raw := 0 })
    ∧ decode [0x9008] = .ok (.pf none 2 { n := 0, raw := 0 }) ∧ decode [0x9403] = .ok (.fenceSc none)
    ∧ decode [0xFA00, 0x9401] = .ok (.fenceRel (some { plain with scope := 5 })) := by decide
theorem test_decode_atomics : decode [0xD700, 0xF500, 0x9C3C] = .ok (.amo (some { plain with scope := 2, order := 2 }) 0 false 0 15 7)
    ∧ decode [0xD301, 0xA0BC] = .ok (.amoResult none 0 false 1 2 15 3) ∧ decode [0xD30C, 0xA049] = .ok (.amoResult none 1 true 4 1 2 3)
    ∧ decode [0xD900, 0xF480, 0xA52C] = .ok (.cas (some { plain with scope := 2, order := 1 }) 4 11 9)
    ∧ decode [0xD600, 0xA50A] = .ok (.casp none 4 2 6) := by decide
theorem test_decode_vector : decode [0xE100, 0xD30A, 0x0048] = .ok (.vadd none unmasked .f32 1 2 3)
    ∧ decode [0xE10A, 0xD60A, 0x0D14] = .ok (.vfma none { m := true, q := 2 } .f32 4 5 6)
    ∧ decode [0xE100, 0xD2EA, 0x0D04] = .ok (.vfma none unmasked .f32 20 17 18) ∧ decode [0xE100, 0xD009, 0x1448] = .ok (.vsqrt none unmasked .f64 1 2)
    ∧ decode [0xE100, 0xD502, 0x48D0] = .ok (.vshr none unmasked .i32 3 4 5) ∧ decode [0xE100, 0xD00A, 0x3000] = .ok (.vabs none unmasked .f32 0 0)
    ∧ decode [0xE100, 0xD00A, 0x5C48] = .ok (.vclass none unmasked .f32 1 2) ∧ decode [0xE120, 0xD30A, 0x4C48] = .ok (.vcmp none unmasked .f32 2 1 2 3)
    ∧ decode [0xE120, 0xD00A, 0x551C] = .ok (.vred none unmasked .f32 2 4 7) ∧ decode [0xE100, 0xD30C, 0x5848] = .ok (.vdot none unmasked .bf16 1 2 3)
    ∧ decode [0xE10C, 0xD30A, 0x5048] = .ok (.vsel none 4 .f32 1 2 3) := by decide
theorem test_decode_vector_moves : decode [0xE200, 0x0004] = .ok (.vld none 0 1 { n := 0, raw := 0 })
    ∧ decode [0xE209, 0xD00A, 0x0004] = .ok (.vldTyped none { m := true, q := 1 } .f32 0 1 { n := 0, raw := 0 })
    ∧ decode [0xE200, 0x046C] = .ok (.vst none 1 11 { n := 0, raw := 0 }) ∧ decode [0xE200, 0xD30A, 0x0848] = .ok (.vgat none unmasked .f32 1 2 3)
    ∧ decode [0xE200, 0xDA0E, 0x1049] = .ok (.vcvt none unmasked .e4m3 .f32 1 1 2) ∧ decode [0xE200, 0xD02A, 0x1048] = .ok (.vcvt none unmasked .f32 .e2m3 0 1 2)
    ∧ decode [0xE200, 0xD30E, 0x1448] = .ok (.vquant none .e4m3 0 0 1 2 3) ∧ decode [0xE200, 0xD30E, 0x1904] = .ok (.vdeq none .e4m3 0 0 4 1 3)
    ∧ decode [0xE200, 0xD300, 0x1C48] = .ok (.vperm none unmasked .i8 1 2 3) ∧ decode [0xE200, 0xD00A, 0x21A0] = .ok (.vbcast none unmasked .f32 6 8)
    ∧ decode [0xE210, 0xD002, 0x24C9] = .ok (.vins none .i32 5 3 2) ∧ decode [0xE210, 0xD002, 0x284D] = .ok (.vext none .i32 5 1 3)
    ∧ decode [0xE240, 0xD000, 0x2C48] = .ok (.qop none 4 1 2 0) ∧ decode [0xE200, 0x3048] = .ok (.vmovqToG none 1 2)
    ∧ decode [0xE200, 0x30D1] = .ok (.vmovqToQ none 3 4) := by decide
theorem test_decode_engines : decode [0xE300, 0xD00E, 0x0110] = .ok (.mma none 0 0 .e4m3 false false 4 4)
    ∧ decode [0xE318, 0xD00E, 0x0120] = .ok (.mma none 0 3 .e4m3 false false 4 8) ∧ decode [0xE302, 0xD080, 0x088C] = .ok (.mrd none 2 18 { n := 0, raw := 3 })
    ∧ decode [0xE300, 0xC005, 0x0840] = .ok (.mrd none 0 1 { n := 1, raw := 80 }) ∧ decode [0xE300, 0x0CD4] = .ok (.mwr none 0 3 { n := 0, raw := 5 })
    ∧ decode [0xE301, 0x1000] = .ok (.mrel none 1) ∧ decode [0xE301, 0x1480] = .ok (.mwm none 1 2) ∧ decode [0xE303, 0x0400] = .ok (.mzero none 3)
    ∧ decode [0xE400, 0xD007, 0x0008] = .ok (.xshape1D none .n64 0 2) ∧ decode [0xE400, 0xD300, 0x0049] = .ok (.xshape none 1 2 3)
    ∧ decode [0xE401, 0xD600, 0x0450] = .ok (.xfer none 1 1 4 6) ∧ decode [0xE400, 0xC400, 0x0980] = .ok (.arrive none 6 { n := 1, raw := 16384 })
    ∧ decode [0xE400, 0x0C18] = .ok (.xwait none 6) := by decide
theorem test_decode_grids_tags : decode [0xE405, 0x200C] = .ok (.gdecl none 5 3) ∧ decode [0xE403, 0x2414] = .ok (.hpub none 3 5)
    ∧ decode [0xE400, 0x2828] = .ok (.hdone none 0 10) ∧ decode [0xE400, 0xDA02, 0x2C1C] = .ok (.ldh none 0 .i32 0 7 10)
    ∧ decode [0xE400, 0xD500, 0x4050] = .ok (.tagpub none 1 4 5) ∧ decode [0xE400, 0x4091] = .ok (.tagpubDrop none 2 4)
    ∧ decode [0xE400, 0xD500, 0x4410] = .ok (.tagwait none 4 5) ∧ decode [0xE400, 0xD500, 0x4411] = .ok (.tagwaitC none 4 5)
    ∧ decode [0xE400, 0x48D0] = .ok (.tagq none 3 4) := by decide
theorem test_decode_threads : decode [0xE500, 0xD101, 0xC014, 0x0260] = .ok (.fork none 1 9 8 { n := 1, raw := 20 } 1)
    ∧ decode [0xE500, 0xDF01, 0x0458] = .ok (.send none 1 1 6 15) ∧ decode [0xE500, 0x0800] = .ok (.hret none)
    ∧ decode [0xE500, 0x0C04] = .ok (.migrate none 1) ∧ decode [0xE500, 0x10D0] = .ok (.endp none 3 4) ∧ decode [0xE500, 0x1400] = .ok (.bar none 0)
    ∧ decode [0xE538, 0x1550] = .ok (.barOp none 7 0 5 4) ∧ decode [0xE502, 0x1401] = .ok (.barA none 2) ∧ decode [0xE501, 0x1800] = .ok (.barw none 1)
    ∧ decode [0xE500, 0x8160] = .ok (.map none 5 8) ∧ decode [0xE500, 0x8450] = .ok (.grant none 1 4) ∧ decode [0xE500, 0x89A0] = .ok (.unmap none 6 8)
    ∧ decode [0xE500, 0x8989] = .ok (.unmapSelf none 6 2) ∧ decode [0xE500, 0x8C8C] = .ok (.mprobe none 2 3) ∧ decode [0xE500, 0x9040] = .ok (.spnew none 1)
    ∧ decode [0xE500, 0x9448] = .ok (.spdel none 1 2) := by decide
theorem test_decode_system : decode [0xE609, 0x0200] = .ok (.sysr none 9 8) ∧ decode [0xE621, 0x0080] = .ok (.sysr none 0x21 2)
    ∧ decode [0xE620, 0x0404] = .ok (.sysw none 0x20 1) ∧ decode [0xE600, 0x0800] = .ok (.tret none) ∧ decode [0xE600, 0x1008] = .ok (.sleep none 2)
    ∧ decode [0xE600, 0x14C0] = .ok (.ctrr none 3) ∧ decode [0xE600, 0x1880] = .ok (.errq none 2) ∧ decode [0xE600, 0x1C40] = .ok (.flags none 1 0) := by decide
/-- The opcode table's numbering: the first word holds bits [15:0]. -/
theorem test_tableWord : decodeTableWord 32 0x1508D100 = some (.addReg3 none 4 2 1) ∧ decodeTableWord 16 0xB400 = none := by decide

/-! ### One thread on a small device -/

/-- A thread of context 1 in slot 0 of core 0, with these values in g0, g1 and so on. -/
def threadOf (xs : List Word) : Thread :=
  { Thread.fresh 0 0 1 3 0x1000000000000 with g := Vector.ofFn fun n => GReg.ofWord (xs.getD n.val 0) }

/-- The context of the tests: of tenant 1 and space 1, in partition 0. -/
def ctx1 : Context := Context.fresh 0 0 1 1

/-- A node of space 1 that maps one page of this device, with every right. -/
def node1 : Node :=
  { space := 1, vpage := 0x1000000000, pages := 1, dev := 0, page := 0, rights := 31, parent := none, parentDev := none, depth := 0
    tenant := 1, withdrawn := false }

/-- A booted device with one thread, which issues. Core 0 is of context 1, whose space maps Pysil page 0. -/
def one (t : Thread) : State :=
  { State.reset with
    boot := 1, threads := [(0, t)], cores := [(0, { Core.blank with ctx := some 1, pool := 3, tenant := 1 })], contexts := [(1, ctx1)]
    spaces := [(0, { tenant := 0, deleted := false }), (1, { tenant := 1, deleted := false })], nodes := [(0, node1)], owner := [(0, 1)]
    seals := [(0, { Seal.blank with cached := true })], cur := some 0, nextId := 100 }

/-- The thread after a step. -/
def after (o : Out) (u : Nat) : Option Thread := match o with | .next s => tget u s.threads | _ => none
/-- A scalar register of thread 0 after an instruction on these values. -/
def gAfterStep (i : Instr) (xs : List Word) (n : GNum) : Option Word := (after (exec i (one (threadOf xs))) 0).map fun t => t.gval n
/-- The state after a step. -/
def stateAfter (o : Out) (s : State) : State := match o with | .next s1 => s1 | _ => s

/-! ### Single steps -/

theorem test_add_wraps : gAfterStep (.add none 0 1) [0xFFFFFFFFFFFFFFFF, 3] 0 = some 2 := by decide
theorem test_sub_immediate : gAfterStep (.subImm none 0 { n := 0, raw := 15 }) [5] 0 = some 6 := by decide
theorem test_mulh_signed : gAfterStep (.mulhI64 none 0 1) [0xFFFFFFFFFFFFFFFE, 3] 0 = some 0xFFFFFFFFFFFFFFFF := by decide
theorem test_mulh_unsigned : gAfterStep (.mulhN64 none 0 1) [0xFFFFFFFFFFFFFFFE, 3] 0 = some 2 := by decide
theorem test_div_zero : gAfterStep (.divI64 none 0 1) [7, 0] 0 = some 0xFFFFFFFFFFFFFFFF := by decide
theorem test_div_overflow : gAfterStep (.divI64 none 0 1) [0x8000000000000000, 0xFFFFFFFFFFFFFFFF] 0 = some 0x8000000000000000 := by decide
/-- R380: −7 by 2. -/
theorem test_rem : gAfterStep (.remI64 none 0 1) [0xFFFFFFFFFFFFFFF9, 2] 0 = some 0xFFFFFFFFFFFFFFFF
    ∧ gAfterStep (.remN64 none 0 1) [0xFFFFFFFFFFFFFFF9, 2] 0 = some 1 := by decide
/-- The table of R382. -/
theorem test_shifts : gAfterStep (.shiftReg none 0 0 1) [0x8000000000000081, 4] 0 = some 0x810
    ∧ gAfterStep (.shiftReg none 1 0 1) [0x8000000000000081, 4] 0 = some 0x0800000000000008
    ∧ gAfterStep (.shiftReg none 2 0 1) [0x8000000000000081, 4] 0 = some 0xF800000000000008
    ∧ gAfterStep (.shiftReg none 3 0 1) [0x8000000000000081, 4] 0 = some 0x818 := by decide
/-- The amount is the low 6 bits. -/
theorem test_shift_amount : gAfterStep (.shiftReg3 none 0 2 0 1) [1, 65] 2 = some 2 := by decide
theorem test_sext : gAfterStep (.sext none 0 0 1) [0, 0x1280] 0 = some 0xFFFFFFFFFFFFFF80 := by decide
theorem test_zext : gAfterStep (.zext none 1 0 1) [0, 0xFFFFFFFFFFFF8001] 0 = some 0x8001 := by decide
theorem test_clz_zero : gAfterStep (.clz none 0 1) [0, 0] 0 = some 64 ∧ gAfterStep (.ctz none 0 1) [0, 8] 0 = some 3 := by decide
theorem test_sel : gAfterStep (.sel none 0 1 2) [1, 5, 6] 0 = some 5 ∧ gAfterStep (.sel none 0 1 2) [0, 5, 6] 0 = some 6 := by decide
theorem test_lih : gAfterStep (.lih none 0 { n := 3, raw := 0x38383838 }) [0x1234] 0 = some 0x3838383800001234 := by decide
/-- R318: 8 bytes back where less, else the next address. -/
theorem test_branch : (after (exec (.bCond none 2 0 1 { n := 1, raw := 0xFFC }) (one (threadOf [0xFFFFFFFFFFFFFFFF, 0]))) 0).map (·.pc) = some 0xFFFFFFFFFFF8
    ∧ (after (exec (.bCondUnsigned none 0 0 1 { n := 1, raw := 0xFFC }) (one (threadOf [0xFFFFFFFFFFFFFFFF, 0]))) 0).map (·.pc) = some 0x1000000000004 := by
  decide
theorem test_loop : (after (exec (.loop none 0 { n := 0, raw := 15 }) (one (threadOf [2]))) 0).map (fun t => (t.pc, t.gval 0)) = some (0xFFFFFFFFFFFE, 1)
    ∧ (after (exec (.loop none 0 { n := 0, raw := 15 }) (one (threadOf [1]))) 0).map (fun t => (t.pc, t.gval 0)) = some (0x1000000000002, 0) := by decide
/-- R323: the link is the next address. -/
theorem test_call : (after (exec (.call none 15 { n := 1, raw := 0x80 }) (one (threadOf []))) 0).map (fun t => (t.pc, t.gval 15))
    = some (0x1000000000100, 0x1000000000004) := by decide
/-- A trap routine takes SERVICE with its immediate (R236, R395). -/
theorem test_svc : (after (exec (.svc none { n := 0, raw := 3 }) (one { threadOf [] with tvec := 0x40 })) 0).map (fun t => (t.pc, t.tcause, t.tresume, t.tvec))
    = some (0x40, 0x3000A, 0x1000000000002, 0) := by decide
/-- A register in E makes its reader wait, and trap with its number under the trap bit (R67). -/
theorem test_empty_source : (after (exec (.mov none 0 1) (one ((threadOf []).emptyG 1))) 0).map (·.status) = some (.blocked .regs)
    ∧ (after (exec (.mov (some { plain with trs := true }) 0 1) (one { (threadOf []).emptyG 1 with tvec := 0x40 })) 0).map (·.tcause)
      = some 0x10007 := by decide
/-- Bytes go lowest first, and only the accessed ones change (R3, R392). -/
theorem test_store : (stateAfter (exec (.st none 1 0 1 { n := 1, raw := 4 }) (one (threadOf [0x1122334455667788, 0x100]))) (one (threadOf []))).mem
      = [(0x1000000000104, 0x88), (0x1000000000105, 0x77), (0x1000000000106, 0x66), (0x1000000000107, 0x55)] := by decide
/-- A load of 2 bytes extends their sign or not (R353). -/
theorem test_load : (after (exec (.ld none 2 0 1 { n := 0, raw := 0 }) { one (threadOf [0, 0x100]) with mem := [(0x1000000000101, 0x80)] }) 0).map (fun t => t.gval 0)
      = some 0xFFFFFFFFFFFF8000
    ∧ (after (exec (.ldZext none 2 0 1 { n := 0, raw := 0 }) { one (threadOf [0, 0x100]) with mem := [(0x1000000000101, 0x80)] }) 0).map (fun t => t.gval 0)
      = some 0x8000 := by decide
/-- A word starts in E: `ldf` waits, and `ftag` reads 0 (R20, R147). -/
theorem test_words : (after (exec (.ftag none 0 1 { n := 0, raw := 0 }) (one (threadOf [9, 0x100]))) 0).map (fun t => t.gval 0) = some 0
    ∧ (after (exec (.stf none 0 1 { n := 0, raw := 0 }) (one (threadOf [9, 0x101]))) 0).map (·.taddr) = some 0x101 := by decide
/-- The active lanes alone are written: lanes 0 and 1 under the mask 3 (R60, R405, R409). -/
theorem test_vbcast : (stateAfter (exec (.vbcast none { m := true, q := 0 } .i32 1 0) (one { threadOf [5] with q := Vector.replicate 8 3 }))
      (one (threadOf []))).mem = [(0x100000005C040, 5), (0x100000005C044, 5)] := by decide +kernel
/-- R410: 0x00000001 is a subnormal of f32. -/
theorem test_vclass : classBit .f32 1 = 0x20 := by decide
/-- 1.0 + 1.0 = 2.0 and 1.0 / 3.0 to nearest, inexact (R84, R87). -/
theorem test_floats : (fAdd .f32 0 0x3F800000 0x3F800000).1 = 0x40000000 ∧ fDiv .f32 0 0x3F800000 0x40400000 = (0x3EAAAAAB, 16) := by decide
/-- R413's example: a block whose largest magnitude is 40.0 under e4m3 has the scale 124. -/
theorem test_block_scale : blockScale .e4m3 [decodeF .f32 0x42200000, decodeF .f32 0x3F800000, decodeF .f32 0xC0200000] = 124 := by decide
/-- R338: reading with g0 = 0 clears nothing, with 0x3F all. -/
theorem test_flags : (after (exec (.flags none 1 0) (one { threadOf [0x3F] with fflags := 9 })) 0).map (fun t => (t.gval 1, t.fflags)) = some (9, 0)
    ∧ (after (exec (.flags none 1 0) (one { threadOf [0] with fflags := 9 })) 0).map (fun t => (t.gval 1, t.fflags)) = some (9, 9) := by decide
/-! ### Witnesses: states and operands that meet the hypotheses of each obligation, clause by clause -/

/-- A thread whose registers are all F, of a pool of 32 vector registers, on a core with no queued `mma`, has its operands at hand. -/
theorem goes {s : State} {u : Nat} {t : Thread} (hc : s.cur = some u) (ht : tget u s.threads = some t) (hp : t.pool = 3)
    (hg : ∀ n, (t.g.get n).st = .full) (hv : ∀ n, (t.v.get n).st = .full)
    (hq : (s.tile (tileOf t.core)).queue (t.core % 8) = []) (rs ds : List RegName) : Goes s u t rs ds where
  cur := hc
  thread := ht
  full := by
    rintro (n | n) _
    · exact ⟨rfl, hg n⟩
    · exact ⟨by simp [Thread.hasReg, Thread.hasV, hp, poolRegs], hv n⟩
  free := by
    rintro (n | n) _
    · exact ⟨rfl, by simp [Thread.regSt, hg n], rfl⟩
    · exact ⟨by simp [Thread.hasReg, Thread.hasV, hp, poolRegs], by simp [Thread.regSt, hv n], by simp [runHolds, hq]⟩

/-- The thread of `threadOf` on the device `one`. -/
theorem goes_one (xs : List Word) (rs ds : List RegName) : Goes (one (threadOf xs)) 0 (threadOf xs) rs ds :=
  goes rfl rfl rfl (fun n => by simp [threadOf, GReg.ofWord]) (fun n => by simp [threadOf, Thread.fresh, VReg.fullReg]) rfl rs ds

/-- Whether an outcome is a next state. -/
def isNext (o : Out) : Bool := match o with | .next _ => true | _ => false
theorem next_of {o : Out} (s : State) (h : isNext o = true) : o = .next (stateAfter o s) := by
  cases o <;> simp [isNext] at h; rfl

theorem begins_one (t : Thread) (h : t.prog = .none) (y : Sync) : Begins (one t) 0 t y where
  fresh := h
  noAcquire := rfl
  ordered := fun _ => rfl

theorem witness_DecodeOfEncode : (Instr.casp (some { plain with kf := true }) 14 15 2).hasWords = true
    ∧ (Instr.casp (some { plain with kf := true }) 14 15 2).wellFormed = true := by decide

theorem witness_DecodedIsWellFormed : decode [0xD100, 0x1508] = .ok (.addReg3 none 4 2 1)
    ∧ isPrefixWord 0xC000 = true := by decide

/-- The reset state with `add g2, g1` where the next step fetches. -/
def placed : State := State.reset.withFetchWord 16 0x1484
/-- The same with an unassigned word. -/
def placedBad : State := State.reset.withFetchWord 16 0xB400
/-- The agent that issues, if one does. -/
def chosen (s : State) : Nat × Thread × State := (deviceChoice s).getD (0, threadOf [], s)
/-- The words of a fetch, and the state after it. -/
def fetched (s : State) : List HWord × State :=
  match fetchWords (chosen s).2.2 (chosen s).2.1 (chosen s).2.1.pc maxWords [] with | .words ws s1 => (ws, s1) | _ => ([], s)
/-- The agent that a device issues next has an even PC and fetches its words. -/
def fetches (s : State) : Prop :=
  (chosen s).2.1.pc.toNat % 2 = 0
    ∧ fetchWords (chosen s).2.2 (chosen s).2.1 (chosen s).2.1.pc maxWords [] = .words (fetched s).1 (fetched s).2

/-- An agenda with a turn of core 0 and one of an event. -/
def scheduled : State := { placed with agenda := [.core 1 0, .event 2 (.sweep 3)] }
/-- The same with that turn of core 0 begun. -/
def turned : State := { scheduled with agenda := [.event 2 (.sweep 3)], time := scheduled.time + 1 }
/-- What core 0 issues in that turn. -/
def onTurn : Nat × Thread × State := (coreChoice turned 0).getD (0, threadOf [], turned)
/-- The words of that fetch, and the state after it. -/
def onTurnFetched : List HWord × State :=
  match fetchWords onTurn.2.2 onTurn.2.1 onTurn.2.1.pc maxWords [] with | .words ws s1 => (ws, s1) | _ => ([], turned)

theorem witness_StepRunsDecoded :
    (placed.agenda = [] ∧ deviceChoice placed = some (chosen placed) ∧ fetches placed ∧ decode (fetched placed).1 = .ok (.add none 2 1))
    ∧ (scheduled.agenda = .core 1 0 :: [.event 2 (.sweep 3)] ∧ coreChoice turned 0 = some onTurn ∧ onTurn.2.1.pc.toNat % 2 = 0
      ∧ fetchWords onTurn.2.2 onTurn.2.1 onTurn.2.1.pc maxWords [] = .words onTurnFetched.1 onTurnFetched.2
      ∧ decode onTurnFetched.1 = .ok (.add none 2 1))
    ∧ ({ placed with agenda := [.event 2 (.sweep 3)] } : State).agenda = .event 2 (.sweep 3) :: [] ∧ (Instr.sweep 3).hasWords = false
    ∧ staleWords placed (chosen placed).2.1 0 = []
    ∧ (placedBad.agenda = [] ∧ deviceChoice placedBad = some (chosen placedBad) ∧ fetches placedBad
      ∧ decode (fetched placedBad).1 = .error .illegal) := by unfold fetches; decide +kernel

/-- A step from the reset state runs the placed instruction. -/
theorem test_step_runs_placed : (stateAfter (step (State.reset.withFetchWord 16 0x047C)) State.reset).threads.map (fun e => e.2.gval 1)
    = [0xFFFFFFFFFFFFFFFF] := by decide +kernel

theorem witness_ResetState : isPoolKey (2 ^ 45 * 8) = true := by decide

theorem witness_StepKeepsMemoryCanonical : Memory.wf (one (threadOf [])).mem = true ∧ ∃ s', step placed = .next s' :=
  ⟨rfl, stateAfter (step placed) placed, next_of _ (by decide +kernel)⟩

theorem witness_BytesWrittenReadBack : Memory.wf [(5, 1), (7, 255)] = true ∧ (4 < 5 ∨ 5 + [(0 : Byte), 3].length ≤ 4)
    ∧ (7 < 5 ∨ 5 + [(0 : Byte), 3].length ≤ 7) := by decide

/-- A thread with g1 in E, g2 in P and v3 in E. -/
def mixed : Thread := (((threadOf []).emptyG 1).poisonG 2 0x40 7).emptyV 3

theorem witness_OperandChecks : Issues (one mixed) 0 mixed ∧ Issues (one { mixed with pool := 0 }) 0 { mixed with pool := 0 }
    ∧ (∀ r ∈ [RegName.g 1, .g 2, .v 3], mixed.hasReg r = true)
    ∧ firstIn mixed .empty [.g 2, .g 1] = some (.g 1)
    ∧ (firstIn mixed .empty [.g 2] = none ∧ firstIn mixed .empty [.v 3] = some (.v 3))
    ∧ (firstIn mixed .empty [.g 0] = none ∧ firstIn mixed .empty [.g 2] = none ∧ firstIn mixed .poison ([.g 0] ++ [.g 2]) = some (.g 2))
    ∧ ((∀ x ∈ [RegName.g 0] ++ [.g 3], mixed.regSt x = .full) ∧ firstIn mixed .empty [.g 1] = some (.g 1))
    ∧ ∃ r ∈ [RegName.g 0] ++ [.v 8] ++ [], ({ mixed with pool := 1 } : Thread).hasReg r = false :=
  ⟨⟨rfl, rfl⟩, ⟨rfl, rfl⟩, by decide, by decide, by decide, by decide, by decide, .v 8, by decide⟩

/-- A thread with a trap routine. -/
def guarded : Thread := { threadOf [] with tvec := 0x40 }

theorem witness_TrapsAndRetirement : (tget 0 (one guarded).threads = some guarded ∧ guarded.tvec ≠ 0 ∧ InThread guarded)
    ∧ (tget 0 (one (threadOf [])).threads = some (threadOf []) ∧ InThread (threadOf []) ∧ (threadOf []).tvec = 0
      ∧ (one (threadOf [])).ctx? (threadOf []).cid = some ctx1)
    ∧ tget (threadOf []).cid (one (threadOf [])).contexts = some ctx1 ∧ 1 ≠ 0 :=
  ⟨⟨rfl, by decide, rfl, rfl⟩, ⟨rfl, ⟨rfl, rfl⟩, rfl, rfl⟩, rfl, by decide⟩

theorem witness_ScalarFrame : isScalarRow (.add none 1 2) = true ∧ Issues (one (threadOf [])) 0 (threadOf []) ∧ (threadOf []).kind = .thread
    ∧ exec (.add none 1 2) (one (threadOf [])) = .next (stateAfter (exec (.add none 1 2) (one (threadOf []))) (one (threadOf [])))
    ∧ (tget 0 (stateAfter (exec (.add none 1 2) (one (threadOf []))) (one (threadOf []))).threads).isSome = true :=
  ⟨rfl, ⟨rfl, rfl⟩, rfl, next_of _ (by decide +kernel), by decide +kernel⟩

theorem witness_MovesAndComparisons : Issues (one (threadOf [])) 0 (threadOf []) ∧ (∀ now, now ≤ 0 + 32 → now < 33)
    ∧ Goes (one (threadOf [5, 6])) 0 (threadOf [5, 6]) [.g 0, .g 1] [.g 0] := ⟨⟨rfl, rfl⟩, fun _ h => by omega, goes_one _ _ _⟩

theorem witness_IntegerArithmetic : Goes (one (threadOf [5, 6])) 0 (threadOf [5, 6]) [.g 0, .g 1] [.g 0]
    ∧ (({ n := 1, raw := 63 } : Imm).raw ≤ 63 ∧ Goes (one (threadOf [5, 6])) 0 (threadOf [5, 6]) [.g 0] [.g 0]) :=
  ⟨goes_one _ _ _, by decide, goes_one _ _ _⟩

theorem witness_Division : Goes (one (threadOf [5, 0])) 0 (threadOf [5, 0]) [.g 0, .g 1] [.g 15] := goes_one _ _ _

theorem witness_MovCopies : Goes (one (threadOf [5])) 0 (threadOf [5]) [.g 0] [.g 0]
    ∧ (Issues (one mixed) 0 mixed ∧ mixed.regSt (.g 1) = .empty ∧ syTrs none = false ∧ syTrs (some { plain with trs := true }) = true) :=
  ⟨goes_one _ _ _, ⟨rfl, rfl⟩, by decide, rfl, rfl⟩

theorem witness_Selects : Goes (one (threadOf [0, 5, 6])) 0 (threadOf [0, 5, 6]) [.g 0, .g 1, .g 2] [.g 0]
    ∧ Issues (one mixed) 0 mixed ∧ mixed.regSt (.g 1) = .empty ∧ mixed.regSt (.g 0) ≠ .empty ∧ mixed.regSt (.g 2) ≠ .empty :=
  ⟨goes_one _ _ _, ⟨rfl, rfl⟩, by decide, by decide, by decide⟩

theorem witness_BranchesAndServiceTraps : Goes (one (threadOf [1, 6])) 0 (threadOf [1, 6]) [.g 0, .g 1] []
    ∧ Goes (one (threadOf [1, 6])) 0 (threadOf [1, 6]) [.g 0] [.g 0] ∧ Goes (one (threadOf [1])) 0 (threadOf [1]) [] [.g 15]
    ∧ (Issues (one (threadOf [])) 0 (threadOf []) ∧ ({ n := 1, raw := 255 } : Imm).raw ≤ 255) :=
  ⟨goes_one _ _ _, goes_one _ _ _, goes_one _ _ _, ⟨rfl, rfl⟩, by decide⟩
/-- The thread of `threadOf` has its operands at hand on a device with no queued matrix command. -/
theorem goes_in {s : State} (xs : List Word) (hc : s.cur = some 0) (ht : tget 0 s.threads = some (threadOf xs))
    (hq : (s.tile (tileOf (threadOf xs).core)).queue ((threadOf xs).core % 8) = []) (rs ds : List RegName) : Goes s 0 (threadOf xs) rs ds :=
  goes hc ht rfl (fun n => by simp [threadOf, GReg.ofWord]) (fun n => by simp [threadOf, Thread.fresh, VReg.fullReg]) hq rs ds

/-- The device of `one` with another record of context 1. -/
def oneIn (x : Context) (t : Thread) : State := { one t with contexts := [(1, x)] }

/-- A context under a ladder's soft request. -/
def ladderCtx : Context := { ctx1 with ladder := some (Ladder.begin ctx1 1 0 []) }
/-- A context whose overflow ring holds one address and has room for one. -/
def fullCtx : Context := { ctx1 with ovtail := 1, ovq := [{ addr := 0x100, uid := 0, after := 0 }] }

/-- A message handler. -/
def handler : Thread := { threadOf [] with slot := 8, kind := .message { sender := 0, slotField := 8, pc := 0x40, launch := none } }
/-- The fault run of held thread 5, with these values. -/
def faultRun (xs : List Word) : Thread := { threadOf xs with slot := 8, kind := .faultRun (.thread 5) }
/-- A thread held for its fault run. -/
def heldThread : Thread := { threadOf [] with slot := 1, status := .blocked .held, tvec := 0, tresume := 0x80 }
/-- A device where the fault run of a held thread issues. -/
def faulting (xs : List Word) : State := { one (faultRun xs) with threads := [(0, faultRun xs), (5, heldThread)] }
/-- A thread parked at an `exit1` of 0x100. -/
def parkedExit : Thread := { threadOf [0x100] with status := .parked, prog := .exiting [0x100] }

theorem witness_EndOfThreads :
    (Issues (one (threadOf [])) 0 (threadOf []) ∧ (threadOf []).kind = .thread ∧ ∀ x, (one (threadOf [])).ctx? 1 = some x → x.ladder = none)
    ∧ (Issues (oneIn ladderCtx (threadOf [])) 0 (threadOf []) ∧ (oneIn ladderCtx (threadOf [])).ctx? 1 = some ladderCtx ∧ ladderCtx.ladder.isSome = true)
    ∧ (Issues (one handler) 0 handler ∧ handler.kind ≠ .thread)
    ∧ (Goes (one (threadOf [0x100, 0x200, 0x300, 0xFFFFFFFFFFFFFF00])) 0 (threadOf [0x100, 0x200, 0x300, 0xFFFFFFFFFFFFFF00]) [.g 0, .g 1, .g 3, .g 2] []
      ∧ Queues (one (threadOf [0x100, 0x200, 0x300, 0xFFFFFFFFFFFFFF00])) (threadOf [0x100, 0x200, 0x300, 0xFFFFFFFFFFFFFF00])
          [0x100, 0x200, 0x300, 0xFFFFFFFFFFFFFF00])
    ∧ (Goes (one (threadOf [0x101])) 0 (threadOf [0x101]) [.g 0] [] ∧ ((threadOf [0x101]).gval 0).toNat % 256 ≠ 0)
    ∧ (Goes (oneIn fullCtx (threadOf [0x100])) 0 (threadOf [0x100]) [.g 0] [] ∧ ((threadOf [0x100]).gval 0).toNat % 256 = 0
      ∧ (oneIn fullCtx (threadOf [0x100])).ctx? 1 = some fullCtx ∧ fullCtx.ovhead ≠ fullCtx.ovtail
      ∧ 2 ^ (fullCtx.ovcfg.toNat % 32) ≤ fullCtx.ovtail - fullCtx.ovhead)
    ∧ (tget 0 (one parkedExit).threads = some parkedExit ∧ parkedExit.status = .parked ∧ parkedExit.prog = .exiting [0x100]
      ∧ parkedExit.heldByHalt = false ∧ (one parkedExit).ctx? 1 = some ctx1 ∧ ctx1.ovhead = ctx1.ovtail ∧ ctx1.devq.length < 256)
    ∧ (Issues (one handler) 0 handler ∧ handler.kind = .message { sender := 0, slotField := 8, pc := 0x40, launch := none }
      ∧ workPending (one handler) 0 = false ∧ ∀ e ∈ (one handler).pending, e.2.uid = 0 → e.2.slot = none)
    ∧ (∀ xs ∈ [[0, 7], [1, 6], [2, 7]], Issues (faulting xs) 0 (faultRun xs) ∧ (faultRun xs).kind = .faultRun (.thread 5)
      ∧ workPending (faulting xs) 0 = false ∧ tget 5 (faulting xs).threads = some heldThread ∧ heldThread.status = .blocked .held
      ∧ heldThread.prog = .none)
    ∧ (faultRun [0, 7]).gval 0 = 0 ∧ ((faultRun [1, 6]).gval 0 = 1 ∧ ((faultRun [1, 6]).gval 1).toNat % 2 = 0) ∧ (faultRun [2, 7]).gval 0 = 2 :=
  ⟨⟨⟨rfl, rfl⟩, rfl, by rintro x h; cases h; rfl⟩, ⟨⟨rfl, rfl⟩, rfl, rfl⟩, ⟨⟨rfl, rfl⟩, by decide⟩,
    ⟨goes_one _ _ _, ⟨by simp, ctx1, rfl, rfl, by decide⟩⟩, ⟨goes_one _ _ _, by decide⟩, ⟨goes_in _ rfl rfl rfl _ _, by decide, rfl, by decide, by decide⟩, ⟨rfl, rfl, rfl, rfl, rfl, rfl, by decide⟩,
    ⟨⟨rfl, rfl⟩, rfl, rfl, by decide⟩, fun _ _ => ⟨⟨rfl, rfl⟩, rfl, rfl, rfl, rfl, rfl⟩, by decide⟩

theorem vbase_one (t : Thread) (xs : List Word) : vbaseOf ((one t).core (threadOf xs).core).pool = 0x5C000 := by
  change vbaseOf 3 = 0x5C000; decide
theorem inOwn_one (xs : List Word) (va : Word) (n : Nat) (h : va.toNat + n ≤ 0x5C000)
    (hc : touchesPoison (one (threadOf xs)) (ownKey (threadOf xs) va) n = false) : InOwn (one (threadOf xs)) (threadOf xs) va n :=
  ⟨h.trans_eq (vbase_one _ _).symm, hc⟩

theorem witness_OwnPoolAccesses : Memory.wf (one (threadOf [0x5BFF8, 5])).mem = true
    ∧ (Goes (one (threadOf [0x5BFF8, 5])) 0 (threadOf [0x5BFF8, 5]) [.g 0] [.g 1] ∧ Begins (one (threadOf [0x5BFF8, 5])) 0 (threadOf [0x5BFF8, 5]) none
      ∧ InOwn (one (threadOf [0x5BFF8, 5])) (threadOf [0x5BFF8, 5]) ((threadOf [0x5BFF8, 5]).gval 0 + immSigned { n := 0, raw := 0 } false) (accBytes 0))
    ∧ (Goes (one (threadOf [0x100, 5])) 0 (threadOf [0x100, 5]) [.g 1, .g 0, .g 1] []
      ∧ InOwn (one (threadOf [0x100, 5])) (threadOf [0x100, 5]) ((threadOf [0x100, 5]).gval 0 + ((threadOf [0x100, 5]).gval 1 <<< (3 : Fin 4).val)) (accBytes 3))
    ∧ (Goes (one (threadOf [0x5BFC0])) 0 (threadOf [0x5BFC0]) [.v (Fin.ofNat 32 1), .g 0] [.v 31] ∧ Begins (one (threadOf [0x5BFC0])) 0 (threadOf [0x5BFC0]) none
      ∧ InOwn (one (threadOf [0x5BFC0])) (threadOf [0x5BFC0]) ((threadOf [0x5BFC0]).gval 0 + immSigned { n := 0, raw := 0 } false) 64) :=
  ⟨rfl, ⟨goes_one _ _ _, begins_one _ rfl _, inOwn_one _ _ _ (by decide) (by decide)⟩,
    ⟨goes_one _ _ _, inOwn_one _ _ _ (by decide) (by decide)⟩,
    goes_one _ _ _, begins_one _ rfl _, inOwn_one _ _ _ (by decide) (by decide +kernel)⟩

/-- An access of the thread, numbered 7, with one piece of these bytes at a place. -/
def accessOf (k : AccKind) (d : Dest) (ph : AccPhase) (va : Word) (loc : Where) (bs : List Byte) : Access :=
  { uid := 0, ep := 0, launch := none, cid := 1, core := 0, kind := k
    pieces := [{ va := va, off := 0, bytes := bs, loc := loc, tenant := 1, done := false, bad := none }]
    dest := d, kf := false, acq := false, rel := false, va := va, phase := ph, nodes := [], told := false, first := none, refused := false
    nacked := false, failed := none }
/-- The device of `one` with that access in flight. -/
def flying (a : Access) (t : Thread) : State := { one t with accs := [(7, a)] }

/-- An access of some bytes at byte 0x100 of the pool of core 0. -/
def pooled (k : AccKind) (d : Dest) (n : Nat) : Access := accessOf k d .flying 0x100 (.here 0x1000000000100) (List.replicate n 1)
/-- Its piece. -/
def piece1 (n : Nat) : Piece :=
  { va := 0x100, off := 0, bytes := List.replicate n 1, loc := .here 0x1000000000100, tenant := 1, done := false, bad := none }

theorem noSoft_of {s : State} (h1 : s.softWords = []) (h2 : s.channels = []) : NoSoft s := by
  intro k; simp [softHere, lostWord, State.channel, h1, h2]

/-- With no listed word and no withdrawn channel, no word is in P. -/
theorem clean_of {s : State} (h1 : s.words = []) (h2 : s.channels = []) (key n : Nat) : touchesPoison s key n = false := by
  simp only [touchesPoison, List.any_eq_false]
  intro k _
  have : s.word k = defaultWord k := by simp [State.word, lostWord, State.channel, h1, h2]
  simp only [this, defaultWord]
  split <;> decide

theorem atPool (k : AccKind) (d : Dest) (n : Nat) :
    AtByte (flying (pooled k d n) (threadOf [])) 7 (pooled k d n) (piece1 n) 0x1000000000100 where
  there := rfl
  only := rfl
  loc := rfl
  place := Or.inl (by decide)
  may := by cases n <;> rfl
  clean := clean_of rfl rfl _ _
  noSoft := noSoft_of rfl rfl
/-- The first address of the page that space 1 maps. -/
def va0 : Word := 0x1000000000000

/-- A store of the thread that its station has not seen. -/
def untranslated : Access := accessOf .store .none .flying va0 .untranslated [1, 2]

theorem witness_FlightsAndFences :
    (Goes (one (threadOf [va0, 5])) 0 (threadOf [va0, 5]) [.g 1, .g 0] [.g 1] ∧ Begins (one (threadOf [va0, 5])) 0 (threadOf [va0, 5]) none ∧ syKf none = false
      ∧ ownPool 0 ((threadOf [va0, 5]).gval 0 + immSigned { n := 0, raw := 0 } false) = false
      ∧ ((threadOf [va0, 5]).gval 0 + immSigned { n := 0, raw := 0 } false).toNat % accBytes 0 = 0
      ∧ resolve (one (threadOf [va0, 5])) 1 0 ((threadOf [va0, 5]).gval 0 + immSigned { n := 0, raw := 0 } false) rRead = .ok (.here 0) (some 0))
    ∧ (Goes (one (threadOf [0x60000])) 0 (threadOf [0x60000]) [.g 0] [.g 0]
      ∧ resolve (one (threadOf [0x60000])) 1 0 ((threadOf [0x60000]).gval 0 + immSigned { n := 0, raw := 0 } false) rRead = .fail .unmapped)
    ∧ (tget 7 (flying untranslated (threadOf [])).accs = some untranslated ∧ untranslated.phase = .flying ∧ untranslated.kind.need = rWrite
      ∧ (untranslated.pieces.map fun p => (p.loc, p.done)) = [(.untranslated, false)]
      ∧ resolve (flying untranslated (threadOf [])) 1 0 va0 rWrite = .ok (.here 0) (some 0))
    ∧ AtByte (flying (pooled .load (.g 3 true) 4) (threadOf [])) 7 (pooled .load (.g 3 true) 4) (piece1 4) 0x1000000000100
    ∧ (Memory.wf (flying (pooled .store .none 8) (threadOf [])).mem = true
      ∧ AtByte (flying (pooled .store .none 8) (threadOf [])) 7 (pooled .store .none 8) (piece1 8) 0x1000000000100)
    ∧ (Issues (one (threadOf [])) 0 (threadOf []) ∧ accessesBefore (one (threadOf [])) 0 100 = false)
    ∧ (Issues (flying untranslated (threadOf [])) 0 (threadOf []) ∧ accessesBefore (flying untranslated (threadOf [])) 0 100 = true)
    ∧ (Issues (flying (accessOf .load (.g 3 true) .flying va0 .untranslated [0]) (threadOf [])) 0 (threadOf [])
      ∧ ∀ e ∈ (flying (accessOf .load (.g 3 true) .flying va0 .untranslated [0]) (threadOf [])).accs, e.2.uid = 0 → e.2.kind.writes = false) :=
  ⟨⟨goes_one _ _ _, begins_one _ rfl _, rfl, by decide, by decide, by decide⟩, ⟨goes_one _ _ _, by decide⟩, ⟨rfl, rfl, rfl, rfl, by decide⟩,
    atPool _ _ _, ⟨rfl, atPool _ _ _⟩, ⟨⟨rfl, rfl⟩, rfl⟩, ⟨⟨rfl, rfl⟩, rfl⟩, ⟨rfl, rfl⟩, by decide⟩

/-- A load of 4 bytes that has returned, and one that failed. -/
def returned : Access := accessOf .load (.g 3 true) .returning va0 (.here 0) [1, 2, 3, 0x80]
def failedLoad : Access := { returned with failed := some (Cause.poison.code, 7) }
/-- A result that no access makes. -/
def result5 : Pending := { uid := 0, dest := .g 4 false, bytes := [5, 0, 0, 0, 0, 0, 0, 0], bad := none, kf := false, node := none, slot := none }
/-- A device with one word of the pool of core 0 in a state. -/
def worded (w : WordSt) (xs : List Word) : State := (one (threadOf xs)).setWord (0x1000000000100 / 8) w
/-- A device where an `ldf` of the thread waits at byte 0x100 of its pool. -/
def waited : State :=
  { one (threadOf [0x100, 9]) with accs := [(7, accessOf .ldf (.g 3 false) (.waiting 1) 0x100 (.here 0x1000000000100) (List.replicate 8 0))] }

theorem goes_worded (w : WordSt) (xs : List Word) (rs ds : List RegName) : Goes (worded w xs) 0 (threadOf xs) rs ds := by
  unfold worded State.setWord
  split
  · exact goes_one xs rs ds
  · split <;> exact goes_in xs rfl rfl rfl rs ds

theorem worded_word (w : WordSt) : (worded w [0x100]).word (ownKey (threadOf [0x100]) ((threadOf [0x100]).gval 0 + immSigned { n := 0, raw := 0 } false) / 8) = w := by
  cases w <;> decide

theorem witness_FillsAndWordStates :
    (tget 7 (flying returned (threadOf [])).accs = some returned ∧ returned.phase = .returning ∧ returned.failed = none
      ∧ (∀ p ∈ returned.pieces, p.bad = none) ∧ returned.dest = .g 3 true ∧ tget returned.uid (flying returned (threadOf [])).threads = some (threadOf []))
    ∧ (failedLoad.phase = .returning ∧ failedLoad.failed = some (Cause.poison.code, 7) ∧ failedLoad.kf = false ∧ failedLoad.dest = .g 3 true)
    ∧ (tget 8 ({ one (threadOf []) with pending := [(8, result5)] } : State).accs = none ∧ result5.node = none ∧ result5.bad = none
      ∧ tget 8 ({ one (threadOf []) with pending := [(8, result5)] } : State).pending = some result5 ∧ result5.dest = .g 4 false)
    ∧ (∀ w, Goes (worded w [0x100]) 0 (threadOf [0x100]) [.g 0] [.g 1])
    ∧ (∀ w, (worded w [0x100]).word (ownKey (threadOf [0x100]) ((threadOf [0x100]).gval 0 + immSigned { n := 0, raw := 0 } false) / 8) = w)
    ∧ ((threadOf [0x100]).gval 0 + immSigned { n := 0, raw := 0 } false).toNat + 8 ≤ vbaseOf 3
    ∧ ((threadOf [0x100]).gval 0 + immSigned { n := 0, raw := 0 } false).toNat % 8 = 0
    ∧ NoSoft (worded .poison [0x100]) ∧ (WordSt.empty ≠ .poison ∧ WordSt.full ≠ .poison)
    ∧ (Memory.wf waited.mem = true ∧ Goes waited 0 (threadOf [0x100, 9]) [.g 1, .g 0] [] ∧ NoSoft waited ∧ accessesBefore waited 0 7 = false
      ∧ ∀ e ∈ waited.accs, e.1 < waited.nextId)
    ∧ (Goes (one (threadOf [0x101])) 0 (threadOf [0x101]) [.g 0] [.g 1] ∧ Begins (one (threadOf [0x101])) 0 (threadOf [0x101]) none
      ∧ ((threadOf [0x101]).gval 0 + immSigned { n := 0, raw := 0 } false).toNat % 8 ≠ 0) :=
  ⟨⟨rfl, rfl, rfl, by decide, rfl, rfl⟩, ⟨rfl, rfl, rfl, rfl⟩, ⟨rfl, rfl, rfl, rfl, rfl⟩, fun w => goes_worded w _ _ _, worded_word, by decide,
    by decide, noSoft_of (by decide) (by decide), by decide, ⟨rfl, goes_in _ rfl rfl rfl _ _, noSoft_of rfl rfl, by decide, by decide⟩,
    goes_one _ _ _, begins_one _ rfl _, by decide⟩

theorem witness_Atomics : ((4 : Nat) = 4 ∨ (4 : Nat) = 8) ∧ 0xFFFFFFFF < 2 ^ (8 * 4)
    ∧ (Memory.wf (flying (pooled (.amo .add) (.g 3 false) 8) (threadOf [])).mem = true
      ∧ AtByte (flying (pooled (.amo .add) (.g 3 false) 8) (threadOf [])) 7 (pooled (.amo .add) (.g 3 false) 8) (piece1 8) 0x1000000000100)
    ∧ AtByte (flying (pooled (.cas 1 2) (.g 3 false) 4) (threadOf [])) 7 (pooled (.cas 1 2) (.g 3 false) 4) (piece1 4) 0x1000000000100
    ∧ (AtByte (flying (pooled (.casp 1 2 3 4) (.pair 2) 16) (threadOf [])) 7 (pooled (.casp 1 2 3 4) (.pair 2) 16) (piece1 16) 0x1000000000100
      ∧ (piece1 16).bytes.length = 16 ∧ Dest.pair 2 ≠ .none)
    ∧ (Goes (one (threadOf [va0 + 0xFF0, 5, 6, 7, 8, 9])) 0 (threadOf [va0 + 0xFF0, 5, 6, 7, 8, 9]) [.g 2, .g 3, .g 0, .g 5, .g 4] [.g 2, .g 3]
      ∧ Begins (one (threadOf [va0 + 0xFF0, 5, 6, 7, 8, 9])) 0 (threadOf [va0 + 0xFF0, 5, 6, 7, 8, 9]) none ∧ syKf none = false
      ∧ classify ((threadOf [va0 + 0xFF0, 5, 6, 7, 8, 9]).gval 0) = .translated ∧ ((threadOf [va0 + 0xFF0, 5, 6, 7, 8, 9]).gval 0).toNat % 16 = 0)
    ∧ (classify (va0 + 4) = .translated ∧ (va0 + 4).toNat % 4 = 0 ∧ (va0 + 4).toNat % 8 ≠ 0) :=
  ⟨.inl rfl, by decide, ⟨rfl, atPool _ _ _⟩, atPool _ _ _, ⟨atPool _ _ _, rfl, by decide⟩,
    ⟨goes_one _ _ _, begins_one _ rfl _, rfl, by decide, by decide⟩, by decide⟩

theorem witness_VectorIntegers : EType.isI .n8 = true ∧ Memory.wf (one (threadOf [])).mem = true
    ∧ Goes (one (threadOf [])) 0 (threadOf []) [.v 1, .v 2, .v 3] [.v 2] := ⟨rfl, rfl, goes_one _ _ _⟩
theorem witness_VectorFloats : EType.isF .bf16 = true ∧ Memory.wf (one (threadOf [])).mem = true
    ∧ Goes (one (threadOf [])) 0 (threadOf []) [.v 1, .v 2, .v 3] [.v 2] := ⟨rfl, rfl, goes_one _ _ _⟩
theorem witness_RoundingIsExact : EType.isF .f16 = true ∧ 0x7C00 < 2 ^ EType.bits .f16 := by decide

/-- A thread whose mask q1 governs element 2 of 32 bits alone, and whose q2 governs none. -/
def maskedThread : Thread := { threadOf [va0, 7] with q := Vector.ofFn fun n => if n.val = 1 then 4 else 0 }
theorem goes_masked (rs ds : List RegName) : Goes (one maskedThread) 0 maskedThread rs ds :=
  goes rfl rfl rfl (fun n => by simp [maskedThread, threadOf, GReg.ofWord]) (fun n => by simp [maskedThread, threadOf, Thread.fresh, VReg.fullReg]) rfl rs ds

theorem witness_VectorReductionsAndMoves : Goes (one maskedThread) 0 maskedThread [.v 1, .v 2, .v 3, .g 0] [.v 31, .g 0]
    ∧ Memory.wf (one maskedThread).mem = true ∧ (EType.isF .f32 = true ∨ EType.isI .f32 = true)
    ∧ (EType.isI .i8 = true ∧ 255 < 2 ^ EType.bits .i8) ∧ actives { m := true, q := 2 } maskedThread .f32 = []
    ∧ actives { m := true, q := 1 } maskedThread .f32 = [2] :=
  ⟨goes_masked _ _, rfl, .inl rfl, by decide, by decide, by decide⟩

theorem witness_VectorConversions : Memory.wf (one (threadOf [va0, 255, 256])).mem = true
    ∧ Goes (one (threadOf [va0, 255, 256])) 0 (threadOf [va0, 255, 256]) [.v 30, .v 31, .g 1] [.v 2, .g 1]
    ∧ widePair (wideType 0) 30 = some [30, 31] ∧ draws .e4m3 0 = false ∧ ((threadOf [va0, 255, 256]).gval 1).toNat < 256
    ∧ 256 ≤ ((threadOf [va0, 255, 256]).gval 2).toNat
    ∧ (blockBad [.fin false 1 0, .fin true 3 2] = false ∧ FVal.log (.fin true 3 2) = some 3
      ∧ ∀ x ∈ [FVal.fin false 1 0, .fin true 3 2], ∀ z, FVal.log x = some z → z ≤ 3)
    ∧ blockBad [.nan] = true :=
  ⟨rfl, goes_one _ _ _, by decide, by decide, by decide, by decide, ⟨by decide, by decide, by
    intro x hx z hz
    rcases List.mem_cons.1 hx with rfl | hx
    · cases hz; decide
    · rcases List.mem_cons.1 hx with rfl | hx
      · cases hz; decide
      · cases hx⟩, by decide⟩

theorem witness_GathersAndScatters :
    (Goes (one maskedThread) 0 maskedThread [.v 1, .g 0, .v 3] [.v 4] ∧ Begins (one maskedThread) 0 maskedThread none ∧ syKf none = false
      ∧ actives { m := true, q := 1 } maskedThread .f32 = [2]
      ∧ (∀ e ∈ gatherAddrs (one maskedThread) maskedThread { m := true, q := 1 } .f32 0 3, e.2.toNat % (EType.bits .f32 / 8) = 0
        ∧ ownPool 0 e.2 = false ∧ ∃ n, resolve (one maskedThread) 1 0 e.2 rRead = .ok (.here 0) n))
    ∧ actives { m := true, q := 2 } maskedThread .f32 = []
    ∧ gatherAddrs (one maskedThread) maskedThread { m := true, q := 1 } .f32 1 3 = [(2, 7)] ∧ (7 : Word).toNat % (EType.bits .f32 / 8) ≠ 0 := by
  have h : gatherAddrs (one maskedThread) maskedThread { m := true, q := 1 } .f32 0 3 = [(2, va0)] := by decide +kernel
  refine ⟨⟨goes_masked _ _, begins_one _ rfl _, rfl, by decide, ?_⟩, by decide, by decide +kernel, by decide⟩
  rw [h]
  intro e he
  cases List.mem_singleton.1 he
  exact ⟨by decide, by decide, some 0, by decide⟩
/-- A slot in use by handle a0 of thread 0, with these final rows. -/
def slotOf (rows : Nat) : AccSlot :=
  { owner := some (0, 0), words := List.replicate 4096 0, flags := 0, rows := rows, poisoned := false, soft := false, softTold := false, leaving := false }
/-- A command of thread 0 on slot 0. -/
def commandOf (op : MxOp) : MxCmd :=
  { uid := 0, cid := 1, ep := 0, launch := none, slot := 0, handle := 0, op := op, blocks := 0, weight := 8, after := 0, told := false }
/-- Thread 0 with a0 bound to slot 0. -/
def bound (xs : List Word) : Thread := { threadOf xs with a := Vector.ofFn fun n => if n.val = 0 then some 0 else none }
/-- A tile with slot 0 in use, these commands of core 0, and a grant to it. -/
def tiled (rows : Nat) (cs : List MxCmd) : Tile :=
  { slots := [(0, slotOf rows)], queues := [(0, cs)], pointer := 0, units := 8, reads := [], waiters := [] }
/-- The device of `one` with that tile. -/
def oneT (tl : Tile) (t : Thread) : State := { one t with tiles := [(0, tl)] }
/-- A tile whose 32 slots are taken, where thread 0 waits. -/
def fullTile : Tile :=
  { slots := (List.range 32).map fun k => (k, slotOf 0), queues := [], pointer := 0, units := 0, reads := [], waiters := [(0, 1)] }

theorem goes_bound {s : State} (xs : List Word) (hc : s.cur = some 0) (ht : tget 0 s.threads = some (bound xs))
    (hq : (s.tile (tileOf (bound xs).core)).queue ((bound xs).core % 8) = []) (rs ds : List RegName) : Goes s 0 (bound xs) rs ds :=
  goes hc ht rfl (fun n => by simp [bound, threadOf, GReg.ofWord]) (fun n => by simp [bound, threadOf, Thread.fresh, VReg.fullReg]) hq rs ds

/-- A layout word: e4m3, rows of 64 bytes, k-blocks of 4096 bytes apart (R188). -/
def layout1 : Word := 0xE010000040

/-- A thread that waits for a slot since cycle 0. -/
def awaiting : Thread := { threadOf [] with status := .blocked .matrix, prog := .since 0 }

theorem gval_four (w0 w1 w2 w3 : Word) : (threadOf [w0, w1, w2, w3]).gval (nextG 0) = w1 ∧ (threadOf [w0, w1, w2, w3]).gval (nextG 2) = w3 := by
  rw [show nextG 0 = 1 by decide, show nextG 2 = 3 by decide]; simp [threadOf, Thread.gval, GReg.ofWord]
/-- What an operand in a pool comes to. -/
theorem readOperand_pool (s : State) (t : Thread) (x : VNum) : readOperand s t false x .e4m3 4
    = MxOperand.pool (t.gval (Fin.ofNat 16 x.val)) (t.gval (nextG (Fin.ofNat 16 x.val))) := by
  simp only [readOperand, Bool.false_eq_true, if_false]

theorem witness_MatrixCommands_forms :
    MmaRuns (oneT (tiled 64 []) (bound [0x1000, layout1])) 0 (bound [0x1000, layout1]) 3 .e4m3 false false 0 0 .e4m3
    ∧ (MayBind (one (threadOf [])) (threadOf []) 0 0 ∧ MmaRuns (one (threadOf [0x1000, layout1])) 0 (threadOf [0x1000, layout1]) 3 .e4m3 false false 0 0 .e4m3
      ∧ MayBind (one (threadOf [0x1000, layout1])) (threadOf [0x1000, layout1]) 0 0)
    ∧ (∀ b1 l1, Goes (one (threadOf [b1, l1, 0x1008, layout1])) 0 (threadOf [b1, l1, 0x1008, layout1]) (operandRegs false 0 .e4m3 4 ++ operandRegs false 2 .e4m3 4) []
      ∧ (threadOf [b1, l1, 0x1008, layout1]).gval (nextG 0) = l1 ∧ (threadOf [b1, l1, 0x1008, layout1]).gval (nextG 2) = layout1)
    ∧ (layType layout1 = some .e4m3 ∧ layType (layout1 + 1) = some .e4m3 ∧ mxGroup .e4m3 .e4m3 ≠ none ∧ layoutBad .e4m3 layout1 = false
      ∧ layoutBad .e4m3 (layout1 + 1) = true ∧ (0x1000 : Word).toNat % 16 = 0 ∧ (0x1008 : Word).toNat % 16 ≠ 0) :=
  ⟨⟨goes_bound _ rfl rfl rfl _ _, rfl, by decide, by decide, by decide, by decide, by decide⟩,
    ⟨⟨rfl, by decide, rfl, by decide, by decide⟩, ⟨goes_in _ rfl rfl rfl _ _, rfl, by decide, by decide, by decide, by decide, by decide⟩, ⟨rfl, by decide, rfl, by decide, by decide⟩⟩,
    fun _ _ => ⟨goes_in _ rfl rfl rfl _ _, gval_four _ _ _ _⟩, by decide⟩

theorem witness_MatrixCommands :
    (Issues (oneT (tiled 64 []) (bound [])) 0 (bound []) ∧ InThread (bound []) ∧ MayQueue (oneT (tiled 64 []) (bound [])) (bound []) 0 0)
    ∧ ((bound []).a.get 0 = some 0 ∧ (((oneT (tiled 64 []) (bound [])).tile 0).queue 0).length < 4)
    ∧ (Issues (oneT fullTile (threadOf [])) 0 (threadOf []) ∧ freeSlot ((oneT fullTile (threadOf [])).tile 0) = none)
    ∧ (tget 0 ({ oneT fullTile awaiting with time := 2 ^ 20 } : State).threads = some awaiting ∧ awaiting.status = .blocked .matrix
      ∧ awaiting.prog = .since 0 ∧ 0 + 2 ^ 20 ≤ ({ oneT fullTile awaiting with time := 2 ^ 20 } : State).time
      ∧ (0, 1) ∈ (({ oneT fullTile awaiting with time := 2 ^ 20 } : State).tile 0).waiters)
    ∧ (Issues (one handler) 0 handler ∧ handler.kind ≠ .thread)
    ∧ ((bound []).a.get 0 = some 0 ∧ tget 0 ((oneT (tiled 1 []) (bound [])).tile 0).slots = some (slotOf 1) ∧ (slotOf 1).soft = false
      ∧ ((oneT (tiled 1 []) (bound [])).tile 0).reads = [] ∧ outstandingReads (oneT (tiled 1 []) (bound [])) 0 (bound []) < 8
      ∧ 3 % 256 / 4 < (slotOf 1).rows ∧ (slotOf 1).rows ≤ 4 % 256 / 4) :=
  ⟨⟨⟨rfl, rfl⟩, ⟨rfl, rfl⟩, ⟨rfl, by decide, by decide⟩⟩, ⟨rfl, by decide⟩, ⟨⟨rfl, rfl⟩, by rfl⟩, ⟨rfl, rfl, rfl, by decide, by decide⟩, ⟨⟨rfl, rfl⟩, by decide⟩,
    rfl, rfl, rfl, rfl, by decide, by decide, by decide⟩

/-- An `mma` of one k-block between two runs of zeros. -/
def mma1 : MxCmd := commandOf (.mma .e4m3 .e4m3 2 (.run 0 64 (List.replicate 4096 0)) (.run 0 64 (List.replicate 4096 0)))

theorem granted_of (c : MxCmd) (cs : List MxCmd) (hu : c.uid = 0) :
    Granted (oneT (tiled 64 (c :: cs)) (bound [])) 0 0 c cs where
  head := rfl
  grant := by
    have hr : mxReads (oneT (tiled 64 (c :: cs)) (bound [])) c = true := by
      unfold mxReads
      rw [hu]
      cases c.op <;> rfl
    simp only [granted, hr]
    rfl

theorem slot_of (cs : List MxCmd) (rows : Nat) : Slot (oneT (tiled rows cs) (bound [])) 0 0 (slotOf rows) where
  here := rfl
  once := by
    intro e he _
    cases List.mem_singleton.1 he
    rfl

theorem witness_MatrixArithmetic :
    (((oneT { tiled 64 [mma1] with units := 0 } (bound [])).tile 0).units = 0
      ∧ ((oneT { tiled 64 [mma1] with units := 0 } (bound [])).tile 0).queue ((((oneT { tiled 64 [mma1] with units := 0 } (bound [])).tile 0).pointer + 0) % 8) = [mma1]
      ∧ mxReady (oneT { tiled 64 [mma1] with units := 0 } (bound [])) mma1 = true)
    ∧ (Granted (oneT (tiled 64 [mma1]) (bound [])) 0 0 mma1 [] ∧ mxGroup .e4m3 .e4m3 = some .narrow
      ∧ Slot (oneT (tiled 64 [mma1]) (bound [])) 0 mma1.slot (slotOf 64) ∧ (slotOf 64).leaving = false
      ∧ operandPoison (oneT (tiled 64 [mma1]) (bound [])) 0 .e4m3 (.run 0 64 (List.replicate 4096 0)) 0 = none ∧ mma1.blocks + 1 < 2 ∧ 1 ≤ mma1.blocks + 1)
    ∧ (Granted (oneT (tiled 64 [commandOf .mzero]) (bound [])) 0 0 (commandOf .mzero) []
      ∧ ((oneT (tiled 64 [commandOf .mzero]) (bound [])).tile 0).queues = [(0, [commandOf .mzero])]
      ∧ ∀ d ∈ ([] : List MxCmd), d.slot ≠ (commandOf .mzero).slot)
    ∧ (Granted (oneT (tiled 64 [commandOf (.mwr 255 3 (List.replicate 16 7))]) (bound [])) 0 0 (commandOf (.mwr 255 3 (List.replicate 16 7))) []
      ∧ Slot (oneT (tiled 64 [commandOf (.mwr 255 3 (List.replicate 16 7))]) (bound [])) 0 0 (slotOf 64))
    ∧ ((∀ e ∈ (oneT (tiled 64 [commandOf .mrel]) (bound [])).pending, e.2.slot ≠ some (0, 0)) ∧ ctx1.final = false
      ∧ Granted (oneT (tiled 64 [commandOf .mrel]) (bound [])) 0 0 (commandOf .mrel) [] ∧ ∀ e ∈ ((oneT (tiled 64 [commandOf .mrel]) (bound [])).tile 0).reads, e.2.slot ≠ 0)
    ∧ (Slot (oneT (tiled 63 []) (bound [])) 0 0 (slotOf 63) ∧ (slotOf 63).rows < 64
      ∧ ∀ e ∈ ((oneT (tiled 63 []) (bound [])).tile 0).queues, ∀ d ∈ e.2, d.slot ≠ 0)
    ∧ (List.replicate 4096 (0 : BitVec 32)).length = 4096 ∧ (63 < 64 ∧ 0 < 64) :=
  ⟨⟨rfl, rfl, rfl⟩, ⟨granted_of _ _ rfl, by decide, slot_of _ _, rfl, rfl, by decide, by decide⟩,
    ⟨granted_of _ _ rfl, rfl, by simp⟩, ⟨granted_of _ _ rfl, slot_of _ _⟩, ⟨by decide, rfl, granted_of _ _ rfl, by decide⟩,
    ⟨slot_of _ _, by decide, by decide⟩, List.length_replicate, by decide⟩

/-- The example of R424: a 4 × 8 block of f32, from rows 256 bytes apart, as bf16. -/
def shape1 : Shape := (0x000018A000000010 : Word) ++ (0x0000010000030007 : Word)

/-- A thread with a plain copy shape of 8 n64 elements in h0. -/
def copier (xs : List Word) : Thread := { threadOf xs with h := Vector.ofFn fun _ => (0x00000E7000000000 : Word) ++ (7 : Word) }
theorem goes_copier {s : State} (xs : List Word) (hc : s.cur = some 0) (ht : tget 0 s.threads = some (copier xs))
    (hq : (s.tile (tileOf (copier xs).core)).queue ((copier xs).core % 8) = []) (rs ds : List RegName) : Goes s 0 (copier xs) rs ds :=
  goes hc ht rfl (fun n => by simp [copier, threadOf, GReg.ofWord]) (fun n => by simp [copier, threadOf, Thread.fresh, VReg.fullReg]) hq rs ds

theorem test_shape_example : shapeOk shape1 = true ∧ shExt0 shape1 = 8 ∧ shExt1 shape1 = 4 ∧ shExt2 shape1 = 1
    ∧ (shStype shape1, shDtype shape1) = (some .f32, some .bf16) := by decide
/-- A completion counter at byte 0x200 of the pool, armed with a count of 0; a data word at 0x300 holds 9. -/
def counterMem : List Host.Cell := [(0x100000000020F, 0x80), (0x1000000000300, 9)]
/-- A transfer of 8 words from 0x300 to 0x400 with its counter at 0x200. -/
def transfer1 : Transfer :=
  { uid := 0, cid := 1, ep := 0, launch := none, core := 0, station := 0, shape := (0x00000E7000000000 : Word) ++ (7 : Word), dst := 0x400
    src := 0x300, ctr := 0x200, frm := 0, seed := 1, after := 0, landed := [1], missed := [], blocks := [], parked := false, badSeals := [], ctrTold := false }
/-- The device of `one` with that memory and transfer. -/
def landing : State := { one (threadOf [0x200]) with mem := counterMem, xfers := [(9, transfer1)] }

theorem witness_CopyEngine :
    (Goes (one (threadOf [65536, 3, 0])) 0 (threadOf [65536, 3, 0]) [.g 0] [] ∧ 1 ≤ ((threadOf [65536, 3, 0]).gval 0).toNat
      ∧ ((threadOf [65536, 3, 0]).gval 0).toNat ≤ 65536 ∧ EType.e2m1 ≠ .i4 ∧ ((threadOf [65536, 3, 0]).gval 0).toNat % 2 = 0
      ∧ ((threadOf [65536, 3, 0]).gval 1).toNat % 2 = 1 ∧ ((threadOf [65536, 3, 0]).gval 2).toNat = 0)
    ∧ shapeOk (0x000018A000000010#64 ++ 0x0000010000030007#64) = true ∧ shapeOk (0x000018A000010010#64 ++ 0x0000010000030007#64) = true
    ∧ shapeOk (0x0000108000000010#64 ++ 0x0000010000030007#64) = false
    ∧ (Goes (one (copier [0x400, 0x300, 0x200])) 0 (copier [0x400, 0x300, 0x200]) [.g 0, .g 1, .g 2] []
      ∧ acquirePending (one (copier [0x400, 0x300, 0x200])) 0 = false ∧ ((copier [0x400, 0x300, 0x200]).gval 2).toNat % 16 = 0
      ∧ ((copier [0x400, 0x300, 0x200]).gval 1).toNat % alignOf (shTypes ((copier [0x400, 0x300, 0x200]).h.get 0)).1 = 0
      ∧ ((copier [0x400, 0x300, 0x200]).gval 0).toNat % alignOf (shTypes ((copier [0x400, 0x300, 0x200]).h.get 0)).2 = 0
      ∧ resolve (one (copier [0x400, 0x300, 0x200])) 1 0 ((copier [0x400, 0x300, 0x200]).gval 2) rAtomic = .ok (.here 0x1000000000200) none
      ∧ ((one (copier [0x400, 0x300, 0x200])).xfers.filter fun e => e.2.station == engineStation 0
          && !(e.2.parked && ctxHalted (one (copier [0x400, 0x300, 0x200])) e.2.cid)).length < 64)
    ∧ (Goes (one (copier [0x400, 0x304, 0x208])) 0 (copier [0x400, 0x304, 0x208]) [.g 0, .g 1, .g 2] []
      ∧ ((copier [0x400, 0x304, 0x208]).gval 2).toNat % 16 ≠ 0 ∧ ((copier [0x400, 0x304, 0x200]).gval 2).toNat % 16 = 0
      ∧ ((copier [0x400, 0x304, 0x200]).gval 1).toNat % alignOf (shTypes ((copier [0x400, 0x304, 0x200]).h.get 0)).1 ≠ 0)
    ∧ (Goes (one (copier [0x400, 0x300, 0x60000])) 0 (copier [0x400, 0x300, 0x60000]) [.g 0, .g 1, .g 2] []
      ∧ resolve (one (copier [0x400, 0x300, 0x60000])) 1 0 ((copier [0x400, 0x300, 0x60000]).gval 2) rAtomic = .fail .unmapped) :=
  ⟨⟨goes_one _ _ _, by decide, by decide, by decide, by decide, by decide, by decide⟩, by decide, by decide, by decide,
    ⟨goes_copier _ rfl rfl rfl _ _, rfl, by decide, by decide, by decide, by decide, by decide⟩,
    ⟨goes_copier _ rfl rfl rfl _ _, by decide, by decide, by decide⟩, goes_copier _ rfl rfl rfl _ _, by decide⟩

theorem witness_CountersAndLandings :
    (Goes (one (threadOf [va0 + 0xFF0, 5])) 0 (threadOf [va0 + 0xFF0, 5]) [.g 0, .g 1] [] ∧ acquirePending (one (threadOf [va0 + 0xFF0, 5])) 0 = false
      ∧ ownPool 0 ((threadOf [va0 + 0xFF0, 5]).gval 0) = false ∧ ((threadOf [va0 + 0xFF0, 5]).gval 0).toNat % 16 = 0
      ∧ resolve (one (threadOf [va0 + 0xFF0, 5])) 1 0 ((threadOf [va0 + 0xFF0, 5]).gval 0) rAtomic = .ok (.here 0xFF0) (some 0))
    ∧ (Memory.wf (flying (pooled (.arrive 3) .none 16) (threadOf [])).mem = true ∧ (piece1 16).bytes.length = 16
      ∧ AtByte (flying (pooled (.arrive 3) .none 16) (threadOf [])) 7 (pooled (.arrive 3) .none 16) (piece1 16) 0x1000000000100)
    ∧ (Goes landing 0 (threadOf [0x200]) [.g 0] [] ∧ acquirePending landing 0 = false ∧ ((threadOf [0x200]).gval 0).toNat % 16 = 0
      ∧ sameByteBefore landing 0 100 ((threadOf [0x200]).gval 0) 16 = false ∧ InOwn landing (threadOf [0x200]) ((threadOf [0x200]).gval 0) 16
      ∧ leNat (memBytes landing.mem (ownKey (threadOf [0x200]) ((threadOf [0x200]).gval 0)) 8) = 0
      ∧ 2 ^ 63 ≤ leNat (memBytes landing.mem (ownKey (threadOf [0x200]) ((threadOf [0x200]).gval 0) + 8) 8))
    ∧ leNat (memBytes (one (threadOf [0x200])).mem (ownKey (threadOf [0x200]) ((threadOf [0x200]).gval 0) + 8) 8) < 2 ^ 63
    ∧ (Issues (one handler) 0 handler ∧ handler.kind ≠ .thread)
    ∧ (Memory.wf landing.mem = true ∧ tget 9 landing.xfers = some transfer1 ∧ transfer1.parked = false ∧ shMode transfer1.shape = 0
      ∧ shTypes transfer1.shape = (.n64, .n64) ∧ shExt1 transfer1.shape = 1 ∧ shExt2 transfer1.shape = 1 ∧ transfer1.dst.toNat % 8 = 0
      ∧ transfer1.dst.toNat + 8 * shExt0 transfer1.shape < 2 ^ 64 ∧ 0 < shExt0 transfer1.shape ∧ transfer1.landed.contains 0 = false)
    ∧ (sameByteBefore landing transfer1.uid transfer1.after (srcAddr transfer1 0) 8 = false
      ∧ resolve landing 1 0 (srcAddr transfer1 0) rRead = .ok (.here 0x1000000000300) none
      ∧ resolve landing 1 0 (dstAddr transfer1 0) rWrite = .ok (.here 0x1000000000400) none
      ∧ resolve landing 1 0 transfer1.ctr rAtomic = .ok (.here 0x1000000000200) none
      ∧ isPoolKey 0x1000000000300 = true ∧ isPoolKey 0x1000000000400 = true ∧ isPoolKey 0x1000000000200 = true
      ∧ 0x1000000000400 % 8 = 0 ∧ 0x1000000000200 % 8 = 0 ∧ 0x1000000000200 + 16 ≤ 0x1000000000400)
    ∧ (touchesPoison landing 0x1000000000300 8 = false ∧ touchesPoison landing 0x1000000000400 8 = false
      ∧ touchesPoison landing 0x1000000000200 16 = false) :=
  ⟨⟨goes_one _ _ _, rfl, by decide, by decide, by decide⟩, ⟨rfl, rfl, atPool _ _ _⟩,
    ⟨goes_in _ rfl rfl rfl _ _, rfl, by decide, by decide, ⟨by decide, clean_of rfl rfl _ _⟩, by decide, by decide⟩, by decide,
    ⟨⟨rfl, rfl⟩, by decide⟩, ⟨by decide, rfl, rfl, by decide, by decide, by decide, by decide, by decide, by decide, by decide, by decide⟩, by decide,
    clean_of rfl rfl _ _, clean_of rfl rfl _ _, clean_of rfl rfl _ _⟩

/-- The words of a grid of one dimension, of 8 cells of i32 in two partitions; its table lies at 0x200 (R196). -/
def headerWords : List Word := [0x01010200, 7, 1, 0, 0, 0, 0, 0, 0, 0, 0x200, 5, 0, 0, 0, 0]
/-- Its partition table: core 0 has partition 0, core 1 partition 1 (R197). -/
def tableWords : List Word := [0, 0x1000, 16, 0x2000, 0, 0, 0, 0, 0x800, 0x1000, 16, 0x2000, 0, 0, 0, 0]
/-- The binding of that grid. -/
def grid1 (bufs : Table GhostBuf) (last : Table Nat) : Binding := { header := headerWords, parts := records 2 tableWords, last := last, marks := [], bufs := bufs }
/-- Memory with the header at byte 0x100 of the pool of core 0 and the table at 0x200. -/
def gridMem (h : List Word) : List Host.Cell :=
  memPutBytes (memPutBytes [] 0x1000000000100 (h.map fun w => leBytes 8 w.toNat).flatten) 0x1000000000200 (tableWords.map fun w => leBytes 8 w.toNat).flatten
def gridless (h : List Word) (xs : List Word) : State := { one (threadOf xs) with mem := gridMem h }
/-- The device of `one` with the grid bound to handle 0 of context 1. -/
def gridded (bufs : Table GhostBuf) (last : Table Nat) (xs : List Word) : State := { one (threadOf xs) with grids := [(64, grid1 bufs last)] }

/-- The words that `gridRead` finds, and the state after it. -/
def gridWords (s : State) (t : Thread) (va : Word) (n : Nat) : List Word × State := match gridRead s t va n with | .ok r => r | .error _ => ([], s)
/-- A buffer of partition 0's piece 12, in a state. -/
def bufs1 (st : BufSt) : Table GhostBuf := [(bufKey 0 12 0, { st := st, pending := none, stamp := none })]
/-- A publication of step 0 by thread 0, which waits for a buffer since cycle 0. -/
def publication1 : Publication :=
  { uid := 0, cid := 1, ep := 0, launch := none, g := 0, part := 0, step := 0, left := [(0, 12), (1, 14)], after := 0, waiting := some 0
    first := some 0, nacked := false, told := [] }
/-- Thread 0 at its `hpub`, and at an `ldh`. -/
def publishing : Thread := { threadOf [] with status := .blocked (.publish 0), prog := .publishing 8 }
def ghostWaits : Thread := { threadOf [] with status := .blocked (.ghost 0), prog := .since 0 }

theorem goes_gridded (bufs : Table GhostBuf) (last : Table Nat) (xs : List Word) (rs ds : List RegName) :
    Goes (gridded bufs last xs) 0 (threadOf xs) rs ds := goes_in xs rfl rfl rfl rs ds
theorem owns (bufs : Table GhostBuf) (last : Table Nat) (xs : List Word) : OwnsPart (gridded bufs last xs) (threadOf xs) 0 (grid1 bufs last) 0 where
  bound := rfl
  owner := by
    have h : (grid1 bufs last).ownPart 0 0 = (grid1 [] []).ownPart 0 0 := rfl
    exact h.trans (by decide)

theorem witness_HaloExchange :
    (Goes (one (threadOf [0])) 0 (threadOf [0]) [.g 0] [] ∧ accessesBefore (one (threadOf [0])) 0 100 = false ∧ (threadOf [0]).gval 0 = 0
      ∧ NoWaiter (one (threadOf [0])) 1 0)
    ∧ (Goes (gridless headerWords [0x100]) 0 (threadOf [0x100]) [.g 0] [] ∧ ((threadOf [0x100]).gval 0).toNat % 64 = 0 ∧ (threadOf [0x100]).gval 0 ≠ 0
      ∧ (gridWords (gridless headerWords [0x100]) (threadOf [0x100]) 0x100 16).1 = headerWords
      ∧ headerFault { header := headerWords, parts := [], last := [], marks := [], bufs := [] } = none
      ∧ (gridWords (gridWords (gridless headerWords [0x100]) (threadOf [0x100]) 0x100 16).2 (threadOf [0x100]) (headerWords.getD 10 0)
          (8 * Binding.count { header := headerWords, parts := [], last := [], marks := [], bufs := [] })).1 = tableWords
      ∧ tableFault { header := headerWords, parts := records 2 tableWords, last := [], marks := [], bufs := [] } = none)
    ∧ (Goes (one (threadOf [0x101])) 0 (threadOf [0x101]) [.g 0] [] ∧ ((threadOf [0x101]).gval 0).toNat % 64 ≠ 0)
    ∧ ((gridWords (gridless [1] [0x100]) (threadOf [0x100]) 0x100 16).1.length = 16
      ∧ headerFault { header := (gridWords (gridless [1] [0x100]) (threadOf [0x100]) 0x100 16).1, parts := [], last := [], marks := [], bufs := [] } = some 0)
    ∧ (Goes (gridded [] [(0, 5)] [5]) 0 (threadOf [5]) [.g 0] [] ∧ OwnsPart (gridded [] [(0, 5)] [5]) (threadOf [5]) 0 (grid1 [] [(0, 5)]) 0
      ∧ ((threadOf [5]).gval 0).toNat < 0xFFFFFFFF ∧ tget 0 (grid1 [] [(0, 5)]).last = some 5)
    ∧ (OwnsPart (gridded [] [] [5]) (threadOf [5]) 0 (grid1 [] []) 0 ∧ ((threadOf [5]).gval 0).toNat % (grid1 [] []).depth = 0
      ∧ tget 0 (grid1 [] []).last = none ∧ piecesLeft (grid1 [] []) 0 5 ≠ [] ∧ (gridded [] [] [5]).pubs = [])
    ∧ (Goes (gridded (bufs1 (.ready 0)) [] [0xFFFF, 0]) 0 (threadOf [0xFFFF, 0]) [.g 0, .g 1] [.g 2] ∧ EType.code .i32 = (grid1 (bufs1 (.ready 0)) []).typeCode
      ∧ ((threadOf [0xFFFF, 0]).gval 0).toNat < 2 ^ 56
      ∧ ghostPlace (grid1 (bufs1 (.ready 0)) []) ((threadOf [0xFFFF, 0]).gval 0).toNat = some (12, 0, 0, 0)
      ∧ ((threadOf [0xFFFF, 0]).gval 0).toNat / 2 ^ 48 % 2 ^ 8 < (grid1 (bufs1 (.ready 0)) []).comps
      ∧ ((grid1 (bufs1 (.ready 0)) []).buf 0 12 ((grid1 (bufs1 (.ready 0)) []).bufOf 0)).st = .ready ((grid1 (bufs1 (.ready 0)) []).base 0)
      ∧ InOwn (gridded (bufs1 (.ready 0)) [] [0xFFFF, 0]) (threadOf [0xFFFF, 0]) ((grid1 (bufs1 (.ready 0)) []).ghostAddr 0 12 0 0 0 0 0) 4
      ∧ ((grid1 (bufs1 (.ready 0)) []).ghostAddr 0 12 0 0 0 0 0).toNat % 4 = 0)
    ∧ (((grid1 (bufs1 (.ready 2)) []).buf 0 12 ((grid1 (bufs1 (.ready 2)) []).bufOf 0)).st = .ready 2 ∧ (grid1 (bufs1 (.ready 2)) []).base 0 < 2
      ∧ ((grid1 [] []).buf 0 12 ((grid1 [] []).bufOf 0)).st = .none)
    ∧ ghostPlace (grid1 [] []) 8 = none
    ∧ (0xFFFFFFFF ≤ ((threadOf [0xFFFFFFFF]).gval 0).toNat ∧ tget (gridKey 1 0) (one (threadOf [5])).grids = none ∧ (grid1 [] []).ownPart 0 7 = none)
    ∧ (Issues (one handler) 0 handler ∧ handler.kind ≠ .thread)
    ∧ (publishing.prog = .publishing 8 ∧ publication1.waiting = some 0 ∧ publishing.stepwin ≠ 0 ∧ 0 + publishing.stepwin.toNat ≤ 0x1000000)
    ∧ (ghostWaits.status = .blocked (.ghost 0) ∧ ghostWaits.prog = .since 0 ∧ ghostWaits.stepwin ≠ 0) := by
  refine ⟨⟨goes_one _ _ _, rfl, rfl, ?_⟩, ⟨goes_in _ rfl rfl rfl _ _, by decide, by decide, by decide +kernel, by decide, by decide +kernel, by decide⟩,
    ⟨goes_one _ _ _, by decide⟩, by decide +kernel, ⟨goes_gridded _ _ _ _ _, owns _ _ _, by decide, by decide⟩,
    ⟨owns _ _ _, by decide, rfl, by decide, rfl⟩, ⟨goes_gridded _ _ _ _ _, by decide, by decide, by decide, by decide, by decide,
      ⟨by decide, clean_of rfl rfl _ _⟩, by decide⟩, by decide, by decide, by decide, ⟨⟨rfl, rfl⟩, by decide⟩, by decide, by decide⟩
  intro e he _
  cases List.mem_singleton.1 he
  exact by decide

/-- The halo engine at the piece 14 of partition 1, whose receiver is the same context. -/
def engineState (st : BufSt) (w : Option Nat) : State :=
  { gridded [(bufKey 1 14 0, { st := st, pending := none, stamp := none })] [] [] with
    pubs := [(8, { publication1 with left := [(1, 14)], waiting := w })], time := 0x10000 }
def engineGrid (st : BufSt) : Binding := grid1 [(bufKey 1 14 0, { st := st, pending := none, stamp := none })] []
def engineCores (s : State) : State := { s with cores := [(0, { Core.blank with ctx := some 1, pool := 3 }), (1, { Core.blank with ctx := some 1, pool := 3 })] }
/-- The state after a piece is written, if it is. -/
def written (s : State) (st : BufSt) : Option State :=
  writePiece { s with grids := tput 64 ((engineGrid st).setBuf 1 14 0 (((engineGrid st).buf 1 14 0).fillingFor 0)) s.grids } 8
    { publication1 with left := [(1, 14)], waiting := none } (engineGrid st) (engineGrid st) (64 / 64) 1 14 0 true

theorem witness_HaloEngine :
    (tget 8 (engineCores (engineState .none none)).pubs = some { publication1 with left := [(1, 14)], waiting := none }
      ∧ accessesBefore (engineCores (engineState .none none)) 0 0 = false
      ∧ tget (gridKey 1 0) (engineCores (engineState .none none)).grids = some (engineGrid .none) ∧ (engineGrid .none).ownerDev 1 = 0
      ∧ receiverOf (engineCores (engineState .none none)) 1 (engineGrid .none) 1 = some (64, engineGrid .none) ∧ pieceThere (engineCores (engineState .none none)) (64 / 64) (engineGrid .none) 1 14 = true
      ∧ (engineGrid .none).tagobj = 0 ∧ ((engineGrid .none).buf 1 14 ((engineGrid .none).bufOf 0)).st.admits 0 = .go ∧ (written (engineCores (engineState .none none)) .none).isSome = true)
    ∧ (receiverOf (engineCores (engineState (.ready 4) none)) 1 (engineGrid (.ready 4)) 1 = some (64, engineGrid (.ready 4))
      ∧ ((engineGrid (.ready 4)).buf 1 14 ((engineGrid (.ready 4)).bufOf 0)).st.admits 0 = .drop)
    ∧ receiverOf (engineState .none none) 1 (engineGrid .none) 1 = none
    ∧ (publication1.first = some 0 ∧ publication1.left = (0, 12) :: [(1, 14)] ∧ 0 + 2 ^ 16 ≤ (engineState .none none).time
      ∧ [(1, 14)] ≠ [] ∧ (0, 12) ∉ [(1, 14)]) := by
  refine ⟨⟨rfl, rfl, rfl, by decide, by decide +kernel, by decide, by decide, by decide, by decide +kernel⟩, ⟨by decide +kernel, by decide⟩, by decide +kernel, by decide⟩
/-- The device of `one` with these entries in the Confluence table. -/
def tagged (ts : Table Tag) (t : Thread) : State := { one t with tags := ts }
theorem tagged_tags (ts : Table Tag) (t : Thread) : (tagged ts t).tags = ts := rfl
/-- The key of object 5 and tile 3 of tenant 1. -/
def key1 : Nat := tagKey 1 5 3
/-- A full slice: 65,536 entries of tenant 1 and object 0 whose tiles are multiples of 16. -/
def fullSlice : Table Tag := (List.range 65536).map fun i => (tagKey 1 0 (16 * i), { gen := 0, left := 1, cid := 1, since := 0 })

theorem fullSlice_none (k : Nat) (h : k % 16 ≠ tagKey 1 0 0 % 16) : tget k fullSlice = none := by
  have : ∀ l : List Nat, tget k (l.map fun i => (tagKey 1 0 (16 * i), ({ gen := 0, left := 1, cid := 1, since := 0 } : Tag))) = none := by
    intro l
    induction l with
    | nil => rfl
    | cons i l ih =>
      have : k ≠ tagKey 1 0 (16 * i) := by simp only [tagKey] at h ⊢; omega
      simp only [List.map_cons, tget, if_neg this]
      exact ih
  exact this _

theorem fullSlice_length : (fullSlice.filter fun e => sliceOfKey e.1 == 0).length = 65536 := by
  have : (fullSlice.filter fun e => sliceOfKey e.1 == 0) = fullSlice := by
    apply List.filter_eq_self.2
    intro e he
    obtain ⟨i, hi, rfl⟩ := List.mem_map.1 he
    have := List.mem_range.1 hi
    simp only [sliceOfKey, tagKey, beq_iff_eq]
    have h1 : (1 * 2 ^ 56 + 0 * 2 ^ 32 + 16 * i) / 2 ^ 32 = 2 ^ 24 := by omega
    rw [h1]
    omega
  rw [this, fullSlice, List.length_map, List.length_range]

/-- A `tagpub` of thread 0 toward a peer. -/
def tagAccess : Access := { accessOf (.tagpub 5 3 0 1) (.g 3 false) .flying 0 (.peer 2 0) (List.replicate 8 0) with first := some 0 }

theorem witness_Tags :
    (Goes (one (threadOf [0x500000003, 0x12345, 0])) 0 (threadOf [0x500000003, 0x12345, 0]) [.g 0, .g 1] [.g 2]
      ∧ (threadOf [0x500000003, 0x12345, 0]).prog = .none ∧ accessesBefore (one (threadOf [0x500000003, 0x12345, 0])) 0 100 = false
      ∧ ((threadOf [0x500000003, 0x12345, 0]).gval 0).toNat < 2 ^ 56 ∧ ((threadOf [0x500000003, 0x12345, 0]).gval 1).toNat < 2 ^ 42
      ∧ ((threadOf [0x500000003, 0x12345, 0]).gval 1).toNat / 2 ^ 32 % 2 ^ 9 = 0
      ∧ tget key1 (one (threadOf [0x500000003, 0x12345, 0])).tags = none
      ∧ ((one (threadOf [0x500000003, 0x12345, 0])).tags.filter fun e => sliceOfKey e.1 == tagSlice 5 3).length < 65536)
    ∧ (32768 ≤ ((0x2344 : BitVec 16).toNat + 65536 - 0x12345 % 2 ^ 16) % 65536 ∧ ((0x2345 : BitVec 16).toNat + 65536 - 0x12345 % 2 ^ 16) % 65536 < 32768
      ∧ tget key1 (tagged [(key1, { gen := 0x2344, left := 1, cid := 1, since := 0 })] (threadOf [])).tags = some { gen := 0x2344, left := 1, cid := 1, since := 0 })
    ∧ (tget (tagKey 1 15 1) (tagged fullSlice (threadOf [])).tags = none
      ∧ 65536 ≤ ((tagged fullSlice (threadOf [])).tags.filter fun e => sliceOfKey e.1 == tagSlice 15 1).length)
    ∧ (2 ^ 56 ≤ ((threadOf [0x100000000000000, 0x40000000000]).gval 0).toNat ∧ 2 ^ 42 ≤ ((threadOf [0x100000000000000, 0x40000000000]).gval 1).toNat)
    ∧ (((threadOf [3, 0x200012345]).gval 1).toNat < 2 ^ 41 ∧ ((threadOf [3, 0x200012345]).gval 1).toNat / 2 ^ 32 ≠ 0
      ∧ peerCheck (one (threadOf [3, 0x200012345])) ctx1.part (((threadOf [3, 0x200012345]).gval 1).toNat / 2 ^ 32) = some .peerAbsent)
    ∧ (tget 7 ({ flying tagAccess (threadOf []) with time := 65536 } : State).accs = some tagAccess ∧ tagAccess.kind = .tagpub 5 3 0 1 ∧ tagAccess.phase = .flying
      ∧ (∀ e ∈ ({ flying tagAccess (threadOf []) with time := 65536 } : State).accs, e.2.uid = 0 → e = (7, tagAccess)) ∧ tagAccess.first = some 0
      ∧ 0 + 2 ^ 16 ≤ ({ flying tagAccess (threadOf []) with time := 65536 } : State).time ∧ tagAccess.dest ≠ .none)
    ∧ (Goes (tagged [(key1, { gen := 0x2345, left := 1, cid := 1, since := 0 })] (threadOf [0x500000003, 0x2345])) 0 (threadOf [0x500000003, 0x2345]) [.g 0, .g 1] []
      ∧ (threadOf [0x500000003, 0x2345]).kind = .thread ∧ acquirePending (tagged [(key1, { gen := 0x2345, left := 1, cid := 1, since := 0 })] (threadOf [0x500000003, 0x2345])) 0 = false
      ∧ ((threadOf [0x500000003, 0x2345]).gval 1).toNat / 2 ^ 16 % 2 ^ 16 = 0 ∧ (0x2345 : BitVec 16).toNat = ((threadOf [0x500000003, 0x2345]).gval 1).toNat % 2 ^ 16)
    ∧ (1 ≤ ((0x2346 : BitVec 16).toNat + 65536 - 0x2345) % 65536 ∧ ((0x2346 : BitVec 16).toNat + 65536 - 0x2345) % 65536 < 32768)
    ∧ (producerDone (oneIn { ctx1 with completed := [4] } (threadOf [])) 1 4 = true ∧ producerDone (one (threadOf [])) 1 4 = false)
    ∧ (Issues (one handler) 0 handler ∧ handler.kind ≠ .thread) := by
  refine ⟨⟨goes_one _ _ _, rfl, rfl, by decide, by decide, by decide, rfl, by decide⟩, ⟨by decide, by decide, rfl⟩,
    ⟨?_, ?_⟩, by decide, by decide, ⟨rfl, rfl, rfl, ?_, rfl, by decide, by decide⟩,
    ⟨goes_in _ rfl rfl rfl _ _, rfl, rfl, by decide, by decide⟩, by decide, by decide, ⟨rfl, rfl⟩, by decide⟩
  · rw [tagged_tags]
    exact fullSlice_none _ (by decide)
  · rw [tagged_tags, show tagSlice 15 1 = 0 from rfl, fullSlice_length]
  · intro e he _
    exact List.mem_singleton.1 he

/-- A launch of context 1 of one gang, placed on core 0, with two levels: the second has a barrier (R31). -/
def launch1 : Launch :=
  { cid := 1, addr := 0, entry := 0x40, lid := 4, donerec := 0, args := [], levels := [{ ext := 2, bind := 0, bar := none }, { ext := 1, bind := 1, bar := some 0 }]
    pool := 0, high := false, hasin := false, blklvl := 0, inputs := [], queue := none, prio := 0, taken := 0, gangs := [(0, .placed)], readyAt := []
    places := [(0, [0])], started := some 0, doneAt := .none, pausedFor := 0, alive := 2, total := 2, retired := 0, failed := 0, away := false }
/-- Thread 0 as a member of that launch. -/
def member (xs : List Word) : Thread := { threadOf xs with launch := some 3 }
theorem goes_member {s : State} (xs : List Word) (hc : s.cur = some 0) (ht : tget 0 s.threads = some (member xs))
    (hq : (s.tile (tileOf (member xs).core)).queue ((member xs).core % 8) = []) (rs ds : List RegName) : Goes s 0 (member xs) rs ds :=
  goes hc ht rfl (fun n => by simp [member, threadOf, GReg.ofWord]) (fun n => by simp [member, threadOf, Thread.fresh, VReg.fullReg]) hq rs ds
/-- The device of `one` with the launch open. -/
def launched (x : Launch) (t : Thread) : State := { one t with launches := [(3, x)] }
/-- A `fork` on its way to a core. -/
def forkTo (c : Nat) : ForkReq :=
  { uid := 0, core := some c, cid := 1, pc := 0x80, first := 14, vals := [5, 6], dest := 9, kf := false, after := 0
    join := some { launch := 3, gang := 0, pool := 3, high := false, idx := [0], linear := 0 } }
/-- A light thread of a partition of island 0. -/
def light (xs : List Word) : Thread := { threadOf xs with pool := 0 }
def part1 : Partition := { tenant := 1, sliced := false, islands := [0], groups := [], share := 0, slice := 0, qfirst := 0, qcount := 1, raw := [] }
def parted (t : Thread) : State := { one t with parts := [(0, part1)] }
theorem goes_light {s : State} (xs : List Word) (hc : s.cur = some 0) (ht : tget 0 s.threads = some (light xs))
    (ns ds : List GNum) : Goes s 0 (light xs) (ns.map .g) (ds.map .g) where
  cur := hc
  thread := ht
  full := by
    intro r hr
    obtain ⟨n, _, rfl⟩ := List.mem_map.1 hr
    exact ⟨rfl, by simp [Thread.regSt, light, threadOf, GReg.ofWord]⟩
  free := by
    intro r hr
    obtain ⟨n, _, rfl⟩ := List.mem_map.1 hr
    exact ⟨rfl, by simp [Thread.regSt, light, threadOf, GReg.ofWord], rfl⟩
/-- A light thread whose g7 waits for a value. -/
def awaited (xs : List Word) : Thread := (light xs).emptyG 7
theorem goes_awaited : Goes (parted (awaited [0x101000000])) 0 (awaited [0x101000000]) [.g 0] [] where
  cur := rfl
  thread := rfl
  full := by
    intro r hr
    cases List.mem_singleton.1 hr
    exact ⟨rfl, rfl⟩
  free := by simp
/-- The device with that fork on its way. -/
def forked (f : ForkReq) : State := { launched launch1 (threadOf []) with forks := [(5, f)] }
/-- A light thread on its way to core 1. -/
def leaver : Thread := { light [] with status := .leaving, prog := .moving 1 0x44 0x101000000 }

theorem witness_Forks :
    (Goes (one (threadOf [0x800, 1])) 0 (threadOf [0x800, 1]) (.g 0 :: (regRange 14 2).map .g) [.g 9] ∧ (threadOf [0x800, 1]).prog = .none)
    ∧ (tget 5 (forked (forkTo 0)).forks = some (forkTo 0) ∧ accessesBefore (forked (forkTo 0)) 0 0 = false ∧ haltedCtx (forked (forkTo 0)) 1 = false
      ∧ tget 3 (forked (forkTo 0)).launches = some launch1 ∧ 0 ∈ (tget 0 launch1.places).getD [] ∧ coreFor (forked (forkTo 0)) 0 1 = true
      ∧ codeFits (forked (forkTo 0)) 0 3 = true ∧ freeSlots (forked (forkTo 0)) 0 = [1, 2, 3, 4, 5, 6, 7]
      ∧ (forkTo 0).first + (forkTo 0).vals.length ≤ 16)
    ∧ (1 ∉ (tget 0 launch1.places).getD [] ∧ (forkTo 1).core = some 1)
    ∧ (freeSlots { forked (forkTo 0) with threads := (List.range 8).map fun k => (k, { threadOf [] with slot := k }) } 0 = []
      ∧ ((forked (forkTo 0)).core 0).absent = false)
    ∧ ({ forkTo 0 with core := none } : ForkReq).core = none
    ∧ accessesBefore { forked { forkTo 0 with after := 8 } with accs := [(7, untranslated)] } 0 8 = true := by
  refine ⟨⟨goes_one _ _ _, rfl⟩, ⟨rfl, rfl, rfl, rfl, by decide, by decide +kernel, by decide +kernel, by decide +kernel, by decide⟩, by decide,
    ⟨by decide +kernel, rfl⟩, rfl, rfl⟩

theorem witness_Moves :
    (Goes (parted (light [0x5FFFF])) 0 (light [0x5FFFF]) [.g 0] [] ∧ InThread (light [0x5FFFF]) ∧ heavy (parted (light [0x5FFFF])) 0 (light [0x5FFFF]) = false
      ∧ ((light [0x5FFFF]).gval 0).toNat < 0x60000
      ∧ clusterOf (light []).core * 256 + (((light [0x100FFFFFF]).gval 0).toNat - 0x100000000) / 0x1000000 = (light []).core)
    ∧ (Goes (parted (light [0x101000000])) 0 (light [0x101000000]) [.g 0] [.g 1] ∧ (parted (light [0x101000000])).ctx? 1 = some ctx1
      ∧ 0x100000000 ≤ ((light [0x101000000]).gval 0).toNat ∧ ((light [0x101000000]).gval 0).toNat < 0x200000000
      ∧ 1 = clusterOf 0 * 256 + (((light [0x101000000]).gval 0).toNat - 0x100000000) / 0x1000000 ∧ islandOf 1 ∈ partIslands (parted (light [0x101000000])) 0
      ∧ ((parted (light [0x101000000])).core 1).absent = false ∧ fillsPending (light [0x101000000]) = false
      ∧ accessesBefore (parted (light [0x101000000])) 0 100 = false ∧ isSteward (light []).core = false)
    ∧ (Goes (parted (awaited [0x101000000])) 0 (awaited [0x101000000]) [.g 0] [] ∧ fillsPending (awaited [0x101000000]) = true
      ∧ heavy (parted (awaited [0x101000000])) 0 (awaited [0x101000000]) = false)
    ∧ (Goes (one handler) 0 handler [.g 0] [] ∧ handler.kind ≠ .thread)
    ∧ (islandOf 32 ∉ partIslands (parted (light [0x120000000])) 0 ∧ ({ Core.blank with absent := true } : Core).absent = true)
    ∧ (heavy (one (threadOf [])) 0 (threadOf []) = true ∧ 0x60000 ≤ ((light [0x60000]).gval 0).toNat ∧ ((light [0x60000]).gval 0).toNat < 0x100000000)
    ∧ (tget 0 (one leaver).threads = some leaver ∧ leaver.status = .leaving ∧ leaver.prog = .moving 1 0x44 0x101000000 ∧ coreFor (one leaver) 1 1 = true
      ∧ codeFits (one leaver) 1 0 = true ∧ (7 : Fin 8).val ∈ freeSlots (one leaver) 1) := by
  refine ⟨⟨goes_light _ rfl rfl [0] [], ⟨rfl, rfl⟩, rfl, by decide, by decide⟩,
    ⟨goes_light _ rfl rfl [0] [1], rfl, by decide, by decide, by decide, by decide, rfl, rfl, rfl, rfl⟩, ⟨goes_awaited, by decide, rfl⟩,
    ⟨goes rfl rfl rfl (fun n => by simp [handler, threadOf, GReg.ofWord]) (fun n => by simp [handler, threadOf, Thread.fresh, VReg.fullReg]) rfl _ _, by decide⟩,
    by decide, by decide, rfl, rfl, rfl, by decide, by decide, by decide⟩
/-- A cell of the launch's level 1 with these arrivals, of two members. -/
def cellOf (op : Nat) (us : List Nat) (members : Nat) : BarCell :=
  { phase := 0, op := op, acc := 5, members := members, exited := 0
    arrivals := us.map fun u => { uid := u, dest := none, split := false, kf := false, retired := false, covered := true } }
/-- The device with that cell, where thread 0 issues. -/
def barriered (c : BarCell) (xs : List Word) : State :=
  { one (member xs) with launches := [(3, launch1)], bars := [(barKey 3 1 (cellIndex launch1.levels (member xs).idx 1), c)] }
def barKey1 : Nat := barKey 3 1 (cellIndex launch1.levels (member []).idx 1)

theorem barOf_barriered (c : BarCell) (xs : List Word) : barOf (barriered c xs) (member xs) (1 : Fin 8).val = some (barKey1, c) := by
  have h1 : tget 3 (barriered c xs).launches = some launch1 := rfl
  have h2 : tget barKey1 (barriered c xs).bars = some c := by
    simp only [barriered, one, tget]
    exact if_pos rfl
  have h3 : (member xs).launch = some 3 := rfl
  have h4 : (member xs).forked = false := rfl
  have h5 : (member xs).gang = 0 := rfl
  have h6 : (member xs).core = 0 := rfl
  have h7 : barKey 3 (1 : Fin 8).val (cellIndex launch1.levels (member xs).idx (1 : Fin 8).val) = barKey1 := rfl
  simp only [barOf, h1, h2, h3, h4, h5, h6, h7, Bool.false_eq_true, if_false, Option.map_some]
  exact if_pos (by decide)

theorem arrives (op : Nat) (us : List Nat) (m k : Nat) (xs : List Word) (h : ∀ u ∈ us, u ≠ 0) (ho : us = [] ∨ op = k) :
    Arrives (barriered (cellOf op us m) xs) 0 (member xs) (1 : Fin 8).val k barKey1 (cellOf op us m) where
  kind := rfl
  fresh := rfl
  cell := barOf_barriered _ _
  first := by
    intro a ha
    obtain ⟨u, hu, rfl⟩ := List.mem_map.1 ha
    exact h u hu
  same := by rcases ho with rfl | rfl; exacts [.inl rfl, .inr rfl]

/-- The last arrival completes the phase where no access is in flight. -/
theorem completes (op : Nat) (us : List Nat) (xs : List Word) :
    Completes (barriered (cellOf op us (us.length + 1)) xs) 0 (cellOf op us (us.length + 1)) where
  last := by simp [cellOf]
  ordered := rfl
  covered := by
    intro a ha
    obtain ⟨u, _, rfl⟩ := List.mem_map.1 ha
    rfl
/-- An arrival at that cell that the accesses before it still hold open, and the release that says so. -/
def held : BarCell :=
  { cellOf 0 [] 3 with arrivals := [{ uid := 0, dest := none, split := false, kf := false, retired := false, covered := false }] }
def releaseOf : Access := { accessOf (.barrier barKey1) .none .flying 0 (.here 0) [] with rel := true }

theorem witness_Barriers : (1 ≤ 6 ∧ 6 ≤ 6) ∧ f32NaN ((0x7F800001 : Word).toNat % 2 ^ 32) = true
    ∧ (Issues (barriered (cellOf 0 [5] 3) []) 0 (member []) ∧ Arrives (barriered (cellOf 0 [5] 3) []) 0 (member []) (1 : Fin 8).val 0 barKey1 (cellOf 0 [5] 3)
      ∧ ¬ Completes (barriered (cellOf 0 [5] 3) []) 0 (cellOf 0 [5] 3) ∧ Completes (barriered (cellOf 0 [5] 2) []) 0 (cellOf 0 [5] 2)
      ∧ Arrives (barriered (cellOf 0 [5] 2) []) 0 (member []) (1 : Fin 8).val 0 barKey1 (cellOf 0 [5] 2))
    ∧ (Goes (barriered (cellOf 7 [5] 3) [9]) 0 (member [9]) [.g 0] [.g 1] ∧ Arrives (barriered (cellOf 7 [5] 3) [9]) 0 (member [9]) (1 : Fin 8).val (7 : Fin 8).val barKey1 (cellOf 7 [5] 3)
      ∧ Arrives (barriered (cellOf 2 [] 1) [9]) 0 (member [9]) (1 : Fin 8).val (7 : Fin 8).val barKey1 (cellOf 2 [] 1)
      ∧ ¬ Completes (barriered (cellOf 7 [5] 3) [9]) 0 (cellOf 7 [5] 3) ∧ Completes (barriered (cellOf 2 [] 1) [9]) 0 (cellOf 2 [] 1)
      ∧ syKf (some { plain with kf := true }) = true)
    ∧ (tget 9 ({ barriered held [] with accs := [(9, releaseOf)] } : State).accs = some releaseOf ∧ releaseOf.pieces.map (fun p => (p.loc, p.bytes)) = [(.here 0, [])]
      ∧ releaseOf.kind = .barrier barKey1 ∧ tget barKey1 (barriered held []).bars = some held
      ∧ ∀ p ∈ releaseOf.pieces, mayPerform { barriered held [] with accs := [(9, releaseOf)] } 9 releaseOf p = true)
    ∧ (barOf (barriered (cellOf 0 [0] 3) []) (member []) (1 : Fin 8).val = some (barKey1, cellOf 0 [0] 3) ∧ ∃ a ∈ (cellOf 0 [0] 3).arrivals, a.uid = 0)
    ∧ (Issues (one handler) 0 handler ∧ handler.kind ≠ .thread)
    ∧ ({ threadOf [] with forked := true } : Thread).forked = true
    ∧ (∃ l x, (member []).launch = some l ∧ tget l (barriered (cellOf 0 [] 3) []).launches = some x ∧ x.levels.length ≤ (2 : Fin 8).val)
    ∧ (∃ v, launch1.levels[(0 : Fin 8).val]? = some v ∧ v.bar = none) ∧ 7 ∉ (tget 0 launch1.places).getD []
    ∧ (barOf (barriered (cellOf 4 [5] 3) [9]) (member [9]) (1 : Fin 8).val = some (barKey1, cellOf 4 [5] 3) ∧ (cellOf 4 [5] 3).arrivals ≠ []
      ∧ (∀ a ∈ (cellOf 4 [5] 3).arrivals, a.uid ≠ 0) ∧ (cellOf 4 [5] 3).op ≠ 0 ∧ (cellOf 4 [5] 3).op ≠ (7 : Fin 8).val) :=
  ⟨by decide, by decide, ⟨⟨rfl, rfl⟩, arrives _ _ _ _ _ (by decide) (.inr rfl), fun h => absurd h.last (by decide), completes 0 [5] [], arrives _ _ _ _ _ (by decide) (.inr rfl)⟩,
    ⟨goes_member _ rfl rfl rfl _ _, arrives _ _ _ _ _ (by decide) (.inr rfl), arrives _ _ _ _ _ (by decide) (.inl rfl), fun h => absurd h.last (by decide),
      completes 2 [] [9], rfl⟩, ⟨rfl, rfl, rfl, rfl, by decide⟩,
    ⟨barOf_barriered _ _, by decide⟩, ⟨⟨rfl, rfl⟩, by decide⟩, rfl, ⟨3, launch1, rfl, rfl, by decide⟩, ⟨_, rfl, rfl⟩, by decide,
    barOf_barriered _ _, by decide, by decide, by decide, by decide⟩

/-- A message of thread 0 to slot 8 of core 0, whose generation is 0, and one to a stale generation. -/
def message1 (dest : BitVec 32) (refused : Bool) : Message :=
  { uid := 0, cid := 1, launch := some 3, sender := 0, dest := dest, pc := 0x40, vals := [5], first := some 0, refused := refused, nacked := false, after := 0 }
/-- The device with that message in flight, and these in the inbox of core 0. -/
def mailed (m : Message) (box : List Message) : State :=
  { launched launch1 (threadOf []) with
    msgs := [(5, m)], cores := [(0, { Core.blank with ctx := some 1, pool := 3, inbox := box })], time := 65536 }
/-- A context with a fault handler and a pending fault interrupt. -/
def handledCtx : Context := { ctx1 with fhentry := 0x800, pendingInt := true }
/-- The device where thread 0 waits for its fault run. -/
def delivered : State :=
  { oneIn handledCtx heldThread with cores := [(0, { Core.blank with ctx := some 1, pool := 3, faults := [.thread 0, .interrupt] })] }

theorem witness_MessagesAndHandlers :
    (Goes (one (threadOf [0, 0x40, 7])) 0 (threadOf [0, 0x40, 7]) (.g 0 :: .g 1 :: (regRange 2 (Fin.val (n := 9) 8)).map .g) []
      ∧ ((threadOf [0, 0x40, 7]).gval 1).toNat % 2 = 0 ∧ ((threadOf [0, 0x41]).gval 1).toNat % 2 = 1
      ∧ ((threadOf [0, 0x40, 7]).gval 0).toNat / 2 ^ 23 % 2 ^ 9 = 0 ∧ ((one (threadOf [0, 0x40, 7])).core 0).absent = false)
    ∧ (tget 5 (mailed (message1 0x400 false) []).msgs = some (message1 0x400 false) ∧ mayArrive (mailed (message1 0x400 false) []) (message1 0x400 false) = true
      ∧ deliverable (mailed (message1 0x400 false) []) (message1 0x400 false) = true
      ∧ ((mailed (message1 0x400 false) []).core 0).inbox.length < 64)
    ∧ (deliverable (mailed (message1 0x400 false) (List.replicate 64 (message1 0x400 false))) (message1 0x400 false) = true
      ∧ 64 ≤ ((mailed (message1 0x400 false) (List.replicate 64 (message1 0x400 false))).core 0).inbox.length)
    ∧ (mayArrive (mailed (message1 0x401 false) []) (message1 0x401 false) = true
      ∧ (((mailed (message1 0x401 false) []).core 0).gens.toList.getD 8 0).toNat ≠ (0x401 : BitVec 32).toNat % 2 ^ 7 ∧ launch1.failed < 2 ^ 32 - 1)
    ∧ 8 < (0x480 : BitVec 32).toNat / 2 ^ 7 % 2 ^ 4
    ∧ ((message1 0x400 true).refused = true ∧ (message1 0x400 true).first = some 0 ∧ 0 + 2 ^ 16 ≤ (mailed (message1 0x400 true) []).time)
    ∧ (((mailed (message1 0x400 false) [message1 0x400 false]).core 0).ctx = some 1 ∧ ((mailed (message1 0x400 false) [message1 0x400 false]).core 0).faults = []
      ∧ ((mailed (message1 0x400 false) [message1 0x400 false]).core 0).inbox = message1 0x400 false :: []
      ∧ handlerFree (mailed (message1 0x400 false) [message1 0x400 false]) 0 1 = true ∧ (message1 0x400 false).vals.length ≤ 8)
    ∧ ((delivered.core 0).ctx = some 1 ∧ (delivered.core 0).faults = .thread 0 :: [.interrupt] ∧ handlerFree delivered 0 1 = true
      ∧ delivered.ctx? 1 = some handledCtx ∧ delivered.agent? 0 = some heldThread)
    ∧ (heldCores delivered 1 = 0 :: [] ∧ handledCtx.pendingInt = true ∧ handledCtx.fhentry ≠ 0) :=
  ⟨⟨goes_one _ _ _, by decide, by decide, by decide, rfl⟩, ⟨rfl, rfl, by decide +kernel, by decide⟩, by decide +kernel, by decide +kernel, by decide, by decide,
    ⟨rfl, rfl, rfl, by decide, by decide⟩, ⟨rfl, rfl, by decide, rfl, rfl⟩, by decide⟩

/-- A thread that derives 1 page of its own space to page 0x20 of a space, with rights, and the device where it does. -/
def deriver (r1 : Word) : Thread := threadOf [va0, r1, 0x2000000020000, 1]
/-- A second space of tenant 1, a third of tenant 2, and a deleted one. -/
def spaces1 : Table Space :=
  [(0, { tenant := 0, deleted := false }), (1, { tenant := 1, deleted := false }), (2, { tenant := 1, deleted := false }), (3, { tenant := 2, deleted := false }),
   (4, { tenant := 1, deleted := true })]
def spaced (ns : Table Node) (t : Thread) : State := { one t with spaces := spaces1, nodes := ns }
/-- The quad of `deriver`. -/
def quad1 (space rights : Nat) : Quad := { src := 0x1000000000, space := space, rights := rights, dev := 0, dst := 0x2000000020, pages := 1 }

theorem goes_spaced (ns : Table Node) (xs : List Word) (rs ds : List RegName) : Goes (spaced ns (threadOf xs)) 0 (threadOf xs) rs ds :=
  goes_in xs rfl rfl rfl rs ds

theorem derives (ns : Table Node) (r1 : Word) (grant : Bool) (q : Quad)
    (h : quadOf grant va0 r1 0x2000000020000 1 (deriver r1).pc = .ok q) : Derives (spaced ns (deriver r1)) 0 (deriver r1) none 5 0 grant q where
  toGoes := goes_spaced _ _ _ _
  fresh := rfl
  quad := by
    have e0 : (deriver r1).gval 0 = va0 := by simp [deriver, threadOf, Thread.gval, GReg.ofWord]
    have e1 : (deriver r1).gval (gAfter 0 1) = r1 := by rw [show gAfter 0 1 = 1 by decide]; simp [deriver, threadOf, Thread.gval, GReg.ofWord]
    have e2 : (deriver r1).gval (gAfter 0 2) = 0x2000000020000 := by rw [show gAfter 0 2 = 2 by decide]; simp [deriver, threadOf, Thread.gval, GReg.ofWord]
    have e3 : (deriver r1).gval (gAfter 0 3) = 1 := by rw [show gAfter 0 3 = 3 by decide]; simp [deriver, threadOf, Thread.gval, GReg.ofWord]
    rw [e0, e1, e2, e3]
    exact h
  ordered := rfl
theorem source_of (r1 : Word) (space rights : Nat) (n : Node) (hn : n.space = 1 ∧ n.vpage = 0x1000000000 ∧ n.pages = 1 ∧ n.withdrawn = false ∧ n.parent = none) :
    Source (spaced [(0, n)] (deriver r1)) (deriver r1) (quad1 space rights) 0 n where
  found := by
    have h : n.covers 1 0x1000000000 = true := by simp [Node.covers, hn]
    simp [findNode, spaced, tfind, quad1, callerOf, deriver, threadOf, Thread.fresh, one, State.ctx?, tget, ctx1, Context.fresh, h]
  whole := by simp [quad1, hn]
  live := by simp [marked, markedFrom, spaced, tget, hn]
theorem target_of (k tenant : Nat) (r1 : Word) (rights : Nat) (ns : Table Node) (hk : tget k spaces1 = some { tenant := tenant, deleted := false }) (ht : tenant = 1)
    (hf : ∀ e ∈ ns, e.2.space = k → e.2.vpage + e.2.pages ≤ 0x2000000020 ∨ 0x2000000020 + 1 ≤ e.2.vpage) :
    Target (spaced ns (deriver r1)) (deriver r1) (quad1 k rights) { tenant := tenant, deleted := false } where
  home := rfl
  space := hk
  exists_ := rfl
  tenant := .inl ht
  free := hf

/-- The node of `one` with other rights, depth or size. -/
def nodeWith (rights : BitVec 5) (depth : Nat) (withdrawn : Bool) : Node := { node1 with rights := rights, depth := depth, withdrawn := withdrawn }
/-- A node of space 2 at the page that `deriver` asks for. -/
def taken : Node := { node1 with space := 2, vpage := 0x2000000020, page := 1 }

theorem witness_Derivations :
    (Derives (spaced [(0, node1)] (deriver 0x300002)) 0 (deriver 0x300002) none 5 0 false (quad1 2 3)
      ∧ Source (spaced [(0, node1)] (deriver 0x300002)) (deriver 0x300002) (quad1 2 3) 0 node1
      ∧ Target (spaced [(0, node1)] (deriver 0x300002)) (deriver 0x300002) (quad1 2 3) { tenant := 1, deleted := false }
      ∧ node1.rights.getLsbD 4 = true ∧ (quad1 2 3).rights &&& node1.rights.toNat = (quad1 2 3).rights ∧ node1.depth < 15
      ∧ (spaced [(0, node1)] (deriver 0x300002)).nodes.length < 16777216 ∧ (callerOf (spaced [(0, node1)] (deriver 0x300002)) (deriver 0x300002)).2 ≠ 0)
    ∧ (Derives (spaced [(0, node1)] (deriver 2)) 0 (deriver 2) none 5 0 true (quad1 2 0) ∧ (quad1 2 0).src = node1.vpage ∧ (quad1 2 0).pages = node1.pages)
    ∧ findNode (spaced [] (deriver 2)) 1 (quad1 2 0).src = none
    ∧ (findNode (spaced [(0, node1)] (deriver 2)) 1 0x1000000000 = some (0, node1) ∧ node1.vpage + node1.pages < 0x1000000000 + 2)
    ∧ (findNode (spaced [(0, nodeWith 31 0 true)] (deriver 2)) 1 0x1000000000 = some (0, nodeWith 31 0 true)
      ∧ marked (spaced [(0, nodeWith 31 0 true)] (deriver 2)) 0 = true)
    ∧ (Source (spaced [(0, nodeWith 15 0 false)] (deriver 2)) (deriver 2) (quad1 2 0) 0 (nodeWith 15 0 false) ∧ (nodeWith 15 0 false).rights.getLsbD 4 = false)
    ∧ (Source (spaced [(0, nodeWith 17 0 false)] (deriver 0x300002)) (deriver 0x300002) (quad1 2 3) 0 (nodeWith 17 0 false)
      ∧ (quad1 2 3).rights &&& (nodeWith 17 0 false).rights.toNat ≠ (quad1 2 3).rights)
    ∧ (tget 9 spaces1 = none ∧ tget 4 spaces1 = some { tenant := 1, deleted := true } ∧ tget 3 spaces1 = some { tenant := 2, deleted := false } ∧ 2 ≠ 1)
    ∧ (∃ e ∈ (spaced [(0, node1), (1, taken)] (deriver 2)).nodes, e.2.space = 2 ∧ e.2.vpage < 0x2000000020 + 1 ∧ 0x2000000020 < e.2.vpage + e.2.pages)
    ∧ ((nodeWith 31 15 false).depth = 15 ∧ Source (spaced [(0, nodeWith 31 15 false)] (deriver 2)) (deriver 2) (quad1 2 0) 0 (nodeWith 31 15 false))
    ∧ 16777216 ≤ (List.replicate 16777216 (0, node1)).length
    ∧ (Derives (spaced [(0, node1)] (deriver 2)) 0 (deriver 2) none 5 0 true (quad1 2 0)
      ∧ ¬ (0x1000000000 = ({ node1 with pages := 2 } : Node).vpage ∧ 1 = ({ node1 with pages := 2 } : Node).pages))
    ∧ (Goes (spaced [] (threadOf [0x1001, 0, 0, 0])) 0 (threadOf [0x1001, 0, 0, 0]) [.g 0, .g (gAfter 0 1), .g (gAfter 0 2), .g (gAfter 0 3)] [.g 5]
      ∧ ((threadOf [0x1001, 0, 0, 0]).gval 1).toNat < 2 ^ 34 ∧ ((threadOf [0x1001, 0, 0, 0]).gval 0).toNat % 4096 ≠ 0
      ∧ ((threadOf [0x1000, 0, 0, 1]).gval 0).toNat % 4096 = 0 ∧ ((threadOf [0x1000, 0, 0, 1]).gval 2).toNat % 4096 = 0
      ∧ ((threadOf [0x1000, 0, 0, 0]).gval 3).toNat = 0 ∧ 1 ≤ ((threadOf [0x1000, 0, 0, 1]).gval 3).toNat ∧ ((threadOf [0x1000, 0, 0, 1]).gval 0).toNat < 2 ^ 48) :=
  ⟨⟨derives _ _ _ _ (by decide), source_of _ _ _ _ (by decide), target_of _ _ _ _ _ rfl rfl (by decide), by decide, by decide, by decide, by decide, by decide⟩,
    ⟨derives _ _ _ _ (by decide), by decide, by decide⟩, by decide, by decide, by decide,
    ⟨source_of _ _ _ _ (by decide), by decide⟩, ⟨source_of _ _ _ _ (by decide), by decide⟩, by decide, by decide,
    ⟨rfl, source_of _ _ _ _ (by decide)⟩, List.length_replicate.ge, ⟨derives _ _ _ _ (by decide), by decide⟩,
    goes_spaced _ _ _ _, by decide, by decide, by decide, by decide, by decide, by decide, by decide⟩

/-- A child of node 0 in space 2. -/
def child1 : Node := { node1 with space := 2, parent := some 0, depth := 1, vpage := 0x30 }
/-- A withdrawal of child 1 that waits for station 3. -/
def wd1 : Withdrawal :=
  { cid := 1, dest := .reg 0 (.g 5 false) false, ranges := [(0, 0, 1)], left := [1], swept := [], count := 0, uncut := [3], acks := [(2, 0)], waits := []
    holds := false, space := none, entry := true, above := [], started := 0 }
/-- The device with this thread and every port lost. -/
def portless (xs : List Word) : State := { one (threadOf xs) with ports := (List.range 72).map fun k => (k, { Port.blank with live := false }) }
/-- The device with these withdrawals. -/
def withdrawing (ws : Table Withdrawal) (ns : Table Node) (xs : List Word) : State := { spaced ns (threadOf xs) with wds := ws, time := 65536 }
/-- 64 entries of the filter. -/
def fullFilter : Table Withdrawal := (List.range 64).map fun k => (k, { wd1 with left := [] })

theorem witness_SpaceInstructions :
    (Goes (spaced [(0, node1), (1, child1)] (threadOf [va0, 1])) 0 (threadOf [va0, 1]) [.g 0, .g (gAfter 0 1)] [.g 5] ∧ syKf none = false
      ∧ ((threadOf [va0, 1]).gval 0).toNat % 4096 = 0 ∧ 2 ^ 48 ≤ ((threadOf [va0, 1]).gval 0).toNat ∧ 1 ≤ ((threadOf [va0, 1]).gval 1).toNat
      ∧ ((threadOf [va0, 1]).gval 1).toNat ≤ 2 ^ 32 ∧ ((threadOf [va0, 1]).gval 0).toNat + ((threadOf [va0, 1]).gval 1).toNat * 4096 ≤ 2 ^ 56
      ∧ findNode (spaced [(0, node1), (1, child1)] (threadOf [va0, 1])) 1 (((threadOf [va0, 1]).gval 0).toNat / 4096) = some (0, node1)
      ∧ ∀ e ∈ (spaced [(0, node1), (1, child1)] (threadOf [va0, 1])).nodes, tget e.1 (spaced [(0, node1), (1, child1)] (threadOf [va0, 1])).nodes = some e.2)
    ∧ (node1.vpage + node1.pages < 0x1000000000 + 2 ∧ 0x1000000000 + 1 ≤ node1.vpage + node1.pages)
    ∧ marked (spaced [(0, nodeWith 31 0 true)] (threadOf [va0, 1])) 0 = true
    ∧ (marked (spaced [(0, node1), (1, child1)] (threadOf [va0, 1])) 0 = false ∧ filterBusy (spaced [(0, node1), (1, child1)] (threadOf [va0, 1])) = false
      ∧ filterBusy (withdrawing fullFilter [(0, node1)] [va0, 1]) = true)
    ∧ (¬ (0x1000000000 = ({ node1 with pages := 2 } : Node).vpage ∧ 1 = ({ node1 with pages := 2 } : Node).pages))
    ∧ ((spaced [(0, node1)] (threadOf [va0, 1])).remotes = []
      ∧ ∀ k m, tget k (spaced [(0, node1)] (threadOf [va0, 1])).nodes = some m → m.parent = some 0 → m.parentDev = none → overlaps 0 1 m.page m.pages = false)
    ∧ (∃ k m, tget k (spaced [(0, node1), (1, child1)] (threadOf [va0, 1])).nodes = some m ∧ m.parent = some 0 ∧ m.parentDev = none
      ∧ overlaps (node1.page + (0x1000000000 - node1.vpage)) 1 m.page m.pages = true)
    ∧ (∃ k, 0 < k ∧ k < 2 ^ 20 ∧ tget k spaces1 = none)
    ∧ (((threadOf [0xFFFFF]).gval 0).toNat < 2 ^ 20 ∧ tget 0xFFFFF spaces1 = none ∧ (threadOf [0]).gval 0 = 0 ∧ tget 2 spaces1 = some { tenant := 1, deleted := false }
      ∧ (threadOf [2]).gval 0 ≠ 0)
    ∧ (∃ e ∈ (spaced [] (threadOf [1])).contexts, e.2.space = ((threadOf [1]).gval 0).toNat ∧ e.2.st ≠ .dead)
    ∧ ∀ e ∈ (spaced [] (threadOf [2])).contexts, e.2.space = ((threadOf [2]).gval 0).toNat → e.2.st = .dead := by
  refine ⟨⟨goes_spaced _ _ _ _, rfl, by decide, by decide, by decide, by decide, by decide, by decide, by decide⟩, by decide, by decide,
    by decide, by decide, ⟨rfl, ?_⟩, ⟨1, child1, rfl, rfl, rfl, by decide⟩, ⟨9, by decide⟩,
    by decide, by decide, by decide⟩
  intro k m h hp _
  simp only [spaced, tget] at h
  split at h
  · cases h; cases hp
  · cases h

theorem witness_Probes : (Goes (one (threadOf [va0])) 0 (threadOf [va0]) [.g 0] [.g 1] ∧ (threadOf [va0]).prog = .none ∧ syKf none = false)
    ∧ (((threadOf [0xFFFFFFFFFFFF]).gval 0).toNat < 2 ^ 48 ∧ 2 ^ 56 ≤ ((threadOf [0x100000000000000]).gval 0).toNat)
    ∧ (2 ^ 48 ≤ ((threadOf [va0]).gval 0).toNat ∧ ((threadOf [va0]).gval 0).toNat < 2 ^ 56
      ∧ findNode (one (threadOf [va0])) 1 (((threadOf [va0]).gval 0).toNat / 4096) = some (0, node1) ∧ node1.depth < 16 ∧ node1.tenant < 2 ^ 12)
    ∧ findNode (one (threadOf [va0 + 0x1000])) 1 (((threadOf [va0 + 0x1000]).gval 0).toNat / 4096) = none :=
  ⟨⟨goes_one _ _ _, rfl, rfl⟩, by decide, by decide, by decide⟩

theorem witness_WithdrawalCourse :
    (tget 6 (withdrawing [(6, wd1)] [(1, child1)] []).wds = some wd1 ∧ wd1.entry = true ∧ 3 ∈ wd1.uncut ∧ ∀ c, wd1.dest ≠ .kill c)
    ∧ (({ wd1 with uncut := [] } : Withdrawal).left = 1 :: [] ∧ ({ wd1 with uncut := [] } : Withdrawal).uncut = []
      ∧ wd1.started + 600 ≤ (withdrawing [(6, wd1)] [] []).time ∧ ({ wd1 with holds := true } : Withdrawal).holds = true)
    ∧ (wd1.uncut ≠ [] ∧ 599 < wd1.started + 600 ∧ wd1.holds = false)
    ∧ (tget 1 (withdrawing [] [(1, { child1 with parentDev := some 2 })] []).nodes = some { child1 with parentDev := some 2 } ∧ child1.withdrawn = false
      ∧ anyPort (withdrawing [] [] []) = true ∧ anyPort (portless []) = false)
    ∧ ((∃ e ∈ wd1.acks, e.1 = 2) ∧ ∀ e ∈ wd1.acks, e.1 ≠ 3)
    ∧ ((∃ e ∈ wd1.acks, e.1 = 2 ∧ e.2 + 2 ^ 16 ≤ (withdrawing [(6, wd1)] [] []).time) ∧ ∀ e ∈ wd1.acks, e.1 = 2 → 65535 < e.2 + 2 ^ 16)
    ∧ (tget 6 (withdrawing [(6, { wd1 with left := [], uncut := [], acks := [], count := 1, swept := [1] })] [] []).wds
        = some { wd1 with left := [], uncut := [], acks := [], count := 1, swept := [1] } ∧ wd1.dest = .reg 0 (.g 5 false) false ∧ wd1.space = none
      ∧ (∀ k ∈ wd1.waits, tget k (withdrawing [(6, wd1)] [] []).wds = none)
      ∧ sweptInFlight (withdrawing [] [] []) { wd1 with left := [], uncut := [], acks := [], count := 1, swept := [1] } = false
      ∧ tget 0 (withdrawing [] [] []).threads = some (threadOf []))
    ∧ wd1.left ≠ [] :=
  ⟨⟨rfl, rfl, by decide, by intro c h; cases h⟩, by decide, by decide, ⟨rfl, rfl, by decide +kernel, by decide +kernel⟩, by decide, by decide,
    ⟨rfl, rfl, rfl, by decide, rfl, rfl⟩, by decide⟩

/-- A fault run on the device: its trap registers may be written (R72). -/
def faultRun1 (xs : List Word) : Thread := faultRun xs
/-- A context with a bound on each field. -/
def bigCtx : Context := { ctx1 with tenant := 0xFFF }

theorem witness_SystemRegisters :
    (Goes (one (threadOf [])) 0 (threadOf []) [] [.g 15] ∧ (oneIn bigCtx (threadOf [])).ctx? (threadOf []).cid = some bigCtx
      ∧ (threadOf []).cid < 2 ^ 16 ∧ bigCtx.tenant < 2 ^ 12 ∧ Goes (oneIn bigCtx (threadOf [])) 0 (threadOf []) [] [.g 15])
    ∧ (({ threadOf [] with ocsel := 12 } : Thread).ocsel.toNat = (12 : Fin 13).val ∧ 13 ≤ ({ threadOf [] with ocsel := 13 } : Thread).ocsel.toNat
      ∧ 13 ≤ ({ threadOf [] with ocsel := 15 } : Thread).ocsel.toNat)
    ∧ (5 : Fin 256).val ∉ [0x00, 0x01, 0x02, 0x03, 0x04, 0x08, 0x09, 0x0A, 0x10, 0x11, 0x12, 0x13, 0x18, 0x20, 0x21, 0x22]
    ∧ (Goes (one (threadOf [63])) 0 (threadOf [63]) [.g 0] [] ∧ ((threadOf [63]).gval 0).toNat < 2 ^ 6 ∧ 2 ^ 6 ≤ ((threadOf [64]).gval 0).toNat
      ∧ ((threadOf [4]).gval 0).toNat ≤ 4 ∧ 4 < ((threadOf [5]).gval 0).toNat
      ∧ 0 < ((threadOf [0xFFFFFFFF]).gval 0).toNat ∧ ((threadOf [0xFFFFFFFF]).gval 0).toNat < 2 ^ 32 ∧ (threadOf [0]).gval 0 = 0
      ∧ 2 ^ 32 ≤ ((threadOf [0x100000000]).gval 0).toNat ∧ 0 < ((threadOf [15]).gval 0).toNat ∧ ((threadOf [15]).gval 0).toNat < 16
      ∧ 16 ≤ ((threadOf [16]).gval 0).toNat)
    ∧ (Goes (one (faultRun [0x7FFF])) 0 (faultRun [0x7FFF]) [.g 0] [] ∧ (faultRun [0x7FFF]).level ≠ .thread
      ∧ ((faultRun [0x80FFFFFF]).gval 0).toNat % 2 ^ 31 < 2 ^ 24 ∧ ((faultRun [0x80FFFFFF]).gval 0).toNat < 2 ^ 32
      ∧ (one (faultRun [])).ctx? (faultRun []).cid = some ctx1)
    ∧ (Issues (one (threadOf [])) 0 (threadOf []) ∧ (threadOf []).level = .thread ∧ (0x18 : Fin 256).val ∈ [0x11, 0x12, 0x13, 0x18])
    ∧ ((0x21 : Fin 256).val ∉ [0x00, 0x01, 0x02, 0x03, 0x04, 0x10, 0x11, 0x12, 0x13, 0x18, 0x20]) :=
  ⟨⟨goes_one _ _ _, rfl, by decide, by decide, goes rfl rfl rfl (fun n => by simp [threadOf, GReg.ofWord]) (fun n => by simp [threadOf, Thread.fresh, VReg.fullReg]) rfl _ _⟩,
    by decide, by decide, ⟨goes_one _ _ _, by decide⟩,
    ⟨goes rfl rfl rfl (fun n => by simp [faultRun, threadOf, GReg.ofWord]) (fun n => by simp [faultRun, threadOf, Thread.fresh, VReg.fullReg]) rfl _ _, by decide, by decide, by decide, rfl⟩,
    ⟨⟨rfl, rfl⟩, by decide, by decide⟩, by decide⟩

/-- A thread that sleeps until device time 100. -/
def sleeper : Thread := { threadOf [] with status := .blocked .sleep, prog := .sleeping 100 0x42 }
/-- Its message is still in flight. -/
def messaging : State := { one (threadOf []) with msgs := [(5, message1 0x400 false)] }

theorem witness_FlagsTimeAndSleep :
    (Goes (one (threadOf [63])) 0 (threadOf [63]) [.g 0] [.g 0] ∧ ((threadOf [63]).gval 0).toNat < 2 ^ 6 ∧ 2 ^ 6 ≤ ((threadOf [64]).gval 0).toNat)
    ∧ Goes (one (threadOf [])) 0 (threadOf []) [] [.g 15]
    ∧ (Issues (one (threadOf [])) 0 (threadOf []) ∧ (threadOf []).level ≠ .handler)
    ∧ (Issues (one (faultRun [])) 0 (faultRun []) ∧ (faultRun []).level = .handler ∧ (faultRun []).kind ≠ .thread)
    ∧ ((one (threadOf [])).ctx? (threadOf []).cid = some ctx1 ∧ (∀ e ∈ (one (threadOf [])).accs, e.2.uid ≠ 0) ∧ (∀ e ∈ (one (threadOf [])).msgs, e.2.uid ≠ 0))
    ∧ (Goes messaging 0 (threadOf []) [] [.g 15] ∧ messaging.ctx? (threadOf []).cid = some ctx1 ∧ ∃ e ∈ messaging.msgs, e.2.uid = 0)
    ∧ (Goes (one (threadOf [0])) 0 (threadOf [0]) [.g 0] [] ∧ (threadOf [0]).kind = .thread ∧ (threadOf [0]).gval 0 = 0 ∧ (threadOf [1]).gval 0 ≠ 0)
    ∧ (tget 0 (one sleeper).threads = some sleeper ∧ sleeper.status = .blocked .sleep ∧ sleeper.prog = .sleeping 100 0x42 ∧ sleeper.heldByHalt = false
      ∧ 100 ≤ ({ one sleeper with time := 100 } : State).time ∧ ({ one sleeper with time := 99 } : State).time < 100) :=
  ⟨⟨goes_one _ _ _, by decide, by decide⟩, goes_one _ _ _, ⟨⟨rfl, rfl⟩, by decide⟩, ⟨⟨rfl, rfl⟩, by decide, by decide⟩,
    ⟨rfl, by decide, by decide⟩,
    ⟨goes rfl rfl rfl (fun n => by simp [threadOf, GReg.ofWord]) (fun n => by simp [threadOf, Thread.fresh, VReg.fullReg]) rfl _ _, rfl, by decide⟩,
    ⟨goes_one _ _ _, rfl, by decide, by decide⟩, ⟨rfl, rfl, rfl, rfl, by decide, by decide⟩⟩

/-- A thread of the steward. -/
def steward (xs : List Word) : Thread := { threadOf xs with core := 4096, cid := 0xFFFF }
/-- The device with the steward's thread, this context 1 and a thread of it, held where it issues no more. -/
def stewarded (x : Context) (xs : List Word) : State :=
  { one (steward xs) with threads := [(0, steward xs), (5, { threadOf [] with heldByHalt := true })], contexts := [(1, x)] }
theorem goes_steward (x : Context) (xs : List Word) (rs ds : List RegName) : Goes (stewarded x xs) 0 (steward xs) rs ds :=
  goes rfl rfl rfl (fun n => by simp [steward, threadOf, GReg.ofWord]) (fun n => by simp [steward, threadOf, Thread.fresh, VReg.fullReg]) rfl _ _
/-- The ladder of context 1 as its issue has ended, with this much room to save. -/
def haltingLadder : Ladder := { Ladder.begin ctx1 1 0 [] with halting := true }
def haltingCtx (room : Nat) : Context := { ctx1 with ladder := some haltingLadder, savebase := 0x100000, savesize := room }
/-- What context 1 had when it was saved. -/
def saved1 : Saved := { trigger := 1, cores := [0], frames := [5], since := 0 }
def haltCtx1 : Context := { ctx1 with st := .halted saved1, savebase := 0x100000, savesize := 0x200000 }
/-- The device with context 1 halted, its core free or not, and its extent complete or not. -/
def halted (complete : Byte) (free : Bool) : State :=
  { stewarded haltCtx1 [1] with
    threads := [(0, steward [1])], saved := [(5, threadOf [])], mem := if complete = 0 then [] else [(0x100000, complete)]
    cores := [(0, { Core.blank with ctx := if free then none else some 2 })] }

theorem witness_StewardInstructions :
    (Issues (one (threadOf [])) 0 (threadOf []) ∧ (threadOf []).level ≠ .steward ∧ (faultRun []).level ≠ .steward)
    ∧ (Goes (stewarded ctx1 [0xFFF, 0x20]) 0 (steward [0xFFF, 0x20]) [.g 0, .g (gAfter 0 1)] [.g 15] ∧ (steward []).level = .steward
      ∧ 2 ^ 12 ≤ ((steward [0x1000]).gval 0).toNat ∧ ((steward [0xFFF, 0x20]).gval 0).toNat < 2 ^ 12
      ∧ ((steward [1, 0x21]).gval (gAfter 0 1)).toNat % 32 ≠ 0 ∧ ((steward [0xFFF, 0x20]).gval (gAfter 0 1)).toNat % 32 = 0)
    ∧ ((({ stewarded ctx1 [1] with tenants := [(1, { kgen := 0, high := 0, roll := some (.steward 0), hnew := 0, aging := false, due := false })] } : State).tenant 1).roll.isSome = true
      ∧ ((stewarded ctx1 []).tenant 0xFFF).roll = none ∧ tenantInUse (stewarded ctx1 []) 0xFFF = false
      ∧ (({ stewarded ctx1 [1] with tenants := [(1, { kgen := 0xFFFF, high := 0, roll := none, hnew := 0, aging := false, due := false })] } : State).tenant 1).roll = none
      ∧ tenantInUse (stewarded ctx1 [1]) 1 = true
      ∧ (({ stewarded ctx1 [1] with tenants := [(1, { kgen := 0xFFFF, high := 0, roll := none, hnew := 0, aging := false, due := false })] } : State).tenant 1).kgen = 0xFFFF
      ∧ ((stewarded ctx1 [1]).tenant 1).roll = none ∧ ((stewarded ctx1 [1]).tenant 1).kgen ≠ 0xFFFF)
    ∧ (2 ^ 16 ≤ ((steward [0x10000]).gval 0).toNat ∧ (stewarded ctx1 [2]).ctx? ((steward [2]).gval 0).toNat = none)
    ∧ (Goes (stewarded (haltingCtx 0) [1]) 0 (steward [1]) [.g 0] [] ∧ ((steward [1]).gval 0).toNat < 2 ^ 16
      ∧ (stewarded (haltingCtx 0) [1]).ctx? ((steward [1]).gval 0).toNat = some (haltingCtx 0) ∧ (haltingCtx 0).ladder = some haltingLadder
      ∧ saveReady (stewarded (haltingCtx 0) [1]) 1 = true ∧ saveFits (stewarded (haltingCtx 0) [1]) 1 (haltingCtx 0) = false ∧ (haltingCtx 0).st ≠ .dead
      ∧ saveReady (stewarded (haltingCtx 0x200000) [1]) 1 = true ∧ saveFits (stewarded (haltingCtx 0x200000) [1]) 1 (haltingCtx 0x200000) = true
      ∧ saveReady (stewarded ladderCtx [1]) 1 = false ∧ ladderCtx.ladder = some (Ladder.begin ctx1 1 0 []))
    ∧ (Goes (halted 1 true) 0 (steward [1]) [.g 0] [] ∧ (halted 1 true).ctx? ((steward [1]).gval 0).toNat = some haltCtx1 ∧ haltCtx1.st = .halted saved1
      ∧ memByte (halted 0 true).mem haltCtx1.savebase ≠ 1 ∧ memByte (halted 2 true).mem haltCtx1.savebase ≠ 1
      ∧ memByte (halted 1 false).mem haltCtx1.savebase = 1 ∧ restoreReady (halted 1 false) 1 saved1 = false
      ∧ memByte (halted 1 true).mem haltCtx1.savebase = 1 ∧ restoreReady (halted 1 true) 1 saved1 = true
      ∧ extentBad (halted 1 true) haltCtx1 saved1.frames.length = false) :=
  ⟨⟨⟨rfl, rfl⟩, by decide, by decide⟩, ⟨goes_steward _ _ _ _, by decide, by decide, by decide, by decide, by decide⟩,
    by decide, ⟨by decide, rfl⟩,
    ⟨goes_steward _ _ _ _, by decide, rfl, rfl, by decide +kernel, by decide +kernel, by decide, by decide +kernel, by decide +kernel, by decide, rfl⟩,
    ⟨goes rfl rfl rfl (fun n => by simp [steward, threadOf, GReg.ofWord]) (fun n => by simp [steward, threadOf, Thread.fresh, VReg.fullReg]) rfl _ _,
      rfl, rfl, by decide, by decide, by decide, by decide, by decide, by decide, by decide +kernel⟩⟩

/-- A host function's registers with these window words. -/
def fnOf (part : Nat) (ws : List (Nat × Nat)) : HostFn :=
  { ws.foldl (fun f e => f.put e.1 (leBytes 8 e.2)) HostFn.blank with part := part, cmd := none }
/-- Partition 0 with one island, every channel group and queues 0 to 3. -/
def part4 : Partition := { part1 with groups := List.range 128, qcount := 4 }
/-- The device with host functions 0 and 1, of partitions 0 and 5, and the window words of both. -/
def hosted (x : Context) (ws : List (Nat × Nat)) : State :=
  { one (threadOf []) with contexts := [(1, x)], parts := [(0, part4)], fns := [(0, fnOf 0 ws), (1, fnOf 5 ws)] }
/-- The same while the PF's command runs, or is done. -/
def commanding (done : Bool) : State :=
  { hosted ctx1 [] with fns := [(0, { fnOf 0 [] with cmd := some { code := 5, cid := 1, done := done, status := 1, result := 9 } })] }
/-- The PF with one fault notice. -/
def noticed : State := { hosted ctx1 [] with fns := [(0, { fnOf 0 [] with notices := [(1, 2)] })] }
theorem idle_hosted (x : Context) (ws : List (Nat × Nat)) : Idle (hosted x ws) 0 ∧ Idle (hosted x ws) 1 := ⟨⟨rfl, rfl⟩, rfl, rfl⟩

theorem witness_HostRegistersAndRights :
    (((commanding false).fn 0).cmd ≠ none ∧ ((0x10000 : Word).getLsbD 16 = true) ∧ (0xFFFEFFFF : Word).getLsbD 16 = false)
    ∧ (∃ c, ((commanding true).fn 0).cmd = some c ∧ c.done = true)
    ∧ (Idle (hosted ctx1 []) 0 ∧ ¬(1 ≤ (0x12 : BitVec 8).toNat ∧ (0x12 : BitVec 8).toNat ≤ 0x11)
      ∧ ¬(0x20 ≤ (0x12 : BitVec 8).toNat ∧ (0x12 : BitVec 8).toNat ≤ 0x23) ∧ ¬(0x20 ≤ (0x24 : BitVec 8).toNat ∧ (0x24 : BitVec 8).toNat ≤ 0x23))
    ∧ (0x100 ≤ 0x1F8 ∧ 0x1F8 + 8 ≤ 0x200) ∧ (((hosted ctx1 []).fn 0).notices = [] ∧ (noticed.fn 0).notices = (1, 2) :: [])
    ∧ (Idle (hosted ctx1 []) 1 ∧ (hosted ctx1 []).ctx? (2 : BitVec 16).toNat = none
      ∧ ∃ x, (hosted ctx1 []).ctx? (1 : BitVec 16).toNat = some x ∧ x.part ≠ ((hosted ctx1 []).fn 1).part)
    ∧ (∃ x, (hosted { ctx1 with part := 5 } []).ctx? (1 : BitVec 16).toNat = some x ∧ x.part ≠ ((hosted { ctx1 with part := 5 } []).fn 0).part)
    ∧ (({ hosted ctx1 [] with boot := 2 } : State).fn 0).cmd = none ∧ ({ hosted ctx1 [] with boot := 2 } : State).boot = 2 :=
  ⟨by decide, ⟨_, rfl, rfl⟩, ⟨(idle_hosted _ _).1, by decide, by decide, by decide⟩, by decide, ⟨rfl, rfl⟩,
    ⟨(idle_hosted _ _).2, rfl, ctx1, rfl, by decide⟩, ⟨{ ctx1 with part := 5 }, rfl, by decide⟩, rfl, rfl⟩

/-- The operands of a CTX_CREATE at the bounds of its fields, in a new space or in space `sp`. -/
def createWords (sp : Nat) : List (Nat × Nat) :=
  [(0, sp), (0x10, 9), (0x18, 2 ^ 48), (0x30, 0x100), (0x40, 0x8000), (0x48, 0x1000), (0x50, 7)]
/-- Where firmware puts the save extent. -/
def feed1 (n : Nat) : Feed := { ok := true, n := n, bytes := [], parts := [] }
/-- A context whose ladder stands open while it is halted on this trigger. -/
def haltedOn (trigger : Nat) : Context := { haltCtx1 with st := .halted { saved1 with trigger := trigger }, ladder := some (Ladder.begin ctx1 trigger 0 []) }
/-- A context with a fault queue of 2^7 entries, and a grace. -/
def queueCtx : Context := { ctx1 with eqcfg := 7, eqtail := 200, grace := 5 }
def deadCtx : Context := { ctx1 with st := .dead }

theorem mayAct_hosted (x : Context) (ws : List (Nat × Nat)) (any : Bool) (h : x.part = 0) : MayAct (hosted x ws) 0 1 x any :=
  ⟨rfl, by decide, .inl h⟩

theorem witness_ContextLife :
    (Idle (hosted ctx1 (createWords 0)) 0 ∧ OfPart (hosted ctx1 (createWords 0)) 0 part4 ∧ createBad (hosted ctx1 (createWords 0)) 0 = false
      ∧ winNum (hosted ctx1 (createWords 0)) 0 0 8 = 0 ∧ createBad (hosted ctx1 (createWords 1)) 0 = false
      ∧ (∃ x, tget (winNum (hosted ctx1 (createWords 1)) 0 0 8) (hosted ctx1 (createWords 1)).spaces = some x ∧ x.tenant = part4.tenant)
      ∧ (feed1 100).ok = true ∧ extentFree (hosted ctx1 (createWords 0)) part4 100 (extentSize (hosted ctx1 (createWords 0)) 0 / 4096) = true
      ∧ keysSpent (hosted ctx1 (createWords 0)) part4.tenant (extentSize (hosted ctx1 (createWords 0)) 0 / 4096) = false
      ∧ (∃ n, n < 0xFFFF ∧ tget n (hosted ctx1 (createWords 0)).contexts = none)
      ∧ ∃ n, 0 < n ∧ n < 2 ^ 20 ∧ tget n (hosted ctx1 (createWords 0)).spaces = none)
    ∧ (MayAct (hosted ctx1 []) 0 1 ctx1 true ∧ MayAct (hosted { ctx1 with part := 7 } []) 0 1 { ctx1 with part := 7 } true
      ∧ 2 ^ 16 ≤ winNum (hosted ctx1 [(0, 2 ^ 48)]) 0 4 4 ∧ winNum (hosted ctx1 [(0, 2 ^ 48 - 1)]) 0 4 4 < 2 ^ 16
      ∧ (∀ v, ctx1.st ≠ .halted v))
    ∧ (MayAct (hosted (haltedOn 0) []) 0 1 (haltedOn 0) true ∧ (haltedOn 0).st = .halted { saved1 with trigger := 0 }
      ∧ (haltedOn 0).ladder = some (Ladder.begin ctx1 0 0 []) ∧ ({ saved1 with trigger := 0 } : Saved).trigger = 0
      ∧ (haltedOn 3).st = .halted { saved1 with trigger := 3 } ∧ ({ saved1 with trigger := 3 } : Saved).trigger ≠ 0
      ∧ MayAct (hosted (haltedOn 3) []) 0 1 (haltedOn 3) true)
    ∧ (MayAct (hosted queueCtx []) 0 1 queueCtx true ∧ queueCtx.st = .running ∧ queueCtx.ladder = none ∧ queueCtx.grace ≠ 0)
    ∧ (MayAct (hosted deadCtx []) 0 1 deadCtx true ∧ deadCtx.st = .dead ∧ deadCtx.ladder = none)
    ∧ (MayAct (hosted queueCtx [(0, 72)]) 0 1 queueCtx false
      ∧ (queueCtx.eqtail + 2 ^ 64 - winNum (hosted queueCtx [(0, 72)]) 0 0 8) % 2 ^ 64 ≤ 2 ^ (queueCtx.eqcfg.toNat % 32)
      ∧ 2 ^ (queueCtx.eqcfg.toNat % 32) < (queueCtx.eqtail + 2 ^ 64 - winNum (hosted queueCtx [(0, 71)]) 0 0 8) % 2 ^ 64)
    ∧ (MayAct (hosted ctx1 []) 0 1 ctx1 true ∧ ctx1.st ≠ .dead) :=
  ⟨⟨(idle_hosted _ _).1, ⟨rfl⟩, by decide +kernel, by decide +kernel, by decide +kernel, ⟨{ tenant := 1, deleted := false }, by decide +kernel, rfl⟩, rfl,
      by decide +kernel, by decide, ⟨2, by decide, rfl⟩, 2, by decide, by decide, rfl⟩,
    ⟨mayAct_hosted _ _ _ rfl, ⟨rfl, by decide, .inr ⟨rfl, rfl⟩⟩, by decide +kernel, by decide +kernel, by intro v h; cases h⟩,
    ⟨mayAct_hosted _ _ _ rfl, rfl, rfl, rfl, rfl, by decide, mayAct_hosted _ _ _ rfl⟩, ⟨mayAct_hosted _ _ _ rfl, rfl, rfl, by decide⟩,
    ⟨mayAct_hosted _ _ _ rfl, rfl, rfl⟩, ⟨mayAct_hosted _ _ _ rfl, by decide +kernel, by decide +kernel⟩, mayAct_hosted _ _ _ rfl, by decide⟩

/-- The operands of a QUEUE_OPEN of queue j for context 1: 2^4 entries, priority 7, quota 1. -/
def openWords (j : Nat) : List (Nat × Nat) := [(0, j), (0x08, 0x1000), (0x10, 2 ^ 32 + 2 ^ 16 + 7 * 2 ^ 8 + 4), (0x18, 8)]
/-- Queue 3 of the device, with 16 entries. -/
def queue3 (head tail : Nat) (opened fenced : Bool) : Queue :=
  { cid := 1, qbase := 0, lsz := 4, prio := 7, quota := 1, headaddr := 0, head := head, tail := tail, opened := opened, fenced := fenced }
/-- The device with queue 3 and a value in its tail register. -/
def queued (q : Queue) (tail : Word) : State :=
  { hosted ctx1 (openWords 3) with queues := [(3, q)], fns := [(0, { fnOf 0 (openWords 3) with tails := [(3, tail)] })] }

theorem witness_WorkQueues :
    (Idle (queued (queue3 5 9 true false) 21) 0 ∧ MayAct (queued (queue3 5 9 true false) 21) 0 1 ctx1 false
      ∧ OfPart (queued (queue3 5 9 true false) 21) 0 part4 ∧ winNum (queued (queue3 5 9 true false) 21) 0 0 8 = 3)
    ∧ (winNum (hosted ctx1 (openWords 4)) 0 0 8 = 4 ∧ part4.qcount ≤ 4 ∧ 3 < part4.qcount ∧ descriptorBad (hosted ctx1 (openWords 3)) 0 1 = false
      ∧ descriptorBad (hosted ctx1 []) 0 1 = true ∧ tget (part4.qfirst + 3) (hosted ctx1 (openWords 3)).queues = none)
    ∧ (descriptorBad (queued (queue3 5 9 true false) 21) 0 1 = false
      ∧ tget (part4.qfirst + 3) (queued (queue3 5 9 true false) 21).queues = some (queue3 5 9 true false)
      ∧ (tailReg (queued (queue3 5 9 true false) 21) 0 3 + 2 ^ 32 - (queue3 5 9 true false).head) % 2 ^ 32
        ≤ 2 ^ bitsOf (winNum (queued (queue3 5 9 true false) 21) 0 0x10 8) 0 5
      ∧ 2 ^ 31 < ((queue3 5 9 true false).tail + 2 ^ 32 - tailReg (queued (queue3 5 9 true false) 21) 0 3) % 2 ^ 32
      ∧ 2 ^ bitsOf (winNum (queued (queue3 5 9 true false) 22) 0 0x10 8) 0 5
        < (tailReg (queued (queue3 5 9 true false) 22) 0 3 + 2 ^ 32 - (queue3 5 9 true false).head) % 2 ^ 32)
    ∧ ((queue3 5 9 false false).opened = false ∧ (queue3 5 9 true true).fenced = true ∧ (queue3 5 9 true false).opened = true
      ∧ (queue3 5 9 true false).fenced = false)
    ∧ (((21 : Word).toNat % 2 ^ 32 + 2 ^ 32 - (queue3 5 9 true false).head) % 2 ^ 32 ≤ 2 ^ (queue3 5 9 true false).lsz
      ∧ 2 ^ 31 < ((queue3 5 9 true false).tail + 2 ^ 32 - (21 : Word).toNat % 2 ^ 32) % 2 ^ 32
      ∧ ((queue3 5 9 true false).tail + 2 ^ 32 - (9 : Word).toNat % 2 ^ 32) % 2 ^ 32 = 0
      ∧ 2 ^ (queue3 5 9 true false).lsz < ((22 : Word).toNat % 2 ^ 32 + 2 ^ 32 - (queue3 5 9 true false).head) % 2 ^ 32
      ∧ 1 ≤ ((queue3 5 9 true false).tail + 2 ^ 32 - (8 : Word).toNat % 2 ^ 32) % 2 ^ 32
      ∧ ((queue3 5 9 true false).tail + 2 ^ 32 - (8 : Word).toNat % 2 ^ 32) % 2 ^ 32 ≤ 2 ^ 31) :=
  ⟨⟨⟨rfl, rfl⟩, ⟨rfl, by decide, .inl rfl⟩, ⟨rfl⟩, by decide +kernel⟩,
    ⟨by decide +kernel, by decide, by decide, by decide +kernel, by decide +kernel, rfl⟩,
    ⟨by decide +kernel, rfl, by decide +kernel, by decide +kernel, by decide +kernel⟩, ⟨rfl, rfl, rfl, rfl⟩,
    by decide, by decide, by decide, by decide, by decide, by decide⟩

/-- The operands of a MEM_COPY of n words from or to host address 0x40: the last word of the page that space 1 maps, and those after it. -/
def copyWords (dir va n : Nat) : List (Nat × Nat) := [(0, dir), (0x08, va), (0x10, 0x40), (0x18, 8 * n)]
theorem copies1 (s : State) (x : Context) (h : copyPlace s x (0x1000000000FF8 + w64 (8 * 0)) = .here 0 0xFF8)
    (ho : s.ownerOf 0 = nodeOwner s 0) (hv : (s.seal 0).failed = false ∧ (s.seal 0).cached = true) (hf : sealFrozen s 0 = false) :
    Copies s x 0x1000000000FF8 1 (fun _ => 0xFF8) (fun _ => 0) where
  found := by intro k hk; obtain rfl : k = 0 := by omega
              exact h
  aligned := by intro k _; rfl
  apart := by intro j k hj hk h; omega
  owner := by intro k _; exact ho
  verified := by intro k _; exact hv
  writable := by intro k _; exact hf

theorem witness_WorkQueues_hostCopies :
    (∀ dir ≤ 1, Idle (hosted ctx1 (copyWords dir 0x1000000000FF8 2)) 0 ∧ MayAct (hosted ctx1 (copyWords dir 0x1000000000FF8 2)) 0 1 ctx1 false
      ∧ winNum (hosted ctx1 (copyWords dir 0x1000000000FF8 2)) 0 0 8 = dir ∧ winNum (hosted ctx1 (copyWords dir 0x1000000000FF8 2)) 0 0x08 8 % 8 = 0
      ∧ winNum (hosted ctx1 (copyWords dir 0x1000000000FF8 2)) 0 0x18 8 = 8 * 2 ∧ (feed1 0).ok = true
      ∧ Copies (hosted ctx1 (copyWords dir 0x1000000000FF8 2)) ctx1 (winWord (hosted ctx1 (copyWords dir 0x1000000000FF8 2)) 0 0x08) 1 (fun _ => 0xFF8) (fun _ => 0)
      ∧ copyPlace (hosted ctx1 (copyWords dir 0x1000000000FF8 2)) ctx1 (winWord (hosted ctx1 (copyWords dir 0x1000000000FF8 2)) 0 0x08 + w64 (8 * 1)) = .nowhere
      ∧ touchesPoison (hosted ctx1 (copyWords dir 0x1000000000FF8 2)) 0xFF8 8 = false
      ∧ Memory.wf (hosted ctx1 (copyWords dir 0x1000000000FF8 2)).mem = true ∧ Memory.wf (hosted ctx1 (copyWords dir 0x1000000000FF8 2)).hostMem = true
      ∧ (hosted ctx1 (copyWords dir 0x1000000000FF8 2)).accs = [] ∧ lostWord (hosted ctx1 (copyWords dir 0x1000000000FF8 2)) (0xFF8 / 8) = false
      ∧ winNum (hosted ctx1 (copyWords dir 0x1000000000FF8 1)) 0 0x18 8 = 8 * 1)
    ∧ winNum (hosted ctx1 (copyWords 0 0x1000000000FF9 1)) 0 0x08 8 % 8 ≠ 0 ∧ winNum (hosted ctx1 (copyWords 1 0 0)) 0 0x18 8 = 0
    ∧ 2 ^ 24 < winNum (hosted ctx1 (copyWords 1 0 (2 ^ 21 + 1))) 0 0x18 8 ∧ winNum (hosted ctx1 (copyWords 1 0 0)) 0 0 8 % 2 = 1
    ∧ winNum (hosted ctx1 (copyWords 0 0 0)) 0 0 8 % 2 = 0 := by
  refine ⟨fun dir hd => ?_, by decide +kernel, by decide +kernel, by decide +kernel, by decide +kernel, by decide +kernel⟩
  have hw : winWord (hosted ctx1 (copyWords dir 0x1000000000FF8 2)) 0 0x08 = 0x1000000000FF8 := by
    have : dir = 0 ∨ dir = 1 := by omega
    rcases this with rfl | rfl <;> decide +kernel
  rw [hw]
  refine ⟨(idle_hosted _ _).1, mayAct_hosted _ _ _ rfl, ?_, ?_, ?_, rfl, copies1 _ _ rfl rfl ⟨rfl, rfl⟩ rfl, rfl, rfl, rfl, rfl, rfl, rfl, ?_⟩ <;>
  (have : dir = 0 ∨ dir = 1 := by omega
   rcases this with rfl | rfl <;> decide +kernel)

/-- The device with this record of tenant 1's keys. -/
def keyed (k : Nat) (r : Option Roll) : State := { hosted ctx1 [] with tenants := [(1, { kgen := k, high := 5, roll := r, hnew := 0, aging := false, due := false })] }
/-- A roll that the PF's running KEYROLL waits for. -/
def rolling : State := { commanding false with tenants := [(1, { kgen := 4, high := 5, roll := some (.host 0), hnew := 0, aging := false, due := false })] }
/-- A roll of a tenant without a page or a context. -/
def rolling2 : State := { commanding false with tenants := [(2, { kgen := 4, high := 5, roll := some (.host 0), hnew := 0, aging := false, due := false })] }
/-- The device with this seal of page 0, a page of tenant 1. -/
def sealed (x : Seal) (v : Nat) : State := { keyed 4 none with seals := [(0, { x with ver := v })] }
def dirtySeal : Seal := { Seal.blank with cached := true, dirty := true }

theorem witness_KeyRollsAndSeals :
    (Idle (keyed 4 (some (.steward 0))) 0 ∧ OfPart (keyed 4 (some (.steward 0))) 0 part4 ∧ ((keyed 4 (some (.steward 0))).tenant part4.tenant).roll ≠ none
      ∧ ((keyed 0xFFFF none).tenant part4.tenant).roll = none ∧ ((keyed 0xFFFF none).tenant part4.tenant).kgen = 0xFFFF
      ∧ ((keyed 0xFFFE none).tenant part4.tenant).roll = none ∧ ((keyed 0xFFFE none).tenant part4.tenant).kgen ≠ 0xFFFF)
    ∧ ((rolling.tenant 1).roll = some (.host 0) ∧ (rolling.fn 0).cmd ≠ none
      ∧ tget 0 rolling.seals = some { Seal.blank with cached := true }
      ∧ (∀ y, (0, y) ∈ rolling.seals → y = { Seal.blank with cached := true }) ∧ rolling.ownerOf 0 = 1 ∧ 0 % 786432 < stationSeals
      ∧ (∃ e ∈ rolling.owner, e.2 = 1) ∧ (2 ≠ 0 ∧ (rolling2.tenant 2).roll = some (.host 0)) ∧ (∀ e ∈ rolling2.owner, e.2 ≠ 2)
      ∧ (∀ e ∈ rolling2.contexts, e.2.tenant ≠ 2)
      ∧ underNew rolling 0 = false ∧ ({ Seal.blank with cached := true } : Seal).failed = false ∧ ({ Seal.blank with cached := true } : Seal).cached = true)
    ∧ ((keyed 4 none).tenant 1).roll = none
    ∧ (((sealed dirtySeal 7).seal 0).dirty = true ∧ sealFrozen (sealed dirtySeal 7) 0 = false ∧ underNew (sealed dirtySeal 7) 0 = false
      ∧ ((sealed dirtySeal 7).tenant ((sealed dirtySeal 7).ownerOf 0)).due = false
      ∧ max ((sealed dirtySeal 7).tenant ((sealed dirtySeal 7).ownerOf 0)).high (((sealed dirtySeal 7).seal 0).ver + 1) < 2 ^ 48 - 2 ^ 32)
    ∧ (((sealed Seal.blank 7).seal 0).dirty = false ∧ sealFrozen (sealed { dirtySeal with frozen := true } 7) 0 = true
      ∧ ((sealed Seal.blank 7).tenant ((sealed Seal.blank 7).ownerOf 0)).due = false)
    ∧ (((sealed { dirtySeal with failed := true } 7).seal 0).failed = true ∧ ((sealed dirtySeal 7).seal 0).failed = false
      ∧ ((sealed dirtySeal 7).seal 0).cached = true ∧ ((sealed { Seal.blank with broken := true } 7).seal 0).cached = false
      ∧ ((sealed { Seal.blank with broken := true } 7).seal 0).broken = true ∧ ((sealed Seal.blank 7).seal 0).cached = false
      ∧ ((sealed Seal.blank 7).seal 0).broken = false ∧ keysHeld (sealed Seal.blank 7) 0 = true ∧ keysHeld (sealed { Seal.blank with gpar := true } 7) 0 = false
      ∧ ((sealed Seal.blank 7).seals.filter fun e => e.1 / 786432 == 0 / 786432 && e.2.cached).length < 512) :=
  ⟨⟨⟨rfl, rfl⟩, ⟨rfl⟩, by decide, rfl, rfl, rfl, by decide⟩,
    ⟨rfl, by decide, rfl, by intro y h; simp [rolling, commanding, hosted, one] at h; exact h, rfl, by decide, by decide, by decide, by decide, by decide, by decide, rfl, rfl⟩, rfl,
    ⟨rfl, rfl, rfl, rfl, by decide⟩, ⟨rfl, rfl, rfl⟩, rfl, rfl, rfl, rfl, rfl, rfl, by decide⟩

/-- Host memory with a list of packages at 0x40: this device and device 1; and device 0 twice at 0x50. -/
def hostList : List Host.Cell := [(0x42, 1)]
/-- The PF of partition 0 with the operands of JOB_OPEN for n packages from an address, where context 1 is of this partition. -/
def jobbed (part n addr : Nat) (ps : Table Peer) (js : Table Job) : State :=
  { hosted { ctx1 with part := part } [(0x10, n), (0x18, addr)] with hostMem := hostList, peers := ps, jobs := js }
def peer1 (st : PeerSt) : Table Peer := [(1, { st := st, ident := [], measures := [] })]
def job1 : Job := { id := List.replicate 16 7, members := [0, 1], idents := [[1], [2]], openedAt := 0, exchanged := [(1, 5)], lost := [1], closed := false }
/-- The packages that JOB_OPEN's operands name. -/
def namedIn (s : State) : List Nat := (List.range (winNum s 0 0x10 8)).map fun i => leNat (memBytes s.hostMem (winNum s 0 0x18 8 + 2 * i) 2)

theorem witness_JobsAndEvidence :
    (Idle (jobbed 0 2 0x40 [] []) 0 ∧ OfPart (jobbed 0 2 0x40 [] []) 0 part4 ∧ openJob (jobbed 0 2 0x40 [] [(0, job1)]) 0 ≠ none
      ∧ openJob (jobbed 0 2 0x40 [] []) 0 = none ∧ (∃ e ∈ (jobbed 0 2 0x40 [] []).threads, partOf (jobbed 0 2 0x40 [] []) e.2.cid = 0)
      ∧ openJob (jobbed 5 2 0x40 [] [(0, { job1 with closed := true })]) 0 = none
      ∧ ∀ e ∈ (jobbed 5 2 0x40 [] []).threads, partOf (jobbed 5 2 0x40 [] []) e.2.cid ≠ 0)
    ∧ (winNum (jobbed 5 0 0x40 [] []) 0 0x10 8 = 0 ∧ 320 < winNum (jobbed 5 321 0x40 [] []) 0 0x10 8
      ∧ (jobbed 5 1 0x42 [] []).device ∉ namedIn (jobbed 5 1 0x42 [] []) ∧ ¬ (namedIn (jobbed 5 2 0x50 [] [])).Nodup
      ∧ 0 < winNum (jobbed 5 2 0x40 [] []) 0 0x10 8 ∧ winNum (jobbed 5 2 0x40 [] []) 0 0x10 8 ≤ 320
      ∧ (jobbed 5 2 0x40 [] []).device ∈ namedIn (jobbed 5 2 0x40 [] []) ∧ (namedIn (jobbed 5 2 0x40 [] [])).Nodup
      ∧ (∃ d ∈ namedIn (jobbed 5 2 0x40 (peer1 .lost) []), ((jobbed 5 2 0x40 (peer1 .lost) []).peer d).st ≠ .live)
      ∧ ∀ d ∈ namedIn (jobbed 5 2 0x40 (peer1 .live) []), ((jobbed 5 2 0x40 (peer1 .live) []).peer d).st = .live)
    ∧ (tget ((jobbed 0 0 0 [] [(0, job1)]).fn 0).part (jobbed 0 0 0 [] [(0, job1)]).jobs = some job1 ∧ job1.closed = false
      ∧ job1.members.length = job1.idents.length ∧ job1.members.length < 2 ^ 16 ∧ Memory.wf (jobbed 0 0 0 [] [(0, job1)]).hostMem = true
      ∧ job1.members[(1 : Nat)]? = some 1)
    ∧ (MayAct (jobbed 0 0 0 [] []) 0 1 ctx1 false ∧ Memory.wf (jobbed 0 0 0 [] []).hostMem = true) :=
  ⟨⟨⟨rfl, rfl⟩, ⟨rfl⟩, by decide, rfl, by decide, rfl, by decide⟩,
    by decide +kernel,
    ⟨rfl, rfl, rfl, by decide, rfl, rfl⟩, ⟨rfl, by decide, .inl rfl⟩, rfl⟩

/-- The operands of a PART_DEFINE of partition `num` of tenant 2 with these words; its function is VF 2. -/
def defineWords (num isl flags v : Nat) : List (Nat × Nat) :=
  [(0, isl), (0x10, 2), (0x20, 16 + 2 ^ 16 + 2 * 2 ^ 32 + flags), (0x28, v), (0x30, num)]
def defining (num isl flags v : Nat) : State := hosted ctx1 (defineWords num isl flags v)
def definedPart (num isl flags v : Nat) : Partition × Nat := partitionOf (winBytes (defining num isl flags v) 0 0 56)
/-- The slice length 1 and tenant 2. -/
def sliceOne : Nat := 2 ^ 32 + 2

/-- Which of the two ways an image's signature goes is left open (log 5): every image goes one of them. -/
theorem signature_goes (bs : List Byte) : Config.imageVerifies bs = true ∨ Config.imageVerifies bs = false := by
  cases Config.imageVerifies bs <;> simp

theorem witness_PartitionsAndBoot :
    (Idle (defining 3 2 0 sliceOne) 0 ∧ (3 : Nat) = bitsOf (winNum (defining 3 2 0 sliceOne) 0 0x30 8) 0 6
      ∧ ({ defining 3 2 0 sliceOne with parts := [] } : State).parts = []
      ∧ partBad { defining 3 2 0 sliceOne with parts := [] } 3 (definedPart 3 2 0 sliceOne).1 (definedPart 3 2 0 sliceOne).2 = false
      ∧ partBusy { defining 3 2 0 sliceOne with parts := [] } 3 (definedPart 3 2 0 sliceOne).1 = false)
    ∧ ((definedPart 3 2 (2 ^ 16) 0).1.slice = 0 ∧ 256 < (definedPart 3 2 (257 * 2 ^ 41) sliceOne).1.share
      ∧ (definedPart 3 2 (2 ^ 50) sliceOne).1.sliced = true ∧ (definedPart 3 2 (2 ^ 50) sliceOne).1.islands ≠ []
      ∧ (bitsOf (winNum (defining 0 2 0 sliceOne) 0 0x30 8) 0 6 = 0 ∧ (definedPart 0 2 0 sliceOne).1.tenant ≠ 0)
      ∧ ((3 : Nat) ≠ 0 ∧ (partitionOf (winBytes (hosted ctx1 [(0, 2), (0x10, 2), (0x20, 16 + 2 ^ 16), (0x28, sliceOne), (0x30, 3)]) 0 0 56)).2 = 0)
      ∧ 16384 < (definedPart 3 2 (16384 * 2 ^ 16 - 2 ^ 16) sliceOne).1.qfirst + (definedPart 3 2 (16384 * 2 ^ 16 - 2 ^ 16) sliceOne).1.qcount
      ∧ ∃ e ∈ (defining 3 1 0 sliceOne).parts, e.1 ≠ 3 ∧ ∃ i ∈ e.2.islands, i ∈ (definedPart 3 1 0 sliceOne).1.islands)
    ∧ (partBad { defining 0 2 0 sliceOne with parts := [] } 3 (definedPart 3 2 0 sliceOne).1 (definedPart 3 2 0 sliceOne).2 = false
      ∧ ∃ e ∈ ({ hosted { ctx1 with part := 3 } (defineWords 3 2 0 sliceOne) with parts := [] } : State).contexts, e.1 ≠ 0xFFFF ∧ e.2.part = 3)
    ∧ ((({ hosted ctx1 [(8, 64 * 2 ^ 20)] with boot := 2 } : State).fn 0).cmd = none ∧ ({ hosted ctx1 [] with boot := 2 } : State).boot = 2
      ∧ 64 * 2 ^ 20 < winNum { hosted ctx1 [(8, 64 * 2 ^ 20 + 1)] with boot := 2 } 0 8 8
      ∧ winNum { hosted ctx1 [(8, 64 * 2 ^ 20)] with boot := 2 } 0 8 8 ≤ 64 * 2 ^ 20)
    ∧ ((feed1 0).ok = true ∧ ({ feed1 0 with ok := false } : Feed).ok = false) :=
  ⟨⟨⟨rfl, rfl⟩, by decide +kernel, rfl, by decide +kernel, by decide +kernel⟩,
    by decide +kernel, ⟨by decide +kernel, (1, { ctx1 with part := 3 }), by simp [hosted], by decide, rfl⟩,
    ⟨rfl, rfl, by decide +kernel, by decide +kernel⟩, rfl, rfl⟩

/-- The operands of a ROOT_SPACE: its instruction and its registers. -/
def rootWords (k r0 r1 r2 r3 : Nat) : List (Nat × Nat) := [(0, k), (0x08, r0), (0x10, r1), (0x18, r2), (0x20, r3)]
/-- A node of space 0 that maps four pages with every right, and whether it is withdrawn. -/
def node0 (w : Bool) : Node := { node1 with space := 0, tenant := 0, pages := 4, withdrawn := w }
/-- The device with that node, where the PF runs ROOT_SPACE. -/
def rooted (w : Bool) (k r0 r1 r2 r3 : Nat) : State :=
  { hosted ctx1 (rootWords k r0 r1 r2 r3) with nodes := [(0, node0 w)], spaces := spaces1, tags := [] }
/-- `map` of `n` pages of the node to space 0 with every right. -/
def rootMap (w : Bool) (n : Nat) : State := rooted w 0 0x1000000002000 (31 * 2 ^ 20) 0x2000000000000 n
def quadRoot (space rights src pages : Nat) : Quad := { src := src, space := space, rights := rights, dev := 0, dst := 0x2000000000, pages := pages }
/-- `grant` of the whole node to space 1. -/
def rootGrant : State := rooted false 1 0x1000000000000 1 0x2000000000000 4
/-- `unmap`, `unmap.self` and the others with these registers. -/
def rootTwo (w : Bool) (k r0 r1 : Nat) : State := rooted w k r0 r1 0 0

theorem witness_RootSpace :
    (RootRuns (rootMap false 2) 0 ∧ findNode (rootMap false 2) 0 0x1000000002 = some (0, node0 false)
      ∧ quadOf false (rootOperand (rootMap false 2) 0 0) (rootOperand (rootMap false 2) 0 1) (rootOperand (rootMap false 2) 0 2) (rootOperand (rootMap false 2) 0 3) 0
        = .ok (quadRoot 0 31 0x1000000002 2)
      ∧ quadOf false (rootOperand (rootMap false 3) 0 0) (rootOperand (rootMap false 3) 0 1) (rootOperand (rootMap false 3) 0 2) (rootOperand (rootMap false 3) 0 3) 0
        = .ok (quadRoot 0 31 0x1000000002 3)
      ∧ (node0 false).vpage + (node0 false).pages < (quadRoot 0 31 0x1000000002 3).src + (quadRoot 0 31 0x1000000002 3).pages
      ∧ (quadRoot 0 31 0x1000000002 2).src + (quadRoot 0 31 0x1000000002 2).pages ≤ (node0 false).vpage + (node0 false).pages
      ∧ marked (rootMap true 2) 0 = true ∧ marked (rootMap false 2) 0 = false ∧ (node0 false).rights.getLsbD 4 = true
      ∧ (31 &&& (node0 false).rights.toNat = 31) ∧ (quadRoot 0 31 0x1000000002 2).dev = (rootMap false 2).device
      ∧ (∃ x, tget 0 (rootMap false 2).spaces = some x ∧ x.deleted = false ∧ x.tenant = 0) ∧ (node0 false).depth < 15
      ∧ (rootMap false 2).nodes.length < 16777216
      ∧ ∀ e ∈ (rootMap false 2).nodes, e.2.space = 0 → e.2.vpage + e.2.pages ≤ 0x2000000000 ∨ 0x2000000000 + 2 ≤ e.2.vpage)
    ∧ (RootRuns rootGrant 1
      ∧ quadOf true (rootOperand rootGrant 0 0) (rootOperand rootGrant 0 1) (rootOperand rootGrant 0 2) (rootOperand rootGrant 0 3) 0 = .ok (quadRoot 1 0 0x1000000000 4)
      ∧ findNode rootGrant 0 0x1000000000 = some (0, node0 false) ∧ marked rootGrant 0 = false ∧ (node0 false).pages = 4 ∧ (node0 false).dev = rootGrant.device
      ∧ (∃ x, tget 1 rootGrant.spaces = some x ∧ x.deleted = false ∧ x.tenant ≠ 0 ∧ keysSpent rootGrant x.tenant 4 = false)
      ∧ ∀ e ∈ rootGrant.nodes, e.2.space = 1 → e.2.vpage + e.2.pages ≤ 0x2000000000 ∨ 0x2000000000 + 4 ≤ e.2.vpage)
    ∧ (RootRuns (rooted false 0 1 0 0 0) 0 ∧ (rootOperand (rooted false 0 1 0 0 0) 0 0).toNat % 4096 ≠ 0 ∧ (rootOperand (rooted false 0 1 0 0 0) 0 1).toNat < 2 ^ 34)
    ∧ (RootRuns (rootTwo false 2 1 1) 2 ∧ (rootOperand (rootTwo false 2 1 1) 0 0).toNat % 4096 ≠ 0
      ∧ (rootOperand (rootTwo false 2 0x1000000000000 0) 0 0).toNat % 4096 = 0 ∧ (rootOperand (rootTwo false 2 0x1000000000000 0) 0 1).toNat = 0
      ∧ pairOf (rootOperand (rootTwo false 2 0x1000000004000 1) 0 0) (rootOperand (rootTwo false 2 0x1000000004000 1) 0 1) 0 = .ok (0x1000000004, 1)
      ∧ findNode (rootTwo false 2 0x1000000004000 1) 0 0x1000000004 = none
      ∧ pairOf (rootOperand (rootTwo false 2 0x1000000003000 1) 0 0) (rootOperand (rootTwo false 2 0x1000000003000 1) 0 1) 0 = .ok (0x1000000003, 1)
      ∧ findNode (rootTwo false 2 0x1000000003000 1) 0 0x1000000003 = some (0, node0 false) ∧ (rootTwo false 2 0x1000000003000 1).remotes = []
      ∧ ∀ e ∈ (rootTwo false 2 0x1000000003000 1).nodes, e.2.parent ≠ some 0)
    ∧ (RootRuns (rootTwo false 3 0x1000000000000 4) 3
      ∧ pairOf (rootOperand (rootTwo false 3 0x1000000000000 4) 0 0) (rootOperand (rootTwo false 3 0x1000000000000 4) 0 1) 0 = .ok (0x1000000000, 4)
      ∧ findNode (rootTwo false 3 0x1000000000000 4) 0 0x1000000000 = some (0, node0 false) ∧ tget 0 (rootTwo false 3 0x1000000000000 4).nodes = some (node0 false)
      ∧ filterBusy (rootTwo false 3 0x1000000000000 4) = false ∧ filterBusy { rootTwo false 3 0x1000000000000 4 with wds := fullFilter } = true)
    ∧ (RootRuns (rootTwo false 4 0 0) 4 ∧ ∃ k, 0 < k ∧ k < 2 ^ 20 ∧ tget k (rootTwo false 4 0 0).spaces = none)
    ∧ (RootRuns (rootTwo false 5 0xFFFFF 0) 5 ∧ (rootOperand (rootTwo false 5 0xFFFFF 0) 0 0).toNat < 2 ^ 20
      ∧ tget (rootOperand (rootTwo false 5 0xFFFFF 0) 0 0).toNat (rootTwo false 5 0xFFFFF 0).spaces = none
      ∧ (∃ x, tget (rootOperand (rootTwo false 5 1 0) 0 0).toNat (rootTwo false 5 1 0).spaces = some x ∧ x.deleted = false)
      ∧ rootOperand (rootTwo false 5 1 0) 0 0 ≠ 0 ∧ (∃ e ∈ (rootTwo false 5 1 0).contexts, e.2.space = 1 ∧ e.2.st ≠ .dead)
      ∧ ∀ e ∈ ({ rootTwo false 5 1 0 with contexts := [(1, deadCtx)] } : State).contexts, e.2.space = 1 → e.2.st = .dead)
    ∧ (RootRuns (rootTwo true 6 0x1000000003FFF 0) 6 ∧ 2 ^ 48 ≤ (rootOperand (rootTwo true 6 0x1000000003FFF 0) 0 0).toNat
      ∧ (rootOperand (rootTwo true 6 0xFFFFFFFFFFFFFF 0) 0 0).toNat < 2 ^ 56
      ∧ findNode (rootTwo true 6 0xFFFFFFFFFFFFFF 0) 0 ((rootOperand (rootTwo true 6 0xFFFFFFFFFFFFFF 0) 0 0).toNat / 4096) = none
      ∧ findNode (rootTwo true 6 0x1000000003FFF 0) 0 ((rootOperand (rootTwo true 6 0x1000000003FFF 0) 0 0).toNat / 4096) = some (0, node0 true)
      ∧ (node0 true).depth < 16 ∧ (node0 true).tenant < 2 ^ 12) :=
  have r {w k r0 r1 r2 r3} (h : winNum (rooted w k r0 r1 r2 r3) 0 0 8 = k) : RootRuns (rooted w k r0 r1 r2 r3) k := ⟨⟨rfl, rfl⟩, h⟩
  ⟨⟨r (by decide +kernel), rfl, by decide +kernel, by decide +kernel, by decide, by decide, by decide, by decide, rfl, by decide, rfl,
      ⟨{ tenant := 0, deleted := false }, rfl, rfl, rfl⟩, by decide, by decide, by decide⟩,
    ⟨r (by decide +kernel), by decide +kernel, rfl, rfl, rfl, rfl, ⟨_, rfl, rfl, by decide, by decide⟩, by decide⟩,
    ⟨r (by decide +kernel), by decide +kernel, by decide +kernel⟩,
    ⟨r (by decide +kernel), by decide +kernel, by decide +kernel, by decide +kernel, by decide +kernel, rfl, by decide +kernel, rfl, rfl, by decide⟩,
    ⟨r (by decide +kernel), by decide +kernel, rfl, rfl, by decide, by decide +kernel⟩,
    ⟨r (by decide +kernel), 0xFFFFF, by decide, by decide, rfl⟩,
    ⟨r (by decide +kernel), by decide +kernel, by decide +kernel, ⟨{ tenant := 1, deleted := false }, by decide +kernel, rfl⟩, by decide +kernel, ⟨(1, ctx1), by simp [rootTwo, rooted, hosted], rfl, by decide⟩,
      by intro e he _; simp at he; rw [he]; rfl⟩,
    r (by decide +kernel), by decide +kernel, by decide +kernel, by decide +kernel, by decide +kernel, by decide, by decide⟩

/-- A read that succeeds with bytes that have a property, from its evaluation. -/
theorem reads {r : RoomRes} {P : List Byte → Bool}
    (h : (match r with | .ok bs _ => P bs | _ => false) = true) : ∃ bs s2, r = .ok bs s2 ∧ P bs = true := by
  rcases r with ⟨bs, s2⟩ | ⟨c, s2⟩ | _
  · exact ⟨bs, s2, rfl, h⟩
  · simp at h
  · simp at h
/-- A read that succeeds, with what the queue's head write then leaves. -/
theorem takes {r : RoomRes} {P : List Byte → Bool} {f : State → Option State}
    (h : (match r with | .ok bs s2 => P bs && (f s2).isSome | _ => false) = true) : ∃ bs s2 s3, r = .ok bs s2 ∧ f s2 = some s3 ∧ P bs = true := by
  rcases r with ⟨bs, s2⟩ | ⟨c, s2⟩ | _
  · simp only [Bool.and_eq_true] at h
    obtain ⟨s3, h3⟩ := Option.isSome_iff_exists.1 h.2
    exact ⟨bs, s2, s3, rfl, h3, h.1⟩
  · simp at h
  · simp at h
/-- A read that fails. -/
theorem fails {r : RoomRes} (h : (match r with | .fail _ _ => true | _ => false) = true) : ∃ c s2, r = .fail c s2 := by
  rcases r with ⟨bs, s2⟩ | ⟨c, s2⟩ | _
  · simp at h
  · exact ⟨c, s2, rfl⟩
  · simp at h
/-- A write that succeeds. -/
theorem writes {r : RoomRes} (h : (match r with | .ok [] _ => true | _ => false) = true) : ∃ s2, r = .ok [] s2 := by
  rcases r with ⟨_ | ⟨b, bs⟩, s2⟩ | ⟨c, s2⟩ | _
  · exact ⟨s2, rfl⟩
  · simp at h
  · simp at h
  · simp at h

/-- The device with queue 3, whose entries begin at `base`, and these bytes of memory; the head is the last entry of the ring. -/
def queueOf (base : Word) : Queue := { queue3 15 16 true false with qbase := base - 0xF00 }
def recorded (base : Word) (m : List Host.Cell) : State := { hosted ctx1 [] with queues := [(3, queueOf base)], mem := m }
/-- The head count of that queue as a record of it is taken, after the read of the record. -/
def headOf (base : Word) (s2 : State) : Option State :=
  writeHead { s2 with queues := tput 3 { queueOf base with head := ((queueOf base).head + 1) % 2 ^ 32 } s2.queues } 3
    { queueOf base with head := ((queueOf base).head + 1) % 2 ^ 32 }
/-- The device with that queue while a remote cut, for which no filter entry was free, holds translations into the records' page. -/
def withheld : State := { recorded va0 [] with wds := [(6, { wd1 with dest := .peer 2, holds := true, entry := false, acks := [], ranges := [(0, 0, 1)] })] }
/-- A context with successors in its device queue and its overflow ring. -/
def successor : Successor := { addr := va0, uid := 0, after := 8 }
def succCtx (dev ring : List Successor) : Context :=
  { ctx1 with ovbase := va0, ovcfg := 9, ovhead := 511, ovtail := 511 + ring.length, devq := dev, ovq := ring }
/-- A store that the thread issued before it named its successor. -/
def unfinished : State :=
  { hosted (succCtx [successor] []) [] with accs := [(7, accessOf .store .none .flying 0x100 (.here 0x1000000000100) [1])] }

theorem witness_RecordsTaken :
    (TakesQueue (recorded va0 []) 3 (queueOf va0) va0
      ∧ (∃ bs s2 s3, spaceRead (tookTurn (recorded va0 []) (partOf (recorded va0 []) 1) 3 7) 1 0 va0 256 = .ok bs s2 ∧ headOf va0 s2 = some s3
        ∧ shapeGood (recorded va0 []) (partOf (recorded va0 []) 1) bs = true)
      ∧ TakesQueue (recorded va0 [(0, 1)]) 3 (queueOf va0) va0
      ∧ ∃ bs s2 s3, spaceRead (tookTurn (recorded va0 [(0, 1)]) (partOf (recorded va0 [(0, 1)]) 1) 3 7) 1 0 va0 256 = .ok bs s2 ∧ headOf va0 s2 = some s3
        ∧ (!shapeGood (recorded va0 [(0, 1)]) (partOf (recorded va0 [(0, 1)]) 1) bs
          && (launchOf (recorded va0 [(0, 1)]) 1 va0 bs (some 3) 7).donerec == 0) = true)
    ∧ (TakesQueue withheld 3 (queueOf va0) va0 ∧ spaceRead (tookTurn withheld (partOf withheld 1) 3 7) 1 0 va0 256 = .hold)
    ∧ (TakesQueue (recorded (va0 + 0x1000) []) 3 (queueOf (va0 + 0x1000)) (va0 + 0x1000)
      ∧ ∃ c s2, spaceRead (tookTurn (recorded (va0 + 0x1000) []) (partOf (recorded (va0 + 0x1000) []) 1) 3 7) 1 0 (va0 + 0x1000) 256 = .fail c s2)
    ∧ (tget 3 (recorded va0 []).queues = some (queueOf va0) ∧ (queue3 5 5 true false).tail = (queue3 5 5 true false).head
      ∧ (queueOf va0).quota ≤ outstanding { recorded va0 [] with launches := [(9, { launch1 with queue := some 3 })] } 3
      ∧ 1024 ≤ ({ recorded va0 [] with launches := (List.range 1024).map fun k => (k, launch1) } : State).launches.length)
    ∧ ((hosted (succCtx [successor] []) []).ctx? 1 = some (succCtx [successor] []) ∧ deviceOpenFor (hosted (succCtx [successor] []) []) (succCtx [successor] []) = true
      ∧ isTurn (hosted (succCtx [successor] []) []) 0 (deviceQueueNo 1) (bitsOf (9 : Word).toNat 8 3) = true
      ∧ ∃ bs s2, spaceRead ((tookTurn (hosted (succCtx [successor] []) []) 0 (deviceQueueNo 1) (bitsOf (9 : Word).toNat 8 3)).setCtx 1 (succCtx [] [])) 1 0 va0 256
          = .ok bs s2 ∧ shapeGood (hosted (succCtx [successor] []) []) 0 bs = true)
    ∧ (unfinished.ctx? 1 = some (succCtx [successor] []) ∧ ∃ a ∈ unfinished.accs, a.2.uid = successor.uid ∧ a.1 < successor.after ∧ a.2.kind.writes = true ∧ a.2.phase ≠ .returning)
    ∧ ((hosted (succCtx [] [successor]) []).ctx? 1 = some (succCtx [] [successor]) ∧ (succCtx [] [successor]).ovq = [successor]
      ∧ 256 ≤ (succCtx (List.replicate 256 successor) [successor]).devq.length ∧ (succCtx (List.replicate 255 successor) [successor]).devq.length < 256
      ∧ (succCtx [] [successor]).st ≠ .dead
      ∧ ∃ bs s2, spaceRead (hosted (succCtx [] [successor]) []) 1 0 (ringAddr (succCtx [] [successor]) 511) 8 = .ok bs s2 ∧ (bs.length == 8) = true) :=
  ⟨⟨⟨rfl, by decide +kernel, by decide +kernel, by decide⟩, takes (P := fun bs => shapeGood (recorded va0 []) (partOf (recorded va0 []) 1) bs) (by decide +kernel),
      ⟨rfl, by decide +kernel, by decide +kernel, by decide⟩,
      takes (P := fun bs => !shapeGood (recorded va0 [(0, 1)]) (partOf (recorded va0 [(0, 1)]) 1) bs
        && (launchOf (recorded va0 [(0, 1)]) 1 va0 bs (some 3) 7).donerec == 0) (by decide +kernel)⟩,
    ⟨⟨rfl, by decide +kernel, by decide +kernel, by decide⟩, by decide +kernel⟩,
    ⟨⟨rfl, by decide +kernel, by decide +kernel, by decide⟩, fails (by decide +kernel)⟩, ⟨rfl, rfl, by decide, by decide +kernel⟩,
    ⟨rfl, by decide, by decide, reads (P := fun bs => shapeGood (hosted (succCtx [successor] []) []) 0 bs) (by decide +kernel)⟩, ⟨rfl, by decide⟩,
    rfl, rfl, Nat.le_of_eq List.length_replicate.symm, Nat.lt_of_le_of_lt (Nat.le_of_eq List.length_replicate) (by decide), by decide, reads (P := fun bs => bs.length == 8) (by decide +kernel)⟩

/-- A launch of context 1 whose one gang of two threads waits, or is held for its inputs. -/
def launchW (hasin : Bool) (is : List Input) : Launch :=
  { launch1 with
    levels := [{ ext := 2, bind := 0, bar := none }], pool := 3, args := [1, 2, 3, 4], gangs := [], places := [], started := none, alive := 0
    total := 0, hasin := hasin, inputs := is }
/-- The device with that launch open, in a partition of island 0. -/
def gangs (x : Launch) (ts : Table Tag) (time : Nat) : State := { hosted ctx1 [] with launches := [(3, x)], tags := ts, time := time }
/-- Input: the tile 3 of object 5, of generation 7. -/
def input1 : Input := { word := 5 + 3 * 2 ^ 24 + 7 * 2 ^ 56, lid := 9 }
/-- The device with that launch held for its input, whose tile stands at a generation, or is not in the table. -/
def tagGang (g : BitVec 16) : State := gangs (launchW true [input1]) [(tagKey 1 5 3, { gen := g, left := 1, cid := 1, since := 3 })] 5
def noTagGang : State := gangs (launchW true [input1]) [] 0
/-- A launch of two held gangs, and the device where the input of the second is ready since 3 and that of the first since 5. -/
def launchTwo : Launch :=
  { launchW true [{ input1 with word := 5 + 3 * 2 ^ 24 + 7 * 2 ^ 56 + 2 ^ 74 }] with levels := [{ ext := 2, bind := 0, bar := none }, { ext := 2, bind := 3, bar := none }] }
def twoGangs : State :=
  gangs launchTwo [(tagKey 1 5 3, { gen := 7, left := 1, cid := 1, since := 5 }), (tagKey 1 5 4, { gen := 7, left := 1, cid := 1, since := 3 })] 5
/-- A launch of which nothing is left but its completion. -/
def launchDone : Launch := { launch1 with alive := 0, retired := 2 }

/-- No other gang of the launch became ready before, whichever way the tag stands. -/
theorem none_before : ∀ g ∈ [(7 : BitVec 16), 8], readyBefore (tagGang g) (launchW true [input1])
    (max (launchW true [input1]).taken (readySince (gangInputs (tagGang g) (launchW true [input1]) 0))) = false := by
  have h7 : readyBefore (tagGang 7) (launchW true [input1])
    (max (launchW true [input1]).taken (readySince (gangInputs (tagGang 7) (launchW true [input1]) 0))) = false := by decide +kernel
  have h8 : readyBefore (tagGang 8) (launchW true [input1])
    (max (launchW true [input1]).taken (readySince (gangInputs (tagGang 8) (launchW true [input1]) 0))) = false := by decide +kernel
  intro g hg
  rcases List.mem_cons.1 hg with rfl | hg
  · exact h7
  · cases List.mem_singleton.1 hg
    exact h8

/-- The launch whose second gang became ready first. -/
theorem one_before : launchTwo.gang 0 = .held ∧ 0 < launchTwo.gangCount
    ∧ readyBefore twoGangs launchTwo (max launchTwo.taken (readySince (gangInputs twoGangs launchTwo 0))) = true := by decide +kernel

/-- The inputs of the held gang: ready, stale, and not there yet; and what became ready before. -/
theorem inputs_found :
    (∀ b ∈ gangInputs (tagGang 7) (launchW true [input1]) 0, ∀ v ∈ b, v.verdict ≠ .stale ∧ v.verdict ≠ .notYet)
    ∧ (∃ b ∈ gangInputs (tagGang 8) (launchW true [input1]) 0, ∃ v ∈ b, v.verdict = .stale)
    ∧ (∀ b ∈ gangInputs noTagGang (launchW true [input1]) 0, ∀ v ∈ b, v.verdict ≠ .stale)
    ∧ (∃ b ∈ gangInputs noTagGang (launchW true [input1]) 0, ∃ v ∈ b, v.verdict = .notYet)
    ∧ (∀ g ∈ [(7 : BitVec 16), 8], readyBefore (tagGang g) (launchW true [input1])
      (max (launchW true [input1]).taken (readySince (gangInputs (tagGang g) (launchW true [input1]) 0))) = false)
    ∧ (launchTwo.gang 0 = .held ∧ 0 < launchTwo.gangCount
      ∧ readyBefore twoGangs launchTwo (max launchTwo.taken (readySince (gangInputs twoGangs launchTwo 0))) = true) := ⟨by decide +kernel, by decide +kernel, by decide +kernel, by decide +kernel, none_before, one_before⟩

theorem witness_GangsAndCompletion :
    (MayPlace (gangs (launchW false []) [] 0) 3 0 (launchW false []) [{ core := 0, slot := 1 }, { core := 0, slot := 7 }]
      ∧ gangIsHere (gangs (launchW false []) [] 0) 0 (launchW false []) 0 = true ∧ (launchW false []).args.length = 4
      ∧ ∀ e ∈ (gangs (launchW false []) [] 0).threads, e.1 < (gangs (launchW false []) [] 0).nextId)
    ∧ (underLadder { gangs (launchW false []) [] 0 with contexts := [(1, ladderCtx)] } 1 = true ∧ gangsTurn (gangs launchTwo [] 0) 3 1 launchTwo = false
      ∧ gangFits (gangs (launchW false []) [] 0) 3 0 (launchW false []) [{ core := 0, slot := 0 }, { core := 0, slot := 7 }] = false)
    ∧ (tget 3 (gangs (launchW false []) [] (2 ^ 22)).launches = some (launchW false []) ∧ (launchW false []).gang 0 = .waiting ∧ 0 < (launchW false []).gangCount
      ∧ (tget 0 (launchW false []).readyAt).getD (launchW false []).taken + 2 ^ 22 ≤ (gangs (launchW false []) [] (2 ^ 22)).time
      ∧ (gangs (launchW false []) [] (2 ^ 22 - 1)).time < (tget 0 (launchW false []).readyAt).getD (launchW false []).taken + 2 ^ 22
      ∧ ∀ i ∈ [0], i ∈ partIslands (gangs (launchW false []) [] (2 ^ 22)) (partOf (gangs (launchW false []) [] (2 ^ 22)) 1)
        ∧ ((gangs (launchW false []) [] (2 ^ 22)).island i).reserved = none)
    ∧ ((launchW true [input1]).gang 0 = .held ∧ 0 < (launchW true [input1]).gangCount
      ∧ (∀ b ∈ gangInputs (tagGang 7) (launchW true [input1]) 0, ∀ v ∈ b, v.verdict ≠ .stale ∧ v.verdict ≠ .notYet)
      ∧ (∃ b ∈ gangInputs (tagGang 8) (launchW true [input1]) 0, ∃ v ∈ b, v.verdict = .stale)
      ∧ (∀ b ∈ gangInputs noTagGang (launchW true [input1]) 0, ∀ v ∈ b, v.verdict ≠ .stale)
      ∧ (∃ b ∈ gangInputs noTagGang (launchW true [input1]) 0, ∃ v ∈ b, v.verdict = .notYet)
      ∧ (∀ g ∈ [(7 : BitVec 16), 8], readyBefore (tagGang g) (launchW true [input1])
        (max (launchW true [input1]).taken (readySince (gangInputs (tagGang g) (launchW true [input1]) 0))) = false)
      ∧ (launchTwo.gang 0 = .held ∧ 0 < launchTwo.gangCount
        ∧ readyBefore twoGangs launchTwo (max launchTwo.taken (readySince (gangInputs twoGangs launchTwo 0))) = true))
    ∧ ((gangs launchDone [] 0).ctx? launchDone.cid = some ctx1 ∧ ctx1.st ≠ .dead ∧ launchIdle (gangs launchDone [] 0) 3 launchDone = true ∧ launchDone.away = false
      ∧ launchDone.donerec = 0 ∧ ({ launchDone with donerec := va0 } : Launch).donerec ≠ 0
      ∧ (∃ s2, spaceWrite (gangs launchDone [] 0) 1 0 va0 (leBytes 8 (1 + min 0 (2 ^ 32 - 1) * 2 ^ 32) ++ leBytes 8 2 ++ leBytes 8 4 ++ leBytes 8 0) = .ok [] s2)
      ∧ launch1.alive ≠ 0 ∧ (launchW false []).settled ≠ (launchW false []).gangCount ∧ ∃ e ∈ (mailed (message1 0x400 false) []).msgs, e.2.launch = some 3) :=
  ⟨⟨⟨rfl, by decide, rfl, rfl, by decide, by decide +kernel, by decide +kernel⟩, by decide, rfl, by decide⟩, ⟨rfl, by decide, by decide +kernel⟩,
    ⟨rfl, by decide, by decide, by decide, by decide, by decide +kernel⟩,
    ⟨by decide, by decide, inputs_found⟩, rfl, by decide, by decide +kernel, rfl, rfl, by decide, writes (by decide +kernel), by decide, by decide, by decide⟩

/-- A context with every timer of the ladder, born with number n. -/
def timed (n : Nat) : Context := { ctx1 with born := n, grace := 100, kill := 65536, wdog := 50, hang := 40, lastRetire := 10 }
/-- The device with that context, whose launch started at 5 and was halted for 7 cycles. -/
def timedState (x : Context) (time : Nat) : State :=
  { hosted x [] with launches := [(3, { launch1 with started := some 5, pausedFor := 7 })], time := time }
/-- A sliced partition of slice length 1, with two contexts that have work; the first runs since 5. -/
def slicedPart : Partition := { part4 with sliced := true, islands := [], slice := 1 }
def sliced (x : Context) (other : Bool) (time : Nat) : State :=
  { hosted x [] with
    parts := [(0, slicedPart)], runningSlice := [(0, (1, 5))], time := time
    contexts := [(1, x), (2, { timed 2 with devq := if other then [successor] else [] })], launches := [(3, launch1)] }
/-- A context under a ladder that began at 10. -/
def laddered : Context := { timed 1 with ladder := some { Ladder.begin (timed 1) 1 10 [] with start := 10 } }
def laddering (t : Thread) (time : Nat) : State := { oneIn laddered t with time := time }

theorem witness_LadderTriggers :
    (tget 3 (timedState (timed 1) 62).launches = some { launch1 with started := some 5, pausedFor := 7 }
      ∧ (timedState (timed 1) 62).ctx? launch1.cid = some (timed 1) ∧ (timed 1).st = .running ∧ (timed 1).ladder = none ∧ (timed 1).grace ≠ 0
      ∧ (timed 1).wdog ≠ 0 ∧ 5 + 7 + (timed 1).wdog ≤ (timedState (timed 1) 62).time ∧ (timedState (timed 1) 61).time < 5 + 7 + (timed 1).wdog
      ∧ ({ timed 1 with wdog := 0 } : Context).wdog = 0)
    ∧ ((timed 1).hang ≠ 0 ∧ (∃ e ∈ (timedState (timed 1) 50).threads, e.2.cid = 1 ∧ e.2.inHandler = false)
      ∧ (∀ e ∈ (one handler).threads, e.2.cid = 1 → e.2.inHandler = true) ∧ (timed 1).lastRetire + (timed 1).hang ≤ (timedState (timed 1) 50).time
      ∧ (timedState (timed 1) 49).time < (timed 1).lastRetire + (timed 1).hang ∧ ({ timed 1 with hang := 0 } : Context).hang = 0)
    ∧ (tget 0 (sliced (timed 1) true 1029).parts = some slicedPart ∧ slicedPart.sliced = true ∧ tget 0 (sliced (timed 1) true 1029).runningSlice = some (1, 5)
      ∧ sliceHolder (sliced (timed 1) true 1029) 0 = some (1, timed 1) ∧ (sliced (timed 1) true 1029).ctx? 1 = some (timed 1)
      ∧ 5 + slicedPart.slice * 1024 ≤ (sliced (timed 1) true 1029).time ∧ (∃ e ∈ workers (sliced (timed 1) true 1029) 0, e.2 ≠ 1)
      ∧ (sliced (timed 1) true 1028).time < 5 + slicedPart.slice * 1024
      ∧ ∀ e ∈ workers (sliced (timed 1) false 1029) 0, e.2 = 1)
    ∧ ((laddering parkedExit 109).ctx? 1 = some laddered ∧ laddered.st = .running ∧ laddered.ladder = some { Ladder.begin (timed 1) 1 10 [] with start := 10 }
      ∧ (Ladder.begin (timed 1) 1 10 []).halting = false ∧ (∀ e ∈ agentsOf (laddering parkedExit 109) 1, e.2.stopped = true)
      ∧ (∃ e ∈ agentsOf (laddering (threadOf []) 109) 1, e.2.stopped = false) ∧ 10 + 100 ≤ (laddering parkedExit 110).time ∧ (laddering parkedExit 109).time < 10 + 100
      ∧ 10 + 100 + 65536 ≤ (laddering parkedExit 65646).time ∧ (laddering parkedExit 65645).time < 10 + 100 + 65536) :=
  ⟨⟨rfl, rfl, rfl, rfl, by decide, by decide, by decide, by decide, rfl⟩, ⟨by decide, ⟨(0, threadOf []), by simp [timedState, hosted, one], rfl, rfl⟩, by decide, by decide, by decide, rfl⟩,
    ⟨rfl, rfl, rfl, rfl, rfl, by decide, by decide, by decide, by decide⟩,
    rfl, rfl, rfl, rfl, by decide, by decide, by decide, by decide, by decide, by decide⟩

/-- Context 1 under a ladder whose issue has ended, with its thread held, and all of it to be saved. -/
def saving (room : Nat) : State := { oneIn (haltingCtx room) { threadOf [7] with heldByHalt := true } with time := 9 }
/-- Context 1 halted, with a thread as its record in the save extent has it, where RESUME has asked for its restore, or not. -/
def resuming (answers : List Nat) : State :=
  { halted 1 true with
    saved := [(5, recordThread (halted 1 true) (haltCtx1.savebase + 0x1000) (threadOf []))]
    contexts := [(1, { haltCtx1 with ladder := some (Ladder.begin ctx1 1 0 answers) })], frames := [(5, { images := [], cmds := [], refills := [] })] }
/-- A sliced partition whose running context, the first, has halted; the second runs, or is halted at the end of its slice. -/
def secondCtx (h : Bool) : Context :=
  { timed 2 with
    devq := [successor], savebase := 0x100000, st := if h then .halted { trigger := 0, cores := [0], frames := [5], since := 0 } else .running }
def turning (h : Bool) : State :=
  { sliced (timed 1) true 50 with
    contexts := [(1, { timed 1 with st := .halted saved1 }), (2, secondCtx h)], launches := [], cores := [], mem := [(0x100000, 1)], threads := []
    saved := [(5, { threadOf [] with cid := 2 })] }

/-- What a record gives is there in it again, wherever the memory is the same. -/
theorem record_again (s s' : State) (b : Nat) (t : Thread) (h : s.mem = s'.mem) :
    recordThread s b (recordThread s' b t) = recordThread s' b t := by
  have hn (a n : Nat) : readNum s a n = readNum s' a n := by simp [readNum, h]
  have hc (a k : Nat) : readCode s a k = readCode s' a k := by simp [readCode, h]
  unfold recordThread
  simp only [hn, hc]
  cases t.status <;> cases t.prog <;> simp
theorem recorded_resuming (x : Context) (h : x.savebase = haltCtx1.savebase) : Recorded (resuming [0]) x saved1 where
  low := by rw [h]; decide
  once := by decide
  held := by
    intro i u t hi ht
    cases i with
    | zero =>
      cases hi
      cases ht
      rw [h]
      exact record_again _ _ _ _ rfl
    | succ i => cases hi
  gone := by decide

theorem witness_SaveAndRestore :
    ((saving 0x200000).ctx? 1 = some (haltingCtx 0x200000) ∧ (haltingCtx 0x200000).ladder = some haltingLadder ∧ OneEach (saving 0x200000)
      ∧ saveReady (saving 0x200000) 1 = true ∧ saveFits (saving 0x200000) 1 (haltingCtx 0x200000) = true
      ∧ (∃ t, tget 0 (saving 0x200000).threads = some t ∧ t.cid = 1) ∧ saveReady (laddering parkedExit 0) 1 = false)
    ∧ (∃ x l, (resuming [0]).ctx? 1 = some x ∧ x.st = .halted saved1 ∧ x.ladder = some l ∧ l.answers ≠ [] ∧ saved1.trigger ≠ 0
      ∧ restoreReady (resuming [0]) 1 saved1 = true ∧ extentBad (resuming [0]) x saved1.frames.length = false
      ∧ Machine.slicedPart (resuming [0]) x.part = false ∧ Recorded (resuming [0]) x saved1 ∧ NoStruckSlots (resuming [0]) ∧ (∃ t, tget 5 (resuming [0]).saved = some t) ∧ ∃ f, tget 5 (resuming [0]).frames = some f)
    ∧ (∃ x l, (resuming []).ctx? 1 = some x ∧ x.ladder = some l ∧ l.answers = []) ∧ Machine.slicedPart (turning true) 0 = true
    ∧ (tget 0 (turning false).parts = some slicedPart ∧ slicedPart.sliced = true ∧ sliceOver (turning false) 0 = true
      ∧ nextWorker (turning false) 0 = some (2, 2) ∧ (turning false).ctx? 2 = some (secondCtx false) ∧ (secondCtx false).st = .running)
    ∧ (sliceOver (turning true) 0 = true ∧ nextWorker (turning true) 0 = some (2, 2) ∧ (turning true).ctx? 2 = some (secondCtx true)
      ∧ (secondCtx true).st = .halted { trigger := 0, cores := [0], frames := [5], since := 0 }
      ∧ restoreReady (turning true) 2 { trigger := 0, cores := [0], frames := [5], since := 0 } = true ∧ extentBad (turning true) (secondCtx true) 1 = false) :=
  ⟨⟨rfl, rfl, ⟨by intro e he; simp [saving, oneIn, one] at he; rw [he]; rfl, by intro e he; simp [saving, oneIn, one] at he; rw [he]; decide,
      by intro e he f hf _ _; simp [saving, oneIn, one] at he hf; rw [he, hf]⟩, by decide +kernel, by decide +kernel, ⟨_, rfl, rfl⟩, by decide⟩,
    ⟨_, _, rfl, rfl, rfl, by decide, by decide, by decide +kernel, by decide +kernel, by decide, recorded_resuming _ rfl, ⟨by decide, by decide⟩,
      ⟨_, rfl⟩, ⟨_, rfl⟩⟩, ⟨_, _, rfl, rfl, rfl⟩, by decide,
    ⟨rfl, rfl, rfl, rfl, rfl, rfl⟩, rfl, rfl, rfl, rfl, by decide +kernel, by decide +kernel⟩

/-- An access to a peer, first sent at 10; and a message to one. -/
def toPeer (k : AccKind) (d : Dest) (refused : Bool) : Access :=
  { accessOf k d .flying va0 (.peer 2 0) [0, 0, 0, 0] with first := some 10, refused := refused }
def toPeerMessage : Message := { message1 (BitVec.ofNat 32 (2 * 2 ^ 23)) false with first := some 10 }
def peered (a : Access) (time : Nat) : State := { flying a (threadOf []) with time := time }
def messagePeer (time : Nat) : State := { one (threadOf []) with msgs := [(5, toPeerMessage)], time := time, jobs := [(0, { job1 with members := [0, 2] })] }
/-- What a peer answers. -/
def answer (ok : Bool) (n : Nat) (bs : List Byte) : Feed := { ok := ok, n := n, bytes := [], parts := [bs] }
/-- The device with this port 71. -/
def ported (p : Port) (time : Nat) : State := { one (threadOf []) with ports := [(71, p)], time := time }
def port1 (level replays : Nat) : Port := { live := true, level := level, seq := 0, replays := replays, lastFlit := 10 }

theorem witness_PeersAnswer :
    (tget 7 (peered (toPeer .load (.g 3 false) false) 0).accs = some (toPeer .load (.g 3 false) false)
      ∧ (∃ p, (toPeer .load (.g 3 false) false).pieces = [p] ∧ p.loc = .peer 2 0 ∧ p.done = false
        ∧ maySend (peered (toPeer .load (.g 3 false) false) 0) 7 (toPeer .load (.g 3 false) false) = true
        ∧ ((answer true 0 [1, 2, 3, 4]).parts.getD 0 []).length = p.bytes.length)
      ∧ (toPeer .load (.g 3 false) false).first = some 10 ∧ anyPort (peered (toPeer .load (.g 3 false) false) 0) = true
      ∧ (answer false Cause.poison.code []).n = Cause.poison.code ∧ leNat ((answer false Cause.poison.code []).bytes.take 1) = 0
      ∧ peerFinds (answer false 0 []).n = none ∧ anyPort (portless []) = false
      ∧ (answer true 0 []).ok = true ∧ (toPeer .load (.g 3 false) false).kind = .load ∧ (toPeer .load (.g 3 false) false).dest ≠ .none
      ∧ (toPeer .store .none false).kind = .store ∧ (answer false 0 []).ok = false
      ∧ ∃ p, (toPeer .store .none false).pieces = [p] ∧ p.loc = .peer 2 0 ∧ maySend (peered (toPeer .store .none false) 0) 7 (toPeer .store .none false) = true)
    ∧ (tget 5 (messagePeer 0).accs = none ∧ tget 5 (messagePeer 0).msgs = some toPeerMessage ∧ toPeerMessage.dev ≠ (messagePeer 0).device
      ∧ mayArrive (messagePeer 0) toPeerMessage = true ∧ anyPort (messagePeer 0) = true ∧ (answer false 0 []).n = 0 ∧ (answer false 1 []).n ≠ 0)
    ∧ ((toPeer .store .none true).refused = true ∧ (toPeer .store .none false).refused = false
      ∧ ({ toPeer .store .none true with nacked := true } : Access).nacked = true ∧ (toPeer .store .none true).nacked = false ∧ (toPeer .store .none true).first = some 10
      ∧ (toPeer .store .none true).kind.isRequest = false ∧ 10 + 2 ^ 16 ≤ (peered (toPeer .store .none true) 65546).time
      ∧ (peered (toPeer .store .none true) 65545).time < 10 + 2 ^ 16
      ∧ (toPeer .load (.g 3 false) true).kind.returns = true ∧ (toPeer .store .none true).kind.returns = false)
    ∧ ((∃ e ∈ (peered (toPeer .load (.g 3 false) false) 65546).accs, silentAccess (peered (toPeer .load (.g 3 false) false) 65546) 2 e.2 = true)
      ∧ (∃ e ∈ (messagePeer 65546).msgs, silentMessage (messagePeer 65546) 2 e.2 = true)
      ∧ (∃ j, tget 0 (messagePeer 65546).jobs = some j ∧ j.closed = false ∧ 2 ∈ j.members)
      ∧ (∀ e ∈ (peered (toPeer .load (.g 3 false) false) 65545).accs, silentAccess (peered (toPeer .load (.g 3 false) false) 65545) 2 e.2 = false)
      ∧ ∀ e ∈ (messagePeer 65545).msgs, silentMessage (messagePeer 65545) 2 e.2 = false)
    ∧ ((71 : Nat) < 72 ∧ ((ported (port1 2 15) 2010).port 71).live = true ∧ ((ported (port1 2 15) 2010).port 71).lastFlit + 2000 ≤ (ported (port1 2 15) 2010).time
      ∧ (ported (port1 2 15) 2009).time < ((ported (port1 2 15) 2009).port 71).lastFlit + 2000 ∧ 16 ≤ ((ported (port1 2 16) 0).port 71).replays
      ∧ ((ported (port1 2 15) 8010).port 71).lastFlit + 8000 ≤ (ported (port1 2 15) 8010).time ∧ ((ported (port1 2 15) 8009).port 71).replays < 16
      ∧ (ported (port1 2 15) 8009).time < ((ported (port1 2 15) 8009).port 71).lastFlit + 8000
      ∧ ((ported (port1 2 0) 0).port 71).level = 2 ∧ ((ported (port1 1 0) 0).port 71).level ≠ 2
      ∧ 7 ≤ (7 : Fin 9).val ∧ (6 : Fin 9).val < 7 ∧ 4 < (5 : Fin 9).val ∧ (4 : Fin 9).val = 4 ∧ (3 : Fin 9).val < 4)
    ∧ ((ported { port1 0 0 with live := false } 0).port 71).live = false ∧ ((511 : Nat) ≠ (one (threadOf [])).device ∧ (511 : Nat) < 512) :=
  ⟨⟨rfl, ⟨_, rfl, rfl, rfl, by decide +kernel, rfl⟩, rfl, by decide +kernel, rfl, rfl, rfl, by decide +kernel, rfl, rfl, by decide, rfl, rfl, _, rfl, rfl, by decide +kernel⟩,
    ⟨rfl, rfl, by decide, by decide, by decide +kernel, rfl, by decide⟩,
    ⟨rfl, rfl, rfl, rfl, rfl, rfl, by decide, by decide, rfl, rfl⟩,
    ⟨⟨_, List.mem_singleton.2 rfl, by decide⟩, ⟨_, List.mem_singleton.2 rfl, by decide⟩, ⟨_, rfl, rfl, by decide⟩, by decide, by decide⟩,
    ⟨by decide, rfl, by decide, by decide, by decide, by decide, by decide, by decide, rfl, by decide, by decide, by decide, by decide, rfl, by decide⟩, rfl, by decide, by decide⟩

/-- The device with this island 0, and no context on its cores. -/
def islanded (gated spare : Bool) : State :=
  { State.reset with islands := [(0, { gated := gated, point := (State.reset.island 0).point, spareUsed := spare, reserved := none })] }
/-- The device with this channel 129, of the second stack. -/
def channelled (spares : Nat) (withdrawn : Bool) : State := { State.reset with channels := [(129, { spares := spares, withdrawn := withdrawn })] }

theorem witness_IslandsAndChannels :
    (((islanded false false).island 0).gated = false ∧ ((islanded true false).island 0).gated = true ∧ mayGate (islanded false false) 0 = true)
    ∧ (∃ c, c / 32 = 0 ∧ ((one (threadOf [])).core c).ctx ≠ none)
    ∧ (((channelled 1 false).channel 129).withdrawn = false ∧ 0 < sparesLeft (channelled 1 false) 129 ∧ sparesLeft (channelled 2 false) 129 = 0
      ∧ ((channelled 2 false).channel 129).withdrawn = false) :=
  ⟨⟨rfl, rfl, by decide +kernel⟩, ⟨0, rfl, by decide⟩, rfl, by decide, by decide, rfl⟩

theorem witness_ErrorsAndRetirement :
    tget 0 (one (threadOf [])).threads = some (threadOf []) ∧ lostWord (one (threadOf [])) 0 = false
    ∧ tget 0 ((oneT (tiled 4 []) (threadOf [])).tile 0).slots = some (slotOf 4)
    ∧ (isSteward 4095 = false ∧ ((islanded false false).island (islandOf 0)).spareUsed = false ∧ ((islanded false false).core 0).absent = false
      ∧ ((islanded false true).island (islandOf 0)).spareUsed = true)
    ∧ OneEach (one (threadOf [])) ∧ (∀ e ∈ (one (threadOf [])).threads, e.2.inHandler = decide (e.2.slot = 8))
    ∧ (∃ e ∈ (one (threadOf [])).threads, e.2.core = 0 ∧ e.2.slot = (0 : Fin 9).val) ∧ ∀ e ∈ (one (threadOf [])).threads, e.2.core = 0 → e.2.slot ≠ (1 : Fin 9).val :=
  ⟨rfl, rfl, rfl, ⟨by decide, rfl, rfl, rfl⟩, ⟨by intro e he; cases List.mem_singleton.1 he; rfl, by decide, by
    intro e he f hf _ _; cases List.mem_singleton.1 he; cases List.mem_singleton.1 hf; rfl⟩, by decide, ⟨_, List.mem_singleton.2 rfl, rfl, rfl⟩, by decide⟩


/-- The card after R161: core 3 and core 200 of cluster 1 share the cluster and not the tile. -/
theorem test_scopes_of_card : maySynchronise 2 (.slot 0 259 0) 2 (.slot 0 456 0) = false ∧ maySynchronise 3 (.slot 0 259 0) 3 (.slot 0 456 0) = true
    ∧ inInstance 6 (.slot 0 0 0) .host = false ∧ inInstance 7 (.slot 0 0 0) .host = true := by decide
/-- The example of R143: `stf` of 0x400 with an acquire of 4 bytes at 0x404, and with `ldf` of 0x400. -/
theorem test_acquire_of_part : readsAll 0x400 8 0x404 4 = false ∧ readsAll 0x400 8 0x400 8 = true := by decide
/-- The digest of the three letters abc that FIPS 180-4 gives. -/
theorem test_digest_of_abc : (sha384 [0x61, 0x62, 0x63]).map BitVec.toNat = (List.range 48).map fun i =>
    0xCB00753F45A35E8BB5A03D699AC65007272C32AB0EDED1631A8B605A43FF5BED8086072BA1E7CC2358BAECA134C825A7 / 256 ^ (47 - i) % 256 := by decide +kernel
/-! ### Further witnesses: hypotheses that only some clauses have -/

/-- The error queue of context 1: 128 records from the page that space 1 maps on, with these counts. -/
def reporting (tail : Nat) (head : Word) : Context := { ctx1 with eqbase := 0x1000000000000, eqcfg := 7, eqtail := tail, errqhead := head }

theorem witness_StepRunsDecoded_more : ∀ e ∈ (one (threadOf [])).threads, ∀ va key node, e.2.status ≠ .blocked (.counter va (some key) node) := by
  intro e he
  cases List.mem_singleton.1 he
  intro va key node h
  cases h

theorem placedIn (t : Nat) (w : Word) (n k : Nat) (va : Word) (hw : va.toNat % 4096 + n ≤ 4096)
    (h : roomAt (oneIn (reporting t w) (threadOf [])) 1 0 0 va rWrite = .here k 1) (hk : k / 4096 = 0) (hm : k + n ≤ 4096) :
    Placed (oneIn (reporting t w) (threadOf [])) (reporting t w) va n k where
  within := hw
  here := by rw [hk]; exact h
  memory := by omega
  verified := by rw [hk]; exact ⟨rfl, rfl⟩
  writable := by rw [hk]; rfl

/-- With room, and full: 128 records before the tail are not read. -/
theorem queuePlaced : QueuePlaced (oneIn (reporting 5 5) (threadOf [])) 1 (reporting 5 5) 224 0
    ∧ QueuePlaced (oneIn (reporting 125 (0 - 3)) (threadOf [])) 1 (reporting 125 (0 - 3)) 4064 0 :=
  ⟨⟨rfl, rfl, placedIn _ _ _ _ _ (by decide) (by decide +kernel) rfl (by decide), placedIn _ _ _ _ _ (by decide) (by decide +kernel) rfl (by decide),
    placedIn _ _ _ _ _ (by decide) (by decide +kernel) rfl (by decide), by decide⟩,
   ⟨rfl, rfl, placedIn _ _ _ _ _ (by decide) (by decide +kernel) rfl (by decide), placedIn _ _ _ _ _ (by decide) (by decide +kernel) rfl (by decide),
    placedIn _ _ _ _ _ (by decide) (by decide +kernel) rfl (by decide), by decide⟩⟩

theorem witness_TrapsAndRetirement_more :
    (tget 0 (one handler).threads = some handler ∧ handler.kind = .message { sender := 0, slotField := 8, pc := 0x40, launch := none }
      ∧ isSteward handler.core = false ∧ handler.tvec = 0 ∧ (one handler).ctx? handler.cid = some ctx1 ∧ ctx1.fhentry = 0)
    ∧ (tget 0 (faulting []).threads = some (faultRun []) ∧ (faultRun []).kind = .faultRun (.thread 5) ∧ (faulting []).ctx? 1 = some ctx1
      ∧ tget 5 (faulting []).threads = some heldThread ∧ heldThread.status = .blocked .held)
    ∧ (Memory.wf (oneIn (reporting 5 5) (threadOf [])).mem = true ∧ QueuePlaced (oneIn (reporting 5 5) (threadOf [])) 1 (reporting 5 5) 224 0
      ∧ QueuePlaced (oneIn (reporting 125 (0 - 3)) (threadOf [])) 1 (reporting 125 (0 - 3)) 4064 0 ∧ queueFull (reporting 5 5) = false ∧ queueFull (reporting 125 (0 - 3)) = true)
    ∧ (hasLate { one (threadOf []) with late := [.record 1 7 []] } 1 = true ∧ (one (threadOf [])).ctx? 1 = some ctx1) :=
  ⟨⟨rfl, rfl, rfl, rfl, rfl, rfl⟩, ⟨rfl, rfl, rfl, rfl, rfl⟩, ⟨rfl, queuePlaced.1, queuePlaced.2, by decide, by decide⟩, by decide, rfl⟩

/-- The four addresses of an `exit4`, the third of them misaligned. -/
def exits : Thread := threadOf [0x100, 0x200, 0x301, 0x400]

theorem witness_EndOfThreads_more :
    (exitRegs (.exit4 none 0 1 2 3) = some [0, 1, 2, 3] ∧ Goes (one exits) 0 exits ([(0 : GNum), 1, 2, 3].map .g) [] ∧ exits.kind = .thread
      ∧ ([(0 : GNum), 1, 2, 3].map exits.gval).find? (fun a => a.toNat % 256 != 0) = some 0x301)
    ∧ (exitRegs (.exit2 none 0 1) = some [0, 1] ∧ Goes (oneIn fullCtx exits) 0 exits ([(0 : GNum), 1].map .g) []
      ∧ (∀ a ∈ [(0 : GNum), 1], (exits.gval a).toNat % 256 = 0) ∧ (oneIn fullCtx exits).ctx? 1 = some fullCtx ∧ fullCtx.ovhead ≠ fullCtx.ovtail
      ∧ 2 ^ (fullCtx.ovcfg.toNat % 32) ≤ fullCtx.ovtail - fullCtx.ovhead)
    ∧ ({ ctx1 with devq := List.replicate 256 { addr := 0, uid := 0, after := 0 } } : Context).devq.length = 256
    ∧ (∀ l, heldThread.prog ≠ .exitHeld l) :=
  ⟨⟨rfl, goes_one _ _ _, rfl, by decide +kernel⟩, ⟨rfl, goes_in _ rfl rfl rfl _ _, by decide, rfl, by decide, by decide⟩, List.length_replicate .., fun l h => by cases h⟩

/-- A SYNC prefix with keep-full alone. -/
def keepFull : Sync := some { plain with kf := true }

/-- An access that finds page 0, which is of tenant 1, at byte 0x100 of it. -/
def paged (k : AccKind) (d : Dest) (n : Nat) : Access := accessOf k d .flying (va0 + 0x100) (.here 0x100) (List.replicate n 1)
def pagePiece (n : Nat) : Piece := { va := va0 + 0x100, off := 0, bytes := List.replicate n 1, loc := .here 0x100, tenant := 1, done := false, bad := none }

theorem atPage (k : AccKind) (d : Dest) (n : Nat) : AtByte (flying (paged k d n) (threadOf [])) 7 (paged k d n) (pagePiece n) 0x100 where
  there := rfl
  only := rfl
  loc := rfl
  place := Or.inr ⟨rfl, ⟨rfl, rfl⟩, rfl⟩
  may := by cases n <;> rfl
  clean := clean_of rfl rfl _ _
  noSoft := noSoft_of rfl rfl

theorem landed_one (s : State) (t : Thread) (id : Nat) (h : s = one t) : Landed s id := by
  subst h
  exact ⟨rfl, rfl, rfl, rfl, by intro e he; cases he⟩

/-- A thread whose instruction sent access 7 under keep-full. -/
def sentThread (xs : List Word) : Thread := { threadOf xs with prog := .sent 7 }
theorem goes_sent (xs : List Word) (rs ds : List RegName) : Goes (one (sentThread xs)) 0 (sentThread xs) rs ds :=
  goes rfl rfl rfl (fun n => by simp [sentThread, threadOf, GReg.ofWord]) (fun n => by simp [sentThread, threadOf, Thread.fresh, VReg.fullReg]) rfl rs ds

theorem witness_AccessesInFlight_more :
    (Goes (one (threadOf [va0])) 0 (threadOf [va0]) [.g 0] [.g 1] ∧ Begins (one (threadOf [va0])) 0 (threadOf [va0]) keepFull ∧ syKf keepFull = true
      ∧ ownPool 0 ((threadOf [va0]).gval 0 + immSigned { n := 0, raw := 0 } false) = false
      ∧ ((threadOf [va0]).gval 0 + immSigned { n := 0, raw := 0 } false).toNat % accBytes 0 = 0
      ∧ resolve (one (threadOf [va0])) 1 0 ((threadOf [va0]).gval 0 + immSigned { n := 0, raw := 0 } false) rRead = .ok (.here 0) (some 0))
    ∧ (Goes (one (sentThread [va0])) 0 (sentThread [va0]) [.g 0] [.g 1] ∧ (sentThread [va0]).prog = .sent 7 ∧ Landed (one (sentThread [va0])) 7)
    ∧ AtByte (flying (paged .load (.g 3 true) 4) (threadOf [])) 7 (paged .load (.g 3 true) 4) (pagePiece 4) 0x100
    ∧ (Memory.wf (flying (paged .store .none 8) (threadOf [])).mem = true
      ∧ AtByte (flying (paged .store .none 8) (threadOf [])) 7 (paged .store .none 8) (pagePiece 8) 0x100) :=
  ⟨⟨goes_one _ _ _, begins_one _ rfl _, rfl, by decide, by decide, by decide⟩, ⟨goes_sent _ _ _, rfl, landed_one _ _ _ rfl⟩, atPage _ _ _, rfl, atPage _ _ _⟩

theorem witness_RegisterFills_more : tget 7 (flying { failedLoad with kf := true } (threadOf [])).accs = some { failedLoad with kf := true }
    ∧ failedLoad.phase = .returning ∧ failedLoad.failed = some (Cause.poison.code, 7) ∧ failedLoad.kind.isAtomic = false
    ∧ (∀ p ∈ failedLoad.pieces, p.bad = none) ∧ tget failedLoad.uid (flying { failedLoad with kf := true } (threadOf [])).threads = some (threadOf []) :=
  ⟨rfl, rfl, rfl, rfl, by decide, rfl⟩

/-- An `lds` or `ldf` of the thread at the word at byte 0x100 of page 0, which is in a state. -/
def asking (k : AccKind) (w : WordSt) : State := (flying (paged k (.g 3 false) 8) (threadOf [])).setWord 32 w

theorem atWord (k : AccKind) (w : WordSt) (hk : k = .lds ∨ k = .ldf) (hw : w ≠ .poison) :
    AtByte (asking k w) 7 (paged k (.g 3 false) 8) (pagePiece 8) 0x100 where
  there := by rcases hk with rfl | rfl <;> cases w <;> rfl
  only := rfl
  loc := rfl
  place := Or.inr (by rcases hk with rfl | rfl <;> cases w <;> exact ⟨rfl, ⟨rfl, rfl⟩, rfl⟩)
  may := by rcases hk with rfl | rfl <;> cases w <;> rfl
  clean := by rcases hk with rfl | rfl <;> cases w <;> first | decide +kernel | exact absurd rfl hw
  noSoft := by rcases hk with rfl | rfl <;> cases w <;> exact noSoft_of rfl rfl

theorem witness_WordStates_more :
    (Goes (worded .empty [0x100]) 0 (threadOf [0x100]) [.g 0] [.g 1] ∧ (threadOf [0x100]).kind = .thread
      ∧ Begins (worded .empty [0x100]) 0 (threadOf [0x100]) none ∧ NoSoft (worded .empty [0x100]))
    ∧ (∀ k w, (k = .lds ∨ k = .ldf) → w ≠ .poison → AtByte (asking k w) 7 (paged k (.g 3 false) 8) (pagePiece 8) 0x100)
    ∧ ((asking .lds .empty).word 32 = .empty ∧ sweptUnder (asking .lds .empty) (paged .lds (.g 3 false) 8) = false ∧ (asking .ldf .full).word 32 = .full) :=
  ⟨⟨goes_worded _ _ _ _, rfl, ⟨rfl, by decide, by decide⟩, noSoft_of (by decide) (by decide)⟩, atWord, by decide⟩

theorem witness_AtomicsAtOwner_more :
    AtByte (flying (paged (.amo .add) (.g 3 false) 8) (threadOf [])) 7 (paged (.amo .add) (.g 3 false) 8) (pagePiece 8) 0x100
    ∧ AtByte (flying (paged (.casp 1 2 3 4) (.pair 2) 16) (threadOf [])) 7 (paged (.casp 1 2 3 4) (.pair 2) 16) (pagePiece 16) 0x100 :=
  ⟨atPage _ _ _, atPage _ _ _⟩

theorem witness_AtomicsIssue_more :
    (Goes (one (threadOf [va0 + 2, 5, 6, 7, 8, 9])) 0 (threadOf [va0 + 2, 5, 6, 7, 8, 9]) [.g 2, .g 3, .g 0, .g 5, .g 4] [.g 2, .g 3]
      ∧ Begins (one (threadOf [va0 + 2, 5, 6, 7, 8, 9])) 0 (threadOf [va0 + 2, 5, 6, 7, 8, 9]) keepFull ∧ syKf keepFull = true
      ∧ classify ((threadOf [va0 + 2, 5, 6, 7, 8, 9]).gval 0) = .translated ∧ ((threadOf [va0 + 2, 5, 6, 7, 8, 9]).gval 0).toNat % 4 ≠ 0)
    ∧ (Memory.wf (one (threadOf [0x100, 5])).mem = true ∧ Goes (one (threadOf [0x100, 5])) 0 (threadOf [0x100, 5]) [.g 0, .g 1] [.g 2]
      ∧ Begins (one (threadOf [0x100, 5])) 0 (threadOf [0x100, 5]) none ∧ NoSoft (one (threadOf [0x100, 5]))
      ∧ InOwn (one (threadOf [0x100, 5])) (threadOf [0x100, 5]) ((threadOf [0x100, 5]).gval 0) (amoWidth 0)
      ∧ ((threadOf [0x100, 5]).gval 0).toNat % amoWidth 0 = 0) :=
  ⟨⟨goes_one _ _ _, begins_one _ rfl _, rfl, by decide, by decide⟩, rfl, goes_one _ _ _, begins_one _ rfl _, noSoft_of rfl rfl,
    inOwn_one _ _ _ (by decide) (by decide), by decide⟩

theorem witness_Fences_more :
    (Issues (flying { untranslated with kind := .load, acq := true } (threadOf [])) 0 (threadOf [])
      ∧ acquirePending (flying { untranslated with kind := .load, acq := true } (threadOf [])) 0 = true)
    ∧ (Issues (one (threadOf [])) 0 (threadOf []) ∧ acquirePending (one (threadOf [])) 0 = false)
    ∧ Goes (one (threadOf [va0])) 0 (threadOf [va0]) [.g 0] [] :=
  ⟨⟨⟨rfl, rfl⟩, rfl⟩, ⟨⟨rfl, rfl⟩, rfl⟩, goes_one _ _ _⟩

/-- 1, −2, +0 in f32. -/
theorem holds_one : Holds .f32 0x3F800000 false 1 := ⟨by decide, 2 ^ 23, -23, by decide, by norm_num⟩
theorem holds_two : Holds .f32 0xC0000000 true 2 := ⟨by decide, 2 ^ 23, -22, by decide, by norm_num⟩
theorem holds_zero : Holds .f32 0 false 0 := ⟨by decide, 0, -149, by decide, by norm_num⟩

theorem witness_RoundingInEveryMode : EType.isFloat .e4m3 = true ∧ (3 ≤ 3 ∧ 0 < 0x123457)
    ∧ (EType.isNarrow .e4m3 = true ∧ ((3 : Nat) : ℚ) * (2 : ℚ) ^ (0 : Int) < topOf .e4m3 ∧ 0 < 0xFFFFFFFF ∧ 0xFFFFFFFF < 2 ^ 32)
    ∧ topOf .e4m3 ≤ ((3 : Nat) : ℚ) * (2 : ℚ) ^ (8 : Int) := by
  refine ⟨by decide, by decide, ⟨by decide, ?_, by decide, by decide⟩, ?_⟩
  · rw [show topOf .e4m3 = ((fmtOf .e4m3).maxFin.1 : ℚ) * (2 : ℚ) ^ (fmtOf .e4m3).maxFin.2 from rfl, show (fmtOf .e4m3).maxFin = (14, 5) by decide]
    norm_num
  · rw [show topOf .e4m3 = ((fmtOf .e4m3).maxFin.1 : ℚ) * (2 : ℚ) ^ (fmtOf .e4m3).maxFin.2 from rfl, show (fmtOf .e4m3).maxFin = (14, 5) by decide]
    norm_num

theorem witness_FloatResults : EType.isF .f32 = true ∧ (4 ≤ 4) ∧ Holds .f32 0x3F800000 false 1 ∧ Holds .f32 0xC0000000 true 2 ∧ Holds .f32 0 false 0
    ∧ (1 : ℚ) = (2 : ℚ) ^ (0 : Int) ∧ withSign false 1 = ((1 : Int) : ℚ) ∧ Holds .f32 0x40000000 false ((2 : ℚ) ^ (1 : Int))
    ∧ withSign false 1 + withSign true 1 = 0 ∧ withSign true 2 < withSign false 1 :=
  ⟨by decide, by decide, holds_one, holds_two, holds_zero, by norm_num, by norm_num [withSign], ⟨by decide, 2 ^ 23, -22, by decide, by norm_num⟩,
    by norm_num [withSign], by norm_num [withSign]⟩

theorem witness_FloatSpecials : EType.isF .f32 = true ∧ (decodeF .f32 0x7FC00000 = .nan ∧ decodeF .f32 0 ≠ .nan)
    ∧ (decodeF .f32 0x7F800000 = .inf false ∧ decodeF .f32 0xFF800000 = .inf true) ∧ Holds .f32 0 false 0 :=
  ⟨by decide, by decide, by decide, holds_zero⟩

theorem witness_VectorReductions_floats : Holds .f32 0x3F800000 false 1 ∧ Holds .f32 0xC0000000 true 2
    ∧ (decodeF .f32 0x7FC00000 = .nan ∧ decodeF .f32 0xFF800000 = .inf true) ∧ actives { m := true, q := 1 } maskedThread .f32 ≠ [] :=
  ⟨holds_one, holds_two, by decide, by decide⟩

theorem witness_ConversionResults : EType.bf16 ≠ .f32 ∧ (EType.isFloat .bf16 = true ∧ EType.isNarrow .e4m3 = true ∧ EType.isI .i8 = true)
    ∧ Holds .f32 0xC0000000 true 2 ∧ (2 : ℚ) < topOf .e4m3 ∧ (0 < 7 ∧ 7 < 2 ^ 32) ∧ (decodeF .f32 0xFF800000 = .inf true ∧ decodeF .f32 0x7FC00000 = .nan)
    ∧ (255 < 2 ^ EType.bits .i8 ∧ intOf .i8 0 = 0) := by
  refine ⟨by decide, by decide, holds_two, ?_, by decide, by decide, by decide, by decide⟩
  rw [show topOf .e4m3 = ((fmtOf .e4m3).maxFin.1 : ℚ) * (2 : ℚ) ^ (fmtOf .e4m3).maxFin.2 from rfl, show (fmtOf .e4m3).maxFin = (14, 5) by decide]
  norm_num

/-- −1 in e4m3. -/
theorem holds_narrow : Holds .e4m3 0xB8 true 1 := ⟨by decide, 8, -3, by decide, by norm_num⟩

theorem witness_BlockElements : EType.isNarrow .e4m3 = true ∧ (3 ≤ 3 ∧ 254 < 255) ∧ ([FVal.fin true 3 (-127)])[0]? = some (.fin true 3 (-127))
    ∧ (0 < 3 ∧ ((3 : Nat) : ℚ) * (2 : ℚ) ^ ((-127 : Int) + 127 - (0 : Nat)) < topOf .e4m3 ∧ 0 < 9 ∧ 9 < 2 ^ 32)
    ∧ (quantElems .e4m3 0 0 [FVal.fin true 3 (-127)] fun _ => none)[0]? = some (0xC4, 0) ∧ [FVal.nan] ≠ []
    ∧ (EType.isF .f32 = true ∧ Holds .e4m3 0xB8 true 1 ∧ Holds .e4m3 0 false 0) := by
  refine ⟨by decide, by decide, rfl, ⟨by decide, ?_, by decide, by decide⟩, by decide, by decide, by decide, holds_narrow,
    by decide, 0, -9, by decide, by norm_num⟩
  rw [show topOf .e4m3 = ((fmtOf .e4m3).maxFin.1 : ℚ) * (2 : ℚ) ^ (fmtOf .e4m3).maxFin.2 from rfl, show (fmtOf .e4m3).maxFin = (14, 5) by decide]
  norm_num

/-- A thread whose mask q1 governs element 2 of 32 bits alone, at byte 0x100 of its pool. -/
def maskedOwn : Thread := { threadOf [0x100] with q := Vector.ofFn fun n => if n.val = 1 then 4 else 0 }
theorem goes_maskedOwn (rs ds : List RegName) : Goes (one maskedOwn) 0 maskedOwn rs ds :=
  goes rfl rfl rfl (fun n => by simp [maskedOwn, threadOf, GReg.ofWord]) (fun n => by simp [maskedOwn, threadOf, Thread.fresh, VReg.fullReg]) rfl rs ds

theorem witness_GathersAndScatters_more :
    (Goes (one maskedThread) 0 maskedThread [.g 0, .v 3] [.v 4] ∧ Begins (one maskedThread) 0 maskedThread keepFull ∧ syKf keepFull = true)
    ∧ (Memory.wf (one maskedOwn).mem = true ∧ 8 ≤ EType.bits .f32 ∧ Goes (one maskedOwn) 0 maskedOwn [.g 0, .v 3] [.v 4]
      ∧ Begins (one maskedOwn) 0 maskedOwn none ∧ gatherAddrs (one maskedOwn) maskedOwn { m := true, q := 1 } .f32 0 3 = [(2, 0x100)]
      ∧ (0x100 : Word).toNat % (EType.bits .f32 / 8) = 0 ∧ InOwn (one maskedOwn) maskedOwn 0x100 (EType.bits .f32 / 8)) :=
  ⟨⟨goes_masked _ _, begins_one _ rfl _, rfl⟩, rfl, by decide, goes_maskedOwn _ _, begins_one _ rfl _, by decide +kernel, by decide,
    (by decide : 0x100 + 4 ≤ vbaseOf 3), clean_of rfl rfl _ _⟩

/-- Thread 0 with a0 bound, whose `mrd` waits for result 5 under keep-full. -/
def boundSent : Thread := { bound [] with prog := .sent 5 }

theorem witness_MatrixReads_more :
    (Goes (oneT (tiled 1 []) (bound [])) 0 (bound []) [] [.v 3] ∧ InThread (bound []) ∧ (bound []).prog = .none ∧ syKf keepFull = true
      ∧ (bound []).a.get 0 = some 0 ∧ tget 0 ((oneT (tiled 1 []) (bound [])).tile 0).slots = some (slotOf 1) ∧ (slotOf 1).soft = false
      ∧ ((oneT (tiled 1 []) (bound [])).tile 0).reads = [] ∧ outstandingReads (oneT (tiled 1 []) (bound [])) 0 (bound []) < 8)
    ∧ (Goes (oneT (tiled 1 []) boundSent) 0 boundSent [] [.v 3] ∧ boundSent.prog = .sent 5 ∧ tget 5 (oneT (tiled 1 []) boundSent).pending = none
      ∧ tget 5 ((oneT (tiled 1 []) boundSent).tile 0).reads = none) :=
  ⟨⟨goes_bound _ rfl rfl rfl _ _, ⟨rfl, by decide⟩, rfl, rfl, rfl, rfl, rfl, rfl, by decide⟩,
    goes rfl rfl rfl (fun n => by simp [boundSent, bound, threadOf, GReg.ofWord]) (fun n => by simp [boundSent, bound, threadOf, Thread.fresh, VReg.fullReg]) rfl _ _,
    rfl, rfl, rfl⟩

theorem witness_MatrixUnit_more : Granted (oneT (tiled 64 [mma1]) (bound [])) 0 0 mma1 [] ∧ mxStopped (oneT (tiled 64 [mma1]) (bound [])) mma1 = false :=
  ⟨granted_of _ _ rfl, rfl⟩

theorem witness_MatrixSums : (List.replicate 4096 (0 : BitVec 32)).length = 4096 ∧ MxGroup.narrow ≠ .integer ∧ (127 ≠ 255)
    ∧ (∀ p ∈ [(FVal.fin false 3 0, FVal.fin true 1 1)], isFinite p.1 = true ∧ isFinite p.2 = true)
    ∧ (decodeF .f32 (0x7FC00000 : BitVec 32).toNat = .nan ∧ decodeF .f32 (0x7F800000 : BitVec 32).toNat = .inf false)
    ∧ Holds .f32 (0x3F800000 : BitVec 32).toNat false 1 ∧ ([(FVal.fin false 3 0, FVal.fin true 1 1)].map fun p => numOf p.1 * numOf p.2).sum ≠ 0
    ∧ (InfProduct true (.inf true, .fin false 1 0) ∧ InfProduct false (.inf true, .inf true)) := by
  refine ⟨List.length_replicate .., by decide, by decide, by decide, by decide, holds_one, ?_, .inl ⟨true, false, 1, 0, rfl, by decide, by decide⟩,
    .inr (.inr ⟨true, true, rfl, by decide⟩)⟩
  norm_num [numOf, withSign]

/-- A device where the transfer is under way. -/
def moving (x : Transfer) : State := { landing with xfers := [(9, x)] }
/-- A transfer that converts 32 elements of f32 at 0x300 to e4m3 at 0x400, and one that quantises them, its scale byte at 0x440. -/
def converting : Transfer := { transfer1 with shape := (0x00001CA000000000 : Word) ++ (31 : Word), landed := [] }
def quantising : Transfer := { transfer1 with shape := (0x00015CA000000000 : Word) ++ (31 : Word), landed := [] }

theorem source_at (x : Transfer) (n sk : Nat) (h : resolve (moving x) x.cid x.core (srcAddr x n) rRead = .ok (.here sk) none)
    (hp : isPoolKey sk = true) : SourceAt (moving x) x n sk where
  place := ⟨none, h⟩
  pool := hp
  clean := clean_of rfl rfl _ _

theorem may_land (x : Transfer) (hs : shapeOk x.shape = true ∧ x.dst.toNat % alignOf (shTypes x.shape).2 = 0)
    (hw : beginsWord x 0 = true ∧ x.landed.contains 0 = false ∧ x.parked = false)
    (ho : accessesBefore (moving x) x.uid x.after = false)
    (hd : resolve (moving x) x.cid x.core (dstAddr x 0) rWrite = .ok (.here 0x1000000000400) none)
    (hc : resolve (moving x) x.cid x.core x.ctr rAtomic = .ok (.here 0x1000000000200) none)
    (hf : ∀ n ∈ wordElems x 0, ∀ k ∈ wordElems x 0, n ≠ k → (fieldOf x n).1 + (fieldOf x n).2 ≤ (fieldOf x k).1 ∨ (fieldOf x k).1 + (fieldOf x k).2 ≤ (fieldOf x n).1) :
    MayLand (moving x) 9 0 x 0x1000000000400 0x1000000000200 where
  there := rfl
  shape := hs
  word := hw
  ordered := ho
  dest := ⟨none, hd⟩
  counter := ⟨none, hc⟩
  pools := by decide
  clean := ⟨clean_of rfl rfl _ _, by decide⟩
  apart := by decide
  noWaiter := by intro a h; cases h
  fields := hf

theorem converting_lands : MayLand (moving converting) 9 0 converting 0x1000000000400 0x1000000000200 :=
  may_land _ (by decide) (by decide +kernel) rfl (by decide) (by decide) (by decide +kernel)
theorem quantising_lands : MayLand (moving quantising) 9 0 quantising 0x1000000000400 0x1000000000200 :=
  may_land _ (by decide) (by decide +kernel) rfl (by decide) (by decide) (by decide +kernel)

theorem sources (x : Transfer) (h : x = converting ∨ x = quantising) (n : Nat) (hn : n < 32) :
    SourceAt (moving x) x n (0x1000000000300 + 4 * n) := by
  refine source_at x n _ ?_ ?_
  · rcases h with rfl | rfl <;> revert n hn <;> decide +kernel
  · revert n hn; decide +kernel

theorem witness_TransfersLand : Memory.wf (moving converting).mem = true ∧ MayLand (moving converting) 9 0 converting 0x1000000000400 0x1000000000200
    ∧ shMode converting.shape = 0 ∧ (shTypes converting.shape = (.f32, .e4m3))
    ∧ ∀ n ∈ wordElems converting 0, SourceAt (moving converting) converting n (0x1000000000300 + 4 * n) := by
  refine ⟨by decide, converting_lands, by decide, by decide, fun n hn => sources _ (.inl rfl) n ?_⟩
  revert n hn
  rw [show wordElems converting 0 = List.range 8 by decide +kernel]
  intro n hn; have := List.mem_range.1 hn; omega

theorem witness_TransfersQuantise : Memory.wf (moving quantising).mem = true ∧ MayLand (moving quantising) 9 0 quantising 0x1000000000400 0x1000000000200
    ∧ shMode quantising.shape = 1 ∧ quantising.blocks = [] ∧ (∀ n ∈ wordElems quantising 0, quantising.blockOf n = 0)
    ∧ ∀ n ∈ wordElems quantising 0, ∀ j, j < 32 → SourceAt (moving quantising) quantising (quantising.blockOf n * 32 + j) (0x1000000000300 + 4 * (quantising.blockOf n * 32 + j)) := by
  have hb : ∀ n ∈ wordElems quantising 0, quantising.blockOf n = 0 := by decide +kernel
  refine ⟨by decide, quantising_lands, by decide, rfl, hb, fun n hn j hj => ?_⟩
  rw [hb n hn, Nat.zero_mul, Nat.zero_add]
  exact sources _ (.inr rfl) j hj

/-- Transfers from and to an address with nothing there. -/
def sourceless : Transfer := { transfer1 with src := 0x60000 }
def homeless : Transfer := { transfer1 with dst := 0x60000 }
def quantLost : Transfer := { quantising with src := 0x60000 }
/-- The source word of `transfer1` in P. -/
def poisonedSource : State := landing.setWord (0x1000000000300 / 8) .poison

theorem witness_TransfersFail :
    (MayLand (moving sourceless) 9 0 sourceless 0x1000000000400 0x1000000000200 ∧ shMode sourceless.shape = 0
      ∧ ∀ n ∈ wordElems sourceless 0, n = 0 ∧ resolve (moving sourceless) 1 0 (srcAddr sourceless n) rRead = .fail .unmapped)
    ∧ (tget 9 (moving homeless).xfers = some homeless ∧ shapeOk homeless.shape = true ∧ beginsWord homeless 0 = true ∧ homeless.landed.contains 0 = false
      ∧ homeless.parked = false ∧ accessesBefore (moving homeless) 0 0 = false ∧ engineHeld (moving homeless) homeless homeless.ctr rAtomic = false
      ∧ resolve (moving homeless) 1 0 (dstAddr homeless 0) rWrite = .fail .unmapped ∧ wordElems homeless 0 = [0]
      ∧ SourceAt (moving homeless) homeless 0 0x1000000000300)
    ∧ (NoSoft poisonedSource ∧ resolve poisonedSource 1 0 (srcAddr transfer1 0) rRead = .ok (.here 0x1000000000300) none
      ∧ isPoolKey 0x1000000000300 = true ∧ touchesPoison poisonedSource 0x1000000000300 (max 1 ((shTypes transfer1.shape).1.bits / 8)) = true
      ∧ wordElems transfer1 0 = [0])
    ∧ (MayLand (moving quantLost) 9 0 quantLost 0x1000000000400 0x1000000000200 ∧ shMode quantLost.shape = 1 ∧ quantLost.blocks = []
      ∧ (∀ n ∈ wordElems quantLost 0, quantLost.blockOf n = 0)
      ∧ ∀ i, i < 32 → resolve (moving quantLost) 1 0 (srcAddr quantLost (0 * 32 + i)) rRead = .fail .unmapped)
    ∧ (resolve landing 1 0 transfer1.ctr rAtomic = .ok (.here 0x1000000000200) none ∧ touchesPoison landing 0x1000000000200 16 = false) :=
  ⟨⟨may_land _ (by decide) (by decide) rfl (by decide) (by decide) (by decide), by decide, by decide⟩,
    ⟨rfl, by decide, by decide, by decide, rfl, rfl, by decide, by decide, by decide, source_at _ _ _ (by decide) (by decide)⟩,
    ⟨noSoft_of (by decide) (by decide), by decide, by decide, by decide, by decide⟩,
    ⟨may_land _ (by decide) (by decide +kernel) rfl (by decide) (by decide) (by decide +kernel), by decide, rfl, by decide +kernel, by decide +kernel⟩,
    by decide, clean_of rfl rfl _ _⟩

theorem witness_TransfersFail_poisoned : MayLand poisonedSource 9 0 transfer1 0x1000000000400 0x1000000000200 where
  there := by decide
  shape := by decide
  word := by decide
  ordered := by decide
  dest := ⟨none, by decide⟩
  counter := ⟨none, by decide⟩
  pools := by decide
  clean := by decide
  apart := by decide
  noWaiter := by intro a h; simp [show poisonedSource.accs = [] by decide] at h
  fields := by
    rw [show wordElems transfer1 0 = [0] by decide]
    intro n hn k hk h
    rw [List.mem_singleton.1 hn, List.mem_singleton.1 hk] at h
    exact absurd rfl h

/-- An engine station whose 64 transfers are all under way. -/
def fullEngine (xs : List Word) : State := { one (copier xs) with xfers := (List.range 64).map fun k => (k, transfer1) }

theorem witness_TransfersBegin :
    (Goes (fullEngine [0x400, 0x300, 0x200]) 0 (copier [0x400, 0x300, 0x200]) [.g 0, .g 1, .g 2] [] ∧ acquirePending (fullEngine [0x400, 0x300, 0x200]) 0 = false
      ∧ resolve (fullEngine [0x400, 0x300, 0x200]) 1 0 ((copier [0x400, 0x300, 0x200]).gval 2) rAtomic = .ok (.here 0x1000000000200) none
      ∧ 64 ≤ ((fullEngine [0x400, 0x300, 0x200]).xfers.filter fun e => e.2.station == engineStation 0
          && !(e.2.parked && ctxHalted (fullEngine [0x400, 0x300, 0x200]) e.2.cid)).length)
    ∧ (Goes (one (copier [0x404, 0x300, 0x200])) 0 (copier [0x404, 0x300, 0x200]) [.g 0, .g 1, .g 2] []
      ∧ ((copier [0x404, 0x300, 0x200]).gval 1).toNat % alignOf (shTypes ((copier [0x404, 0x300, 0x200]).h.get 0)).1 = 0
      ∧ ((copier [0x404, 0x300, 0x200]).gval 0).toNat % alignOf (shTypes ((copier [0x404, 0x300, 0x200]).h.get 0)).2 ≠ 0) :=
  ⟨⟨goes_copier _ rfl rfl rfl _ _, rfl, by decide, by decide +kernel⟩, goes_copier _ rfl rfl rfl _ _, by decide, by decide⟩

/-- A thread that waits at the counter at byte 0x200 of its pool, which is complete, and one whose wait is over. -/
def counting : Thread := { threadOf [0x200] with status := .blocked (.counter 0x200 (some 0x1000000000200) none) }
def waitedThread : Thread := { threadOf [0x200] with prog := .waited none }

theorem oneEach_counting : OneEach { landing with threads := [(0, counting)] } where
  keys := by intro e he; cases List.mem_singleton.1 he; rfl
  slots := by decide
  places := by intro e he f hf _ _; rw [List.mem_singleton.1 he, List.mem_singleton.1 hf]

theorem witness_Counters_waits :
    (OneEach { landing with threads := [(0, counting)] } ∧ NoSoft { landing with threads := [(0, counting)] }
      ∧ counting.status = .blocked (.counter 0x200 (some 0x1000000000200) none) ∧ ({ landing with threads := [(0, counting)] } : State).word (0x1000000000200 / 8) ≠ .poison
      ∧ leNat (memBytes landing.mem 0x1000000000200 8) = 0 ∧ 2 ^ 63 ≤ leNat (memBytes landing.mem (0x1000000000200 + 8) 8))
    ∧ (Goes (one waitedThread) 0 waitedThread [.g 0] [] ∧ waitedThread.kind = .thread ∧ waitedThread.prog = .waited none) :=
  ⟨⟨oneEach_counting, noSoft_of rfl rfl, rfl, by decide, by decide, by decide⟩,
    goes rfl rfl rfl (fun n => by simp [waitedThread, threadOf, GReg.ofWord]) (fun n => by simp [waitedThread, threadOf, Thread.fresh, VReg.fullReg]) rfl _ _, rfl, rfl⟩

/-- The grid of `grid1` with the ghost buffers of partition 0 in translated memory. -/
def gridAway : Binding :=
  { grid1 (bufs1 (.ready 0)) [] with parts := records 2 [0, 0x1000, 16, va0, 0, 0, 0, 0, 0x800, 0x1000, 16, 0x2000, 0, 0, 0, 0] }
def griddedAway (xs : List Word) : State := { one (threadOf xs) with grids := [(64, gridAway)] }
theorem owns_away (xs : List Word) : OwnsPart (griddedAway xs) (threadOf xs) 0 gridAway 0 where
  bound := rfl
  owner := by
    show gridAway.ownPart 0 0 = some 0
    decide

theorem witness_HaloSteps_more :
    (Goes (griddedAway [0xFFFF, 0]) 0 (threadOf [0xFFFF, 0]) [.g 0, .g 1] [.g 2] ∧ Begins (griddedAway [0xFFFF, 0]) 0 (threadOf [0xFFFF, 0]) keepFull
      ∧ OwnsPart (griddedAway [0xFFFF, 0]) (threadOf [0xFFFF, 0]) 0 gridAway 0 ∧ EType.code .i32 = gridAway.typeCode ∧ syKf keepFull = true
      ∧ ghostPlace gridAway ((threadOf [0xFFFF, 0]).gval 0).toNat = some (12, 0, 0, 0) ∧ gridAway.size = 4
      ∧ (gridAway.buf 0 12 (gridAway.bufOf 0)).st = .ready (gridAway.base 0)
      ∧ ownPool 0 (gridAway.ghostAddr 0 12 0 0 0 0 0) = false ∧ (gridAway.ghostAddr 0 12 0 0 0 0 0).toNat % 4 = 0
      ∧ resolve (griddedAway [0xFFFF, 0]) 1 0 (gridAway.ghostAddr 0 12 0 0 0 0 0) rRead = .ok (.here 0) (some 0))
    ∧ (((grid1 (bufs1 (.filling 2)) []).buf 0 12 0).st = .filling 2 ∧ ((grid1 (bufs1 (.released 2)) []).buf 0 12 0).st = .released 2
      ∧ ((grid1 (bufs1 (.released 0)) []).buf 0 12 0).st = .released ((grid1 (bufs1 (.released 0)) []).base 0)
      ∧ ((grid1 (bufs1 (.filling 0)) []).buf 0 12 0).st = .filling ((grid1 (bufs1 (.filling 0)) []).base 0)
      ∧ (0 < (grid1 (bufs1 (.released 0)) []).base 2 ∧ (grid1 (bufs1 (.released 0)) []).bufOf 4 = 0)) :=
  ⟨⟨goes_in _ rfl rfl rfl _ _, ⟨rfl, rfl, fun _ => rfl⟩, owns_away _, by decide, rfl, by decide, by decide, by decide, by decide, by decide, by decide⟩,
    by decide⟩

theorem witness_HaloEngine_more :
    (bufferAway (engineCores (engineState .none none)) (64 / 64) (engineGrid .none) 1 14 ((engineGrid .none).bufOf 0) = false
      ∧ (engineGrid .none).parts = (grid1 [] []).parts)
    ∧ (pieceThere (engineCores (engineState (.ready 4) none)) (64 / 64) (engineGrid (.ready 4)) 1 14 = true
      ∧ bufferAway (engineCores (engineState (.ready 4) none)) (64 / 64) (engineGrid (.ready 4)) 1 14 ((engineGrid (.ready 4)).bufOf 0) = false) :=
  ⟨⟨by decide, rfl⟩, by decide, by decide⟩

/-- An entry of object 5 and tile 3 that rates not yet against generation 0x2345. -/
def earlyTag : Table Tag := [(key1, { gen := 0x2344, left := 1, cid := 1, since := 0 })]

theorem witness_TagWaits_more : Goes (tagged earlyTag (threadOf [0x500000003, 0x2345])) 0 (threadOf [0x500000003, 0x2345]) [.g 0, .g 1] []
    ∧ acquirePending (tagged earlyTag (threadOf [0x500000003, 0x2345])) 0 = false
    ∧ tget key1 (tagged earlyTag (threadOf [0x500000003, 0x2345])).tags = some { gen := 0x2344, left := 1, cid := 1, since := 0 }
    ∧ 32768 ≤ ((0x2344 : BitVec 16).toNat + 65536 - ((threadOf [0x500000003, 0x2345]).gval 1).toNat % 2 ^ 16) % 65536
    ∧ producerDone (tagged earlyTag (threadOf [0x500000003, 0x2345])) 1 0 = false :=
  ⟨goes_in _ rfl rfl rfl _ _, rfl, rfl, by decide, by decide⟩

/-- A query of core 1 on its way for g4 of thread 0. -/
def query5 : Pending := { result5 with asks := some 1 }

theorem witness_Moves_endp : ((light [0x101000000]).prog = .none ∧ Goes (parted (light [0x101000000])) 0 (light [0x101000000]) [.g 0] [.g 1])
    ∧ (islandOf 32 ∉ partIslands (parted (light [0x120000000])) 0 ∧ (32 : Nat) ≠ (light []).core)
    ∧ (tget 8 ({ one (threadOf []) with pending := [(8, query5)] } : State).accs = none
      ∧ tget 8 ({ one (threadOf []) with pending := [(8, query5)] } : State).pending = some query5 ∧ query5.asks = some 1 ∧ query5.node = none
      ∧ query5.bad = none ∧ query5.dest = .g 4 false ∧ tget query5.uid (one (threadOf [])).threads = some (threadOf [])) :=
  ⟨⟨rfl, goes_light _ rfl rfl [0] [1]⟩, by decide, rfl, rfl, rfl, rfl, rfl, rfl, rfl⟩

/-- A device whose core 0 is of context 1 under a ladder. -/
def laddered1 : State := { mailed (message1 0x400 false) [] with contexts := [(1, ladderCtx)] }

theorem witness_MessageDelivery_more :
    (tget 5 laddered1.msgs = some (message1 0x400 false) ∧ mayArrive laddered1 (message1 0x400 false) = true
      ∧ laddered1.ctx? (message1 0x400 false).cid = some ladderCtx ∧ ladderCtx.ladder.isSome = true)
    ∧ (tget 5 (mailed (message1 0 false) []).msgs = some (message1 0 false) ∧ agentAt (one parkedExit) 0 0 = some (0, parkedExit) ∧ parkedExit.status = .parked) :=
  ⟨⟨rfl, by decide, rfl, rfl⟩, rfl, by decide, rfl⟩

/-- The context of tenant 0 and space 1. -/
def ctx0 : Context := Context.fresh 0 0 0 1
/-- The device where `deriver` is of that context, and page 0 of tenant 1, with these tenants' records. -/
def rootDeriver (ts : Table Tenant) (r1 : Word) : State :=
  { one (deriver r1) with spaces := spaces1, nodes := [(0, node1)], contexts := [(1, ctx0)], tenants := ts }
/-- A tenant whose versions and keys are spent. -/
def spentTenant : Tenant := { kgen := 0xFFFF, high := 2 ^ 48 - 1, roll := none, hnew := 0, aging := true, due := false }

theorem derives_in (s : State) (r1 : Word) (grant : Bool) (q : Quad) (hc : s.cur = some 0) (ht : tget 0 s.threads = some (deriver r1))
    (hq : (s.tile (tileOf (deriver r1).core)).queue ((deriver r1).core % 8) = []) (ho : accessesBefore s 0 s.nextId = false)
    (h : quadOf grant va0 r1 0x2000000020000 1 (deriver r1).pc = .ok q) : Derives s 0 (deriver r1) keepFull 5 0 grant q where
  toGoes := goes_in _ hc ht hq _ _
  fresh := rfl
  quad := (derives [] r1 grant q h).quad
  ordered := ho

theorem source_root (ts : Table Tenant) (r1 : Word) (space rights : Nat) : Source (rootDeriver ts r1) (deriver r1) (quad1 space rights) 0 node1 where
  found := by
    have h : node1.covers 1 0x1000000000 = true := by decide
    simp [findNode, rootDeriver, tfind, quad1, callerOf, deriver, threadOf, Thread.fresh, one, State.ctx?, tget, ctx0, Context.fresh, h]
  whole := (by decide : 0x1000000000 + 1 ≤ 0x1000000000 + 1)
  live := by simp [marked, markedFrom, rootDeriver, tget, node1]

theorem target_root (ts : Table Tenant) (r1 : Word) (rights : Nat) : Target (rootDeriver ts r1) (deriver r1) (quad1 2 rights) { tenant := 1, deleted := false } where
  home := rfl
  space := rfl
  exists_ := rfl
  tenant := .inr rfl
  free := by intro e he; cases List.mem_singleton.1 he; intro h; exact absurd h (by decide : ¬ (1 : Nat) = 2)

theorem witness_Derivations_root :
    (Derives (rootDeriver [] 0x300002) 0 (deriver 0x300002) keepFull 5 0 false (quad1 2 3) ∧ Source (rootDeriver [] 0x300002) (deriver 0x300002) (quad1 2 3) 0 node1
      ∧ Target (rootDeriver [] 0x300002) (deriver 0x300002) (quad1 2 3) { tenant := 1, deleted := false } ∧ (callerOf (rootDeriver [] 0x300002) (deriver 0x300002)).2 = 0
      ∧ (∀ e ∈ (rootDeriver [] 0x300002).owner, tget e.1 (rootDeriver [] 0x300002).owner = some e.2)
      ∧ FarFromAging (rootDeriver [] 0x300002) 0 (scrubbedBy (rootDeriver [] 0x300002) (0 + (0x1000000000 - 0x1000000000)) 1).length
      ∧ keysSpent (rootDeriver [(0, spentTenant)] 0x300002) 0 (scrubbedBy (rootDeriver [] 0x300002) (0 + (0x1000000000 - 0x1000000000)) 1).length = true)
    ∧ (Derives (rootDeriver [] 2) 0 (deriver 2) keepFull 5 0 true (quad1 2 0) ∧ Source (rootDeriver [] 2) (deriver 2) (quad1 2 0) 0 node1
      ∧ Target (rootDeriver [] 2) (deriver 2) (quad1 2 0) { tenant := 1, deleted := false } ∧ FarFromAging (rootDeriver [] 2) 1 node1.pages
      ∧ keysSpent (rootDeriver [(1, spentTenant)] 2) 1 node1.pages = true) :=
  ⟨⟨derives_in _ _ _ _ rfl rfl rfl rfl (by decide), source_root _ _ _ _, target_root _ _ _, rfl, by decide, ⟨rfl, rfl, by decide⟩, by decide⟩,
    ⟨derives_in _ _ _ _ rfl rfl rfl rfl (by decide), source_root _ _ _ _, target_root _ _ _, ⟨rfl, rfl, by decide⟩, by decide⟩⟩

theorem witness_Derivations_more :
    (Derives (spaced [(0, node1)] (deriver 0x4000002)) 0 (deriver 0x4000002) none 5 0 true { quad1 2 0 with dev := 2 }
      ∧ Source (spaced [(0, node1)] (deriver 0x4000002)) (deriver 0x4000002) (quad1 2 0) 0 node1
      ∧ ((spaced [(0, node1)] (deriver 0x4000002)).peer 2).st ≠ .live)
    ∧ (2 ^ 34 ≤ ((threadOf [0x1000, 0x400000000]).gval 1).toNat ∧ ((threadOf [0x1000, 0x100000]).gval 1).toNat / 2 ^ 20 % 2 ^ 5 ≠ 0
      ∧ ((threadOf [0x1000, 0, 0x10, 1]).gval 2).toNat % 4096 ≠ 0)
    ∧ (Issues (one (sentThread [])) 0 (sentThread []) ∧ (sentThread []).regSt (.g 1) = .full ∧ runHolds (one (sentThread [])) 0 (sentThread []) (.g 1) = false
      ∧ (sentThread []).prog = .sent 7 ∧ Landed (one (sentThread [])) 7) :=
  ⟨⟨derives _ _ _ _ (by decide), source_of _ _ _ _ (by decide), by decide⟩, by decide, ⟨rfl, rfl⟩, by simp [Thread.regSt, sentThread, threadOf, GReg.ofWord], rfl, rfl,
    landed_one _ _ _ rfl⟩

theorem witness_SpaceInstructions_more :
    (((threadOf [0x1001, 1]).gval 0).toNat % 4096 ≠ 0 ∧ ((threadOf [0x1000, 0]).gval 0).toNat % 4096 = 0 ∧ ((threadOf [0x1000, 0]).gval 1).toNat = 0
      ∧ 1 ≤ ((threadOf [0x1000, 1]).gval 1).toNat ∧ ((threadOf [0x1000, 1]).gval 0).toNat < 2 ^ 48)
    ∧ (2 ^ 20 ≤ ((threadOf [0x100000]).gval 0).toNat ∧ tget 4 spaces1 = some { tenant := 1, deleted := true } ∧ tget 3 spaces1 = some { tenant := 2, deleted := false }
      ∧ (callerOf (spaced [] (threadOf [3])) (threadOf [3])).2 = 1)
    ∧ (Goes (one (sentThread [])) 0 (sentThread []) [.g 0, .g (gAfter 0 1)] [.g 5] ∧ (sentThread []).prog = .sent 7 ∧ Landed (one (sentThread [])) 7) :=
  ⟨by decide, by decide, goes_sent _ _ _, rfl, landed_one _ _ _ rfl⟩

theorem witness_Probes_more : Goes (one (sentThread [])) 0 (sentThread []) [.g 0] [.g 1] ∧ (sentThread []).prog = .sent 7 ∧ Landed (one (sentThread [])) 7
    ∧ marked (spaced [(0, nodeWith 31 0 true)] (threadOf [va0])) 0 = true :=
  ⟨goes_sent _ _ _, rfl, landed_one _ _ _ rfl, by decide⟩

/-- Two nodes whose parents lie at device 2. -/
def remoteKids : Table Node := [(1, { child1 with parentDev := some 2 }), (2, { child1 with parentDev := some 2, vpage := 0x40 })]

theorem witness_WithdrawalCourse_more :
    (∀ i ∈ [1, 2], ∃ n, tget i (withdrawing [] remoteKids []).nodes = some n ∧ n.parentDev = some 2 ∧ n.withdrawn = false)
    ∧ (∀ e ∈ (withdrawing [] remoteKids []).nodes, tget e.1 (withdrawing [] remoteKids []).nodes = some e.2) ∧ anyPort (withdrawing [] remoteKids []) = true
    ∧ (wd1.uncut ≠ [] ∧ wd1.holds = false ∧ (withdrawing [(6, { wd1 with started := 65000 })] [] []).time < 65000 + 600) := by
  refine ⟨?_, by decide, by decide +kernel, by decide⟩
  intro i hi
  rcases List.mem_cons.1 hi with rfl | hi
  · exact ⟨_, rfl, rfl, rfl⟩
  · cases List.mem_singleton.1 hi
    exact ⟨_, rfl, rfl, rfl⟩

/-- A record of context 1 that waits, for the endpoint of thread 0, and a context whose save waits for an access to its pool. -/
def lateState : State := { one (threadOf []) with late := [.record 1 9 (List.replicate 16 0 ++ leBytes 4 (epOf (one (threadOf [])) (threadOf [])).toNat)] }
def saveWaits : State := { stewarded (haltingCtx 0x200000) [1] with accs := [(7, pooled .store .none 8)] }
/-- The device with context 1 halted, and a failed seal at the first page of its extent. -/
def extentFailed : State := { halted 1 true with seals := [(256, { Seal.blank with failed := true })] }

theorem extent_fills : (extentFill (halted 1 true) haltCtx1 saved1).1 = true ∧ (extentFill extentFailed haltCtx1 saved1).1 = false := by
  constructor <;> decide +kernel

theorem witness_StewardInstructions_more :
    (lateRecord lateState 0 = true ∧ lateRecord (one (threadOf [])) 0 = false ∧ Goes lateState 0 (threadOf []) [] [.g 15])
    ∧ (Goes saveWaits 0 (steward [1]) [.g 0] [] ∧ saveWaits.ctx? 1 = some (haltingCtx 0x200000) ∧ saveStopped saveWaits 1 = true ∧ saveReady saveWaits 1 = false)
    ∧ (saveStopped (stewarded ladderCtx [1]) 1 = false)
    ∧ (memByte extentFailed.mem haltCtx1.savebase = 1 ∧ restoreReady extentFailed 1 saved1 = true) :=
  ⟨⟨by decide +kernel, by decide, goes_in _ rfl rfl rfl _ _⟩,
    ⟨goes rfl rfl rfl (fun n => by simp [steward, threadOf, GReg.ofWord]) (fun n => by simp [steward, threadOf, Thread.fresh, VReg.fullReg]) rfl _ _,
      rfl, by decide +kernel, by decide +kernel⟩, by decide +kernel, by decide, by decide⟩

/-- A partition whose descriptor binds VF 2, and what the window's descriptor of `defining` says beside these others. -/
def otherPart : Partition := { part4 with groups := [], qfirst := 100, tenant := 9, islands := [], share := 200, raw := List.replicate 36 0 ++ [2, 0, 0, 0] }
def besides (p : Partition) (flags : Nat) : State := { defining 3 2 flags sliceOne with parts := [(5, p)] }

theorem witness_PartitionsAndBoot_more :
    (otherPart.share + (definedPart 3 2 (100 * 2 ^ 41) sliceOne).1.share = 300 ∧ boundFn otherPart = (definedPart 3 2 0 sliceOne).2
      ∧ (∃ n, ({ otherPart with qfirst := 15 } : Partition).qfirst ≤ n ∧ n < 15 + otherPart.qcount ∧ (definedPart 3 2 0 sliceOne).1.qfirst ≤ n
        ∧ n < (definedPart 3 2 0 sliceOne).1.qfirst + (definedPart 3 2 0 sliceOne).1.qcount)
      ∧ ({ otherPart with tenant := 2 } : Partition).tenant = (definedPart 3 2 0 sliceOne).1.tenant
      ∧ (∃ g ∈ part4.groups, g ∈ (definedPart 3 2 0 sliceOne).1.groups) ∧ partReserved (winBytes (defining 3 2 (2 ^ 51) sliceOne) 0 0 56) = true
      ∧ (definedPart 3 0 (2 ^ 50) sliceOne).1.sliced = true ∧ (definedPart 3 0 (2 ^ 50) sliceOne).1.islands = []
      ∧ (definedPart 3 2 0 sliceOne).1.qcount = 1 ∧ (partitionOf (winBytes (hosted ctx1 [(0x20, 2 * 2 ^ 32), (0x28, sliceOne), (0x30, 3)]) 0 0 56)).1.qcount = 0)
    ∧ (partBad { besides otherPart 0 with parts := [(0, { part4 with sliced := true, islands := [], groups := [] })] } 3 (definedPart 3 2 0 sliceOne).1
          (definedPart 3 2 0 sliceOne).2 = false
      ∧ (∃ e ∈ (besides otherPart 0).contexts, ∃ o, tget e.2.part [(0, { part4 with sliced := true, islands := [], groups := [] })] = some o ∧ o.sliced = true
        ∧ heldCores { besides otherPart 0 with parts := [(0, { part4 with sliced := true, islands := [], groups := [] })] } e.1 ≠ [])
      ∧ ∃ i ∈ (definedPart 3 2 0 sliceOne).1.islands, ∀ e ∈ ([(0, { part4 with sliced := true, islands := [], groups := [] })] : Table Partition), i ∉ e.2.islands) := by
  refine ⟨⟨by decide +kernel, by decide +kernel, ⟨16, by decide +kernel⟩, by decide +kernel, ⟨1, by decide +kernel, by decide +kernel⟩, by decide +kernel,
    by decide +kernel, by decide +kernel, by decide +kernel, by decide +kernel⟩, by decide +kernel, ⟨(1, ctx1), by simp [besides, defining, hosted], _, rfl, rfl, by decide +kernel⟩,
    1, by decide +kernel, by decide⟩

/-- `map` of page 0, which tenant 1 owns, into space 1, with these tenants' records. -/
def rootInto (ts : Table Tenant) : State := { rooted false 0 0x1000000000000 (31 * 2 ^ 20 + 1) 0x2000000000000 1 with tenants := ts }
/-- The same toward another device, into a space that is not there, and where its place is taken. -/
def rootTo (r1 : Nat) : State := rooted false 0 0x1000000000000 r1 0x2000000000000 1

theorem witness_RootSpace_more :
    (RootRuns (rootInto []) 0
      ∧ quadOf false (rootOperand (rootInto []) 0 0) (rootOperand (rootInto []) 0 1) (rootOperand (rootInto []) 0 2) (rootOperand (rootInto []) 0 3) 0 = .ok (quadRoot 1 31 0x1000000000 1)
      ∧ findNode (rootInto []) 0 0x1000000000 = some (0, node0 false) ∧ tget 1 (rootInto []).spaces = some { tenant := 1, deleted := false }
      ∧ (∀ e ∈ (rootInto []).nodes, e.2.space = 1 → e.2.vpage + e.2.pages ≤ 0x2000000000 ∨ 0x2000000000 + 1 ≤ e.2.vpage)
      ∧ (∀ e ∈ (rootInto []).owner, tget e.1 (rootInto []).owner = some e.2)
      ∧ FarFromAging (rootInto []) 0 (scrubbedBy (rootInto []) (0 + (0x1000000000 - 0x1000000000)) 1).length
      ∧ keysSpent (rootInto [(0, spentTenant)]) 0 (scrubbedBy (rootInto [(0, spentTenant)]) (0 + (0x1000000000 - 0x1000000000)) 1).length = true)
    ∧ (FarFromAging rootGrant 1 4 ∧ (node0 false).depth < 16 ∧ keysSpent { rootGrant with tenants := [(1, spentTenant)] } 1 4 = true)
    ∧ (quadOf false (rootOperand (rootTo 0x4000000) 0 0) (rootOperand (rootTo 0x4000000) 0 1) (rootOperand (rootTo 0x4000000) 0 2) (rootOperand (rootTo 0x4000000) 0 3) 0
        = .ok { quadRoot 0 0 0x1000000000 1 with dev := 2 } ∧ ((rootTo 0x4000000).peer 2).st ≠ .live
      ∧ quadOf false (rootOperand (rootTo 9) 0 0) (rootOperand (rootTo 9) 0 1) (rootOperand (rootTo 9) 0 2) (rootOperand (rootTo 9) 0 3) 0 = .ok (quadRoot 9 0 0x1000000000 1)
      ∧ (∀ x, tget 9 (rootTo 9).spaces = some x → x.deleted = true))
    ∧ (31 &&& (15 : BitVec 5).toNat ≠ 31 ∧ (15 : BitVec 5).getLsbD 4 = false ∧ ¬ (0x1000000002 = (node0 false).vpage ∧ 2 = (node0 false).pages)
      ∧ (∃ e ∈ ({ rootTo 1 with nodes := [(0, node0 false), (1, { node0 false with space := 1, vpage := 0x2000000000 })] } : State).nodes,
        e.2.space = 1 ∧ e.2.vpage < 0x2000000000 + 1 ∧ 0x2000000000 < e.2.vpage + e.2.pages)
      ∧ ({ node0 false with depth := 15 } : Node).depth = 15 ∧ 16777216 ≤ (List.replicate 16777216 (0, node1)).length) := by
  refine ⟨⟨⟨⟨rfl, rfl⟩, by decide +kernel⟩, by decide +kernel, rfl, rfl, by decide, by decide, ⟨rfl, rfl, by decide⟩, by decide⟩,
    ⟨⟨rfl, rfl, by decide⟩, by decide, by decide⟩, ⟨by decide +kernel, by decide, by decide +kernel, ?_⟩,
    by decide, by decide, by decide, ⟨(1, { node0 false with space := 1, vpage := 0x2000000000 }), by simp, rfl, by decide, by decide⟩, rfl, List.length_replicate.ge⟩
  intro x h
  simp [show tget 9 (rootTo 9).spaces = none from rfl] at h

/-- Two queues with records of one partition, of one priority class; the first was the last taken. -/
def twoQueues : State := { recorded va0 [] with queues := [(2, { queueOf va0 with prio := 7 }), (3, queueOf va0)], lastQueue := [(7, 3)] }
/-- A device queue behind a work queue of a higher class. -/
def queuesAhead : State := { hosted (succCtx [successor] []) [] with queues := [(3, queueOf va0)] }

theorem witness_RecordsTaken_turns :
    (tget 3 twoQueues.queues = some (queueOf va0) ∧ isTurn twoQueues (partOf twoQueues 1) 3 7 = false ∧ isTurn twoQueues (partOf twoQueues 1) 2 7 = true)
    ∧ (queuesAhead.ctx? 1 = some (succCtx [successor] []) ∧ isTurn queuesAhead 0 (deviceQueueNo 1) (bitsOf (succCtx [successor] []).ovcfg.toNat 8 3) = false) :=
  ⟨⟨rfl, by decide +kernel, by decide +kernel⟩, rfl, by decide +kernel⟩

/-- The save extent of the halted context with a seal that fails. -/
def resumingFailed : State := { resuming [0] with seals := [(256, { Seal.blank with failed := true })] }

theorem witness_SaveAndRestore_more :
    (extentFill (resuming [0]) { haltCtx1 with ladder := some (Ladder.begin ctx1 1 0 [0]) } saved1).1 = true
    ∧ (extentFill (turning true) (secondCtx true) { trigger := 0, cores := [0], frames := [5], since := 0 }).1 = true
    ∧ ((extentFill resumingFailed { haltCtx1 with ladder := some (Ladder.begin ctx1 1 0 [0]) } saved1).1 = false ∧ restoreReady resumingFailed 1 saved1 = true) :=
  ⟨by decide +kernel, by decide +kernel, by decide +kernel, by decide⟩

theorem witness_PeersAnswer_more : anyPort (peered (toPeer .load (.g 3 true) false) 65536) = true
    ∧ dropsTaker (peered (toPeer .load (.g 3 true) false) 65536) (toPeer .load (.g 3 true) false) 0 = false
    ∧ anyPort (portless []) = false := by
  refine ⟨by decide +kernel, by decide, by decide +kernel⟩

end Tests
end

namespace Sys2Proof.Machine

/-! SUPPORT. Fills that come later: what has landed, and a status on its way (R65, R69, R107); then `mprobe` (R112, R368). -/

/-- The bytes of a number depend only on as much of it as they hold. -/
theorem leBytes_mod (n x : Nat) : leBytes n (x % 256 ^ n) = leBytes n x := by
  induction n generalizing x with
  | zero => rfl
  | succ n ih =>
    have low : x % 256 ^ (n + 1) % 2 ^ 8 = x % 2 ^ 8 := Nat.mod_mod_of_dvd x (Dvd.intro_left (256 ^ n) rfl)
    have high : x % 256 ^ (n + 1) / 256 = x / 256 % 256 ^ n := by
      rw [pow_succ', Nat.mod_mul_right_div_self]
    simp only [leBytes, high, ih]
    congr 1
    exact BitVec.eq_of_toNat_eq (by simpa only [BitVec.toNat_ofNat] using low)

/-- The bytes of a word are the bytes of the number it was made from. -/
@[simp] theorem leBytes_w64 (n : Nat) : leBytes 8 (w64 n).toNat = leBytes 8 n := by
  rw [w64, BitVec.toNat_ofNat, show 2 ^ 64 = 256 ^ 8 by norm_num, leBytes_mod]

/-- What was sent under keep-full and has landed lets its instruction retire, with nothing more to do (R69). -/
theorem resumeResult_landed {s : State} {id : Nat} (h : Landed s id) (i : Instr) (u : Nat) (t : Thread) :
    resumeResult s i u t id = finish s i u t := by
  have saved : (s.areas.any fun e => (tget id e.2.waiters).isSome) = false :=
    List.any_eq_false.2 fun e he => by simp [h.saved e he]
  simp [resumeResult, h.pending, h.accs, h.forks, h.wds, saved]

/-- A status is sent like any later fill: it is pending, and its agent waits for it under keep-full and goes on with gD in E
otherwise (R65, R69, R107). -/
theorem sendStatus_w64 (s : State) (i : Instr) (y : Sync) (u : Nat) (t : Thread) (d : GNum) (w : Nat) (node : Option Nat) :
    sendStatus s i y u t d (w64 w) node =
      if syKf y then blockAt (sends s u d (leBytes 8 w) (syKf y) node) u t .result (.sent s.nextId)
      else finish (sends s u d (leBytes 8 w) (syKf y) node) i u (t.emptyG d) := by
  rw [← leBytes_w64 w]
  rfl

theorem answers_of_sendStatus {i : Instr} {y : Sync} {s : State} {u : Nat} {t : Thread} {d : GNum} {w : Nat}
    (h : exec i s = sendStatus s i y u t d (w64 w) none) : Answers i y s u t d w := by
  rw [sendStatus_w64] at h
  constructor <;> intro kf
  · exact h.trans (if_neg (by simp [kf]))
  · exact h.trans (if_pos kf)

/-! ### `mprobe` (R112, R368) -/

/-- Translated space is [2^48, 2^56) (R99). -/
theorem classify_translated_iff {va : Word} : classify va = .translated ↔ 2 ^ 48 ≤ va.toNat ∧ va.toNat < 2 ^ 56 := by
  have hp : poolSize < 2 ^ 48 := by decide
  simp only [classify]
  repeat' split
  all_goals
    simp only [reduceCtorEq, false_iff, true_iff]
    omega

theorem probeWord_outside {va : Word} (h : va.toNat < 2 ^ 48 ∨ 2 ^ 56 ≤ va.toNat) (s : State) (space : Nat) :
    probeWord s space va = w64 0 := by
  have hc : classify va ≠ .translated := fun e => by have := classify_translated_iff.1 e; omega
  unfold probeWord
  split
  · contradiction
  · rfl

theorem probeWord_uncovered {s : State} {space : Nat} {va : Word} (h : findNode s space (va.toNat / 4096) = none) :
    probeWord s space va = w64 0 := by
  unfold probeWord
  split
  · rw [h]; rfl
  · rfl

theorem probeWord_covered {s : State} {space i : Nat} {va : Word} {n : Node} (lo : 2 ^ 48 ≤ va.toNat) (hi : va.toNat < 2 ^ 56)
    (h : findNode s space (va.toNat / 4096) = some (i, n)) :
    probeWord s space va = w64 (n.rights.toNat + n.depth * 2 ^ 8 + 2 ^ 12 + (if marked s i then 2 ^ 13 else 0) + n.tenant * 2 ^ 16
      + min (n.vpage + n.pages - va.toNat / 4096) (2 ^ 32 - 1) * 2 ^ 32) := by
  simp only [probeWord, classify_translated_iff.2 ⟨lo, hi⟩, h]

theorem exec_mprobe (y : Sync) (d a : GNum) (s : State) : exec (.mprobe y d a) s = execMprobe y d a s := rfl

theorem exec_mprobe_resumes {s : State} {u : Nat} {t : Thread} {d a : GNum} {id : Nat} (y : Sync) (h : Goes s u t [.g a] [.g d])
    (hp : t.prog = .sent id) : exec (.mprobe y d a) s = resumeResult s (.mprobe y d a) u t id := by
  simp only [exec_mprobe, execMprobe, issue_go (rs := [.g a]) (rt := []) y _ h, hp]

theorem exec_mprobe_sends {s : State} {u : Nat} {t : Thread} {d a : GNum} (y : Sync) (h : Goes s u t [.g a] [.g d])
    (hp : t.prog = .none) :
    exec (.mprobe y d a) s = sendStatus s (.mprobe y d a) y u t d (probeWord s (callerOf s t).1 (t.gval a)) none := by
  simp only [exec_mprobe, execMprobe, issue_go (rs := [.g a]) (rt := []) y _ h, hp]

theorem mprobe_answers {s : State} {u : Nat} {t : Thread} {d a : GNum} {w : Nat} (y : Sync) (h : Goes s u t [.g a] [.g d])
    (hp : t.prog = .none) (hw : probeWord s (callerOf s t).1 (t.gval a) = w64 w) : Answers (.mprobe y d a) y s u t d w :=
  answers_of_sendStatus (hw ▸ exec_mprobe_sends y h hp)

/-- Settles O42: `mprobe` sends the probe word of the caller's space, and the cases of R112 are the cases of that word. -/
theorem probes : Obligations.Probes := by
  unfold Obligations.Probes
  refine ⟨fun s u t y d a id h hp landed => ?_, fun s u t y d a h hp => ⟨fun out => ?_, fun lo hi => ⟨fun uncovered => ?_,
    fun i n found _ _ => ?_⟩⟩⟩
  · exact (exec_mprobe_resumes y h hp).trans (resumeResult_landed landed ..)
  · exact mprobe_answers y h hp (probeWord_outside out ..)
  · exact mprobe_answers y h hp (probeWord_uncovered uncovered)
  · exact mprobe_answers y h hp (probeWord_covered lo hi found)

end Sys2Proof.Machine

namespace Sys2Proof.Machine

/-! SUPPORT. What the rows of page 0 without an immediate encode and accept, and what the scalar operand forms write (R293 to R295,
R300, R303); then the division forms (R332, R380). -/

/-! ### Words and SYNC bits of a row -/

/-- A page-0 row with nothing but its base fields is its base word (R293). -/
theorem encode_of_baseRow {i : Instr} {rule : SyncRule} {op rd rs v : Nat} (h : rowOf i = some (row0 none rule op rd rs v)) :
    encode i = [BitVec.ofNat 16 (op * 1024 + rd * 64 + rs * 4 + v)] := by
  simp [encode, chainOf, h, row0, wordsOfChain]

/-- A page-0 row with a scalar third register is a REG prefix and its base word (R294, R303). -/
theorem encode_of_regRow {i : Instr} {rule : SyncRule} {op rd rs v rt type : Nat}
    (h : rowOf i = some ((row0 none rule op rd rs v).withReg (regT rt type))) :
    encode i = [BitVec.ofNat 16 (0xD000 + rt * 256 + type), BitVec.ofNat 16 (op * 1024 + rd * 64 + rs * 4 + v)] := by
  simp [encode, chainOf, h, row0, Row.withReg, regT, wordsOfChain, bit]

/-- A page-0 row with a third register has no limit but its SYNC rule: its chain holds at most two prefixes (R295, R300). -/
theorem wellFormed_of_regRow {i : Instr} {f : SyncF} {rule : SyncRule} {op rd rs v : Nat} {reg : RegW}
    (h : rowOf i = some ((row0 (some f) rule op rd rs v).withReg reg)) : i.wellFormed = rule.accepts f := by
  simp [Instr.wellFormed, Instr.operandsOk, Instr.immediateOk, Instr.syncOk, Instr.chainOk, chainOf, Chain.count, h, row0, Row.withReg]

/-- The rule of R300 for two scalar sources leaves the trap bits free and every other field 0. -/
theorem syST_accepts_iff (f : SyncF) : syST.accepts f = true ↔ f.scope.val = 0 ∧ f.order.val = 0 ∧ f.kf = false := by
  simp [SyncRule.accepts, syST, syS, syNone, and_assoc]

/-! ### What the scalar operand forms write -/

/-- The two-operand form writes rd op rs to rd and does nothing else (R303). -/
theorem writes_of_aluTwo {i : Instr} {s : State} {u : Nat} {t : Thread} {y : Sync} {d r : GNum} {f : Word → Word → Word}
    (he : exec i s = aluTwo i y d r f s) (h : Goes s u t [.g d, .g r] [.g d]) : Writes i s u t d (f (t.gval d) (t.gval r)) := by
  rw [Writes, Retires, he, aluTwo, issue_go (rt := []) y _ h]
  rfl

/-- The three-operand form writes rs op rt to rd and does nothing else (R303). -/
theorem writes_of_aluThree {i : Instr} {s : State} {u : Nat} {t : Thread} {y : Sync} {d a b : GNum} {f : Word → Word → Word}
    (he : exec i s = aluThree i y d a b f s) (h : Goes s u t [.g a, .g b] [.g d]) :
    Writes i s u t d (f (t.gval a) (t.gval b)) := by
  rw [Writes, Retires, he, aluThree, issue_go (rs := [.g a]) (rt := [.g b]) y _ h]
  rfl

/-! ### Quotient and remainder (R332) -/

/-- The unsigned quotient is that of the numbers the words hold (R332). -/
theorem divU_eq_divided (a b : Word) : divU a b = divided 1 a b := by
  simp only [divU, divided, w64, BitVec.udiv_def]

/-- The signed remainder is what the truncated quotient leaves of the dividend (R332). -/
theorem remS_eq_divided (a b : Word) : remS a b = divided 2 a b := by
  have remainder : Int.tmod a.toInt b.toInt = a.toInt - Int.tdiv a.toInt b.toInt * b.toInt := by rw [Int.tmod_def, mul_comm]
  simp only [remS, divided, remainder]

/-- The unsigned remainder is what the quotient leaves of the dividend (R332). -/
theorem remU_eq_divided (a b : Word) : remU a b = divided 3 a b := by
  have remainder : a % b = w64 (a.toNat - a.toNat / b.toNat * b.toNat) := by
    rw [mul_comm, ← Nat.mod_eq_sub, w64, BitVec.umod_def]
  simp only [remU, divided, remainder]

/-- Each form of opcode 0x08 computes its value of R332. -/
theorem divRem_eq_divided (v : Fin 4) (a b : Word) : divRem v a b = divided v a b := by
  match v with
  | 0 => rfl
  | 1 => exact divU_eq_divided a b
  | 2 => exact remS_eq_divided a b
  | 3 => exact remU_eq_divided a b

/-- A division in the two-operand form. -/
theorem writes_divided {i : Instr} {s : State} {u : Nat} {t : Thread} {y : Sync} {d r : GNum} (v : Fin 4)
    (he : exec i s = aluTwo i y d r (divRem v) s) (h : Goes s u t [.g d, .g r] [.g d]) :
    Writes i s u t d (divided v (t.gval d) (t.gval r)) :=
  divRem_eq_divided v _ _ ▸ writes_of_aluTwo he h

/-- A division in the three-operand form. -/
theorem divRemReg3_writes {s : State} {u : Nat} {t : Thread} {d a b : GNum} (y : Sync) (v : Fin 4)
    (h : Goes s u t [.g a, .g b] [.g d]) : Writes (.divRemReg3 y v d a b) s u t d (divided v (t.gval a) (t.gval b)) :=
  divRem_eq_divided v _ _ ▸ writes_of_aluThree rfl h

/-- Settles O14: the words and the SYNC bits are those of the rows, and every form writes the value of R332 through its operand
form. -/
theorem division : Obligations.Division := by
  unfold Obligations.Division
  refine ⟨fun d r => ⟨?_, ?_, ?_, ?_⟩, fun v d a b => ?_, ?_, fun f v d a b => ?_, fun s u t y d r h => ⟨?_, ?_, ?_, ?_⟩,
    fun s u t y v d a b h => ?_⟩
  · exact encode_of_baseRow (i := .divI64 none d r) rfl
  · exact encode_of_baseRow (i := .divN64 none d r) rfl
  · exact encode_of_baseRow (i := .remI64 none d r) rfl
  · exact encode_of_baseRow (i := .remN64 none d r) rfl
  · exact encode_of_regRow (i := .divRemReg3 none v d a b) rfl
  · decide
  · rw [wellFormed_of_regRow (i := .divRemReg3 (some f) v d a b) rfl, syST_accepts_iff]
  · exact writes_divided 0 rfl h
  · exact writes_divided 1 rfl h
  · exact writes_divided 2 rfl h
  · exact writes_divided 3 rfl h
  · exact divRemReg3_writes y v h

end Sys2Proof.Machine

namespace Sys2Proof.Machine

/-! SUPPORT. How the words of a run of prefixes are read, which of them `mov` refuses, and what the issue stage does at a source in E
(R67, R292 to R302); then `mov` (R367). -/

/-! ### Reading a run of prefix words -/

/-- A run of prefix words ends at the first word that is none (R292). -/
theorem splitRun_append {run : List HWord} {base : HWord} (hrun : ∀ w ∈ run, isPrefixWord w = true)
    (hbase : isPrefixWord base = false) (rest : List HWord) : splitRun (run ++ base :: rest) = (run, base :: rest) := by
  induction run with
  | nil => simp [splitRun, hbase]
  | cons w run ih =>
    have tail : splitRun (run ++ base :: rest) = (run, base :: rest) := ih fun x hx => hrun x (List.mem_cons_of_mem w hx)
    simp [splitRun, hrun w List.mem_cons_self, tail]

/-- Words are decoded by the chain of their prefixes and base word (R292, R302). -/
theorem decode_of_chain {run : List HWord} {base : HWord} {c : Chain} (hrun : ∀ w ∈ run, isPrefixWord w = true)
    (hbase : isPrefixWord base = false) (hc : chainOfWords run base = some c) : decode (run ++ [base]) = decodeChain c := by
  simp [decode, splitRun_append hrun hbase, hc]

theorem isPrefixWord_of_kind {w : HWord} {k : Nat} (h : w.toNat / 4096 = 12 + k) : isPrefixWord w = true := by
  simp only [isPrefixWord, beq_iff_eq]
  omega

/-- A word whose bits [15:14] are not 11 is a base word (R292). -/
theorem isPrefixWord_of_lt {n : Nat} (h : n < 0xC000) : isPrefixWord (BitVec.ofNat 16 n) = false := by
  simp only [isPrefixWord, BitVec.toNat_ofNat, beq_eq_false_iff_ne]
  omega

theorem kindOf_of_kind {w k : Nat} (hk : k < 4) (h : w / 4096 = 12 + k) : kindOf w = k := by
  simp only [kindOf]
  omega

/-- A prefix of a kind that the run does not begin with is not taken (R295). -/
theorem takeKind_of_absent {k : Nat} {run : List HWord} (h : ∀ w ∈ run, kindOf w.toNat ≠ k) : takeKind k run = (none, run) := by
  cases run with
  | nil => rfl
  | cons w run => simp [takeKind, h w List.mem_cons_self]

/-- The chain of a base word behind a REG prefix, where there is one, and IMM prefixes. -/
def regImmChain (reg : Option RegW) (imms : List HWord) (base : HWord) : Chain :=
  { page := none, reg := reg, sync := none, imms := imms.map fun w => w.toNat % 4096
    op := base.toNat / 1024, rd := base.toNat / 64 % 16, rs := base.toNat / 4 % 16, v := base.toNat % 4 }

/-- At most four IMM prefixes and a base word are a chain (R295). -/
theorem chainOfWords_imms {imms : List HWord} (len : imms.length ≤ 4) (himm : ∀ w ∈ imms, kindOf w.toNat = 0) (base : HWord) :
    chainOfWords imms base = some (regImmChain none imms base) := by
  have absent : ∀ k, k ≠ 0 → takeKind k imms = (none, imms) := fun k hk => takeKind_of_absent fun w hw => by simp [himm w hw, hk.symm]
  simpa [chainOfWords, absent, len, regImmChain] using himm

/-- A REG prefix, at most three IMM prefixes and a base word are a chain (R295). -/
theorem chainOfWords_reg_imms {reg : HWord} {imms : List HWord} (hreg : kindOf reg.toNat = 1) (len : imms.length ≤ 3)
    (himm : ∀ w ∈ imms, kindOf w.toNat = 0) (base : HWord) :
    chainOfWords (reg :: imms) base = some (regImmChain (some (regOfWord reg.toNat)) imms base) := by
  have noPage : takeKind 2 (reg :: imms) = (none, reg :: imms) := by simp [takeKind, hreg]
  have takesReg : takeKind 1 (reg :: imms) = (some reg.toNat, imms) := by simp [takeKind, hreg]
  have noSync : takeKind 3 imms = (none, imms) := takeKind_of_absent fun w hw => by simp [himm w hw]
  simpa [chainOfWords, noPage, takesReg, noSync, Nat.lt_succ_of_le len, regImmChain] using himm

/-- IMM prefixes before a base word are read as its chain. -/
theorem decode_imms {imms : List HWord} {base : HWord} (len : imms.length ≤ 4) (himm : ∀ w ∈ imms, w.toNat / 4096 = 0xC)
    (hbase : isPrefixWord base = false) : decode (imms ++ [base]) = decodeChain (regImmChain none imms base) :=
  decode_of_chain (fun w hw => isPrefixWord_of_kind (k := 0) (himm w hw)) hbase
    (chainOfWords_imms len (fun w hw => kindOf_of_kind (by decide) (himm w hw)) base)

/-- A REG prefix and IMM prefixes before a base word are read as its chain. -/
theorem decode_reg_imms {reg : HWord} {imms : List HWord} {base : HWord} (hreg : reg.toNat / 4096 = 0xD) (len : imms.length ≤ 3)
    (himm : ∀ w ∈ imms, w.toNat / 4096 = 0xC) (hbase : isPrefixWord base = false) :
    decode (reg :: imms ++ [base]) = decodeChain (regImmChain (some (regOfWord reg.toNat)) imms base) := by
  refine decode_of_chain (fun w hw => ?_) hbase
    (chainOfWords_reg_imms (kindOf_of_kind (by decide) hreg) len (fun w hw => kindOf_of_kind (by decide) (himm w hw)) base)
  rcases List.mem_cons.1 hw with rfl | hw
  · exact isPrefixWord_of_kind (k := 1) hreg
  · exact isPrefixWord_of_kind (k := 0) (himm w hw)

/-- A chain outside the pages whose only candidate encodes as another chain is ILLEGAL (R302). -/
theorem decodeChain_of_chainOf_ne {c : Chain} {i : Instr} (page : c.page = none) (hg : guess c = some i) (hne : chainOf i ≠ some c) :
    decodeChain c = .error .illegal := by
  simp [decodeChain, hg, hne, refusal, page]

/-! ### SYNC bits of a row without a third register -/

/-- A page-0 row with nothing but its base fields has no limit but its SYNC rule (R295, R300). -/
theorem wellFormed_of_baseRow {i : Instr} {f : SyncF} {rule : SyncRule} {op rd rs v : Nat}
    (h : rowOf i = some (row0 (some f) rule op rd rs v)) : i.wellFormed = rule.accepts f := by
  simp [Instr.wellFormed, Instr.operandsOk, Instr.immediateOk, Instr.syncOk, Instr.chainOk, chainOf, Chain.count, h, row0]

/-- The rule of R300 for one scalar source leaves its trap bit free and every other field 0. -/
theorem syS_accepts_iff (f : SyncF) :
    syS.accepts f = true ↔ f.scope.val = 0 ∧ f.order.val = 0 ∧ f.trt = false ∧ f.kf = false := by
  simp [SyncRule.accepts, syS, syNone, and_assoc]

/-! ### A source in E, and the one-operand form -/

/-- Where all operands are there, a source outside rt in E makes the instruction wait, or trap under `trs` (R67). -/
theorem gateOf_empty {t : Thread} {rs rt dst : List RegName} {r : RegName} (y : Sync)
    (there : ∀ x ∈ rs ++ rt ++ dst, t.hasReg x = true) (first : firstIn t .empty rs = some r) :
    gateOf t y rs rt dst = if syTrs y then .empty r.number else .wait := by
  have present : ((rs ++ rt ++ dst).any fun x => !t.hasReg x) = false := List.any_eq_false.2 fun x hx => by simp [there x hx]
  simp only [gateOf, present, first, Bool.false_eq_true, if_false]

theorem issue_empty {s : State} {u : Nat} {t : Thread} {rs rt dst : List RegName} {r : RegName} (y : Sync) (k : Nat → Thread → Out)
    (h : Issues s u t) (there : ∀ x ∈ rs ++ rt ++ dst, t.hasReg x = true) (first : firstIn t .empty rs = some r) :
    issue s y rs rt dst k = if syTrs y then trapHere s u t .regEmpty r.number else blockOn s u t .regs := by
  cases hy : syTrs y <;> simp [issue, withCur_of h, gateOf_empty y there first, hy]

/-- The one-operand form writes what it makes of rs to rd and does nothing else (R303). -/
theorem writes_of_aluOne {i : Instr} {s : State} {u : Nat} {t : Thread} {y : Sync} {d r : GNum} {f : Word → Word}
    (he : exec i s = aluOne i y d r f s) (h : Goes s u t [.g r] [.g d]) : Writes i s u t d (f (t.gval r)) := by
  rw [Writes, Retires, he, aluOne, issue_go (rs := [.g r]) (rt := []) y _ h]
  rfl

/-- The one-operand form waits for an E source, or traps under `trs`, whatever its destination is (R67, R303). -/
theorem aluOne_empty {i : Instr} {s : State} {u : Nat} {t : Thread} {r : GNum} (y : Sync) (d : GNum) (f : Word → Word)
    (h : Issues s u t) (empty : t.regSt (.g r) = .empty) :
    aluOne i y d r f s = if syTrs y then trapHere s u t .regEmpty (RegName.g r).number else blockOn s u t .regs :=
  issue_empty y _ h (by simp [Thread.hasReg]) (by simp [firstIn, empty])

/-! ### `mov` (R367) -/

theorem exec_mov (y : Sync) (d r : GNum) (s : State) : exec (.mov y d r) s = aluOne (.mov y d r) y d r id s := rfl

theorem encode_mov (d r : GNum) : encode (.mov none d r) = [BitVec.ofNat 16 (0x1000 + d.val * 64 + r.val * 4)] :=
  encode_of_baseRow (i := .mov none d r) rfl

theorem movWord_op (d r : GNum) : (BitVec.ofNat 16 (0x1000 + d.val * 64 + r.val * 4)).toNat / 1024 = 4 := by
  rw [BitVec.toNat_ofNat]
  omega

theorem movWord_notPrefix (d r : GNum) : isPrefixWord (BitVec.ofNat 16 (0x1000 + d.val * 64 + r.val * 4)) = false :=
  isPrefixWord_of_lt (by omega)

/-- Opcode 0x04 with a REG or an IMM prefix is ILLEGAL: its one candidate, `mov`, encodes with neither (R302, R367). -/
theorem decodeChain_mov_prefixed {reg : Option RegW} {imms : List HWord} {base : HWord} (op : base.toNat / 1024 = 4)
    (prefixed : reg ≠ none ∨ imms ≠ []) : decodeChain (regImmChain reg imms base) = .error .illegal := by
  have candidate : guess (regImmChain reg imms base) = some (.mov none (gn (base.toNat / 64 % 16)) (gn (base.toNat / 4 % 16))) := by
    simp [guess, guess0, regImmChain, op, Chain.y]
  refine decodeChain_of_chainOf_ne rfl candidate fun same => ?_
  have bare : none = reg ∧ ([] : List Nat) = imms.map fun w => w.toNat % 4096 :=
    ⟨congrArg Chain.reg (Option.some.inj same), congrArg Chain.imms (Option.some.inj same)⟩
  rcases prefixed with hr | hi
  · exact hr bare.1.symm
  · exact hi (List.map_eq_nil_iff.1 bare.2.symm)

theorem decode_mov_reg (d r : GNum) {n : Nat} {imms : List HWord} (hn : n < 4096) (len : imms.length ≤ 3)
    (himm : ∀ w ∈ imms, w.toNat / 4096 = 0xC) :
    decode (BitVec.ofNat 16 (0xD000 + n) :: imms ++ encode (.mov none d r)) = .error .illegal := by
  have isReg : (BitVec.ofNat 16 (0xD000 + n)).toNat / 4096 = 0xD := by
    rw [BitVec.toNat_ofNat]
    omega
  rw [encode_mov, decode_reg_imms isReg len himm (movWord_notPrefix d r)]
  exact decodeChain_mov_prefixed (movWord_op d r) (.inl (Option.some_ne_none _))

theorem decode_mov_imms (d r : GNum) {imms : List HWord} (nonempty : imms ≠ []) (len : imms.length ≤ 4)
    (himm : ∀ w ∈ imms, w.toNat / 4096 = 0xC) : decode (imms ++ encode (.mov none d r)) = .error .illegal := by
  rw [encode_mov, decode_imms len himm (movWord_notPrefix d r)]
  exact decodeChain_mov_prefixed (movWord_op d r) (.inr nonempty)

/-- Settles O15: the word and the SYNC bits are those of the row, a REG or IMM prefix leaves no candidate that encodes as read, and
the one-operand form copies its source, or waits for it or traps at it while it is E. -/
theorem movCopies : Obligations.MovCopies := by
  unfold Obligations.MovCopies
  refine ⟨encode_mov, ?_, fun d r n ps hn len himm => ?_, fun d r ps nonempty len himm => ?_, fun f d r => ?_, fun t => ?_,
    fun s u t y d r h => ?_, fun s u t y d r h empty => ⟨fun waits => ?_, fun traps => ?_⟩⟩
  · decide
  · exact decode_mov_reg d r hn len himm
  · exact decode_mov_imms d r nonempty len himm
  · rw [wellFormed_of_baseRow (i := .mov (some f) d r) rfl, syS_accepts_iff]
  · rfl
  · exact writes_of_aluOne (exec_mov y d r s) h
  · rw [exec_mov, aluOne_empty y d id h empty, if_neg (by simp [waits])]
  · rw [exec_mov, aluOne_empty y d id h empty, if_pos traps]

end Sys2Proof.Machine

namespace Sys2Proof.Machine

/-! SUPPORT. A source of rt in E (R67); then `sel` (R383). -/

/-! ### A source of rt in E -/

/-- Where all operands are there and no source outside rt is in E, a source of rt in E makes the instruction wait, or trap under
`trt` (R67). -/
theorem gateOf_emptyRt {t : Thread} {rs rt dst : List RegName} {r : RegName} (y : Sync)
    (there : ∀ x ∈ rs ++ rt ++ dst, t.hasReg x = true) (filled : ∀ x ∈ rs, t.regSt x ≠ .empty)
    (first : firstIn t .empty rt = some r) : gateOf t y rs rt dst = if syTrt y then .empty r.number else .wait := by
  have present : ((rs ++ rt ++ dst).any fun x => !t.hasReg x) = false := List.any_eq_false.2 fun x hx => by simp [there x hx]
  simp only [gateOf, present, firstIn_none.2 filled, first, Bool.false_eq_true, if_false]

theorem issue_emptyRt {s : State} {u : Nat} {t : Thread} {rs rt dst : List RegName} {r : RegName} (y : Sync)
    (k : Nat → Thread → Out) (h : Issues s u t) (there : ∀ x ∈ rs ++ rt ++ dst, t.hasReg x = true)
    (filled : ∀ x ∈ rs, t.regSt x ≠ .empty) (first : firstIn t .empty rt = some r) :
    issue s y rs rt dst k = if syTrt y then trapHere s u t .regEmpty r.number else blockOn s u t .regs := by
  cases hy : syTrt y <;> simp [issue, withCur_of h, gateOf_emptyRt y there filled first, hy]

/-! ### The words of `sel` (R383) -/

theorem encode_sel (d a b : GNum) : encode (.sel none d a b)
    = [BitVec.ofNat 16 (0xD000 + b.val * 256), BitVec.ofNat 16 (0x4800 + d.val * 64 + a.val * 4)] :=
  encode_of_regRow (i := .sel none d a b) rfl

theorem selWord_op (d a : GNum) : (BitVec.ofNat 16 (0x4800 + d.val * 64 + a.val * 4)).toNat / 1024 = 0x12 := by
  rw [BitVec.toNat_ofNat]
  omega

theorem selWord_notPrefix (d a : GNum) : isPrefixWord (BitVec.ofNat 16 (0x4800 + d.val * 64 + a.val * 4)) = false :=
  isPrefixWord_of_lt (by omega)

/-- A chain outside the pages that no instruction can be is ILLEGAL (R302). -/
theorem decodeChain_of_guess_none {c : Chain} (page : c.page = none) (hg : guess c = none) : decodeChain c = .error .illegal := by
  simp [decodeChain, hg, refusal, page]

/-- A REG prefix that names only a scalar third register, of `type` 0, has its low eight bits 0 (R294). -/
theorem mod_of_regOfWord_eq_regT {w rt : Nat} (h : regOfWord w = regT rt 0) : w % 256 = 0 := by
  simp only [regOfWord, regT, RegW.mk.injEq, beq_eq_false_iff_ne] at h
  omega

/-- Opcode 0x12 is ILLEGAL unless its chain is a REG prefix with nothing but a scalar third register: without REG it has no candidate,
and with REG its one candidate, `sel`, encodes with that prefix alone (R302, R383). -/
theorem decodeChain_sel_refused {reg : Option RegW} {imms : List HWord} {base : HWord} (op : base.toNat / 1024 = 0x12)
    (bad : (∀ rt, reg ≠ some (regT rt 0)) ∨ imms ≠ []) : decodeChain (regImmChain reg imms base) = .error .illegal := by
  cases reg with
  | none => exact decodeChain_of_guess_none rfl (by simp [guess, guess0, regImmChain, op])
  | some r =>
    have candidate : guess (regImmChain (some r) imms base)
        = some (.sel none (gn (base.toNat / 64 % 16)) (gn (base.toNat / 4 % 16)) (gn r.rt)) := by
      simp [guess, guess0, regImmChain, op, Chain.y]
    refine decodeChain_of_chainOf_ne rfl candidate fun same => ?_
    have sameReg : some (regT (gn r.rt) 0) = some r := congrArg Chain.reg (Option.some.inj same)
    have sameImms : [] = imms.map fun w => w.toNat % 4096 := congrArg Chain.imms (Option.some.inj same)
    rcases bad with notScalar | nonempty
    · exact notScalar _ sameReg.symm
    · exact nonempty (List.map_eq_nil_iff.1 sameImms.symm)

theorem decode_sel_imms (d a : GNum) {imms : List HWord} (len : imms.length ≤ 4) (himm : ∀ w ∈ imms, w.toNat / 4096 = 0xC) :
    decode (imms ++ [BitVec.ofNat 16 (0x4800 + d.val * 64 + a.val * 4)]) = .error .illegal := by
  rw [decode_imms len himm (selWord_notPrefix d a)]
  exact decodeChain_sel_refused (selWord_op d a) (.inl fun _ h => nomatch h)

theorem decode_sel_reg (d a : GNum) {n : Nat} {imms : List HWord} (hn : n < 4096) (len : imms.length ≤ 3)
    (himm : ∀ w ∈ imms, w.toNat / 4096 = 0xC) (bad : n % 256 ≠ 0 ∨ imms ≠ []) :
    decode (BitVec.ofNat 16 (0xD000 + n) :: imms ++ [BitVec.ofNat 16 (0x4800 + d.val * 64 + a.val * 4)]) = .error .illegal := by
  have word : (BitVec.ofNat 16 (0xD000 + n)).toNat = 0xD000 + n := by
    rw [BitVec.toNat_ofNat]
    omega
  rw [decode_reg_imms (by omega) len himm (selWord_notPrefix d a)]
  refine decodeChain_sel_refused (selWord_op d a) (bad.imp_left fun low rt h => ?_)
  have := mod_of_regOfWord_eq_regT (Option.some.inj h)
  omega

/-! ### What `sel` reads and writes (R383) -/

theorem exec_sel (y : Sync) (d a b : GNum) (s : State) : exec (.sel y d a b) s = execSel y d a b s := rfl

theorem sel_writes {s : State} {u : Nat} {t : Thread} {d a b : GNum} (y : Sync) (h : Goes s u t [.g d, .g a, .g b] [.g d]) :
    Writes (.sel y d a b) s u t d (if t.gval d ≠ 0 then t.gval a else t.gval b) := by
  rw [Writes, Retires, exec_sel, execSel, issue_go (rs := [.g d, .g a]) (rt := [.g b]) y _ h]
  rfl

/-- The first of gD and gS that is in E makes `sel` wait, or traps under `trs`, chosen or not (R67, R383). -/
theorem exec_sel_empty {s : State} {u : Nat} {t : Thread} {d a : GNum} {r : RegName} (y : Sync) (b : GNum) (h : Issues s u t)
    (first : firstIn t .empty [.g d, .g a] = some r) :
    exec (.sel y d a b) s = if syTrs y then trapHere s u t .regEmpty r.number else blockOn s u t .regs :=
  issue_empty y _ h (by simp [Thread.hasReg]) first

/-- gT in E, where gD and gS are not, makes `sel` wait, or traps under `trt`, chosen or not (R67, R383). -/
theorem exec_sel_emptyRt {s : State} {u : Nat} {t : Thread} {d a b : GNum} (y : Sync) (h : Issues s u t)
    (hd : t.regSt (.g d) ≠ .empty) (ha : t.regSt (.g a) ≠ .empty) (hb : t.regSt (.g b) = .empty) :
    exec (.sel y d a b) s = if syTrt y then trapHere s u t .regEmpty (RegName.g b).number else blockOn s u t .regs :=
  issue_emptyRt y _ h (by simp [Thread.hasReg]) (by simp [hd, ha]) (by simp [firstIn, hb])

/-- Settles O16: the words and the SYNC bits are those of the row, every other prefix leaves no candidate that encodes as read, and the
issue stage reads gD and gS as sources outside rt and gT as rt before the choice is made. -/
theorem selects : Obligations.Selects := by
  unfold Obligations.Selects
  refine ⟨encode_sel, ?_, fun d a ps len himm => ?_, fun d a n ps hn len himm bad => ?_, fun f d a b => ?_, fun t => ?_,
    fun s u t y d a b h => ?_, fun s u t y d a b h => ⟨fun hd => ?_, fun hd ha => ?_, fun hd ha hb => ?_⟩⟩
  · decide
  · exact decode_sel_imms d a len himm
  · exact decode_sel_reg d a hn len himm bad
  · rw [wellFormed_of_regRow (i := .sel (some f) d a b) rfl, syST_accepts_iff]
  · rfl
  · exact sel_writes y h
  · exact exec_sel_empty y b h (by simp [firstIn, hd])
  · exact exec_sel_empty y b h (by simp [firstIn, hd, ha])
  · exact exec_sel_emptyRt y h hd ha hb

end Sys2Proof.Machine
